-- ==== Sys2Proof/Word.lean ====
section
/-! DEFINITION. The word types: what the manual treats as bits. Samples, codes and counts are numbers, not words. -/

namespace Sys2Proof

/-- A byte of Exchange RAM or of the Stage Link. -/
abbrev Byte := BitVec 8

/-- A 16-bit word of the Exchange Port (R179). -/
abbrev Half := BitVec 16

/-- A 32-bit field: an argument or a result value (10, Request slots). -/
abbrev Word := BitVec 32

end Sys2Proof
end

