-- ==== Sys2Proof/Config.lean ====
section
/-! DEFINITION. What the manual leaves to the implementation, and the free values: constants with no body, so that
nothing can be proved about what they are. -/

namespace Sys2Proof

/-- The revision in the low four bits of PORT_ID (R181). The manual names the field and gives no value (log 8). -/
opaque Config.revision : BitVec 4

/-- The result value that a completion writes where the rule of its request states none (R190 has one written with
every completion, refusals included). Applied to the counter `State.unstated`; unconstrained (log 7, DESIGN CHOICE: the
spec states no result there). -/
opaque Config.unstatedResult : Nat → Word

end Sys2Proof
end

