-- ==== Sys2Proof/Syntax.lean ====
section
/-! DEFINITION. The commands: one constructor for each row of spec/opcode_table.json. The takes of request slots carry no
operands, because the part reads them in the slot at the take (R186). -/

namespace Sys2Proof

/-- A byte received on the Stage Link, with whether its stop bit failed (R159: a framing error). -/
structure RxByte where
  value : Byte
  framingError : Bool
  deriving DecidableEq, Repr

inductive Instr where
  -- power, port and Exchange RAM
  | powerOn
  | initialisationComplete
  | softReset
  | controlWrite (value : Half)
  | signalClear (value : Half)
  | post (value : Half)
  | registerWriteIgnored (register : BitVec 2) (value : Half)
  | exchangeRamWrite (word : BitVec 14) (value : Half)
  -- takes of request slots
  | unknownKindRequest
  | writeScene
  | readScene
  | clearScene
  | loadFilter
  | loadCurve
  | loadImpulse
  | impulseLoadComplete
  | setProfile
  | selectProfile
  | trimLearnStart
  | trimLearnAbort
  | learnComplete
  | selectScene
  | setParam
  | setEnable
  | setTempo
  | setRoute
  | tunerEngage
  | tunerDisengage
  | setAssign
  | clearAssign
  | verdict
  | linkConfig
  | setUnit
  | lamp
  | text
  -- audio and the block start
  | inputSample (a b : BitVec 24)
  | blockStart
  | gateHoldExpiry
  | profileChangeTakeup
  | stageSelect
  | restage
  | fadeEnd
  | dipTurn
  | dipEnd
  | tailQuietEnd
  | tailAgeEnd
  | engineStop
  | directCopy
  | engineRestart
  | routeCrossfadeStart
  | routeCrossfadeEnd
  | tunerWindowEnd
  | tunerHoldExpiry
  | readoutPeriodClose
  | referralExpiry
  | controlEventTake
  -- the Stage Link
  | pollTurn
  | stateReceive (bytes : List RxByte)
  | replyWindowExpiry
  | interByteTimeout
  | queueFrameSend
  | linkBreak
  deriving DecidableEq, Repr

end Sys2Proof
end

