-- ==== Sys2Proof/WellFormed.lean ====
section
/-! DEFINITION. Which commands are those of a row of the table as its summary describes it. The meanings are total: an
ill-formed command has a meaning too (a CONTROL_WRITE with SOFT_RESET at 1 starts the reset, R181). -/

namespace Sys2Proof

/-- The operands fit the row: a CONTROL_WRITE is "a write to CONTROL with SOFT_RESET at 0" (R181; with 1 it is the row
SOFT_RESET), and a STATE_RECEIVE brings at least one byte. -/
def Instr.wellFormed : Instr → Bool
  | .controlWrite v => !v.getLsbD 1
  | .stateReceive bytes => !bytes.isEmpty
  | _ => true

end Sys2Proof
end

