-- ==== Sys2Proof/Machine/Blocks.lean ====
section
/-! DEFINITION. The eleven blocks of the part and what each holds (00, Blocks): plain data, one structure for each
block. Samples, codes, counts and indices are numbers; registers and RAM are bits. -/

namespace Sys2Proof.Machine

/-! ## Exchange Port, Request Unit, Report Unit (10) -/

/-- The four causes of SIGNAL, and the four interrupt enables of CONTROL (R181, R191). -/
structure Signals where
  done : Bool
  notice : Bool
  collide : Bool
  page : Bool
  deriving DecidableEq, Repr

/-- CONTROL, SIGNAL and the INT line (R181, R191). `softReset` is "reset in progress". -/
structure Port where
  run : Bool
  softReset : Bool
  ready : Bool
  enables : Signals
  signal : Signals
  int : Bool
  deriving DecidableEq, Repr

/-- R184. -/
inductive SlotState where
  | free | posted | taken | done
  deriving DecidableEq, Repr

/-- The slot state table, the post queue and the unit's state (R184 to R186). -/
structure RequestUnit where
  slots : List SlotState
  queue : List Nat
  serving : Bool
  deriving DecidableEq, Repr

/-- The notice count (R192), the page select and serial, and the block starts counted in the present readout period
(R193). The header's copies in Exchange RAM are written by the part and never read by it (R180). -/
structure Report where
  noticeCount : Word
  pageSelect : Bool
  serial : Word
  periodCount : Nat
  deriving DecidableEq, Repr

/-- The result codes of R190. -/
inductive Result where
  | ok | okClamped | badKind | badBuffer | range | invalid | inUse | busy | emptyScene | superseded | tooLate
  | cutShort | noSignal | partialLearn | unchanged | clipped | aborted | duplicate
  deriving DecidableEq, Repr

/-- A result value: the one the rule gives, or none given (a free value, log 7). -/
inductive ResultValue where
  | given (v : Int)
  | unstated
  deriving DecidableEq, Repr

/-- A notice before it has its number (R192). -/
structure Notice where
  kind : Nat
  originClass : Nat
  originIndex : Nat
  args : List Int
  deriving DecidableEq, Repr

/-- What the Request Unit reads at the take (R186). Arguments are signed (11.2). -/
structure Taken where
  slot : Nat
  kind : Nat
  offset : Nat
  length : Nat
  arg0 : Int
  arg1 : Int
  arg2 : Int
  arg3 : Int
  deriving DecidableEq, Repr

/-! ## Input Section (03, 04) -/

inductive InputId where
  | a | b
  deriving DecidableEq, Repr

/-- A tap point: the period peak and the clip count (R63). -/
structure Meter where
  peak : Int
  clips : Nat
  deriving DecidableEq, Repr

/-- One input: history, threshold in force (R55, R56), crackle count (R57), holdoff and unreported periods (R58), and
its tap point. -/
structure InputPath where
  x1 : Int
  x2 : Int
  threshold : Nat
  crackles : Nat
  holdoff : Nat
  unreported : Nat
  meter : Meter
  deriving DecidableEq, Repr

/-- The trim learner (R79). `counting`: a whole block has begun since the start was taken (R81). -/
structure Learner where
  learning : Bool
  slot : Nat
  profile : Nat
  target : Int
  minBlocks : Nat
  maxBlocks : Nat
  elapsed : Nat
  signalBlocks : Nat
  histogram : List Nat
  clamped : Bool
  counting : Bool
  deriving DecidableEq, Repr

/-- `rewritten`: the profiles SET_PROFILE has written since the last block start (R78). `crossFrom`: the input left in
this block (R59). `trimGoal`: the trim target this block start glides to (R84). -/
structure InputSection where
  inputA : InputPath
  inputB : InputPath
  chosen : Nat
  active : Nat
  rewritten : List Nat
  selected : InputId
  crossFrom : Option InputId
  trimTarget : Int
  trimGoal : Int
  trimCurrent : Int
  trimFactor : Int
  learner : Learner
  deriving DecidableEq, Repr

/-! ## Stage instances (01) -/

/-- The stage kinds, numbered as R7 numbers them. -/
inductive Kind where
  | none | gate | comp | amp | eq | cab | mod | delay | vol
  deriving DecidableEq, Repr

/-- R12; also the ramp state of the reference tone (R70). -/
inductive RampState where
  | off | rampOn | on | rampOff
  deriving DecidableEq, Repr

/-- R26. -/
inductive GateState where
  | closed | opening | opened | holding | closing
  deriving DecidableEq, Repr

/-- The history of one filter section (R29). -/
structure History where
  x1 : Int
  x2 : Int
  y1 : Int
  y2 : Int
  deriving DecidableEq, Repr

/-- The kind state of a stage instance (R7, R8). `nothing` is that of NONE, of VOL and of a placeholder. `line` is a
sample memory, sparse over zero; `history` of a CAB is newest first. -/
inductive KindState where
  | nothing
  | gate (state : GateState) (gain : Int) (hold : Int)
  | comp (reduction : Int)
  | sections (histories : List History)
  | cab (history : List Int)
  | mod (line : List (Nat × Int)) (position : Nat) (phase : Nat)
  | delay (line : List (Nat × Int)) (position : Nat)
  deriving DecidableEq, Repr

/-- A stage instance (R7). `factors` are the previous factors, one for each gain factor of the kind (R16).
`placeholder` is R124's; `tailMode` marks a tail candidate (R130). -/
structure Stage where
  kind : Kind
  enable : Bool
  ramp : RampState
  targets : List Int
  currents : List Int
  delayTarget : Int
  delayCurrent : Int
  state : KindState
  factors : List Int
  lanes : List Nat
  carry : Bool
  placeholder : Bool
  tailMode : Bool
  deriving DecidableEq, Repr

inductive Role where
  | live | next | idle
  deriving DecidableEq, Repr

inductive BankId where
  | a | b
  deriving DecidableEq, Repr

/-- A bank record (R6). An IDLE bank holds no stages. -/
structure Bank where
  role : Role
  scene : Nat
  stages : List Stage
  deriving DecidableEq, Repr

/-- A tail: its instance and its counters (R131, R132), with the peak of its wet parts over the last block. -/
structure Tail where
  stage : Stage
  quiet : Nat
  age : Nat
  wetPeak : Int
  deriving DecidableEq, Repr

/-- An entry of the staging overlay (R20). `index` is none for the enable flag (value 0 or 1). -/
structure OverlayEntry where
  position : Nat
  index : Option Nat
  value : Int
  kind : Kind
  deriving DecidableEq, Repr

/-- The Signal Engine. `running` is RUN as taken up (R136); `runNext` is RUN as the present block start found it. -/
structure Engine where
  bankA : Bank
  bankB : Bank
  tails : List Tail
  tempoTarget : Nat
  tempo : Nat
  overlay : List OverlayEntry
  running : Bool
  runNext : Bool
  deriving DecidableEq, Repr

/-! ## Scene Store (06) -/

/-- FADE 0, DIP 1, CUT 2 (R103). -/
inductive TransKind where
  | fade | dip | cut
  deriving DecidableEq, Repr

/-- A lamp entry of a scene (R103, 11.3). -/
structure LampEntry where
  unit : Nat
  lamps : BitVec 14
  blink : BitVec 14
  deriving DecidableEq, Repr

/-- A stage entry of a scene (R104). -/
structure StageEntry where
  kind : Kind
  enable : Bool
  params : List Int
  deriving DecidableEq, Repr

/-- A scene record (R103). The lamp count is the length of `lamps`; profile 255 and tempo 0 are "keep". -/
structure SceneRecord where
  name : List Byte
  kind : TransKind
  fade : Nat
  profile : Nat
  tempo : Nat
  lamps : List LampEntry
  stages : List StageEntry
  deriving DecidableEq, Repr

/-- The coefficients of one filter section, in units of 2^−28 (R29). -/
structure Coeffs where
  b0 : Int
  b1 : Int
  b2 : Int
  a1 : Int
  a2 : Int
  deriving DecidableEq, Repr

/-- A filter set: the contents in force and the loaded contents (R111). -/
structure FilterSet where
  inForce : List Coeffs
  loaded : List Coeffs
  deriving DecidableEq, Repr

/-- A user curve: the contents in force and the loaded contents (R111). -/
structure UserCurve where
  inForce : List Int
  loaded : List Int
  deriving DecidableEq, Repr

/-- A load in progress (R114, R116). -/
structure ImpulseLoad where
  slot : Nat
  length : Nat
  offset : Nat
  copied : List Int
  clamped : Bool
  deriving DecidableEq, Repr

/-- An impulse slot: the coefficients in force, whose number is Len, and the load in progress while LOADING (R114). -/
structure ImpulseSlot where
  taps : List Int
  load : Option ImpulseLoad
  deriving DecidableEq, Repr

/-- An input profile (R75). -/
structure Profile where
  input : InputId
  trim : Int
  threshold : Nat
  reference : Nat
  name : List Byte
  deriving DecidableEq, Repr

structure Store where
  scenes : List (Option SceneRecord)
  filters : List FilterSet
  curves : List UserCurve
  impulses : List ImpulseSlot
  profiles : List Profile
  deriving DecidableEq, Repr

/-! ## Transition Unit (07) -/

/-- R119. -/
inductive TransState where
  | idle | staging | fading | dipOut | dipIn
  deriving DecidableEq, Repr

/-- The kind a select is carried out with: R120, and direct (R138). -/
inductive DecidedKind where
  | fade | dip | cut | direct
  deriving DecidableEq, Repr

inductive Origin where
  | slot (n : Nat)
  | assignment (i : Nat)
  deriving DecidableEq, Repr

/-- A select record (R120). `none` in a requested field is "scene's". `lamps`: the lamp entries of the record as copied
(R135, log 12). `fromStop`: the select "came from step 2 of R137" (R138). -/
structure Select where
  scene : Nat
  origin : Origin
  kind : Option TransKind
  length : Option Nat
  clamped : Bool
  decided : Option (DecidedKind × Nat)
  lamps : List LampEntry
  fromStop : Bool
  deriving DecidableEq, Repr

/-- R135. -/
inductive SelectOutcome where
  | live | superseded | empty | cutShort
  deriving DecidableEq, Repr

/-- The Transition Unit (R119). The weights and gain "in force" are those at the end of the last block; `liveNew`,
`nextNew` and `startGain` are those of the block in progress, and `startGainPrev` the gain at its beginning (R126, R139).
`restageDue`: a select taken in DIP_OUT has not been restaged (R133). `acted`: the unit has acted at this block start. -/
structure Transition where
  state : TransState
  inFlight : Option Select
  pending : Option Select
  stopped : Option Select
  count : Nat
  phaseLength : Nat
  liveWeight : Nat
  nextWeight : Nat
  liveNew : Nat
  nextNew : Nat
  startGainPrev : Nat
  startGain : Nat
  loadFigure : Nat
  blockLoad : Nat
  restageDue : Bool
  acted : Bool
  deriving DecidableEq, Repr

/-! ## Tuner (05) -/

/-- R86. -/
inductive TunerState where
  | off | listen | acquire | locked | hold
  deriving DecidableEq, Repr

inductive TunerMode where
  | mute | live
  deriving DecidableEq, Repr

/-- A reading (R95). -/
structure Reading where
  t : Int
  note : Int
  cents10 : Int
  deriving DecidableEq, Repr

/-- The class of a window (R92). -/
inductive WindowClass where
  | noSignal
  | inconclusive
  | conclusive (p16 : Nat)
  deriving DecidableEq, Repr

/-- The Tuner (R86). `history` is newest first, so the fill is its length. `collecting`: collection has begun (R91);
`windowed`: a window has ended since; `engaged`: engaged from OFF since the last block start (R89). `shownNote` and
`shownCents` are the displayed reading. -/
structure Tuner where
  state : TunerState
  mode : TunerMode
  phonesMute : Bool
  toneNote : Nat
  reference : Nat
  history : List Int
  windowCount : Nat
  collecting : Bool
  windowed : Bool
  engaged : Bool
  run : List Reading
  accepted : List Int
  shownNote : Int
  shownCents : Int
  holdCount : Nat
  tunedMark : Bool
  lockedWindows : Nat
  lastEstimate : Nat
  deriving DecidableEq, Repr

/-! ## Router (03) -/

/-- R64. -/
inductive Source where
  | off | chain | dryA | dryB | tone
  deriving DecidableEq, Repr

inductive SinkId where
  | main | stage | phones
  deriving DecidableEq, Repr

structure RouteEntry where
  source : Source
  level : Int
  pan : Int
  deriving DecidableEq, Repr

/-- A crossfade in progress: the incoming route and the sample counter s at the end of the last block (R68). The
outgoing route is the route in the table. -/
structure RouteFade where
  incoming : List RouteEntry
  samples : Nat
  deriving DecidableEq, Repr

/-- A sink: its route (R64), crossfade state (R68; none is IDLE), the route handed to it while IDLE or pending while
FADING (R68, R69), its clip holdoff (R74) and its two tap points. -/
structure Sink where
  route : List RouteEntry
  fade : Option RouteFade
  waiting : Option (List RouteEntry)
  holdoff : Nat
  unreported : Nat
  left : Meter
  right : Meter
  deriving DecidableEq, Repr

/-- The reference tone (R70, R71). -/
structure Tone where
  ramp : RampState
  phase : Nat
  increment : Nat
  deriving DecidableEq, Repr

/-- The six channels a block delivered, sample by sample (R66). -/
structure SinkBlock where
  left : List Int
  right : List Int
  deriving DecidableEq, Repr

/-- The Router. A gain's `Prev` is its value at the start of the block in progress (R72). `delivered` are the samples of
MAIN, STAGE and PHONES in the last block processed: the part's audio output (log 29). -/
structure Router where
  main : Sink
  stage : Sink
  phones : Sink
  chain : Meter
  mainMutePrev : Nat
  mainMute : Nat
  phonesMutePrev : Nat
  phonesMute : Nat
  tone : Tone
  delivered : List SinkBlock
  deriving DecidableEq, Repr

/-! ## Control Mapper (08) -/

/-- R141. -/
inductive Trigger where
  | press | releaseShort | hold | releaseAny | pedal
  deriving DecidableEq, Repr

structure ControlEvent where
  unit : Nat
  control : Nat
  trigger : Trigger
  value : Nat
  time : Word
  deriving DecidableEq, Repr

/-- R145: SCENE 0 .. FORWARD 7. -/
inductive Action where
  | scene | sceneStep | toggle | param | tunerToggle | tap | profile | forward
  deriving DecidableEq, Repr

inductive PedalCurve where
  | linear | slow | fast
  deriving DecidableEq, Repr

inductive CatchState where
  | uncaught | below | above | caught
  deriving DecidableEq, Repr

/-- An assignment (R145). `scope`: none is ANY. `refer`: none is LOCAL, `some apply` is REFER with that default.
`kind` is the expected kind of a PARAM (NONE where unused). -/
structure Assignment where
  enabled : Bool
  scope : Option Nat
  unit : Nat
  control : Nat
  trigger : Trigger
  action : Action
  argument : Int
  refer : Option Bool
  kind : Kind
  index : Nat
  min : Int
  max : Int
  curve : PedalCurve
  takeover : Bool
  catching : CatchState
  deriving DecidableEq, Repr

/-- A pending referral (R156). `apply` is its default. -/
structure Referral where
  id : Nat
  scene : Nat
  assignment : Nat
  apply : Bool
  expiry : Nat
  deriving DecidableEq, Repr

structure Mapper where
  queue : List ControlEvent
  drops : Nat
  assignments : List Assignment
  referral : Option Referral
  lastId : Nat
  timeout : Nat
  lastTap : Option Word
  intervals : List Nat
  deriving DecidableEq, Repr

/-! ## Stage Link Controller (09) -/

/-- R163. -/
inductive UnitState where
  | unused | joining | present | lost
  deriving DecidableEq, Repr

/-- A recorded switch: its position, whether its press was claimed, the press time and the hold mark (R163, R171). -/
structure SwitchRecord where
  down : Bool
  claimed : Bool
  pressTime : Word
  hold : Bool
  deriving DecidableEq, Repr

structure LastState where
  switches : List SwitchRecord
  pedals : List Nat
  deriving DecidableEq, Repr

structure UnitEntry where
  number : Nat
  enabled : Bool
  display : Bool
  switchCount : Nat
  pedalCount : Nat
  state : UnitState
  misses : Nat
  last : Option LastState
  losses : Nat
  deriving DecidableEq, Repr

/-- The master frames other than POLL (R160). -/
inductive FrameKind where
  | lamp | text | tune
  deriving DecidableEq, Repr

structure MasterFrame where
  kind : FrameKind
  target : Nat
  mask : Nat
  payload : List Nat
  deriving DecidableEq, Repr

/-- How a handed frame is placed (R174, R176). -/
inductive Placing where
  | joined | replaced | displaced | dropped
  deriving DecidableEq, Repr

/-- Where the line is in a turn (R165, R166). `discard` is set by SET_UNIT or a restart (R164, R178). `bytes` are those
of the reply so far, HEAD first. `queueStep` is step 3, with the number of its frames sent so far. -/
inductive LinePhase where
  | between
  | window (entry : Nat) (discard : Bool)
  | assembling (entry : Nat) (discard : Bool) (bytes : List Nat)
  | queueStep (sent : Nat)
  deriving DecidableEq, Repr

/-- What the controller puts on the line (R159): a frame's bytes, or a break. -/
inductive LineItem where
  | frame (bytes : List Nat)
  | lineBreak
  deriving DecidableEq, Repr

/-- The Stage Link Controller. `position` is the entry the cycle has reached; `turnTaken`: the cycle has had a turn
(R165). `sent` is what the last sending step put on the line (log 29). Mirrors are indexed by unit number (R175). -/
structure Link where
  enabled : Bool
  holdMs : Nat
  deadband : Nat
  units : List UnitEntry
  cycle : Nat
  position : Nat
  turnTaken : Bool
  phase : LinePhase
  breakDue : Bool
  queue : List MasterFrame
  drops : Nat
  lampMirrors : List (Option (List Nat))
  textMirrors : List (Option (List Nat))
  blockCount : Word
  sent : List LineItem
  deriving DecidableEq, Repr

/-! ## The model's own: where the present block start stands -/

/-- The works of one block start, in the names of what each does (log 4). -/
inductive Work where
  | close | tailQuiet | tailAge | learn | window | profile | collect | tables
  | stage | restage | dipTurn | fadeEnd | dipEnd | stop | restart | directCopy | advance
  | impulse | engine | trim | routeEnd | routeStart | mute | referral | event | page
  deriving DecidableEq, Repr

/-- `done`: how many works of the present block start have been done (0 between block starts). `opened`: a block is in
progress. `samplesA`, `samplesB`: the suppressed samples of that block, in order. -/
structure Grid where
  done : Nat
  opened : Bool
  samplesA : List Int
  samplesB : List Int
  deriving DecidableEq, Repr

end Sys2Proof.Machine
end

