-- ==== Sys2Proof/Machine/Arith.lean ====
section
/-! DEFINITION. The number conventions (00): saturation, level codes, peak codes, glides, ramps and rounding. `/` on
integers with a positive divisor is the manual's floor. -/

namespace Sys2Proof.Machine

/-- R1: clamp to −8388608..8388607. -/
def saturate (x : Int) : Int := max (-8388608) (min 8388607 x)

/-- Clamp to a range (00, Ranges). -/
def clampInt (lo hi v : Int) : Int := max lo (min hi v)

/-- round(num / den), halves up, for a positive `den` (00, Rounding words). -/
def roundHalfUp (num den : Int) : Int := (2 * num + den) / (2 * den)

/-- ceil(num / den) for a positive `den`. -/
def ceilDiv (num den : Int) : Int := (num + den - 1) / den

/-- The greatest number below 2^bits above `acc` by set bits that passes `test`, for a test that is true up to some
point: it settles one bit at a time. -/
def greatest (test : Nat → Bool) : Nat → Nat → Nat
  | 0, acc => acc
  | b + 1, acc => if test (acc + 2 ^ b) then greatest test b (acc + 2 ^ b) else greatest test b acc

/-- Is g at most round(k × 10^(c/40))? Exactly: (2g − 1)^40 ≤ (2k)^40 × 10^c, with a negative c on the other side. -/
def withinPower (k : Nat) (c : Int) (g : Nat) : Bool :=
  decide ((2 * g - 1) ^ 40 * 10 ^ (-c).toNat ≤ (2 * k) ^ 40 * 10 ^ c.toNat)

/-- round(k × 10^(c/40)), halves up, for results below 2^27. -/
def roundedPower (k : Nat) (c : Int) : Nat := greatest (withinPower k c) 27 0

/-- The gain factor G(c) = round(65536 × 10^(c/40)) of a level code (R2). -/
def levelGain (c : Int) : Int := roundedPower 65536 c

/-- The gain factor of an attenuation code: G(−A), and zero for 127 (R2). -/
def attenuation (a : Int) : Int := if a = 127 then 0 else levelGain (-a)

/-- scale(x, G) (R2). -/
def scale (x g : Int) : Int := saturate ((x * g + 32768) / 65536)

/-- The peak threshold Th(c) = round(8388607 × 10^(−c/40)) (R3). -/
def peakThreshold (c : Nat) : Nat := roundedPower 8388607 (-(c : Int))

/-- p ≥ Th(c), without finding Th(c): p + 1 is above round(8388607 × 10^(−c/40)) (R3). -/
def reachesThreshold (p : Nat) (c : Nat) : Bool := !withinPower 8388607 (-(c : Int)) (p + 1)

/-- The peak code of a magnitude: the smallest c in 0..240 whose threshold it reaches, and 255 for none (R3). -/
def peakCode (p : Int) : Int :=
  match (List.range 241).find? (reachesThreshold p.toNat) with
  | some c => c
  | none => 255

/-- The greatest magnitude of a run of samples (R3). -/
def blockPeak (xs : List Int) : Int := xs.foldl (fun p x => max p (x.natAbs : Int)) 0

/-- Move `current` toward `target` by at most `step` (R15, R60, R72, R139). -/
def glide (step current target : Int) : Int :=
  if current < target then min target (current + step) else max target (current - step)

/-- The ramped factor at sample i: F_prev + floor((F_new − F_prev) × (i + 1) / 32) (R16, R37, R60, R72, R139). -/
def rampAt (prev new : Int) (i : Nat) : Int := prev + (new - prev) * (i + 1) / 32

/-- R12: the ramp state of the next block. -/
def RampState.next : RampState → Bool → RampState
  | .off, true => .rampOn
  | .off, false => .off
  | .rampOn, true => .on
  | .rampOn, false => .rampOff
  | .on, true => .on
  | .on, false => .rampOff
  | .rampOff, true => .rampOn
  | .rampOff, false => .off

/-- The weight of a ramp block at sample i: i + 1 in RAMP_ON, 31 − i in RAMP_OFF (R13, R70). -/
def RampState.weight : RampState → Nat → Int
  | .rampOn, i => i + 1
  | .rampOff, i => 31 - i
  | .on, _ => 32
  | .off, _ => 0

/-- Milliseconds to blocks: ceil(ms × 3 / 2) (R4). -/
def msToBlocks (ms : Nat) : Nat := (3 * ms + 1) / 2

/-- Count up, holding at a limit (R58, R74, R143, R163, R174). -/
def countTo (limit n : Nat) : Nat := min limit (n + 1)

/-- Run a stateful computation over the samples of a block, with the sample index. -/
def overBlock {σ : Type} (f : σ → Nat → Int → σ × Int) : σ → Nat → List Int → σ × List Int
  | st, _, [] => (st, [])
  | st, i, x :: xs =>
    let r := f st i x
    let rest := overBlock f r.1 (i + 1) xs
    (rest.1, r.2 :: rest.2)

/-- Apply a function to each sample of a block and its index. -/
def mapBlock (f : Nat → Int → Int) : Nat → List Int → List Int
  | _, [] => []
  | i, x :: xs => f i x :: mapBlock f (i + 1) xs

/-- Sum two runs of samples, a missing sample counting as zero. -/
def addRuns : List Int → List Int → List Int
  | [], ys => ys
  | xs, [] => xs
  | x :: xs, y :: ys => (x + y) :: addRuns xs ys

/-- The number that n bits give, read as two's complement. -/
def signedOf (bits n : Nat) : Int := if n < 2 ^ (bits - 1) then n else (n : Int) - 2 ^ bits

/-- Bit n of a number. -/
def bitOf (v n : Nat) : Bool := v.testBit n

end Sys2Proof.Machine
end

