-- ==== Sys2Proof/Machine/Memory.lean ====
section
/-! DEFINITION. Sparse memories: a list of (index, value) pairs in one canonical form, and Exchange RAM built on it. The
delay lines and modulation lines of the engine are sparse memories over zero. -/

namespace Sys2Proof.Machine

/-- Read a sparse memory; an index not listed reads as `rest` of it. -/
def sparseRead {α : Type} (rest : Nat → α) : List (Nat × α) → Nat → α
  | [], i => rest i
  | (k, v) :: m, i => if i < k then rest i else if i = k then v else sparseRead rest m i

/-- Put a pair before a memory, unless its value is what the index reads as unlisted. -/
def sparseCons {α : Type} [DecidableEq α] (rest : Nat → α) (i : Nat) (v : α) (m : List (Nat × α)) : List (Nat × α) :=
  if v = rest i then m else (i, v) :: m

/-- Write a sparse memory, keeping it sorted and without entries that read as unlisted ones do. -/
def sparseWrite {α : Type} [DecidableEq α] (rest : Nat → α) : List (Nat × α) → Nat → α → List (Nat × α)
  | [], i, v => sparseCons rest i v []
  | (k, w) :: m, i, v =>
    if i < k then sparseCons rest i v ((k, w) :: m)
    else if i = k then sparseCons rest i v m
    else (k, w) :: sparseWrite rest m i v

/-- The canonical form from an index on: indices strictly rising, and no value equal to what its index reads as. -/
def sparseWfFrom {α : Type} [DecidableEq α] (rest : Nat → α) : Nat → List (Nat × α) → Bool
  | _, [] => true
  | low, (k, v) :: m => decide (low ≤ k) && decide (v ≠ rest k) && sparseWfFrom rest (k + 1) m

/-! ## Sample memories of the engine -/

/-- A line sample (R31, R33): a line is zero where nothing has been written since it was cleared (R8). -/
def lineRead (line : List (Nat × Int)) (i : Nat) : Int := sparseRead (fun _ => 0) line i

def lineWrite (line : List (Nat × Int)) (i : Nat) (v : Int) : List (Nat × Int) := sparseWrite (fun _ => 0) line i v

/-! ## Exchange RAM -/

/-- What an unlisted byte of Exchange RAM reads as: the contents after initialisation. The header's fixed fields are
those of 11.2 (R180, R182); slots, notice list and pages are zero (R182); the host region and the buffer area hold no
defined value, and the model gives them 0 (log 2, DESIGN CHOICE). -/
def ramReset (address : Nat) : Byte :=
  match address with
  | 0x00 => 1
  | 0x02 => 32
  | 0x04 => 32
  | 0x15 => 0x10
  | 0x17 => 0x80
  | _ => 0

abbrev Ram := List Host.Cell

/-- The canonical form of Exchange RAM: strictly rising addresses below 0x8000, no byte equal to its reset content. -/
def Memory.wf (m : Ram) : Bool := sparseWfFrom ramReset 0 m && m.all (fun c => decide (c.1 < 0x8000))

def readByte (m : Ram) (a : Nat) : Byte := sparseRead ramReset m a

/-- A write of a byte; there is no byte at or above 0x8000 (R179), so nothing is written there. -/
def writeByte (m : Ram) (a : Nat) (b : Byte) : Ram := if a < 0x8000 then sparseWrite ramReset m a b else m

/-- `size` bytes, little-endian (00, Memory). -/
def readLE (m : Ram) (a : Nat) : Nat → Nat
  | 0 => 0
  | n + 1 => (readByte m a).toNat + 256 * readLE m (a + 1) n

/-- Write the low `size` bytes of a number in two's complement, little-endian. -/
def writeLE (m : Ram) (a : Nat) (v : Int) : Nat → Ram
  | 0 => m
  | n + 1 => writeLE (writeByte m a (BitVec.ofInt 8 v)) (a + 1) (v / 256) n

/-- Write a run of bytes. -/
def writeBytes (m : Ram) (a : Nat) : List Byte → Ram
  | [] => m
  | b :: bs => writeBytes (writeByte m a b) (a + 1) bs

def readBytes (m : Ram) (a : Nat) : Nat → List Byte
  | 0 => []
  | n + 1 => readByte m a :: readBytes m (a + 1) n

/-- Return the bytes from `lo` up to below `hi` to their reset contents (R182, R183). -/
def ramRestore (m : Ram) (lo hi : Nat) : Ram := m.filter (fun c => decide (c.1 < lo) || decide (hi ≤ c.1))

/-- A field of an image: offset, size in bytes and value. -/
structure Field where
  offset : Nat
  size : Nat
  value : Int
  deriving DecidableEq, Repr

def writeFields (m : Ram) (base : Nat) (fields : List Field) : Ram :=
  fields.foldl (fun m f => writeLE m (base + f.offset) f.value f.size) m

/-- A field of an image held as bytes, unsigned. -/
def imageNat (image : List Byte) (offset size : Nat) : Nat :=
  ((image.drop offset).take size).foldr (fun b acc => b.toNat + 256 * acc) 0

/-- A field of an image held as bytes, in two's complement. -/
def imageInt (image : List Byte) (offset size : Nat) : Int := signedOf (8 * size) (imageNat image offset size)

end Sys2Proof.Machine
end

