-- ==== Sys2Proof/Machine/Tables.lean ====
section
/-! DEFINITION. The built-in tables: the shaper curves of the AMP stage (R42), the identity user curve (R43), and the
sine table of the reference tone (R71). -/

namespace Sys2Proof.Machine

/-- The magnitude of the built-in curve n at a distance d = |k − 128| from the middle point, as a fraction (R42):
with t = (15 − n)/16 and s = d/128, the shape is s up to the knee; above it, with 1 − r = (1 − s)/(1 − t),
t + (1 − t)(1 − (1 − r)²) = 1 − (1 − s)²/(1 − t) = (1024(n + 1) − (128 − d)²) / (1024(n + 1)). -/
def shapeFraction (n d : Nat) : Int × Int :=
  if 16 * d ≤ 128 * (15 - n) then (d, 128)
  else (1024 * (n + 1) - (128 - d) * (128 - d), 1024 * (n + 1))

/-- Point k of built-in curve n: sign(v) × round(8388607 × shape), rounded half away from zero (R42). -/
def builtInPoint (n k : Nat) : Int :=
  let d := if 128 ≤ k then k - 128 else 128 - k
  let f := shapeFraction n d
  let m := roundHalfUp (8388607 * f.1) f.2
  if 128 ≤ k then m else -m

/-- The identity curve: T[k] = (k − 128) × 65536 for k = 0..255 and T[256] = 8388607 (R43). -/
def identityCurve : List Int := ((List.range 256).map fun (k : Nat) => ((k : Int) - 128) * 65536) ++ [8388607]

/-- The first quarter of the sine table, S[j] = round(8388607 × sin(2πj / 256)) for j = 0..64 (R71). The 65 values were
computed from the formula to 50 digits (log 20); the other three quarters follow by symmetry. -/
def quarterSine : List Int :=
  [0, 205867, 411609, 617104, 822227, 1026855, 1230864, 1434132, 1636536, 1837954, 2038265, 2237349, 2435084] ++
  [2631353, 2826037, 3019018, 3210181, 3399410, 3586592, 3771613, 3954362, 4134729, 4312606, 4487885, 4660460, 4830229] ++
  [4997087, 5160936, 5321676, 5479210, 5633444, 5784285, 5931641, 6075424, 6215548, 6351927, 6484481, 6613128, 6737792] ++
  [6858398, 6974872, 7087145, 7195148, 7298818, 7398091, 7492908, 7583211, 7668946, 7750062, 7826510, 7898243, 7965219] ++
  [8027396, 8084739, 8137211, 8184782, 8227422, 8265107, 8297813, 8325521, 8348214, 8365878, 8378503, 8386081, 8388607]

/-- S[j] for j = 0..255 (R71). -/
def sineTable (j : Nat) : Int :=
  if j ≤ 64 then quarterSine.getD j 0
  else if j ≤ 128 then quarterSine.getD (128 - j) 0
  else if j ≤ 192 then -quarterSine.getD (j - 128) 0
  else -quarterSine.getD (256 - j) 0

/-- The sine value at a 32-bit phase, interpolated between two points (R71, steps 1 and 2). -/
def sineAt (phase : Nat) : Int :=
  let j := phase / 2 ^ 24
  let g : Int := ((phase % 2 ^ 24) / 256 : Nat)
  let s := sineTable j
  let s' := sineTable (if j < 255 then j + 1 else 0)
  s + ((s' - s) * g + 32768) / 65536

/-- The oscillator increment round(f × 2^32 / 48000), halves up, for f = (ref / 10) × 2^((n − 69)/12), with ref in
tenths: the greatest g with ((2g − 1) × 480000)^12 ≤ (2 × ref × 2^32)^12 × 2^(n − 69) (R71). -/
def toneIncrement (reference note : Nat) : Nat :=
  greatest (fun g => decide (((2 * g - 1) * 480000) ^ 12 * 2 ^ (69 - note) ≤ (2 * reference * 2 ^ 32) ^ 12 * 2 ^ (note - 69)))
    32 0

end Sys2Proof.Machine
end

