-- ==== Sys2Proof/Machine/ResetValues.lean ====
section
/-! DEFINITION. What each block holds after reset, block by block. A value the spec does not state is marked, with its
entry in the assumption log. -/

namespace Sys2Proof.Machine

def Signals.none : Signals := ⟨false, false, false, false⟩

/-- R181, R191. READY is the machine's once the reset has completed (log 1). -/
def Port.reset : Port :=
  { run := false, softReset := false, ready := true, enables := .none, signal := .none, int := false }

/-- R182: every slot FREE, the post queue empty, the unit IDLE. -/
def RequestUnit.reset : RequestUnit := { slots := List.replicate 32 .free, queue := [], serving := false }

/-- R192, R193. -/
def Report.reset : Report := { noticeCount := 0, pageSelect := false, serial := 0, periodCount := 0 }

def Meter.zero : Meter := ⟨0, 0⟩

/-- R55 to R58, R63. -/
def InputPath.reset : InputPath :=
  { x1 := 0, x2 := 0, threshold := 0, crackles := 0, holdoff := 0, unreported := 0, meter := .zero }

/-- R79: IDLE, elapsed, signal blocks and histogram 0. The other fields have no stated reset value (log 18, DESIGN
CHOICE: the defaults of R80, slot and profile 0). -/
def Learner.reset : Learner :=
  { learning := false, slot := 0, profile := 0, target := 24, minBlocks := 3000, maxBlocks := 15000, elapsed := 0,
    signalBlocks := 0, histogram := List.replicate 241 0, clamped := false, counting := false }

/-- R59, R60, R77. -/
def InputSection.reset : InputSection :=
  { inputA := .reset, inputB := .reset, chosen := 0, active := 0, rewritten := [], selected := .a, crossFrom := none,
    trimTarget := 0, trimGoal := 0, trimCurrent := 0, trimFactor := 65536, learner := .reset }

/-- An instance of kind NONE (R7). -/
def Stage.none : Stage :=
  { kind := .none, enable := false, ramp := .off, targets := List.replicate 8 0, currents := List.replicate 8 0,
    delayTarget := 0, delayCurrent := 0, state := .nothing, factors := [], lanes := [], carry := false,
    placeholder := false, tailMode := false }

/-- An IDLE bank (R6). -/
def Bank.idle : Bank := { role := .idle, scene := 255, stages := [] }

/-- R6, R24, R18: A is LIVE with twelve NONE instances, B is IDLE, the tail list and the overlay are empty, the tempo is
1200. -/
def Engine.reset : Engine :=
  { bankA := { role := .live, scene := 255, stages := List.replicate 12 .none }, bankB := .idle, tails := [],
    tempoTarget := 1200, tempo := 1200, overlay := [], running := false, runNext := false }

/-- The identity section: b0 = 2^28 (R29). -/
def Coeffs.identity : Coeffs := ⟨268435456, 0, 0, 0, 0⟩

/-- A filter set of four identity sections (R111). -/
def identitySet : List Coeffs := List.replicate 4 .identity

/-- R114: READY, length 64, h[0] = 8388607, the others 0. -/
def ImpulseSlot.reset : ImpulseSlot := { taps := 8388607 :: List.replicate 63 0, load := none }

/-- R75. -/
def Profile.reset : Profile :=
  { input := .a, trim := 0, threshold := 0, reference := 4400, name := List.replicate 8 0x20 }

/-- 06, Store contents after reset. -/
def Store.reset : Store :=
  { scenes := List.replicate 128 none, filters := List.replicate 16 ⟨identitySet, identitySet⟩,
    curves := List.replicate 4 ⟨identityCurve, identityCurve⟩, impulses := List.replicate 4 .reset,
    profiles := List.replicate 8 .reset }

/-- R119. The phase length has no stated reset value (log 18, DESIGN CHOICE: 1). -/
def Transition.reset : Transition :=
  { state := .idle, inFlight := none, pending := none, stopped := none, count := 0, phaseLength := 1, liveWeight := 256,
    nextWeight := 0, liveNew := 256, nextNew := 0, startGainPrev := 0, startGain := 0, loadFigure := 0, blockLoad := 0,
    restageDue := false, acted := false }

/-- R86. -/
def Tuner.reset : Tuner :=
  { state := .off, mode := .mute, phonesMute := false, toneNote := 0, reference := 4400, history := [],
    windowCount := 0, collecting := false, windowed := false, engaged := false, run := [], accepted := [],
    shownNote := 0, shownCents := 0, holdCount := 0, tunedMark := false, lockedWindows := 0, lastEstimate := 0 }

/-- R64: CHAIN at level 0, pan 0, and two OFF entries. -/
def routeReset : List RouteEntry := [⟨.chain, 0, 0⟩, ⟨.off, 0, 0⟩, ⟨.off, 0, 0⟩]

def Sink.reset : Sink :=
  { route := routeReset, fade := none, waiting := none, holdoff := 0, unreported := 0, left := .zero, right := .zero }

/-- R64, R70, R72, R74. The increment has no stated reset value (log 18, DESIGN CHOICE: 0). -/
def Router.reset : Router :=
  { main := .reset, stage := .reset, phones := .reset, chain := .zero, mainMutePrev := 256, mainMute := 256,
    phonesMutePrev := 256, phonesMute := 256, tone := { ramp := .off, phase := 0, increment := 0 }, delivered := [] }

/-- A disabled assignment: all fields 0, UNCAUGHT (R145). -/
def Assignment.cleared : Assignment :=
  { enabled := false, scope := none, unit := 0, control := 0, trigger := .press, action := .scene, argument := 0,
    refer := none, kind := .none, index := 0, min := 0, max := 0, curve := .linear, takeover := false,
    catching := .uncaught }

/-- R142, R145, R155, R156: the referral timeout is 45 blocks. -/
def Mapper.reset : Mapper :=
  { queue := [], drops := 0, assignments := List.replicate 32 .cleared, referral := none, lastId := 0, timeout := 45,
    lastTap := none, intervals := [] }

/-- An entry never written (R163). -/
def UnitEntry.reset : UnitEntry :=
  { number := 0, enabled := false, display := false, switchCount := 0, pedalCount := 0, state := .unused, misses := 0,
    last := none, losses := 0 }

/-- R163, R165, R174, R175, R177. -/
def Link.reset : Link :=
  { enabled := false, holdMs := 600, deadband := 2, units := List.replicate 8 .reset, cycle := 0, position := 0,
    turnTaken := false, phase := .between, breakDue := false, queue := [], drops := 0,
    lampMirrors := List.replicate 16 none, textMirrors := List.replicate 16 none, blockCount := 0, sent := [] }

/-- No block start has come since READY (R182). -/
def Grid.reset : Grid := { done := 0, opened := false, samplesA := [], samplesB := [] }

end Sys2Proof.Machine
end

