-- ==== Sys2Proof/Machine/State.lean ====
section
/-! DEFINITION. The state of the part, its faults and refusals, and the state after reset. -/

namespace Sys2Proof.Machine

/-- The whole state: the eleven blocks, Exchange RAM, the queue of waiting commands, and the model's own record of the
block start in progress (`grid`) and counter of free values (`unstated`). -/
structure State where
  pending : List Sys2Proof.Instr
  port : Port
  ram : List Host.Cell
  requests : RequestUnit
  report : Report
  input : InputSection
  store : Store
  engine : Engine
  transition : Transition
  tuner : Tuner
  router : Router
  mapper : Mapper
  link : Link
  grid : Grid
  unstated : Nat
  deriving DecidableEq, Repr

/-- The part has no fault: the spec names nothing that stops it; bad requests are answered with a result code (R190)
and bad frames are misses (R166). -/
inductive Fault where
  deriving DecidableEq, Repr

/-- No meaning refuses. `notModelled` is raised by an arm of exec for a command without a meaning; no arm does (safe). -/
inductive Refusal where
  | notModelled (mnemonic : String)
  deriving DecidableEq, Repr

/-- The machine right after reset: initialisation has completed and READY is 1 (log 1); Exchange RAM lists nothing, so it
holds its contents after initialisation (R182). -/
def State.reset : State :=
  { pending := [], port := .reset, ram := [], requests := .reset, report := .reset, input := .reset, store := .reset,
    engine := .reset, transition := .reset, tuner := .reset, router := .reset, mapper := .reset, link := .reset,
    grid := .reset, unstated := 0 }

end Sys2Proof.Machine
end

