-- ==== Sys2Proof/Machine/Flags.lean ====
section
/-! DEFINITION. The causes of SIGNAL, the enables of CONTROL and the INT line (R181, R191). -/

namespace Sys2Proof.Machine

/-- The four causes in the order of bits 0..3 of a SIGNAL word (11.1). -/
def Signals.ofBits (v : Nat) : Signals := ⟨bitOf v 0, bitOf v 1, bitOf v 2, bitOf v 3⟩

def Signals.union (x y : Signals) : Signals :=
  ⟨x.done || y.done, x.notice || y.notice, x.collide || y.collide, x.page || y.page⟩

def Signals.without (x y : Signals) : Signals :=
  ⟨x.done && !y.done, x.notice && !y.notice, x.collide && !y.collide, x.page && !y.page⟩

/-- Is any bit of SIGNAL set together with its enable (R191)? -/
def Signals.anyEnabled (signal enables : Signals) : Bool :=
  signal.done && enables.done || signal.notice && enables.notice ||
  signal.collide && enables.collide || signal.page && enables.page

/-- INT follows each set, each clear and each change of an enable at once (R191). -/
def Port.refresh (p : Port) : Port := { p with int := p.signal.anyEnabled p.enables }

/-- Set causes; a bit that is set stays set (R191). -/
def Port.raise (p : Port) (causes : Signals) : Port := Port.refresh { p with signal := p.signal.union causes }

/-- Clear the bits written with 1 (R191). -/
def Port.clear (p : Port) (bits : Signals) : Port := Port.refresh { p with signal := p.signal.without bits }

/-- A write to CONTROL with SOFT_RESET at 0: RUN is bit 0, the enables are bits 4..7 (R181, 11.1). -/
def Port.control (p : Port) (v : Nat) : Port :=
  Port.refresh { p with run := bitOf v 0, enables := Signals.ofBits (v / 16) }

def Signals.causeDone : Signals := { Signals.none with done := true }
def Signals.causeNotice : Signals := { Signals.none with notice := true }
def Signals.causeCollide : Signals := { Signals.none with collide := true }
def Signals.causePage : Signals := { Signals.none with page := true }

def State.raise (s : State) (causes : Signals) : State := { s with port := s.port.raise causes }

end Sys2Proof.Machine
end

