-- ==== Sys2Proof/Machine/Operands.lean ====
section
/-! DEFINITION. What a command's operands are read as: the fields of a request slot (11.2), packed arguments (11.4), and
the codes of results, kinds and states (R190, R184, R7 and 11.2). -/

namespace Sys2Proof.Machine

/-- Slot n lies at 0x0040 + 32n (11.2). -/
def slotAddress (n : Nat) : Nat := 0x40 + 32 * n

/-- A signed 32-bit argument of a slot. -/
def slotArgument (m : Ram) (n offset : Nat) : Int := signedOf 32 (readLE m (slotAddress n + offset) 4)

/-- What the part reads of a slot at the take (R186). -/
def takenAt (m : Ram) (n : Nat) : Taken :=
  { slot := n, kind := readLE m (slotAddress n) 2, offset := readLE m (slotAddress n + 0x08) 2,
    length := readLE m (slotAddress n + 0x0A) 2, arg0 := slotArgument m n 0x0C, arg1 := slotArgument m n 0x10,
    arg2 := slotArgument m n 0x14, arg3 := slotArgument m n 0x18 }

/-- The 32 bits of an argument, unsigned. -/
def argBits (a : Int) : Nat := (a % 2 ^ 32).toNat

/-- Byte j of an argument, counted from the least significant (11.4). -/
def argByte (a : Int) (j : Nat) : Nat := argBits a / 256 ^ j % 256

/-- The low halfword of an argument (11.4). -/
def argLow (a : Int) : Nat := argBits a % 65536

/-- The high halfword of an argument (11.4). -/
def argHigh (a : Int) : Nat := argBits a / 65536

/-- A number clamped to a range, with whether it was clamped (00, Ranges). -/
def clampMark (lo hi v : Int) : Int × Bool := (clampInt lo hi v, decide (v < lo ∨ hi < v))

/-- OK, or OK_CLAMPED where a value was clamped (R190). -/
def okCode (clamped : Bool) : Result := if clamped then .okClamped else .ok

/-- R190. -/
def Result.code : Result → Nat
  | .ok => 0 | .okClamped => 1 | .badKind => 2 | .badBuffer => 3 | .range => 4 | .invalid => 5 | .inUse => 6
  | .busy => 7 | .emptyScene => 8 | .superseded => 9 | .tooLate => 10 | .cutShort => 11 | .noSignal => 12
  | .partialLearn => 13 | .unchanged => 14 | .clipped => 15 | .aborted => 16 | .duplicate => 17

/-- R184. -/
def SlotState.code : SlotState → Nat
  | .free => 0 | .posted => 1 | .taken => 2 | .done => 3

/-- The kinds are numbered 0 to 8 (R7). -/
def Kind.code : Kind → Nat
  | .none => 0 | .gate => 1 | .comp => 2 | .amp => 3 | .eq => 4 | .cab => 5 | .mod => 6 | .delay => 7 | .vol => 8

def Kind.ofCode : Int → Option Kind
  | 0 => some .none | 1 => some .gate | 2 => some .comp | 3 => some .amp | 4 => some .eq | 5 => some .cab
  | 6 => some .mod | 7 => some .delay | 8 => some .vol | _ => Option.none

/-- The buffer a kind accepts (R187). -/
inductive BufferNeed where
  | none | exactly (n : Nat) | impulse
  deriving DecidableEq, Repr

def BufferNeed.accepts : BufferNeed → Nat → Bool
  | .none, _ => true
  | .exactly n, l => l == n
  | .impulse, l => decide (256 ≤ l ∧ l ≤ 4096 ∧ l % 256 = 0)

/-- The result value of BAD_BUFFER: the length the kind needs, or 0 for LOAD_IMPULSE (R186). -/
def BufferNeed.needed : BufferNeed → Nat
  | .exactly n => n
  | _ => 0

/-- The BAD_BUFFER check passes (R186). -/
def BufferNeed.passes (need : BufferNeed) (t : Taken) : Bool :=
  match need with
  | .none => true
  | _ => decide (t.offset % 4 = 0 ∧ 0x1000 ≤ t.offset ∧ t.offset + t.length ≤ 0x8000) && need.accepts t.length

end Sys2Proof.Machine
end

