-- ==== Sys2Proof/Machine/Ops.lean ====
section
/-! DEFINITION. The operations that every family shares: slot states and completions (R184, R188), notices (R192), and
the take of a posted slot (R186). Each is the one place where its rule is stated. -/

namespace Sys2Proof.Machine

/-- A command of the part, which acts only while READY is 1 (R182). -/
def whenReady (s : State) (f : State → State) : Host.Outcome State Fault Refusal :=
  .next (if s.port.ready then f s else s)

/-- A slot changes state: the table, and the mirror that follows it (R184). -/
def State.setSlot (s : State) (n : Nat) (state : SlotState) : State :=
  { s with
    requests := { s.requests with slots := s.requests.slots.set n state }
    ram := writeLE s.ram (slotAddress n + 2) state.code 2 }

/-- The four bytes of a result value: the value the rule gives, or the free value next in line (log 7). -/
def State.resultNumber (s : State) : ResultValue → Int
  | .given v => v
  | .unstated => (Config.unstatedResult s.unstated).toNat

/-- The counter of free values after a result value is written. -/
def State.unstatedAfter (s : State) : ResultValue → Nat
  | .given _ => s.unstated
  | .unstated => s.unstated + 1

/-- The result value and the result code of a slot are written (R188, step 1; 11.2). -/
def State.writeResult (s : State) (n : Nat) (code : Result) (value : ResultValue) : State :=
  { s with
    ram := writeLE (writeLE s.ram (slotAddress n + 0x1C) code.code 2) (slotAddress n + 0x18) (s.resultNumber value) 4
    unstated := s.unstatedAfter value }

/-- The completion of a request (R188). Only a TAKEN slot completes (R184; log 35). -/
def State.complete (s : State) (n : Nat) (code : Result) (value : ResultValue) : State :=
  if s.requests.slots[n]? = some .taken then
    ((s.writeResult n code value).setSlot n .done).raise .causeDone
  else s

/-- The bytes of a notice: kind, origin and arguments first, the number last (R192, 11.2). -/
def noticeFields (n : Notice) (number : Nat) : List Field :=
  [⟨0x04, 1, n.kind⟩, ⟨0x05, 1, n.originClass⟩, ⟨0x06, 2, n.originIndex⟩, ⟨0x08, 2, n.args.getD 0 0⟩,
   ⟨0x0A, 2, n.args.getD 1 0⟩, ⟨0x0C, 2, n.args.getD 2 0⟩, ⟨0x0E, 2, n.args.getD 3 0⟩, ⟨0x00, 4, number⟩]

/-- Where the notice numbered c lies (11.2). -/
def noticeAddress (c : Nat) : Nat := 0x440 + 16 * (c % 32)

/-- The Report Unit writes a notice, increments the count and sets SIGNAL.NOTICE (R192). -/
def State.notify (s : State) (n : Notice) : State :=
  let c := s.report.noticeCount.toNat
  State.raise
    { s with
      ram := writeLE (writeFields s.ram (noticeAddress c) (noticeFields n c)) 0x08 (s.report.noticeCount + 1).toNat 4
      report := { s.report with noticeCount := s.report.noticeCount + 1 } }
    .causeNotice

/-- Notices handed over together are written in the order in which they were handed (R192; log 14). -/
def State.notifyAll (s : State) (ns : List Notice) : State := ns.foldl State.notify s

/-- A completion that an owner asks for. -/
structure Completion where
  slot : Nat
  code : Result
  value : ResultValue
  deriving DecidableEq, Repr

def State.completeAll (s : State) (cs : List Completion) : State :=
  cs.foldl (fun s c => s.complete c.slot c.code c.value) s

/-- The head of the post queue becomes TAKEN, and the unit SERVING (R186). -/
def State.takeHead (s : State) (n : Nat) (rest : List Nat) : State :=
  State.setSlot { s with requests := { s.requests with queue := rest, serving := true } } n .taken

/-- The unit becomes IDLE: at a short completion, or at the handover of a long request (R186, R188). -/
def State.endServing (s : State) : State := { s with requests := { s.requests with serving := false } }

/-- What an owner answers to a request: the state with its effect, and the result, or none for a request kept. -/
structure Answer where
  state : State
  result : Option (Result × ResultValue)

/-- A request answered at once. -/
def State.answer (s : State) (code : Result) (value : ResultValue) : Answer := ⟨s, some (code, value)⟩

def State.finish (a : Answer) (slot : Nat) : State :=
  match a.result with
  | some (code, value) => (a.state.complete slot code value).endServing
  | none => a.state.endServing

/-- What becomes of a request after the take: the buffer check, then the owner's (R186). -/
def State.serve (s : State) (t : Taken) (need : BufferNeed) (carry : Taken → State → Answer) : State :=
  if need.passes t then State.finish (carry t s) t.slot
  else State.finish (s.answer .badBuffer (.given need.needed)) t.slot

/-- The Request Unit takes the slot at the head of the post queue (R186). The command is due where the unit is IDLE, the
queue is not empty, and the slot there holds a request of the command's kind; otherwise nothing happens (log 3). -/
def State.take (s : State) (due : Taken → Bool) (need : BufferNeed) (carry : Taken → State → Answer) : State :=
  match s.requests.queue with
  | [] => s
  | n :: rest =>
    if !s.requests.serving && due (takenAt s.ram n) then
      (s.takeHead n rest).serve (takenAt s.ram n) need carry
    else s

/-- The slot holds the request kind with this code. -/
def isKind (code : Nat) (t : Taken) : Bool := t.kind == code

/-- A list entry changed in place. -/
def setAt {α : Type} (l : List α) (i : Nat) (f : α → α) : List α := l.modify i f

end Sys2Proof.Machine
end

