-- ==== Sys2Proof/Machine/Port.lean ====
section
/-! DEFINITION. The Exchange Port: power, resets, register writes and writes of Exchange RAM (10.1, 10.2). The port's
reads change nothing and are no commands; what they return is defined here beside the writes. -/

namespace Sys2Proof.Machine

/-- The bytes a soft reset keeps: the host region and the buffer area (R183). -/
def keptByReset (a : Nat) : Bool := decide (0x640 ≤ a ∧ a < 0x800) || decide (0x1000 ≤ a)

def ramKept (m : Ram) : Ram := m.filter (fun c => keptByReset c.1)

/-- The machine while it initialises: READY 0, everything else as initialisation leaves it (R182). The waiting commands
stay; they are the senders', not the part's; and the counter of free values runs on (log 7). -/
def State.initialising (s : State) (ram : Ram) (softReset : Bool) : State :=
  { State.reset with
    pending := s.pending, ram := ram, port := { Port.reset with ready := false, softReset := softReset },
    unstated := s.unstated }

/-- POWER_ON (R182): the host region and the buffer area hold no defined value (log 2). -/
def execPowerOn (s : State) : Host.Outcome State Fault Refusal := .next (s.initialising [] false)

/-- INITIALISATION_COMPLETE (R182, R183): every block is in its reset state, and READY becomes 1. -/
def execInitialisationComplete (s : State) : Host.Outcome State Fault Refusal :=
  .next (if s.port.ready then s else { State.reset with pending := s.pending, ram := ramKept s.ram, unstated := s.unstated })

/-- A write of 1 to CONTROL.SOFT_RESET while READY is 1 (R183). -/
def State.startSoftReset (s : State) : State := s.initialising (ramKept s.ram) true

/-- SOFT_RESET (R183); ignored while READY is 0. -/
def execSoftReset (s : State) : Host.Outcome State Fault Refusal := whenReady s State.startSoftReset

/-- A write to CONTROL (R181): SOFT_RESET is bit 1; with it at 1 the other positions are ignored. -/
def State.writeControl (s : State) (v : Half) : State :=
  if bitOf v.toNat 1 then s.startSoftReset else { s with port := s.port.control v.toNat }

/-- CONTROL_WRITE (R181). -/
def execControlWrite (v : Half) (s : State) : Host.Outcome State Fault Refusal := whenReady s (·.writeControl v)

/-- A write to SIGNAL clears each bit written as 1 (R191). -/
def State.writeSignal (s : State) (v : Half) : State := { s with port := s.port.clear (Signals.ofBits v.toNat) }

/-- SIGNAL_CLEAR (R191). -/
def execSignalClear (v : Half) (s : State) : Host.Outcome State Fault Refusal := whenReady s (·.writeSignal v)

/-- May a write to POST queue this slot: is it one of 0..31, and FREE or DONE (R185)? -/
def State.postable (s : State) (n : Nat) : Bool :=
  s.requests.slots[n]? == some .free || s.requests.slots[n]? == some .done

/-- A write to POST (R185). -/
def State.writePost (s : State) (v : Half) : State :=
  if s.postable v.toNat then
    State.setSlot { s with requests := { s.requests with queue := s.requests.queue ++ [v.toNat] } } v.toNat .posted
  else s.raise .causeCollide

/-- POST (R185). -/
def execPost (v : Half) (s : State) : Host.Outcome State Fault Refusal := whenReady s (·.writePost v)

/-- A write to the register an address names (R179, R181): PORT_ID ignores it. -/
def State.writeRegister (s : State) (register : BitVec 2) (v : Half) : State :=
  match register.toNat with
  | 1 => s.writeControl v
  | 2 => s.writeSignal v
  | 3 => s.writePost v
  | _ => s

/-- REGISTER_WRITE_IGNORED (R181, R182): a write to PORT_ID, or to any register while READY is 0, changes nothing. With
READY at 1 a write to a register other than PORT_ID is not ignored, and has that register's effect (log 24). -/
def execRegisterWriteIgnored (register : BitVec 2) (v : Half) (s : State) : Host.Outcome State Fault Refusal :=
  whenReady s (·.writeRegister register v)

/-- A write of word `word` of Exchange RAM: two bytes, replaced whole (R179). -/
def State.writeWord (s : State) (word : BitVec 14) (v : Half) : State :=
  { s with ram := writeLE s.ram (2 * word.toNat) v.toNat 2 }

/-- EXCHANGE_RAM_WRITE (R179); ignored while READY is 0 (R182). -/
def execExchangeRamWrite (word : BitVec 14) (v : Half) (s : State) : Host.Outcome State Fault Refusal :=
  whenReady s (·.writeWord word v)

/-! ## What the port's reads return -/

/-- The bits of a SIGNAL word (11.1). -/
def Signals.bits (x : Signals) : Nat := x.done.toNat + 2 * x.notice.toNat + 4 * x.collide.toNat + 8 * x.page.toNat

/-- CONTROL as it reads (11.1): bits not listed read 0 (R195). While READY is 0 the port holds RUN 0 and every enable 0
(R182). -/
def Port.readControl (p : Port) : Half :=
  BitVec.ofNat 16 (p.run.toNat + 2 * p.softReset.toNat + 4 * p.ready.toNat + 16 * p.enables.bits)

/-- A read of a register (R181, R182, R185, R191). -/
def State.readRegister (s : State) (register : BitVec 2) : Half :=
  match register.toNat with
  | 0 => BitVec.ofNat 16 (0x4860 + Config.revision.toNat)
  | 1 => s.port.readControl
  | 2 => BitVec.ofNat 16 s.port.signal.bits
  | _ => BitVec.ofNat 16 s.requests.queue.length

/-- A read of a word of Exchange RAM (R179): 0 while READY is 0 (R182). -/
def State.readWord (s : State) (word : BitVec 14) : Half :=
  if s.port.ready then BitVec.ofNat 16 (readLE s.ram (2 * word.toNat) 2) else 0

end Sys2Proof.Machine
end

