-- ==== Sys2Proof/Machine/Stages.lean ====
section
/-! DEFINITION. Stage instances: their parameters, loads, lanes and delay times, and how an instance is cleared, made
fresh and moved at a block start (01, 1.1 to 1.6 and 1.8; 02, 2.4 and 2.6). -/

namespace Sys2Proof.Machine

/-! ## Parameters (R14) -/

/-- R14, 1.5. -/
inductive ParamClass where
  | level | percent | immediate | fixed
  deriving DecidableEq, Repr

structure ParamRule where
  lo : Int
  hi : Int
  cls : ParamClass
  deriving DecidableEq, Repr

/-- The table of R14; none where the index is undefined for the kind. -/
def paramRule : Kind → Nat → Option ParamRule
  | .gate, 0 => some ⟨0, 192, .immediate⟩
  | .gate, 1 => some ⟨0, 48, .immediate⟩
  | .gate, 2 => some ⟨1, 250, .immediate⟩
  | .gate, 3 => some ⟨1, 750, .immediate⟩
  | .gate, 4 => some ⟨0, 750, .immediate⟩
  | .gate, 5 => some ⟨0, 127, .level⟩
  | .comp, 0 => some ⟨0, 240, .immediate⟩
  | .comp, 1 => some ⟨10, 200, .immediate⟩
  | .comp, 2 => some ⟨1, 24, .immediate⟩
  | .comp, 3 => some ⟨1, 24, .immediate⟩
  | .comp, 4 => some ⟨0, 48, .level⟩
  | .amp, 0 => some ⟨0, 120, .level⟩
  | .amp, 1 => some ⟨-64, 64, .level⟩
  | .amp, 2 => some ⟨0, 19, .immediate⟩
  | .amp, 3 => some ⟨0, 255, .immediate⟩
  | .amp, 4 => some ⟨1, 4, .immediate⟩
  | .amp, 5 => some ⟨0, 127, .level⟩
  | .eq, 0 => some ⟨0, 15, .immediate⟩
  | .eq, 1 => some ⟨1, 4, .immediate⟩
  | .eq, 2 => some ⟨-48, 24, .level⟩
  | .cab, 0 => some ⟨0, 3, .immediate⟩
  | .cab, 1 => some ⟨64, 1024, .immediate⟩
  | .cab, 2 => some ⟨-48, 24, .level⟩
  | .mod, 0 => some ⟨0, 3, .immediate⟩
  | .mod, 1 => some ⟨1, 200, .immediate⟩
  | .mod, 2 => some ⟨0, 100, .percent⟩
  | .mod, 3 => some ⟨0, 100, .percent⟩
  | .mod, 4 => some ⟨-90, 90, .percent⟩
  | .delay, 0 => some ⟨0, 1, .immediate⟩
  | .delay, 1 => some ⟨1, 2047, .immediate⟩
  | .delay, 2 => some ⟨0, 4, .immediate⟩
  | .delay, 3 => some ⟨1, 2, .fixed⟩
  | .delay, 4 => some ⟨0, 95, .percent⟩
  | .delay, 5 => some ⟨0, 100, .percent⟩
  | .delay, 6 => some ⟨0, 1, .immediate⟩
  | .vol, 0 => some ⟨0, 127, .level⟩
  | _, _ => none

/-- A parameter value clamped to its range, with whether that changed it (R14): the AMP filter set takes 16..254 to 15. -/
def paramClamped (k : Kind) (i : Nat) (v : Int) : Int × Bool :=
  match paramRule k i with
  | none => (0, false)
  | some r => if k = .amp ∧ i = 3 ∧ 16 ≤ v ∧ v ≤ 254 then (15, true) else clampMark r.lo r.hi v

/-- A parameter value as it is written, with whether it was clamped (R14): the CAB taps used are clamped and then rounded
down, which is no clamp. -/
def paramWritten (k : Kind) (i : Nat) (v : Int) : Int × Bool :=
  let c := paramClamped k i v
  if k = .cab ∧ i = 1 then (c.1 / 64 * 64, c.2) else c

/-- The glide step of a class (1.5); none where the current is set equal to the target. -/
def ParamClass.move : ParamClass → Int → Int → Int
  | .level, c, t => glide 1 c t
  | .percent, c, t => glide 1 c t
  | .immediate, _, t => t
  | .fixed, _, t => t

/-- R15: every current of an instance moves toward its target. -/
def moveCurrents (k : Kind) (targets currents : List Int) : List Int :=
  (List.range 8).map fun i =>
    match paramRule k i with
    | some r => r.cls.move (currents.getD i 0) (targets.getD i 0)
    | none => 0

def Stage.target (st : Stage) (i : Nat) : Int := st.targets.getD i 0

def Stage.current (st : Stage) (i : Nat) : Int := st.currents.getD i 0

/-! ## Load and lanes (R17, R18, R105) -/

/-- The load of a kind with parameter values, enabled or not (R17, R105). -/
def kindLoad (k : Kind) (params : List Int) : Int :=
  match k with
  | .none => 0
  | .gate => 8
  | .comp => 16
  | .amp => if params.getD 3 0 = 255 then 96 else 96 + 8 * params.getD 4 0
  | .eq => 8 * params.getD 1 0
  | .cab => params.getD 1 0 / 4
  | .mod => 24
  | .delay => 24
  | .vol => 2

/-- The lanes that an entry asks for: the lanes parameter of a DELAY (R105, R125). -/
def kindLanes (k : Kind) (params : List Int) : Int := if k = .delay then params.getD 3 0 else 0

def Stage.load (st : Stage) : Int := kindLoad st.kind st.targets

def sumOf {α : Type} (f : α → Int) (l : List α) : Int := l.foldr (fun x acc => f x + acc) 0

/-- The full load of a run of stages (R17). A placeholder counts the load its targets give (R124). -/
def fullLoad (l : List Stage) : Int := sumOf Stage.load l

/-- Lanes as R125 counts them for NEXT: lanes parameters, held or not. -/
def askedLanes (l : List Stage) : Int := sumOf (fun st => kindLanes st.kind st.targets) l

/-- Lanes as R125 counts them for LIVE and the tail list: those held. -/
def heldLanes (l : List Stage) : Int := sumOf (fun st => (st.lanes.length : Int)) l

/-- Is the instance processed in a block of its bank (R11, R12, R124)? One in tail mode is whenever its bank is, and a tail
in every block (R130, R131; log 27). -/
def Stage.processed (st : Stage) : Bool := !st.placeholder && st.kind != .none && (st.ramp != .off || st.tailMode)

/-- The processed load of a run of stages (R17). -/
def processedLoad (l : List Stage) : Int := sumOf (fun st => if st.processed then st.load else 0) l

def tailStages (ts : List Tail) : List Stage := ts.map (·.stage)

/-! ## Delay time (R25) -/

/-- The line length of a DELAY of this many lanes (R18). -/
def lineLength (lanes : Int) : Int := 49152 * lanes

/-- num/den of a division (R25). -/
def division : Int → Int × Int
  | 0 => (1, 1)
  | 1 => (3, 4)
  | 2 => (1, 2)
  | 3 => (1, 3)
  | _ => (1, 4)

/-- The target delay time in samples, from the time parameters in force and the tempo (R25; log 10). -/
def delayTargetOf (params : List Int) (tempo : Nat) : Int :=
  let limit := lineLength (params.getD 3 0) - 1
  if params.getD 0 0 = 0 then min (params.getD 1 0 * 48) limit
  else
    let d := division (params.getD 2 0)
    min (roundHalfUp (28800000 * d.1) (tempo * d.2)) limit

/-! ## Gain factors (R16) and clearing (R8) -/

/-- The gain factors that an instance's currents and kind state give, one for each gain of its kind (R16, R27, R28, R29,
R30, R34, R37, R46). -/
def factorsOf (k : Kind) (currents : List Int) (state : KindState) : List Int :=
  match k, state with
  | .gate, .gate _ g _ => [attenuation g]
  | .comp, .comp gr => [levelGain (currents.getD 4 0 - gr)]
  | .amp, _ => [levelGain (currents.getD 0 0), attenuation (currents.getD 5 0)]
  | .eq, _ => [levelGain (currents.getD 2 0)]
  | .cab, _ => [levelGain (currents.getD 2 0)]
  | .vol, _ => [attenuation (currents.getD 0 0)]
  | _, _ => []

/-- A section at rest. -/
def History.zero : History := ⟨0, 0, 0, 0⟩

/-- The kind state after clearing (R8). A CAB history lists its samples newest first; missing samples are 0. -/
def clearedState (k : Kind) (currents : List Int) : KindState :=
  match k with
  | .gate => .gate .closed (currents.getD 5 0) 0
  | .comp => .comp 0
  | .amp => .sections (List.replicate 4 .zero)
  | .eq => .sections (List.replicate 4 .zero)
  | .cab => .cab []
  | .mod => .mod [] 0 0
  | .delay => .delay [] 0
  | .vol => .nothing
  | .none => .nothing

/-- Clearing an instance (R8). -/
def Stage.clear (st : Stage) : Stage :=
  let state := clearedState st.kind st.currents
  { st with state := state, factors := factorsOf st.kind st.currents state }

/-- Making an instance fresh in three steps (R8), from a kind, an enable flag, targets and the tempo as taken up. Its
lanes are given or kept by the caller (R18). -/
def freshStage (kind : Kind) (enable : Bool) (targets : List Int) (tempo : Nat) (lanes : List Nat) : Stage :=
  let time := if kind = .delay then delayTargetOf targets tempo else 0
  Stage.clear
    { kind := kind, enable := enable, ramp := if enable then .on else .off, targets := targets, currents := targets,
      delayTarget := time, delayCurrent := time, state := .nothing, factors := [], lanes := lanes, carry := false,
      placeholder := false, tailMode := false }

/-- A fresh instance of a position; that of kind NONE has no parameters and no kind state (R7). -/
def freshAt (kind : Kind) (enable : Bool) (targets : List Int) (tempo : Nat) (lanes : List Nat) : Stage :=
  if kind = .none then Stage.none else freshStage kind enable targets tempo lanes

/-- Made fresh in place (R139): kind, targets, enable flag and lanes are kept. -/
def Stage.refreshed (tempo : Nat) (st : Stage) : Stage := freshAt st.kind st.enable st.targets tempo st.lanes

/-! ## The work of a block start on one instance (R9, R12, R13, R15, R45) -/

/-- The sections an instance uses: none for an AMP without a filter set (R44, R45). -/
def sectionsUsed (st : Stage) : Nat :=
  match st.kind with
  | .amp => if st.current 3 = 255 then 0 else (st.current 4).toNat
  | .eq => (st.current 1).toNat
  | _ => 0

/-- The history of a section that is not in use is zero (R29, R45). -/
def clearUnused (used : Nat) (hs : List History) : List History :=
  hs.mapIdx fun i h => if i < used then h else .zero

/-- The histories follow the sections in use at a block start (R29, R45), in an instance whose ramp state is OFF too
(DESIGN CHOICE, log 39: R48 keeps an OFF instance's histories as its last processed block left them). -/
def Stage.settleSections (st : Stage) : Stage :=
  match st.state with
  | .sections hs => { st with state := .sections (clearUnused (sectionsUsed st) hs) }
  | _ => st

/-- The delay times of an instance at a block start (R15, R25). -/
def Stage.moveDelay (tempo : Nat) (st : Stage) : Stage :=
  if st.kind = .delay then
    let t := delayTargetOf st.targets tempo
    { st with delayTarget := t, delayCurrent := glide 48 st.delayCurrent t }
  else st

/-- The engine's own work on one instance at a block start, in the order of R9: delay time, ramp state, currents; an
instance entering RAMP_ON from OFF is cleared (R13; with the currents moved, log 11). A placeholder is left alone. -/
def Stage.atBlockStart (tempo : Nat) (st : Stage) : Stage :=
  if st.placeholder || st.kind == .none then st
  else
    let moved :=
      { st.moveDelay tempo with
        ramp := st.ramp.next st.enable, currents := moveCurrents st.kind st.targets st.currents }
    let cleared := if st.ramp = .off ∧ moved.ramp = .rampOn then moved.clear else moved
    cleared.settleSections

/-! ## Lanes of the pool (R18) -/

/-- The lanes of the pool that no instance holds, lowest first (log 9). -/
def freeLanes (held : List Nat) : List Nat := (List.range 4).filter (fun n => !held.contains n)

/-- Give an instance its lanes, with its line zeroed, if it is a DELAY without lanes (R18). -/
def Stage.giveLanes (free : List Nat) (st : Stage) : Stage × List Nat :=
  if st.kind = .delay ∧ st.placeholder = false ∧ st.lanes = [] then
    let n := (st.target 3).toNat
    ({ st with lanes := free.take n, state := .delay [] 0 }, free.drop n)
  else (st, free)

/-- Give lanes to a run of instances, in position order. -/
def giveAllLanes : List Nat → List Stage → List Stage
  | _, [] => []
  | free, st :: rest =>
    let r := st.giveLanes free
    r.1 :: giveAllLanes r.2 rest

def lanesOf (l : List Stage) : List Nat := (l.map (·.lanes)).flatten

end Sys2Proof.Machine
end

