-- ==== Sys2Proof/Machine/Chain.lean ====
section
/-! DEFINITION. The arithmetic of every stage kind over one audio block (01, 1.9; 02), and the chain of a bank (R11). -/

namespace Sys2Proof.Machine

/-! ## Sections, shaper, impulse: arithmetic on one sample -/

/-- One filter section: its output and its history after one input (R29). -/
def sectionStep (c : Coeffs) (h : History) (x : Int) : History × Int :=
  let acc := c.b0 * x + c.b1 * h.x1 + c.b2 * h.x2 - c.a1 * h.y1 - c.a2 * h.y2
  let y := saturate ((acc + 2 ^ 27) / 2 ^ 28)
  (⟨x, h.x1, y, h.y1⟩, y)

/-- Run the sections in use in order; the histories beyond them stay (R29, R44). -/
def runSections : Nat → List Coeffs → List History → Int → List History × Int
  | n + 1, c :: cs, h :: hs, x =>
    let r := sectionStep c h x
    let rest := runSections n cs hs r.2
    (r.1 :: rest.1, rest.2)
  | _, _, hs, x => (hs, x)

/-- Point k of the curve that an AMP names (R41): 0..15 built in, 16..19 the user curves. -/
def curvePoint (store : Store) (curve : Nat) (k : Nat) : Int :=
  if curve < 16 then builtInPoint curve k
  else match store.curves[curve - 16]? with
    | some c => c.inForce.getD k 0
    | none => 0

/-- The shaper between two points (R39, R40). -/
def shape (point : Nat → Int) (y2 : Int) : Int :=
  let u := (y2 + 8388608).toNat
  let k := u / 65536
  let f : Int := (u % 65536 : Nat)
  point k + ((point (k + 1) - point k) * f + 32768) / 65536

/-- Multiply and sum the taps used against the input, newest first (R30); a tap beyond the slot's length counts as zero. -/
def firSum : Nat → List Int → List Int → Int
  | n + 1, h :: hs, x :: xs => h * x + firSum n hs xs
  | _, _, _ => 0

/-- The dry and the wet part of a mix, and their sum (R32). -/
def dryPart (m x : Int) : Int := x - (x * m + 50) / 100

def wetPart (m wet : Int) : Int := (wet * m + 50) / 100

def mixed (m x wet : Int) : Int := saturate (dryPart m x + wetPart m wet)

/-- A percentage as a gain factor: round(65536 × p / 100) (R31, R33). -/
def percentGain (p : Int) : Int := roundHalfUp (65536 * p) 100

/-! ## GATE and COMP: one step a block -/

/-- The gate's state, gain code and hold counter after a block of input peak code c (R26, R27). -/
def gateStep (params : List Int) (c : Int) (state : GateState) (g hold : Int) : GateState × Int × Int :=
  let thr := params.getD 0 0
  let quiet := thr + params.getD 1 0
  let d := params.getD 5 0
  let attack := ceilDiv d (params.getD 2 0)
  let release := ceilDiv d (params.getD 3 0)
  let g := if state = .closed then d else min g d
  let opened := max 0 (g - attack)
  let closed := min d (g + release)
  match state with
  | .closed => if c ≤ thr then (.opening, opened, hold) else (.closed, d, hold)
  | .opening => (if opened = 0 then .opened else .opening, opened, hold)
  | .opened =>
    if c ≤ quiet then (.opened, 0, hold)
    else if 0 < params.getD 4 0 then (.holding, 0, params.getD 4 0)
    else (.closing, closed, hold)
  | .holding =>
    if c ≤ thr then (.opened, 0, hold)
    else if hold - 1 ≤ 0 then (.closing, closed, 0)
    else (.holding, 0, hold - 1)
  | .closing =>
    if c ≤ thr then (.opening, opened, hold)
    else (if closed = d then .closed else .closing, closed, hold)

/-- The gain reduction of a COMP after a block of input peak code c (R28). -/
def compStep (params : List Int) (c gr : Int) : Int :=
  let o := max 0 (params.getD 0 0 - c)
  let r := o - roundHalfUp (o * 10) (params.getD 1 0)
  if gr < r then min r (gr + params.getD 2 0) else max r (gr - params.getD 3 0)

/-! ## MOD and DELAY: one step a sample -/

/-- The LFO's triangle, 0..65535..0 over a period (R31, step 1). -/
def triangle (phase : Nat) : Int := ((if phase < 2 ^ 31 then phase else 4294967295 - phase) / 32768 : Nat)

/-- Base and span of the read delay by shape: CHORUS, FLANGER, VIBRATO (R31, step 2). -/
def modBase : Int → Int × Int
  | 0 => (240, 480)
  | 1 => (24, 216)
  | _ => (48, 288)

structure ModState where
  line : List (Nat × Int)
  position : Nat
  phase : Nat
  deriving DecidableEq, Repr

/-- The sample written j samples before the current one (R31, step 3). -/
def ModState.back (st : ModState) (j : Nat) : Int := lineRead st.line ((st.position + 960 - j % 960) % 960)

/-- One sample of a MOD (R31, R32). -/
def modStep (params : List Int) (st : ModState) (x : Int) : ModState × Int :=
  let shapeCode := params.getD 0 0
  let depth := params.getD 2 0
  let tri := triangle st.phase
  let b := modBase shapeCode
  let d := (256 * b.1 + depth * b.2 * tri / 25600).toNat
  let near := st.back (d / 256)
  let far := st.back (d / 256 + 1)
  let read := near + ((far - near) * ((d % 256 : Nat) : Int) + 128) / 256
  let wet := if shapeCode = 3 then scale x (65536 - depth * tri / 100) else read
  let line :=
    if shapeCode = 3 then st.line
    else if shapeCode = 1 then lineWrite st.line st.position (saturate (x + scale wet (percentGain (params.getD 4 0))))
    else lineWrite st.line st.position x
  let step := (roundHalfUp (params.getD 1 0 * 4294967296) 960000).toNat
  (⟨line, (st.position + 1) % 960, (st.phase + step) % 2 ^ 32⟩, mixed (params.getD 3 0) x wet)

structure LineState where
  line : List (Nat × Int)
  position : Nat
  deriving DecidableEq, Repr

/-- One sample of a DELAY (R33): the wet sample, and the line after `fed` is written with the feedback. -/
def delayStep (params : List Int) (time : Int) (st : LineState) (fed : Int) : LineState × Int :=
  let length := lineLength (params.getD 3 0)
  let wet := lineRead st.line (((st.position : Int) - time) % length).toNat
  let written := saturate (fed + scale wet (percentGain (params.getD 4 0)))
  (⟨lineWrite st.line st.position written, (((st.position : Int) + 1) % length).toNat⟩, wet)

/-! ## One instance over one block -/

/-- What an instance gives in a block: its state after, the kind's output samples, and the wet parts that leave its bank
(tail mode only, R32, R130). -/
structure Processed where
  state : KindState
  output : List Int
  wet : List Int
  deriving DecidableEq, Repr

/-- The ramped weight of a bank at sample i, in units of 1/8192 (R126). -/
def weightAt (prev new : Nat) (i : Nat) : Int := 32 * prev + ((new : Int) - prev) * (i + 1)

/-- Scale each sample by the ramped factor between two factors (R16). -/
def rampScaled (prev new : Int) (xs : List Int) : List Int := mapBlock (fun i x => scale x (rampAt prev new i)) 0 xs

/-- The coefficients in force of a filter set (R111). -/
def filterInForce (store : Store) (n : Int) : List Coeffs :=
  match store.filters[n.toNat]? with
  | some f => f.inForce
  | none => []

/-- The taps in force of an impulse slot (R114). -/
def tapsInForce (store : Store) (n : Int) : List Int :=
  match store.impulses[n.toNat]? with
  | some s => s.taps
  | none => []

/-- AMP, steps 1 to 4 on one sample (R36 to R44). `drive` is the ramped drive factor. -/
def ampStep (store : Store) (st : Stage) (drive : Int) (hs : List History) (x : Int) : List History × Int :=
  let y1 := scale x drive
  let y2 := saturate (y1 + st.current 1 * 16384)
  let w := shape (curvePoint store (st.current 2).toNat) y2
  runSections (sectionsUsed st) (filterInForce store (st.current 3)) hs w

/-- The CAB filter on one sample, before its level (R30). -/
def cabStep (taps : List Int) (used : Nat) (history : List Int) (x : Int) : List Int × Int :=
  ((x :: history).take 1023, saturate ((firSum used taps (x :: history) + 2 ^ 22) / 2 ^ 23))

/-- A DELAY in its bank (R33), in tail mode (R130: the line is fed with the weighted sample, the dry part stays and the
wet part leaves), or in the tail list (R131: its input is silent). -/
def delayBlock (st : Stage) (prev new : Nat) (ls : LineState) (xs : List Int) : Processed :=
  let m := st.current 5
  let step := delayStep st.currents st.delayCurrent
  if st.tailMode then
    let r := overBlock (fun l i x => step l ((x * weightAt prev new i + 4096) / 8192)) ls 0 xs
    ⟨.delay r.1.line r.1.position, xs.map (dryPart m), r.2.map (wetPart m)⟩
  else
    let r := overBlock (fun l _ x => let o := step l x; (o.1, mixed m x o.2)) ls 0 xs
    ⟨.delay r.1.line r.1.position, r.2, []⟩

/-- The arithmetic of a kind over a block: R26 to R34, R36. -/
def kindBlock (store : Store) (st : Stage) (prev new : Nat) (xs : List Int) : Processed :=
  let was := st.factors.getD 0 0
  match st.kind, st.state with
  | .gate, .gate s g h =>
    let r := gateStep st.currents (peakCode (blockPeak xs)) s g h
    ⟨.gate r.1 r.2.1 r.2.2, rampScaled was (attenuation r.2.1) xs, []⟩
  | .comp, .comp gr =>
    let gr' := compStep st.currents (peakCode (blockPeak xs)) gr
    ⟨.comp gr', rampScaled was (levelGain (st.current 4 - gr')) xs, []⟩
  | .amp, .sections hs =>
    let drive := levelGain (st.current 0)
    let r := overBlock (fun hs i x => ampStep store st (rampAt was drive i) hs x) hs 0 xs
    ⟨.sections r.1, rampScaled (st.factors.getD 1 0) (attenuation (st.current 5)) r.2, []⟩
  | .eq, .sections hs =>
    let coeffs := filterInForce store (st.current 0)
    let r := overBlock (fun hs _ x => runSections (sectionsUsed st) coeffs hs x) hs 0 xs
    ⟨.sections r.1, rampScaled was (levelGain (st.current 2)) r.2, []⟩
  | .cab, .cab history =>
    let taps := tapsInForce store (st.current 0)
    let r := overBlock (fun h _ x => cabStep taps (st.current 1).toNat h x) history 0 xs
    ⟨.cab r.1, rampScaled was (levelGain (st.current 2)) r.2, []⟩
  | .mod, .mod line position phase =>
    let r := overBlock (fun m _ x => modStep st.currents m x) ⟨line, position, phase⟩ 0 xs
    ⟨.mod r.1.line r.1.position r.1.phase, r.2, []⟩
  | .delay, .delay line position => delayBlock st prev new ⟨line, position⟩ xs
  | .vol, _ => ⟨st.state, rampScaled was (attenuation (st.current 0)) xs, []⟩
  | _, _ => ⟨st.state, xs, []⟩

/-- The crossfade of a ramp block (R13). -/
def crossfaded (ramp : RampState) (i : Nat) (x y : Int) : Int :=
  match ramp with
  | .on => y
  | .off => x
  | _ => saturate (x + ((y - x) * ramp.weight i + 16) / 32)

def crossfadeBlock (ramp : RampState) : Nat → List Int → List Int → List Int
  | i, x :: xs, y :: ys => crossfaded ramp i x y :: crossfadeBlock ramp (i + 1) xs ys
  | _, _, _ => []

/-- What a position makes of a block (R11, R13): the instance after, its output, and the wet parts that leave the bank. -/
def Stage.run (store : Store) (prev new : Nat) (st : Stage) (xs : List Int) : Stage × List Int × List Int :=
  if st.processed then
    let p := kindBlock store st prev new xs
    ({ st with state := p.state, factors := factorsOf st.kind st.currents p.state },
      crossfadeBlock st.ramp 0 xs p.output, p.wet)
  else (st, xs, [])

/-- A bank over a block: positions 0 to 11 in order (R11), and the sum of the wet parts of its tail-mode stages. -/
def runStages (store : Store) (prev new : Nat) : List Stage → List Int → List Stage × List Int × List Int
  | [], xs => ([], xs, [])
  | st :: rest, xs =>
    let r := st.run store prev new xs
    let q := runStages store prev new rest r.2.1
    (r.1 :: q.1, q.2.1, addRuns r.2.2 q.2.2)

/-- The tails over a block of silent input (R131), with the sum of their wet parts. -/
def runTails (store : Store) (samples : Nat) : List Tail → List Tail × List Int
  | [] => ([], [])
  | t :: rest =>
    let r := t.stage.run store 0 0 (List.replicate samples 0)
    let q := runTails store samples rest
    ({ t with stage := r.1, wetPeak := blockPeak r.2.2 } :: q.1, addRuns r.2.2 q.2)

end Sys2Proof.Machine
end

