-- ==== Sys2Proof/Machine/SceneStore.lean ====
section
/-! DEFINITION. The Scene Store: scene records and their images, filter sets, user curves and impulse slots (06; 11.3). -/

namespace Sys2Proof.Machine

/-! ## Reading a scene image (R104, R106, R107, 11.3) -/

def boolInt (b : Bool) : Int := if b then 1 else 0

/-- Where stage entry p begins (11.3). -/
def stageEntryOffset (p : Nat) : Nat := 0x24 + 18 * p

/-- An enable value: 0 off, 1 on, a negative value off and a value above 1 on with a clamp (R22, R104). -/
def enableWritten (v : Int) : Bool × Bool := (decide (0 < v), decide (v < 0 ∨ 1 < v))

/-- The kind code of the stage entry at position p of an image. -/
def imageKind (image : List Byte) (p : Nat) : Option Kind := Kind.ofCode (imageNat image (stageEntryOffset p) 1)

/-- The eight parameters of an entry as they are stored, with their clamp marks (R104). -/
def imageParams (image : List Byte) (p : Nat) (k : Kind) : List (Int × Bool) :=
  (List.range 8).map fun i => paramWritten k i (imageInt image (stageEntryOffset p + 2 + 2 * i) 2)

/-- A stage entry as it is stored, with whether anything was clamped (R104). An entry of kind NONE is stored with enable
off and zero parameters, whatever the image held. -/
def imageStage (image : List Byte) (p : Nat) : StageEntry × Bool :=
  match imageKind image p with
  | none => (⟨.none, false, List.replicate 8 0⟩, false)
  | some .none => (⟨.none, false, List.replicate 8 0⟩, false)
  | some k =>
    let e := enableWritten (imageInt image (stageEntryOffset p + 1) 1)
    let ps := imageParams image p k
    (⟨k, e.1, ps.map (·.1)⟩, e.2 || ps.any (·.2))

/-- A character of a name: outside 0x20..0x7E it is stored as a space (R76, R107). -/
def nameByte (b : Byte) : Byte × Bool :=
  if decide (0x20 ≤ b.toNat ∧ b.toNat ≤ 0x7E) then (b, false) else (0x20, true)

def nameWritten (bs : List Byte) : List Byte × Bool :=
  (bs.map (fun b => (nameByte b).1), bs.any (fun b => (nameByte b).2))

/-- An odd fade length is raised to the next even number (R107, R121). -/
def evenUp (v : Int) : Int := v + v % 2

/-- The profile field: 8..254 is stored as 7 (R107). A byte cannot exceed 255 (R195). -/
def sceneProfileWritten (v : Nat) : Nat × Bool := if 8 ≤ v ∧ v ≤ 254 then (7, true) else (v, false)

/-- The tempo field: 0 is keep, and anything else is clamped to 400..3000 (R107). -/
def sceneTempoWritten (v : Nat) : Nat × Bool :=
  if v = 0 then (0, false) else ((clampInt 400 3000 v).toNat, decide (v < 400 ∨ 3000 < v))

/-- Lamp entry i of an image (11.3). -/
def imageLamp (image : List Byte) (i : Nat) : LampEntry :=
  let v := imageNat image (0x14 + 4 * i) 4
  ⟨v / 2 ^ 28, BitVec.ofNat 14 v, BitVec.ofNat 14 (v / 2 ^ 14)⟩

def imageLampCount (image : List Byte) : Nat := min 4 (imageNat image 0x12 1)

/-- FADE 0, DIP 1, CUT 2 (R103). -/
def TransKind.ofCode : Int → Option TransKind
  | 0 => some .fade | 1 => some .dip | 2 => some .cut | _ => none

def TransKind.code : TransKind → Nat
  | .fade => 0 | .dip => 1 | .cut => 2

/-- The first field that cannot be carried out, by its number: a stage kind, the transition kind, a lamp entry's unit
(R106, step 2). -/
def imageFault (image : List Byte) : Option Nat :=
  (List.range 17).find? fun n =>
    if n < 12 then (imageKind image n).isNone
    else if n = 12 then (TransKind.ofCode (imageNat image 0x0C 1)).isNone
    else decide (n - 13 < imageLampCount image) && (imageLamp image (n - 13)).unit == 0

/-- The record that an image without a fault is stored as, and the clamped mark (R106, step 3). -/
def imageScene (image : List Byte) : SceneRecord × Bool :=
  let name := nameWritten (image.take 12)
  let fade := clampMark 2 480 (imageInt image 0x0E 2)
  let profile := sceneProfileWritten (imageNat image 0x0D 1)
  let tempo := sceneTempoWritten (imageNat image 0x10 2)
  let stages := (List.range 12).map (imageStage image)
  ({ name := name.1, kind := (TransKind.ofCode (imageNat image 0x0C 1)).getD .fade, fade := (evenUp fade.1).toNat,
     profile := profile.1, tempo := tempo.1, lamps := (List.range (imageLampCount image)).map (imageLamp image),
     stages := stages.map (·.1) },
   name.2 || fade.2 || profile.2 || tempo.2 || decide (4 < imageNat image 0x12 1) || stages.any (·.2))

def SceneRecord.load (r : SceneRecord) : Int := sumOf (fun e => kindLoad e.kind e.params) r.stages

def SceneRecord.lanes (r : SceneRecord) : Int := sumOf (fun e => kindLanes e.kind e.params) r.stages

/-- Load in the low halfword, lanes in the high halfword (R106, R108). -/
def SceneRecord.figures (r : SceneRecord) : Int := r.load + 65536 * r.lanes

/-! ## Writing a scene image (R108, R195, 11.3) -/

def lampFields (lamps : List LampEntry) : List Field :=
  (List.range 4).map fun i =>
    match lamps[i]? with
    | some l => ⟨0x14 + 4 * i, 4, (l.lamps.toNat + 2 ^ 14 * l.blink.toNat + 2 ^ 28 * l.unit : Nat)⟩
    | none => ⟨0x14 + 4 * i, 4, 0⟩

def stageFields (p : Nat) (e : StageEntry) : List Field :=
  [⟨stageEntryOffset p, 1, e.kind.code⟩, ⟨stageEntryOffset p + 1, 1, boolInt e.enable⟩] ++
  (List.range 8).map fun i => ⟨stageEntryOffset p + 2 + 2 * i, 2, e.params.getD i 0⟩

def sceneFields (r : SceneRecord) : List Field :=
  [⟨0x0C, 1, r.kind.code⟩, ⟨0x0D, 1, r.profile⟩, ⟨0x0E, 2, r.fade⟩, ⟨0x10, 2, r.tempo⟩, ⟨0x12, 1, r.lamps.length⟩,
   ⟨0x13, 1, 0⟩] ++ lampFields r.lamps ++ (r.stages.mapIdx stageFields).flatten ++ [⟨0xFC, 4, 0⟩]

def writeScene (m : Ram) (base : Nat) (r : SceneRecord) : Ram :=
  writeFields (writeBytes m base r.name) base (sceneFields r)

/-! ## Requests on scenes -/

/-- The record of a scene, if its entry is STORED. -/
def Store.scene (st : Store) (n : Int) : Option SceneRecord := if 0 ≤ n then (st.scenes[n.toNat]?).join else none

/-- The full value of a field refusal (R106). -/
def fieldRefusal (n : Nat) : Int := 65535 * 65536 + n

/-- WRITE_SCENE (R106). -/
def carryWriteScene (t : Taken) (s : State) : Answer :=
  if t.arg0 < 0 ∨ 127 < t.arg0 then s.answer .range .unstated
  else
    let image := readBytes s.ram t.offset 256
    match imageFault image with
    | some n => s.answer .invalid (.given (fieldRefusal n))
    | none =>
      let r := imageScene image
      if 1000 < r.1.load ∨ 4 < r.1.lanes then s.answer .invalid (.given r.1.figures)
      else
        State.answer { s with store := { s.store with scenes := s.store.scenes.set t.arg0.toNat (some r.1) } }
          (okCode r.2) (.given r.1.figures)

def execWriteScene (s : State) : Host.Outcome State Fault Refusal :=
  whenReady s (·.take (isKind 1) (.exactly 256) carryWriteScene)

/-- READ_SCENE (R108). -/
def carryReadScene (t : Taken) (s : State) : Answer :=
  if t.arg0 < 0 ∨ 127 < t.arg0 then s.answer .range .unstated
  else match s.store.scene t.arg0 with
    | none => s.answer .emptyScene .unstated
    | some r => State.answer { s with ram := writeScene s.ram t.offset r } .ok (.given r.figures)

def execReadScene (s : State) : Host.Outcome State Fault Refusal :=
  whenReady s (·.take (isKind 2) (.exactly 256) carryReadScene)

def Select.names (sel : Option Select) (n : Int) : Bool :=
  match sel with
  | some x => (x.scene : Int) == n
  | none => false

/-- Is the record of the in-flight select still to be read: in STAGING, or in DIP_OUT before its restage (R109, R115)? -/
def Transition.awaitsCopy (t : Transition) : Bool :=
  t.state == .staging || (t.state == .dipOut && t.restageDue)

/-- The selects that keep a scene entry from being cleared (R109). -/
def Transition.holds (t : Transition) (n : Int) : Bool :=
  (t.awaitsCopy && Select.names t.inFlight n) || Select.names t.pending n

/-- CLEAR_SCENE (R109). -/
def carryClearScene (t : Taken) (s : State) : Answer :=
  if t.arg0 < 0 ∨ 127 < t.arg0 then s.answer .range .unstated
  else if s.transition.holds t.arg0 then s.answer .inUse .unstated
  else
    State.answer { s with store := { s.store with scenes := s.store.scenes.set t.arg0.toNat none } } .ok
      (.given (boolInt (s.store.scene t.arg0).isSome))

def execClearScene (s : State) : Host.Outcome State Fault Refusal :=
  whenReady s (·.take (isKind 3) .none carryClearScene)

/-! ## Filter sets and user curves (R111 to R113) -/

def imageCoeffs (image : List Byte) (i : Nat) : Coeffs :=
  let at4 := fun k => imageInt image (20 * i + 4 * k) 4
  ⟨at4 0, at4 1, at4 2, at4 3, at4 4⟩

/-- LOAD_FILTER (R112). -/
def carryLoadFilter (t : Taken) (s : State) : Answer :=
  if t.arg0 < 0 ∨ 15 < t.arg0 then s.answer .range .unstated
  else
    let image := readBytes s.ram t.offset 80
    let loaded := (List.range 4).map (imageCoeffs image)
    State.answer
      { s with store := { s.store with filters := setAt s.store.filters t.arg0.toNat (fun f => { f with loaded := loaded }) } }
      .ok (.given t.arg0)

def execLoadFilter (s : State) : Host.Outcome State Fault Refusal :=
  whenReady s (·.take (isKind 4) (.exactly 80) carryLoadFilter)

/-- A signed 32-bit value clamped to a sample, with its mark (R113, R116). -/
def sampleWritten (v : Int) : Int × Bool := clampMark (-8388608) 8388607 v

/-- `n` signed 32-bit values of Exchange RAM, each clamped to a sample. -/
def readSamples (m : Ram) (a n : Nat) : List (Int × Bool) :=
  (List.range n).map fun k => sampleWritten (signedOf 32 (readLE m (a + 4 * k) 4))

/-- LOAD_CURVE (R113). -/
def carryLoadCurve (t : Taken) (s : State) : Answer :=
  if t.arg0 < 16 ∨ 19 < t.arg0 then s.answer .range (.given t.arg0)
  else
    let points := readSamples s.ram t.offset 257
    State.answer
      { s with store :=
          { s.store with
            curves := setAt s.store.curves (t.arg0.toNat - 16) (fun c => { c with loaded := points.map (·.1) }) } }
      (okCode (points.any (·.2))) (.given t.arg0)

def execLoadCurve (s : State) : Host.Outcome State Fault Refusal :=
  whenReady s (·.take (isKind 5) (.exactly 1028) carryLoadCurve)

/-- At a block start the loaded contents become the contents in force (R111). -/
def Store.takeUpTables (st : Store) : Store :=
  { st with filters := st.filters.map (fun f => { f with inForce := f.loaded }),
            curves := st.curves.map (fun c => { c with inForce := c.loaded }) }

/-! ## Impulse slots (R114 to R118) -/

/-- Does a stage name an impulse slot, by target or by current (R115)? -/
def Stage.namesImpulse (n : Int) (st : Stage) : Bool :=
  st.kind == .cab && (st.target 0 == n || st.current 0 == n)

/-- Does a record have a CAB entry that names an impulse slot (R115, R117)? -/
def SceneRecord.namesImpulse (r : SceneRecord) (n : Int) : Bool :=
  r.stages.any (fun e => e.kind == .cab && e.params.getD 0 0 == n)

def Transition.inFlightScene (t : Transition) (store : Store) : Option SceneRecord :=
  match t.inFlight with
  | some x => store.scene x.scene
  | none => none

/-- IN_USE of an impulse slot (R115). -/
def State.impulseInUse (s : State) (n : Int) : Bool :=
  (s.engine.bankA.stages ++ s.engine.bankB.stages).any (·.namesImpulse n) ||
  (s.transition.awaitsCopy &&
    match s.transition.inFlightScene s.store with
    | some r => r.namesImpulse n
    | none => false) ||
  (s.transition.state == .staging &&
    s.engine.overlay.any (fun e => e.kind == .cab && e.index == some 0 && e.value == n))

/-- Is an impulse slot LOADING (R114)? -/
def Store.loading (st : Store) (n : Int) : Bool :=
  if 0 ≤ n then
    match st.impulses[n.toNat]? with
    | some x => x.load.isSome
    | none => false
  else false

/-- Does a record name a LOADING slot, so that its copy must wait (R117)? -/
def Store.mustWait (st : Store) (r : SceneRecord) : Bool :=
  r.stages.any (fun e => e.kind == .cab && st.loading (e.params.getD 0 0))

/-- LOAD_IMPULSE (R115): a long request, kept where no check refuses it. -/
def carryLoadImpulse (t : Taken) (s : State) : Answer :=
  if t.arg0 < 0 ∨ 3 < t.arg0 then s.answer .range .unstated
  else if s.store.loading t.arg0 then s.answer .busy .unstated
  else if s.impulseInUse t.arg0 then s.answer .inUse .unstated
  else
    let load : ImpulseLoad := ⟨t.slot, t.length / 4, t.offset, [], false⟩
    ⟨{ s with store := { s.store with impulses := setAt s.store.impulses t.arg0.toNat (fun x => { x with load := some load }) } },
      none⟩

def execLoadImpulse (s : State) : Host.Outcome State Fault Refusal :=
  whenReady s (·.take (isKind 6) .impulse carryLoadImpulse)

/-- A LOADING slot reads its next 64 taps at a block start; with the last group the load completes (R116). -/
def ImpulseSlot.advance (m : Ram) (x : ImpulseSlot) : ImpulseSlot × Option Completion :=
  match x.load with
  | none => (x, none)
  | some l =>
    let group := readSamples m (l.offset + 4 * l.copied.length) 64
    let copied := l.copied ++ group.map (·.1)
    let clamped := l.clamped || group.any (·.2)
    if l.length ≤ copied.length then
      (⟨copied, none⟩, some ⟨l.slot, okCode clamped, .given l.length⟩)
    else ({ x with load := some { l with copied := copied, clamped := clamped } }, none)

/-- The impulse work of a block start (R116): every LOADING slot reads a group, and those that have read their last
complete, in slot order. -/
def State.impulseWork (s : State) : State :=
  let done := s.store.impulses.map (ImpulseSlot.advance s.ram)
  State.completeAll { s with store := { s.store with impulses := done.map (·.1) } } (done.filterMap (·.2))

end Sys2Proof.Machine
end

