-- ==== Sys2Proof/Machine/Edits.lean ====
section
/-! DEFINITION. Edits to a bank, the staging overlay, and the tempo (01, 1.7 and 1.8). -/

namespace Sys2Proof.Machine

/-! ## The two banks -/

/-- Bank A is the LIVE bank (R6: one bank is LIVE at all times). -/
def Engine.aIsLive (e : Engine) : Bool := e.bankA.role == .live

def Engine.live (e : Engine) : Bank := if e.aIsLive then e.bankA else e.bankB

/-- The bank that is not LIVE: NEXT or IDLE. -/
def Engine.other (e : Engine) : Bank := if e.aIsLive then e.bankB else e.bankA

def Engine.setLive (e : Engine) (b : Bank) : Engine := if e.aIsLive then { e with bankA := b } else { e with bankB := b }

def Engine.setOther (e : Engine) (b : Bank) : Engine := if e.aIsLive then { e with bankB := b } else { e with bankA := b }

/-! ## What an edit finds (R19, R20) -/

/-- The instance that an edit lands in, as its checks see it: a bank's, or in STAGING that of the staged record. -/
structure EditView where
  kind : Kind
  enable : Bool
  targets : List Int
  deriving DecidableEq, Repr

def Stage.view (st : Stage) : EditView := ⟨st.kind, st.enable, st.targets⟩

/-- One overlay entry applied to an entry of the same kind (R20). What an edit or a pedal's takeover finds in STAGING reads
it so too: a value recorded for another kind is not the reference of R153 (DESIGN CHOICE, log 41). -/
def OverlayEntry.applyTo (o : OverlayEntry) (v : EditView) : EditView :=
  if o.kind = v.kind then
    match o.index with
    | none => { v with enable := o.value == 1 }
    | some i => { v with targets := v.targets.set i o.value }
  else v

/-- An entry of a record with the overlay's entries for its position applied. -/
def overlaid (overlay : List OverlayEntry) (p : Nat) (e : StageEntry) : EditView :=
  (overlay.filter (fun o => o.position == p)).foldl (fun v o => o.applyTo v) ⟨e.kind, e.enable, e.params⟩

/-- The record that an edit in STAGING is checked against, position by position, with the overlay applied (R20, R21). -/
def State.stagedViews (s : State) : List EditView :=
  match s.transition.inFlightScene s.store with
  | some r => r.stages.mapIdx (overlaid s.engine.overlay)
  | none => []

/-- The twelve instances of the bank that an edit lands in (R19). -/
def State.editViews (s : State) : List EditView :=
  match s.transition.state with
  | .idle => s.engine.live.stages.map Stage.view
  | .staging => s.stagedViews
  | _ => s.engine.other.stages.map Stage.view

def EditView.empty : EditView := ⟨.none, false, List.replicate 8 0⟩

def State.editView (s : State) (p : Nat) : EditView := s.editViews.getD p .empty

/-! ## Writing an edit (R9, R20) -/

/-- The order in which the overlay is applied: by position, the enable flag first, then the indices (R20). -/
def OverlayEntry.key (o : OverlayEntry) : Nat :=
  9 * o.position + match o.index with
    | none => 0
    | some i => i + 1

/-- Insert an entry in the order of the keys. -/
def overlayInsert (o : OverlayEntry) : List OverlayEntry → List OverlayEntry
  | [] => [o]
  | x :: rest => if o.key < x.key then o :: x :: rest else x :: overlayInsert o rest

/-- Enter an edit in the overlay; an entry of the same position and index is replaced (R20). -/
def overlayPut (o : OverlayEntry) (overlay : List OverlayEntry) : List OverlayEntry :=
  overlayInsert o (overlay.filter fun x => x.key != o.key)

/-- Write an edit where it lands (R19): a change of the instance in a bank, or an overlay entry. -/
def State.putEdit (s : State) (p : Nat) (change : Stage → Stage) (o : OverlayEntry) : State :=
  match s.transition.state with
  | .idle =>
    let b := s.engine.live
    { s with engine := s.engine.setLive { b with stages := setAt b.stages p change } }
  | .staging => { s with engine := { s.engine with overlay := overlayPut o s.engine.overlay } }
  | _ =>
    let b := s.engine.other
    { s with engine := s.engine.setOther { b with stages := setAt b.stages p change } }

def State.putTarget (s : State) (p i : Nat) (v : Int) (k : Kind) : State :=
  s.putEdit p (fun st => { st with targets := st.targets.set i v }) ⟨p, some i, v, k⟩

def State.putEnable (s : State) (p : Nat) (on : Bool) (k : Kind) : State :=
  s.putEdit p (fun st => { st with enable := on }) ⟨p, none, boolInt on, k⟩

/-! ## The checks (R21, R22) -/

def EditView.load (v : EditView) : Int := kindLoad v.kind v.targets

/-- Is LIVE processed together with the staged scene: is the requested kind FADE, or the record's where none is
requested (R21)? -/
def State.stagedAsFade (s : State) : Bool :=
  match s.transition.inFlight with
  | some x => (x.kind == some .fade) || (x.kind == none &&
      match s.store.scene x.scene with
      | some r => r.kind == .fade
      | none => false)
  | none => false

/-- The full load of the banks processed with the bank edited, and of the tail list (R21). -/
def State.loadBeside (s : State) : Int :=
  fullLoad (tailStages s.engine.tails) +
  match s.transition.state with
  | .fading => fullLoad s.engine.live.stages
  | .staging => if s.stagedAsFade then fullLoad s.engine.live.stages else 0
  | _ => 0

/-- A write that raises a load over budget (R21; R52: one that does not raise it passes, log 21). -/
def State.overBudget (s : State) (view : EditView) (i : Nat) (v : Int) : Bool :=
  let after := kindLoad view.kind (view.targets.set i v)
  decide (view.load < after) &&
  decide (1000 < sumOf EditView.load s.editViews - view.load + after + s.loadBeside)

/-- The outcome of an edit: refused, or the value written, its clamp mark and the state after. -/
inductive EditOutcome where
  | refused (code : Result)
  | wrote (value : Int) (clamped : Bool) (state : State)

/-- The expected kind of an edit names another kind (R21, R22). -/
def wrongKind (expected : Int) (k : Kind) : Bool := decide (expected ≠ 0 ∧ expected ≠ k.code)

/-- A parameter edit: the refusals of R21, and the write. R21 gives its cases no order: that RANGE is tested before INVALID,
and INVALID before IN_USE, is the model's choice (log 45). That a position of kind NONE is INVALID at any index is R21's. -/
def State.editParam (s : State) (position index value expected : Int) : EditOutcome :=
  if position < 0 ∨ 11 < position then .refused .range
  else
    let p := position.toNat
    let view := s.editView p
    if view.kind = .none then .refused .invalid
    else if index < 0 then .refused .range
    else
      match paramRule view.kind index.toNat with
      | none => .refused .range
      | some rule =>
        let w := paramWritten view.kind index.toNat value
        if wrongKind expected view.kind || rule.cls == .fixed || s.overBudget view index.toNat w.1 then .refused .invalid
        else if view.kind = .cab ∧ index = 0 ∧ s.store.loading w.1 then .refused .inUse
        else .wrote w.1 w.2 (s.putTarget p index.toNat w.1 view.kind)

/-- An enable edit (R22). -/
def State.editEnable (s : State) (position value expected : Int) : EditOutcome :=
  if position < 0 ∨ 11 < position then .refused .range
  else
    let view := s.editView position.toNat
    if view.kind = .none || wrongKind expected view.kind then .refused .invalid
    else
      let e := enableWritten value
      .wrote (boolInt e.1) e.2 (s.putEnable position.toNat e.1 view.kind)

/-! ## Catch states that an edit undoes (R154) -/

/-- Is this a CATCH assignment that drives this parameter? -/
def Assignment.catches (a : Assignment) (position index : Int) : Bool :=
  a.action == .param && a.takeover && a.argument == position && (a.index : Int) == index

/-- The CATCH assignments of a parameter become uncaught, but for one (R154). -/
def Mapper.uncatch (m : Mapper) (position index : Int) (except : Option Nat) : Mapper :=
  { m with assignments := m.assignments.mapIdx fun n a =>
      if a.catches position index ∧ except ≠ some n then { a with catching := .uncaught } else a }

/-- Every CATCH assignment becomes uncaught at a change of bank (R154). -/
def Mapper.uncatchAll (m : Mapper) : Mapper :=
  { m with assignments := m.assignments.map fun a => if a.takeover then { a with catching := .uncaught } else a }

/-! ## Requests -/

/-- SET_PARAM (R21): a write names its parameter to the Control Mapper. -/
def carrySetParam (t : Taken) (s : State) : Answer :=
  match s.editParam t.arg0 t.arg1 t.arg2 t.arg3 with
  | .refused code => s.answer code .unstated
  | .wrote v clamped s' =>
    State.answer { s' with mapper := s'.mapper.uncatch t.arg0 t.arg1 none } (okCode clamped) (.given v)

def execSetParam (s : State) : Host.Outcome State Fault Refusal :=
  whenReady s (·.take (isKind 11) .none carrySetParam)

/-- SET_ENABLE (R22). -/
def carrySetEnable (t : Taken) (s : State) : Answer :=
  match s.editEnable t.arg0 t.arg1 t.arg2 with
  | .refused code => s.answer code .unstated
  | .wrote v clamped s' => s'.answer (okCode clamped) (.given v)

def execSetEnable (s : State) : Host.Outcome State Fault Refusal :=
  whenReady s (·.take (isKind 12) .none carrySetEnable)

/-- Write the tempo target (R24). -/
def State.writeTempo (s : State) (v : Int) : State :=
  { s with engine := { s.engine with tempoTarget := (clampInt 400 3000 v).toNat } }

/-- SET_TEMPO (R24). -/
def carrySetTempo (t : Taken) (s : State) : Answer :=
  let w := clampMark 400 3000 t.arg0
  (s.writeTempo t.arg0).answer (okCode w.2) (.given w.1)

def execSetTempo (s : State) : Host.Outcome State Fault Refusal :=
  whenReady s (·.take (isKind 13) .none carrySetTempo)

end Sys2Proof.Machine
end

