-- ==== Sys2Proof/Machine/Link.lean ====
section
/-! DEFINITION. The Stage Link Controller: frames, the transmit queue, the unit table, poll turns and replies (09; 11.4,
11.5), and the arrival of control events at their queue (08, 8.2). -/

namespace Sys2Proof.Machine

/-! ## Control events arrive (R142, R143) -/

def ControlEvent.samePedal (e f : ControlEvent) : Bool :=
  e.trigger == .pedal && f.trigger == .pedal && e.unit == f.unit && e.control == f.control

/-- PRESS 0 to PEDAL 4 (R141). -/
def Trigger.code : Trigger → Nat
  | .press => 0 | .releaseShort => 1 | .hold => 2 | .releaseAny => 3 | .pedal => 4

/-- Remove the first entry that satisfies a test. -/
def removeFirst {α : Type} (p : α → Bool) : List α → List α
  | [] => []
  | x :: rest => if p x then rest else x :: removeFirst p rest

/-- The EVENT_DROP notice (R143); `drops` counts this one. -/
def eventDropNotice (e : ControlEvent) (drops : Nat) : Notice := ⟨9, 4, e.unit, [e.unit, e.control, e.trigger.code, drops]⟩

/-- An event arrives at the control event queue (R142). -/
def Mapper.arrive (m : Mapper) (e : ControlEvent) : Mapper × List Notice :=
  if e.trigger = .pedal then
    if m.queue.any (·.samePedal e) then
      ({ m with queue := m.queue.map fun x => if x.samePedal e then { x with value := e.value, time := e.time } else x }, [])
    else if m.queue.length < 16 then ({ m with queue := m.queue ++ [e] }, [])
    else (m, [])
  else if m.queue.length < 16 then ({ m with queue := m.queue ++ [e] }, [])
  else if m.queue.any (fun x => x.trigger == .pedal) then
    ({ m with queue := removeFirst (fun x => x.trigger == .pedal) m.queue ++ [e] }, [])
  else
    let drops := countTo 65535 m.drops
    ({ m with drops := drops }, [eventDropNotice e drops])

/-- Events are handed over one by one (R171). -/
def State.handEvents (s : State) (es : List ControlEvent) : State :=
  es.foldl (fun s e => let r := s.mapper.arrive e; State.notifyAll { s with mapper := r.1 } r.2) s

/-! ## Frames (R159 to R161) -/

def FrameKind.code : FrameKind → Nat
  | .lamp => 2 | .text => 3 | .tune => 4

/-- The two sums of a run of bytes (R161). -/
def checkSums (bytes : List Nat) : Nat × Nat :=
  bytes.foldl (fun ab x => let a := (ab.1 + x) % 127; (a, (ab.2 + a) % 127)) (0, 0)

/-- A run of bytes with its CHK1 and CHK2 (R161). -/
def withCheck (bytes : List Nat) : List Nat :=
  let c := checkSums bytes
  bytes ++ [c.1, c.2]

/-- A master frame on the line: HEAD, TARGET, MASK, LEN, payload, CHK1, CHK2 (R160). -/
def masterBytes (kind target mask : Nat) (payload : List Nat) : List Nat :=
  withCheck ([128 + kind, target, mask, payload.length] ++ payload)

def pollBytes (unit : Nat) : List Nat := masterBytes 1 unit 15 []

def MasterFrame.bytes (f : MasterFrame) : List Nat := masterBytes f.kind.code f.target f.mask f.payload

/-- The two 7-bit bytes of a bitmap of lamps 0..13 (11.5). -/
def bitmapBytes (v : Nat) : List Nat := [v % 128, v / 128 % 128]

def lampPayload (lamps blink : Nat) : List Nat := bitmapBytes lamps ++ bitmapBytes blink

/-! ## The transmit queue and the mirrors (R174, R175) -/

def MasterFrame.sameKey (f g : MasterFrame) : Bool := f.kind == g.kind && f.target == g.target && f.mask == g.mask

/-- A LAMP or TEXT frame with MASK 15 is written into the mirror of its unit (R175). -/
def Link.mirror (l : Link) (f : MasterFrame) : Link :=
  if f.mask = 15 ∧ 1 ≤ f.target then
    match f.kind with
    | .lamp => { l with lampMirrors := l.lampMirrors.set f.target (some f.payload) }
    | .text => { l with textMirrors := l.textMirrors.set f.target (some f.payload) }
    | .tune => l
  else l

/-- A handed frame is placed (R174). -/
def Link.place (l : Link) (f : MasterFrame) : Link × Placing :=
  if l.queue.any (·.sameKey f) then
    ({ l with queue := l.queue.map fun g => if g.sameKey f then { g with payload := f.payload } else g }, .replaced)
  else if l.queue.length < 8 then ({ l with queue := l.queue ++ [f] }, .joined)
  else if l.queue.any (fun g => g.kind == .tune) then
    ({ l with queue := removeFirst (fun g => g.kind == .tune) l.queue ++ [f] }, .displaced)
  else ({ l with drops := countTo 65535 l.drops }, .dropped)

/-- The LINK_DROP notice (R174); `drops` counts this one. -/
def linkDropNotice (f : MasterFrame) (drops : Nat) : Notice := ⟨10, 6, 0, [f.kind.code, f.target, f.mask, drops]⟩

/-- A frame is handed to the transmit queue: its mirror, its placing, and the notice of a drop (R174, R175). -/
def State.handFrame (s : State) (f : MasterFrame) : State :=
  let r := (s.link.mirror f).place f
  let s' := { s with link := r.1 }
  if r.2 = .dropped then s'.notify (linkDropNotice f r.1.drops) else s'

def State.handFrames (s : State) (fs : List MasterFrame) : State := fs.foldl State.handFrame s

/-- The frame of a scene's lamp entry, for its unit alone (R135). -/
def LampEntry.frame (e : LampEntry) : MasterFrame := ⟨.lamp, e.unit, 15, lampPayload e.lamps.toNat e.blink.toNat⟩

/-- The result value of LAMP and TEXT (R176). -/
def Placing.answer : Placing → Result → Result × ResultValue
  | .joined, code => (code, .given 0)
  | .replaced, code => (code, .given 1)
  | .displaced, code => (code, .given 2)
  | .dropped, _ => (.busy, .unstated)

/-- How a frame handed now would be placed (R174). -/
def State.placing (s : State) (f : MasterFrame) : Placing := ((s.link.mirror f).place f).2

/-- A LAMP or TEXT request hands its frame to the queue (R176). -/
def State.requestFrame (s : State) (f : MasterFrame) (code : Result) : Answer :=
  let a := (s.placing f).answer code
  (s.handFrame f).answer a.1 a.2

/-- TARGET or MASK outside 0..15 (R176). -/
def addressOutside (t : Taken) : Bool := decide (t.arg0 < 0 ∨ 15 < t.arg0 ∨ t.arg1 < 0 ∨ 15 < t.arg1)

/-- LAMP (R176): lamps 0..13 of each bitmap are taken (R196). -/
def carryLamp (t : Taken) (s : State) : Answer :=
  if addressOutside t then s.answer .range .unstated
  else
    s.requestFrame ⟨.lamp, t.arg0.toNat, t.arg1.toNat, lampPayload (argBits t.arg2 % 2 ^ 14) (argBits t.arg3 % 2 ^ 14)⟩ .ok

def execLamp (s : State) : Host.Outcome State Fault Refusal := whenReady s (·.take (isKind 21) .none carryLamp)

/-- The characters of a TEXT, up to the first of value 0 (R176, 11.4). -/
def textCharacters (t : Taken) : List Nat :=
  ((List.range 4).map (argByte t.arg2) ++ (List.range 4).map (argByte t.arg3)).takeWhile (· != 0)

/-- A character outside 0x20..0x7E is sent as a space (R176). -/
def textByte (c : Nat) : Nat := if 0x20 ≤ c ∧ c ≤ 0x7E then c else 0x20

/-- TEXT (R176). RANGE is tested before INVALID: R176 gives its two refusals no order (the model's choice, log 45). -/
def carryText (t : Taken) (s : State) : Answer :=
  let cs := textCharacters t
  if addressOutside t then s.answer .range .unstated
  else if cs = [] then s.answer .invalid .unstated
  else
    s.requestFrame ⟨.text, t.arg0.toNat, t.arg1.toNat, cs.map textByte⟩ (okCode (cs.any (fun c => textByte c != c)))

def execText (s : State) : Host.Outcome State Fault Refusal := whenReady s (·.take (isKind 22) .none carryText)

/-! ## SET_UNIT and LINK_CONFIG (R164, R177, R178) -/

/-- Another enabled entry with this unit number (R164). -/
def Link.duplicateOf (l : Link) (entry unit : Nat) : Option Nat :=
  (List.range l.units.length).find? fun i =>
    match l.units[i]? with
    | some u => i != entry && u.enabled && u.number == unit
    | none => false

/-- An entry that awaits the reply to its POLL: that reply will be discarded (R164). -/
def LinePhase.discardFor (entry : Nat) : LinePhase → LinePhase
  | .window e d => .window e (d || e == entry)
  | .assembling e d bytes => .assembling e (d || e == entry) bytes
  | p => p

/-- SET_UNIT (R164). -/
def carrySetUnit (t : Taken) (s : State) : Answer :=
  if t.arg0 < 0 ∨ 7 < t.arg0 ∨ t.arg1 < 1 ∨ 15 < t.arg1 then s.answer .range .unstated
  else
    let entry := t.arg0.toNat
    let enabled := decide (argLow t.arg2 ≠ 0)
    match if enabled then s.link.duplicateOf entry t.arg1.toNat else none with
    | some other => s.answer .duplicate (.given other)
    | none =>
      let written := fun (u : UnitEntry) =>
        { u with
          number := t.arg1.toNat, enabled := enabled, display := decide (argHigh t.arg2 ≠ 0),
          switchCount := min 14 (argLow t.arg3), pedalCount := min 4 (argHigh t.arg3),
          state := if enabled then UnitState.joining else UnitState.unused, misses := 0, last := none }
      let clamped := decide (1 < argLow t.arg2 ∨ 1 < argHigh t.arg2 ∨ 14 < argLow t.arg3 ∨ 4 < argHigh t.arg3)
      State.answer
        { s with link := { s.link with units := setAt s.link.units entry written, phase := s.link.phase.discardFor entry } }
        (okCode clamped) (.given t.arg0)

def execSetUnit (s : State) : Host.Outcome State Fault Refusal := whenReady s (·.take (isKind 20) .none carrySetUnit)

/-- A value with a default for 0 and a clamp otherwise (R177). -/
def defaulted (lo hi default v : Int) : Int × Bool := if v = 0 then (default, false) else clampMark lo hi v

/-- Is an entry polled when a cycle with this counter reaches it (R165)? -/
def UnitEntry.polled (cycle : Nat) (u : UnitEntry) : Bool :=
  u.state == .joining || u.state == .present || (u.state == .lost && cycle == 0)

/-- The first entry from a position on that the cycle polls. -/
def Link.nextPolled (l : Link) (cycle position : Nat) : Option Nat :=
  (List.range l.units.length).find? fun i =>
    match l.units[i]? with
    | some u => decide (position ≤ i) && u.polled cycle
    | none => false

/-- The turn in progress is over. Where its cycle polls none of the entries it has not reached, the cycle ends with it:
the counter rises by 1, from 15 back to 0, and the next cycle starts at entry 0 (R165; log 17). -/
def Link.endTurn (l : Link) : Link :=
  match l.nextPolled l.cycle l.position with
  | some _ => { l with phase := .between }
  | none => { l with phase := .between, cycle := (l.cycle + 1) % 16, position := 0, turnTaken := false }

/-- What a disable does to the line (R178): a window without a HEAD is closed without a miss, and a reply being assembled
goes on, to be handled whole (DEDUCED, log 49). A turn that has nothing left to send is over. -/
def Link.idleLine (l : Link) : Link :=
  match l.phase, l.queue with
  | .assembling _ _ _, _ => l
  | .queueStep _, [] => l.endTurn
  | _, _ => { l with phase := .between }

/-- Disable (R178). A break that has not begun is not sent (log 15). A cycle that is cut short keeps its count for the next
one (DESIGN CHOICE, log 42: R178 says only that the next cycle starts at entry 0). -/
def Link.disable (l : Link) : Link := { l.idleLine with enabled := false, breakDue := false }

/-- Resume (R178): the next cycle starts at entry 0, with the cycle counter as it stands (log 42). -/
def Link.resume (l : Link) : Link := { l with enabled := true, position := 0, turnTaken := false }

/-- Restart (R178): the break waits for the line (log 16 for a reply window that has seen no HEAD: it is closed). -/
def Link.restart (l : Link) : Link :=
  { l with
    enabled := true
    breakDue := true
    queue := []
    units := l.units.map fun u => if u.enabled then { u with state := .joining, misses := 0, last := none } else u
    phase := match l.phase with
      | .assembling e _ bytes => .assembling e true bytes
      | _ => .between }

/-- What the enable and restart arguments do to the line (R178). -/
def Link.configure (l : Link) (enable restart : Bool) : Link :=
  match enable, restart, l.enabled with
  | false, _, true => l.disable
  | false, _, false => l
  | true, true, _ => l.restart
  | true, false, true => l
  | true, false, false => l.resume

/-- LINK_CONFIG (R177, R178). -/
def carryLinkConfig (t : Taken) (s : State) : Answer :=
  let enable := decide (t.arg0 ≠ 0)
  let hold := defaulted 200 2000 600 (argLow t.arg2)
  let referral := defaulted 5 200 30 (argHigh t.arg2)
  let dead := defaulted 1 16 2 t.arg3
  let clamped := decide (t.arg0 ≠ 0 ∧ t.arg0 ≠ 1) || hold.2 || referral.2 || dead.2
  State.answer
    { s with
      link := Link.configure { s.link with holdMs := hold.1.toNat, deadband := dead.1.toNat } enable (decide (t.arg1 ≠ 0))
      mapper := { s.mapper with timeout := msToBlocks referral.1.toNat } }
    (okCode clamped) (.given (boolInt enable))

def execLinkConfig (s : State) : Host.Outcome State Fault Refusal :=
  whenReady s (·.take (isKind 19) .none carryLinkConfig)

/-! ## Poll turns (R165) -/

/-- The turn that comes next: the cycle counter it has, and the entry it polls, or none for the turn without a poll of a
cycle that polls nothing. A cycle that has had a turn, and polls none of the entries left, ends before it (R165). -/
def Link.upcoming (l : Link) : Nat × Option Nat :=
  match l.nextPolled l.cycle l.position with
  | some e => (l.cycle, some e)
  | none =>
    if l.turnTaken then ((l.cycle + 1) % 16, l.nextPolled ((l.cycle + 1) % 16) 0)
    else (l.cycle, none)

/-- The line is free for a turn to begin: between turns, or in a step 3 with nothing to send. -/
def Link.turnFree (l : Link) : Bool :=
  l.enabled && !l.breakDue &&
  match l.phase with
  | .between => true
  | .queueStep _ => l.queue.isEmpty
  | _ => false

/-- POLL_TURN (R165, step 1), where the next turn polls an entry. -/
def Link.poll (l : Link) : Link :=
  if l.turnFree then
    match l.upcoming with
    | (cycle, some e) =>
      { l with
        cycle := cycle, position := e + 1, turnTaken := true, phase := .window e false
        sent := [.frame (pollBytes ((l.units[e]?).elim 0 (·.number)))] }
    | (_, none) => l
  else l

def execPollTurn (s : State) : Host.Outcome State Fault Refusal := whenReady s (fun s => { s with link := s.link.poll })

/-- One sending of a step 3 in which `count` frames have been sent: the frame at the head leaves the queue as its sending
begins (R174). After the second frame, or with none to send, the turn is over (R165). -/
def Link.sendHead (l : Link) (count : Nat) : Link :=
  match l.queue with
  | [] => Link.endTurn { l with sent := [] }
  | f :: rest =>
    let l := { l with queue := rest, sent := [.frame f.bytes] }
    if count = 0 then { l with phase := .queueStep 1 } else l.endTurn

/-- QUEUE_FRAME_SEND (R165, R174): one frame of step 3, in the turn in progress or in the turn without a poll. The two
frames of a step 3 are two of these commands (log 43). -/
def Link.queueSend (l : Link) : Link :=
  if l.enabled && !l.breakDue then
    match l.phase with
    | .queueStep count => l.sendHead count
    | .between =>
      match l.upcoming with
      | (cycle, none) => Link.sendHead { l with cycle := cycle, position := 8, turnTaken := true } 0
      | (_, some _) => l
    | _ => l
  else l

def execQueueFrameSend (s : State) : Host.Outcome State Fault Refusal :=
  whenReady s (fun s => { s with link := s.link.queueSend })

/-- LINK_BREAK (R178): once the line is free, the break is sent and a cycle begins at entry 0 with the counter at 0. -/
def Link.sendBreak (l : Link) : Link :=
  match l.breakDue, l.phase with
  | true, .between =>
    { l with breakDue := false, cycle := 0, position := 0, turnTaken := false, sent := [.lineBreak] }
  | _, _ => l

def execLinkBreak (s : State) : Host.Outcome State Fault Refusal := whenReady s (fun s => { s with link := s.link.sendBreak })

/-- After a reply or a miss: step 3 of the turn; with the link disabled or a break due, the line is left idle (R178). -/
def Link.afterReply (l : Link) : Link :=
  { l with phase := if l.enabled && !l.breakDue then .queueStep 0 else .between }

/-! ## Misses (R168, R170) -/

/-- The bitmap of the switches recorded down (R170). -/
def downBitmap (last : Option LastState) : Nat :=
  match last with
  | none => 0
  | some st => (st.switches.mapIdx fun i (x : SwitchRecord) => if x.down then 2 ^ i else 0).foldl (· + ·) 0

/-- What a miss does to an entry, and the UNIT_DOWN notice of the third in a row (R168, R170). -/
def UnitEntry.miss (e : Nat) (u : UnitEntry) : UnitEntry × List Notice :=
  if u.state = .present then
    if 2 ≤ u.misses then
      let losses := countTo 65535 u.losses
      ({ u with state := .lost, misses := 3, last := none, losses := losses },
        [⟨5, 4, u.number, [e, u.number, downBitmap u.last, losses]⟩])
    else ({ u with misses := u.misses + 1 }, [])
  else (u, [])

/-- The poll of an entry is a miss; a discarded reply counts none (R164, R178). A reply in assembly when the link was disabled
is handled like any other, here and in `State.goodState`: one that fails counts its miss, and may write UNIT_DOWN (DEDUCED,
log 49: R178 has it handled, and writes no UNIT_UP or UNIT_DOWN while disabled). -/
def State.linkMiss (s : State) (e : Nat) (discard : Bool) : State :=
  if discard then { s with link := s.link.afterReply }
  else
    match s.link.units[e]? with
    | none => { s with link := s.link.afterReply }
    | some u =>
      let r := u.miss e
      State.notifyAll { s with link := { s.link.afterReply with units := s.link.units.set e r.1 } } r.2

/-- REPLY_WINDOW_EXPIRY (R166): no HEAD arrived in the window. -/
def State.windowExpiry (s : State) : State :=
  match s.link.phase with
  | .window e discard => s.linkMiss e discard
  | _ => s

def execReplyWindowExpiry (s : State) : Host.Outcome State Fault Refusal := whenReady s State.windowExpiry

/-- INTER_BYTE_TIMEOUT (R166): a reply being assembled is discarded. -/
def State.interByteTimeout (s : State) : State :=
  match s.link.phase with
  | .assembling e discard _ => s.linkMiss e discard
  | _ => s

def execInterByteTimeout (s : State) : Host.Outcome State Fault Refusal := whenReady s State.interByteTimeout

/-! ## Good STATE frames (R167 to R173) -/

/-- The payload of a STATE: the switch bitmap and the pedal values carried (11.5, R196). -/
structure StateFrame where
  switches : Nat
  pedals : List Nat
  deriving DecidableEq, Repr

def pedalValues : List Nat → List Nat
  | hi :: lo :: rest => (hi % 8 * 128 + lo) :: pedalValues rest
  | _ => []

/-- A STATE payload, or none where it is malformed (R167). -/
def stateFrame : List Nat → Option StateFrame
  | b0 :: b1 :: count :: rest =>
    if count ≤ 4 ∧ rest.length = 2 * count then some ⟨b0 + 128 * b1, pedalValues rest⟩ else none
  | _ => none

/-- A watched switch shown down (R167). -/
def StateFrame.shows (f : StateFrame) (u : UnitEntry) (i : Nat) : Bool := decide (i < u.switchCount) && bitOf f.switches i

def SwitchRecord.up : SwitchRecord := ⟨false, false, 0, false⟩

/-- The baseline of an entry that becomes PRESENT (R169). -/
def baseline (f : StateFrame) (u : UnitEntry) : LastState :=
  { switches := (List.range 14).map fun i => if f.shows u i then ⟨true, false, 0, false⟩ else .up
    pedals := (List.range 4).map fun i => if i < u.pedalCount then f.pedals.getD i 0 else 0 }

/-- One switch against its record: the record after, and the triggers in order (R171, R172). -/
def switchChange (holdBlocks : Nat) (time : Word) (shown : Bool) (r : SwitchRecord) : SwitchRecord × List Trigger :=
  match r.down, r.claimed, shown with
  | false, _, false => (.up, [])
  | false, _, true => (⟨true, true, time, false⟩, [.press])
  | true, true, true =>
    if !r.hold && decide (holdBlocks ≤ (time - r.pressTime).toNat) then ({ r with hold := true }, [.hold]) else (r, [])
  | true, true, false => (.up, if r.hold then [.releaseAny] else [.releaseAny, .releaseShort])
  | true, false, true => (r, [])
  | true, false, false => (.up, [])

/-- Does a pedal value give an event against the last reported one (R173)? -/
def pedalMoved (deadband v r : Nat) : Bool :=
  decide (deadband ≤ ((v : Int) - r).natAbs) || ((v == 0 || v == 1023) && v != r)

/-- The changes of a good STATE of a PRESENT entry: the last state after, and the events in order (R171 to R173). -/
def findEvents (l : Link) (u : UnitEntry) (last : LastState) (f : StateFrame) : LastState × List ControlEvent :=
  let sw := last.switches.mapIdx fun i r => switchChange (msToBlocks l.holdMs) l.blockCount (f.shows u i) r
  let swEvents := (sw.mapIdx fun i (r : SwitchRecord × List Trigger) =>
    r.2.map fun t => (⟨u.number, i, t, 0, l.blockCount⟩ : ControlEvent)).flatten
  let pd := last.pedals.mapIdx fun i r =>
    match f.pedals[i]? with
    | some v => if decide (i < u.pedalCount) && pedalMoved l.deadband v r then (v, true) else (r, false)
    | none => (r, false)
  let pdEvents := (pd.mapIdx fun i (r : Nat × Bool) =>
    if r.2 then [(⟨u.number, i, .pedal, r.1, l.blockCount⟩ : ControlEvent)] else []).flatten
  (⟨sw.map (·.1), pd.map (·.1)⟩, swEvents ++ pdEvents)

/-- The mirrors of a unit, as the frames handed on when it becomes PRESENT: lamps, then text (R169, R175). -/
def Link.mirrorFrames (l : Link) (unit : Nat) : List MasterFrame :=
  ((l.lampMirrors.getD unit none).elim [] fun p => [⟨.lamp, unit, 15, p⟩]) ++
  ((l.textMirrors.getD unit none).elim [] fun p => [⟨.text, unit, 15, p⟩])

/-- The UNIT_UP notice (R169): cause 0 join, 1 return. -/
def unitUpNotice (e : Nat) (u : UnitEntry) (f : StateFrame) : Notice :=
  ⟨4, 4, u.number, [e, u.number, boolInt (u.state == .lost), f.pedals.length]⟩

/-- A good STATE of an entry (R168): a baseline, or the events found. An UNUSED entry is polled no more (R168). A reply in
assembly when the link was disabled has its whole effect, its events and its UNIT_UP among them (DEDUCED, log 49). -/
def State.goodState (s : State) (e : Nat) (u : UnitEntry) (f : StateFrame) : State :=
  match u.state, u.last with
  | .unused, _ => { s with link := s.link.afterReply }
  | .present, some last =>
    let r := findEvents s.link u last f
    State.handEvents
      { s with link := { s.link.afterReply with units := s.link.units.set e { u with misses := 0, last := some r.1 } } } r.2
  | _, _ =>
    let u' := { u with state := UnitState.present, misses := 0, last := some (baseline f u) }
    let s' := State.notify { s with link := { s.link.afterReply with units := s.link.units.set e u' } } (unitUpNotice e u f)
    s'.handFrames (s'.link.mirrorFrames u.number)

/-! ## Receiving (R166) -/

/-- What the bytes of a reply so far show. -/
inductive ReplyVerdict where
  | incomplete | bad | good (f : StateFrame)
  deriving DecidableEq, Repr

/-- A LEN or a pedal count that shows the payload malformed, as soon as it has arrived (R166, R167): LEN is
3 + 2 × pedal count, and the count is at most 4. -/
def malformedSoFar (bytes : List Nat) : Bool :=
  (decide (3 ≤ bytes.length) && !(List.contains [3, 5, 7, 9, 11] (bytes.getD 2 0))) ||
  (decide (6 ≤ bytes.length) && bytes.getD 2 0 != 3 + 2 * bytes.getD 5 0)

/-- The tests of R166 on the bytes of a reply, HEAD first, each as soon as its byte has arrived. -/
def judgeReply (unit : Nat) (bytes : List Nat) : ReplyVerdict :=
  let len := bytes.getD 2 0
  let frame := bytes.take (3 + len)
  if bytes.tail.any (fun b => decide (128 ≤ b)) then .bad
  else if bytes.head? ≠ some (128 + 16) then .bad
  else if 2 ≤ bytes.length ∧ bytes.getD 1 0 ≠ unit then .bad
  else if malformedSoFar bytes then .bad
  else if bytes.length < 3 ∨ bytes.length < 5 + len then .incomplete
  else if bytes ≠ withCheck frame then .bad
  else match stateFrame (frame.drop 3) with
    | some f => .good f
    | none => .bad

/-- After a byte the reply goes on, is discarded, or is good (R166). -/
def State.judge (s : State) (e : Nat) (discard : Bool) (bytes : List Nat) : State :=
  match s.link.units[e]? with
  | none => { s with link := s.link.afterReply }
  | some u =>
    match judgeReply u.number bytes with
    | .incomplete => { s with link := { s.link with phase := .assembling e discard bytes } }
    | .bad => s.linkMiss e discard
    | .good f => if discard then { s with link := s.link.afterReply } else s.goodState e u f

/-- One byte arrives (R159, R166). Bytes are ignored before a HEAD, and while no reply is awaited. -/
def State.receiveByte (s : State) (b : RxByte) : State :=
  match s.link.phase with
  | .window e discard =>
    if b.value.toNat < 128 then s
    else if b.framingError then s.linkMiss e discard
    else s.judge e discard [b.value.toNat]
  | .assembling e discard bytes =>
    if b.framingError then s.linkMiss e discard
    else s.judge e discard (bytes ++ [b.value.toNat])
  | _ => s

/-- STATE_RECEIVE (R166 to R173): bytes arrive on the line, in order, with no more than 120 µs of idle line between. -/
def State.receive (s : State) (bytes : List RxByte) : State := bytes.foldl State.receiveByte s

def execStateReceive (bytes : List RxByte) (s : State) : Host.Outcome State Fault Refusal := whenReady s (·.receive bytes)

end Sys2Proof.Machine
end

