-- ==== Sys2Proof/Machine/Tuner.lean ====
section
/-! DEFINITION. The Tuner: engaging, collection, the analysis of a window, readings and states (05). -/

namespace Sys2Proof.Machine

def TunerState.code : TunerState → Nat
  | .off => 0 | .listen => 1 | .acquire => 2 | .locked => 3 | .hold => 4

def Tuner.isEngaged (t : Tuner) : Bool := t.state != .off

/-! ## Readings (R95, R101, R102) -/

/-- floor((24000 × log2(7680000 / (p16 × r)) + 1) / 2) = round(12000 × log2(768000 / (p16 × r / 10))), halves up,
computed exactly: the integer part of a logarithm of a quotient of whole powers (R95). -/
def readingT (p16 r : Nat) : Int :=
  let a := Nat.pow (p16 * r) 24000
  let b := Nat.pow 7680000 24000
  if a ≤ b then (((b / a).log2 : Int) + 1) / 2 else (1 - (((a - 1) / b).log2 + 1 : Int)) / 2

/-- The reading of a t (R95). -/
def readingOf (t : Int) : Reading :=
  let note := 69 + (t + 500) / 1000
  ⟨t, note, t - 1000 * (note - 69)⟩

/-- The note and cents10 that the outside sees in each state (R101). -/
def Tuner.shown (t : Tuner) : Int × Int :=
  match t.state with
  | .off => (0, 0)
  | .listen => (0, 0)
  | .acquire => (t.run.getLast?).elim (0, 0) fun r => (r.note, r.cents10)
  | .locked => (t.shownNote, t.shownCents)
  | .hold => (t.shownNote, t.shownCents)

/-- The payload of a TUNE frame (R160, 11.5). -/
def Tuner.payload (t : Tuner) : List Nat :=
  let c := (t.shown.2 + 500).toNat
  [t.state.code, t.shown.1.toNat, c / 128 % 8, c % 128]

/-- The TUNE frames of a reading: one for each enabled, PRESENT unit with its display flag set (R102), in the order of the
unit table (DESIGN CHOICE, log 40: R102 and R174 give none). -/
def tuneFrames (t : Tuner) (units : List UnitEntry) : List MasterFrame :=
  (units.filter (fun u => u.enabled && u.state == .present && u.display)).map fun u => ⟨.tune, u.number, 15, t.payload⟩

/-- The Tuner hands a reading to the Stage Link Controller (R102). -/
def State.handReading (s : State) : State := s.handFrames (tuneFrames s.tuner s.link.units)

/-! ## Engaging and disengaging (R87, R88) -/

/-- Engage with these settings (R87): from OFF the Tuner enters LISTEN, and collection is to begin (R89). -/
def Tuner.engage (t : Tuner) (mode : TunerMode) (phones : Bool) (tone : Nat) : Tuner :=
  let t := { t with mode := mode, phonesMute := phones, toneNote := tone }
  if t.state = .off then { t with state := .listen, engaged := true } else t

/-- Disengage (R87, R97): nothing is collected from here on (R91). -/
def Tuner.disengage (t : Tuner) : Tuner :=
  if t.state = .off then t
  else
    { t with
      state := .off, run := [], accepted := [], tunedMark := false, lockedWindows := 0, collecting := false, engaged := false }

/-- Put a Tuner in place; a reading is handed at an engage from OFF and at a disengage (R87, R102). -/
def State.setTuner (s : State) (t : Tuner) : State :=
  let s' := { s with tuner := t }
  if s.tuner.isEngaged == t.isEngaged then s' else s'.handReading

/-- The tone note as it is stored (R87). -/
def toneWritten (v : Int) : Int × Bool :=
  if v = 0 then (0, false) else if v < 0 then (0, true) else clampMark 28 96 v

/-- TUNER with engage 1 (R87). -/
def carryTunerEngage (t : Taken) (s : State) : Answer :=
  if t.arg1 ≠ 0 ∧ t.arg1 ≠ 1 then s.answer .invalid (.given s.tuner.state.code)
  else
    let tone := toneWritten t.arg3
    let tuner := s.tuner.engage (if t.arg1 = 0 then .mute else .live) (decide (t.arg2 ≠ 0)) tone.1.toNat
    (s.setTuner tuner).answer (okCode (decide (1 < t.arg0) || tone.2)) (.given tuner.state.code)

/-- A TUNER request that engages: argument 0 is 1, or a value taken as 1 (R87). -/
def execTunerEngage (s : State) : Host.Outcome State Fault Refusal :=
  whenReady s (·.take (fun t => isKind 15 t && decide (1 ≤ t.arg0)) .none carryTunerEngage)

/-- TUNER with engage 0 (R87). -/
def carryTunerDisengage (t : Taken) (s : State) : Answer :=
  (s.setTuner s.tuner.disengage).answer (okCode (decide (t.arg0 < 0))) (.given TunerState.off.code)

/-- A TUNER request that disengages: argument 0 is 0, or a negative value taken as 0 (R87). -/
def execTunerDisengage (s : State) : Host.Outcome State Fault Refusal :=
  whenReady s (·.take (fun t => isKind 15 t && decide (t.arg0 < 1)) .none carryTunerDisengage)

/-- TUNER_TOGGLE (R88). -/
def State.toggleTuner (s : State) : State :=
  if s.tuner.isEngaged then s.setTuner s.tuner.disengage
  else s.setTuner (s.tuner.engage s.tuner.mode s.tuner.phonesMute s.tuner.toneNote)

/-! ## Collection (R91) -/

/-- Begin a new collection, from the first sample of the block (R91). -/
def Tuner.collect (t : Tuner) : Tuner :=
  { t with history := [], windowCount := 0, collecting := true, windowed := false, engaged := false }

/-- At a block start after an engage from OFF, a new collection begins (R89). -/
def Tuner.takeUpEngage (t : Tuner) : Tuner :=
  if t.engaged && t.isEngaged then t.collect else { t with engaged := false }

/-- A sample joins the history; beyond 2048 the oldest leaves (R91). -/
def Tuner.sample (t : Tuner) (x : Int) : Tuner :=
  if t.isEngaged && t.collecting then { t with history := (x :: t.history).take 2048 } else t

/-- The window count after a collected block (R91). -/
def Tuner.countBlock (t : Tuner) : Nat := countTo 64 t.windowCount

/-- Does a window end at this block start, after a collected block (R91)? -/
def Tuner.windowEnds (t : Tuner) : Bool :=
  if t.windowed then decide (32 ≤ t.countBlock) else decide (2048 ≤ t.history.length)

/-! ## Analysis of a window (R92 to R94) -/

/-- The detector of crossings (R93). -/
inductive Detector where
  | unset | low | high
  deriving DecidableEq, Repr

/-- The scan of a window: the detector, the sample before, the last rise through zero in sixteenths, and the crossings
recorded, newest first (R93). -/
structure Scan where
  detector : Detector
  index : Nat
  before : Int
  rise : Int
  crossings : List Int
  deriving DecidableEq, Repr

/-- The position of a rise from s[m − 1] < 0 to s[m] ≥ 0, in sixteenths (R93). -/
def risePosition (m : Nat) (before x : Int) : Int :=
  16 * ((m : Int) - 1) + (32 * (-before) + (x - before)) / (2 * (x - before))

/-- One sample of the scan (R93). -/
def Scan.step (c : Scan) (x : Int) : Scan :=
  let rise := if c.before < 0 ∧ 0 ≤ x then risePosition c.index c.before x else c.rise
  let next := if x < -32768 then Detector.low else if 32768 < x then Detector.high else c.detector
  let crossings := if c.detector = .low ∧ next = .high then rise :: c.crossings else c.crossings
  ⟨next, c.index + 1, x, rise, crossings⟩

/-- The crossings of a window, in order (R93). -/
def crossingsOf (window : List Int) : List Int :=
  (window.foldl Scan.step ⟨.unset, 0, 0, 0, []⟩).crossings.reverse

def differences : List Int → List Int
  | x :: y :: rest => (y - x) :: differences (y :: rest)
  | _ => []

def insertSorted (x : Int) : List Int → List Int
  | [] => [x]
  | y :: rest => if x ≤ y then x :: y :: rest else y :: insertSorted x rest

def sorted (l : List Int) : List Int := l.foldr insertSorted []

/-- The estimate from the intervals of a window (R94). -/
def estimate (intervals : List Int) : Option Nat :=
  let n := intervals.length
  if n < 2 then none
  else
    let median := (sorted intervals).getD ((n - 1) / 2) 0
    let cluster := intervals.filter fun i => decide (100 * ((i - median).natAbs : Int) ≤ 3 * median)
    let k := cluster.length
    if 10 * k < 6 * n then none
    else
      let p16 := (2 * sumOf id cluster + k) / (2 * k)
      if p16 < 512 ∨ 15360 < p16 then none else some p16.toNat

/-- The class of a window (R92, R94). -/
def classify (window : List Int) : WindowClass :=
  if 100 < peakCode (blockPeak window) then .noSignal
  else match estimate (differences (crossingsOf window)) with
    | some p16 => .conclusive p16
    | none => .inconclusive

/-! ## States (R96 to R98) -/

/-- The mean of the accepted values, halves up (R97). -/
def meanOf (ts : List Int) : Int := roundHalfUp (sumOf id ts) ts.length

/-- The displayed reading is formed from the accepted list (R97). -/
def Tuner.display (t : Tuner) (note : Int) : Tuner :=
  { t with shownNote := note, shownCents := meanOf t.accepted - 1000 * (note - 69) }

/-- Enter LOCKED where three readings of the run agree within 60 (R96). -/
def Tuner.tryLock (t : Tuner) (note : Int) : Tuner :=
  match t.run.map (·.t) with
  | [a, b, c] =>
    if max a (max b c) - min a (min b c) ≤ 60 then
      Tuner.display
        { t with
          state := .locked, accepted := [a, b, c], run := [], holdCount := 0, tunedMark := false, lockedWindows := 1 } note
    else t
  | _ => t

/-- The run becomes this reading alone, in ACQUIRE (R96 to R98). LOCKED, if left, leaves its mark and count. The hold counter
is 0 by R98 where HOLD is left; from LISTEN R96 names no clearing of the count that a disengage in HOLD kept (R87), and the
clearing is the model's choice (log 47). -/
def Tuner.acquire (t : Tuner) (r : Reading) : Tuner :=
  { t with state := .acquire, run := [r], accepted := [], holdCount := 0, tunedMark := false, lockedWindows := 0 }

/-- The t that is displayed (R97). -/
def Tuner.displayedT (t : Tuner) : Int := t.shownCents + 1000 * (t.shownNote - 69)

/-- A window in LISTEN or ACQUIRE (R96). -/
def Tuner.acquireWindow (t : Tuner) (w : Option Reading) (silent : Bool) : Tuner :=
  match t.state, w with
  | .listen, some r => t.acquire r
  | .listen, none => t
  | _, some r =>
    if (t.run.getLast?).elim false (fun x => x.note == r.note) then
      let run := t.run ++ [r]
      Tuner.tryLock { t with run := run.drop (run.length - 3) } r.note
    else { t with run := [r] }
  | _, none => { t with run := [], state := if silent then .listen else .acquire }

/-- A window in LOCKED (R97). -/
def Tuner.lockedWindow (t : Tuner) (w : Option Reading) (silent : Bool) : Tuner :=
  let t := { t with lockedWindows := countTo 65535 t.lockedWindows }
  match w with
  | some r =>
    if r.note = t.shownNote ∧ (r.t - t.displayedT).natAbs ≤ 200 then
      Tuner.display { t with accepted := t.accepted.drop 1 ++ [r.t] } r.note
    else t.acquire r
  | none =>
    if silent then { t with state := .hold, accepted := [], holdCount := 0, tunedMark := false, lockedWindows := 0 } else t

/-- A window in HOLD (R98). -/
def Tuner.holdWindow (t : Tuner) (w : Option Reading) : Tuner :=
  match w with
  | some r => t.acquire r
  | none =>
    if 47 ≤ t.holdCount + 1 then { t with state := .listen, holdCount := 0, shownNote := 0, shownCents := 0 }
    else { t with holdCount := t.holdCount + 1 }

/-- The Tuner acts on a window of this class (R92, R94 to R98). -/
def Tuner.onWindow (t : Tuner) (c : WindowClass) : Tuner :=
  let w : Option Reading := match c with
    | .conclusive p16 => some (readingOf (readingT p16 t.reference))
    | _ => none
  let t := { t with lastEstimate := match c with
    | .conclusive p16 => p16
    | _ => 0 }
  match t.state with
  | .off => t
  | .locked => t.lockedWindow w (c == .noSignal)
  | .hold => t.holdWindow w
  | _ => t.acquireWindow w (c == .noSignal)

/-- A TUNED notice is due: the first displayed reading of this lock within ±1.0 cent (R100). -/
def Tuner.tunedDue (t : Tuner) : Bool := t.state == .locked && !t.tunedMark && decide (t.shownCents.natAbs ≤ 10)

def tunedNotice (t : Tuner) : Notice := ⟨7, 5, 0, [t.shownNote, t.shownCents, t.reference, t.lockedWindows]⟩

/-- The Tuner at a block start after the window it analyses, with its count at 0 (R91). -/
def Tuner.afterWindow (t : Tuner) : Tuner :=
  Tuner.onWindow { t with windowCount := 0, windowed := true } (classify t.history.reverse)

/-- The window work of a block start: the block just ended is counted, and a window that ends is analysed, reported and
handed on (R91, R100, R102). `collected`: a block has just ended. -/
def State.windowWork (s : State) (collected : Bool) : State :=
  if s.tuner.isEngaged && s.tuner.collecting && collected then
    if s.tuner.windowEnds then
      let t := s.tuner.afterWindow
      if t.tunedDue then
        State.handReading (State.notify { s with tuner := { t with tunedMark := true } } (tunedNotice t))
      else State.handReading { s with tuner := t }
    else { s with tuner := { s.tuner with windowCount := s.tuner.countBlock } }
  else s

/-- A window ends at this block start (R91). -/
def State.windowDue (s : State) (collected : Bool) : Bool :=
  s.tuner.isEngaged && s.tuner.collecting && collected && s.tuner.windowEnds

/-- The window that ends takes the hold counter to 47 (R98). -/
def State.holdExpiryDue (s : State) (collected : Bool) : Bool :=
  s.windowDue collected && s.tuner.state == .hold && s.tuner.afterWindow.state == .listen

/-- The restart of R99: the Tuner takes the new reference, enters LISTEN and begins a new collection. -/
def Tuner.restart (t : Tuner) (reference : Nat) : Tuner :=
  Tuner.collect
    { t with
      reference := reference, state := .listen, run := [], accepted := [], shownNote := 0, shownCents := 0, holdCount := 0,
      tunedMark := false, lockedWindows := 0 }

end Sys2Proof.Machine
end

