-- ==== Sys2Proof/Machine/Input.lean ====
section
/-! DEFINITION. The Input Section: crackle suppression, meters, the input select and trim (03, 3.1 to 3.4), the profiles
and the trim learner (04). -/

namespace Sys2Proof.Machine

/-! ## Meters (R62, R63) -/

/-- Meter a sample: the period peak, and a clip where it counts as one (R63). -/
def Meter.add (m : Meter) (x : Int) (clip : Bool) : Meter :=
  ⟨max m.peak x.natAbs, if clip then m.clips + 1 else m.clips⟩

/-- An input sample at the limit of the range counts as a clip (R62). -/
def atLimit (x : Int) : Bool := x == -8388608 || x == 8388607

/-! ## Crackle suppression (R55, R56) -/

/-- What the suppressor predicts from its history (R56). -/
def InputPath.predicted (p : InputPath) : Int := saturate (2 * p.x1 - p.x2)

/-- Is a sample a crackle: far from the prediction and from the sample before it, with suppression on (R56)? -/
def InputPath.isCrackle (p : InputPath) (x : Int) : Bool :=
  decide (p.threshold ≠ 0) && decide ((p.threshold : Int) * 65536 < (x - p.predicted).natAbs) &&
  decide ((p.threshold : Int) * 65536 < (x - p.x1).natAbs)

/-- The sample that the suppressor delivers (R56). -/
def InputPath.delivered (p : InputPath) (x : Int) : Int := if p.isCrackle x then p.predicted else x

/-- One sample of an input: suppressed, counted and metered; the history moves on (R56, R57, R62). -/
def InputPath.sample (p : InputPath) (x : Int) : InputPath :=
  let y := p.delivered x
  { p with
    x1 := y, x2 := p.x1, crackles := if p.isCrackle x then p.crackles + 1 else p.crackles,
    meter := p.meter.add y (atLimit y) }

/-! ## One sample period (R54, R61) -/

def InputSection.path (s : InputSection) : InputId → InputPath
  | .a => s.inputA
  | .b => s.inputB

/-- A block is in progress and still takes samples (log 6). -/
def Grid.takesSamples (g : Grid) : Bool := g.opened && g.done == 0 && decide (g.samplesA.length < 32)

/-- Both inputs are suppressed and metered, and the selected one's sample goes to the Tuner (R54, R61). -/
def State.inputSample (s : State) (a b : Int) : State :=
  if s.grid.takesSamples then
    let ya := s.input.inputA.delivered a
    let yb := s.input.inputB.delivered b
    { s with
      input := { s.input with inputA := s.input.inputA.sample a, inputB := s.input.inputB.sample b }
      tuner := s.tuner.sample (match s.input.selected with | .a => ya | .b => yb)
      grid := { s.grid with samplesA := s.grid.samplesA ++ [ya], samplesB := s.grid.samplesB ++ [yb] } }
  else s

/-- INPUT_SAMPLE (R54, R56): one sample of each converter, 24 bits in two's complement (log 28). -/
def execInputSample (a b : BitVec 24) (s : State) : Host.Outcome State Fault Refusal :=
  whenReady s (·.inputSample a.toInt b.toInt)

/-! ## The chain input of a block (R59, R60) -/

/-- The sample of the chain input at index i: scaled by the ramped trim factor, and crossed from the input left, if one is
left in this block (R59, R60). Each input is scaled first and the crossing scaled no more, as R59 says: R60's own words would
scale the crossing itself (DEDUCED, log 46). -/
def chainSample (prev new : Int) (i : Nat) (old : Option Int) (x : Int) : Int :=
  let f := rampAt prev new i
  match old with
  | none => scale x f
  | some o => saturate (scale o f + ((scale x f - scale o f) * (i + 1) + 16) / 32)

def InputId.samples (a b : List Int) : InputId → List Int
  | .a => a
  | .b => b

/-- The chain input of the block just ended, from its suppressed samples (R59, R60). -/
def InputSection.chainInput (s : InputSection) (a b : List Int) : List Int :=
  let old : Option (List Int) := s.crossFrom.map (InputId.samples a b)
  let new := levelGain s.trimCurrent
  mapBlock (fun i x => chainSample s.trimFactor new i (old.map (fun l => l.getD i 0)) x) 0 (InputId.samples a b s.selected)

/-- After the block: the factor at its last sample stands, and the crossing is over (R59, R60). -/
def InputSection.afterBlock (s : InputSection) : InputSection :=
  { s with crossFrom := none, trimFactor := levelGain s.trimCurrent }

/-- The trim current moves toward the target this block start glides to, by at most 1 code (R60, R84). -/
def InputSection.moveTrim (s : InputSection) : InputSection := { s with trimCurrent := glide 1 s.trimCurrent s.trimGoal }

/-! ## The trim learner (R79 to R85) -/

/-- The learner ends: it returns to IDLE and keeps its figures (R79). -/
def Learner.idle (l : Learner) : Learner := { l with learning := false, counting := false }

/-- The completion of an aborted learn (R85). -/
def Learner.aborted (l : Learner) : Completion := ⟨l.slot, .aborted, .given l.signalBlocks⟩

/-- End a running learn with ABORTED (R85). -/
def State.abortLearn (s : State) : State :=
  if s.input.learner.learning then
    State.completeAll { s with input := { s.input with learner := s.input.learner.idle } } [s.input.learner.aborted]
  else s

/-- The bin at which 5 % of the signal blocks have been reached, from the loudest on (R83). -/
def loudBin (histogram : List Nat) (total : Nat) : Nat :=
  ((List.range 241).find? fun n => decide (total ≤ 20 * (histogram.take (n + 1)).foldl (· + ·) 0)).getD 0

/-- How a learn ends. -/
structure LearnEnd where
  code : Result
  value : Int
  trim : Option Int
  deriving DecidableEq, Repr

/-- The trim that a learn finds (R83). -/
def Learner.newTrim (l : Learner) : Int := clampInt (-24) 48 ((loudBin l.histogram l.signalBlocks : Int) - l.target)

/-- The result of a full or partial learn (R83). -/
def Learner.measured (l : Learner) (full : Bool) (old : Int) : LearnEnd :=
  let new := l.newTrim
  let value := new % 65536 + 65536 * l.signalBlocks
  if (new - old).natAbs ≤ 2 then ⟨.unchanged, value, none⟩
  else if !full then ⟨.partialLearn, value, some new⟩
  else if l.signalBlocks < 100 * l.histogram.getD 0 0 then ⟨.clipped, value, some new⟩
  else ⟨okCode l.clamped, value, some new⟩

/-- The completion tests after a counted block (R82). -/
def Learner.finished (l : Learner) (old : Int) : Option LearnEnd :=
  if 1500 ≤ l.signalBlocks ∧ l.minBlocks ≤ l.elapsed then some (l.measured true old)
  else if l.maxBlocks ≤ l.elapsed then
    if 300 ≤ l.signalBlocks then some (l.measured false old) else some ⟨.noSignal, l.signalBlocks, none⟩
  else none

/-- Count a block of this raw peak code (R81). -/
def Learner.count (l : Learner) (code : Int) : Learner :=
  if 0 ≤ code ∧ code ≤ 120 then
    { l with
      elapsed := l.elapsed + 1, signalBlocks := l.signalBlocks + 1,
      histogram := setAt l.histogram code.toNat (· + 1) }
  else { l with elapsed := l.elapsed + 1 }

/-- The raw block peak code of the block just ended: 255 while RUN is clear (R61). -/
def State.rawPeakCode (s : State) : Int :=
  if s.engine.running then peakCode (blockPeak (InputId.samples s.grid.samplesA s.grid.samplesB s.input.selected)) else 255

/-- The learner after the block just ended, and how it ends, if it does (R81, R82). -/
def State.learnCounted (s : State) : Learner := s.input.learner.count s.rawPeakCode

def State.learnEnd (s : State) : Option LearnEnd :=
  s.learnCounted.finished ((s.store.profiles.getD s.input.learner.profile .reset).trim)

/-- The block just ended is one that the learner counts (R81). -/
def State.learnCounts (s : State) : Bool := s.input.learner.learning && s.input.learner.counting && s.grid.opened

/-- A learned trim is written into its profile, and into the trim target where that profile is active (R84). -/
def State.writeLearnedTrim (s : State) (trim : Int) : State :=
  let p := s.input.learner.profile
  { s with
    store := { s.store with profiles := setAt s.store.profiles p (fun r => { r with trim := trim }) }
    input := if s.input.active = p then { s.input with trimTarget := trim } else s.input }

/-- The learn work of a block start (R81 to R84). -/
def State.learnWork (s : State) : State :=
  if s.learnCounts then
    let counted := { s with input := { s.input with learner := s.learnCounted } }
    match s.learnEnd with
    | none => counted
    | some e =>
      let written := match e.trim with
        | some t => counted.writeLearnedTrim t
        | none => counted
      State.complete { written with input := { written.input with learner := written.input.learner.idle } }
        s.input.learner.slot e.code (.given e.value)
  else if s.input.learner.learning then
    { s with input := { s.input with learner := { s.input.learner with counting := true } } }
  else s

/-- The completion tests end the learn at this block start (R82). -/
def State.learnDue (s : State) : Bool := s.learnCounts && s.learnEnd.isSome

/-! ## Requests on profiles and the learner -/

/-- A value of a record clamped, as a number. -/
def clampedNat (lo hi v : Nat) : Nat × Bool := (min hi (max lo v), decide (v < lo ∨ hi < v))

/-- The profile record of an image as it is stored (R76, 11.3). -/
def imageProfile (image : List Byte) : Profile × Bool :=
  let trim := clampMark (-24) 48 (imageInt image 0x02 2)
  let threshold := clampedNat 0 127 (imageNat image 0x01 1)
  let reference := clampedNat 4000 4800 (imageNat image 0x04 2)
  let name := nameWritten ((image.drop 8).take 8)
  ({ input := if imageNat image 0 1 = 0 then .a else .b, trim := trim.1, threshold := threshold.1,
     reference := reference.1, name := name.1 },
   decide (1 < imageNat image 0 1) || trim.2 || threshold.2 || reference.2 || name.2)

/-- The learner is measuring this profile (R76, R85). -/
def State.learns (s : State) (p : Nat) : Bool := s.input.learner.learning && s.input.learner.profile == p

/-- SET_PROFILE (R76). -/
def carrySetProfile (t : Taken) (s : State) : Answer :=
  if t.arg0 < 0 ∨ 7 < t.arg0 then s.answer .range (.given t.arg0)
  else
    let p := t.arg0.toNat
    let r := imageProfile (readBytes s.ram t.offset 16)
    let s' := if s.learns p then s.abortLearn else s
    State.answer
      { s' with
        store := { s'.store with profiles := s'.store.profiles.set p r.1 }
        input := { s'.input with rewritten := p :: s'.input.rewritten } }
      (okCode r.2) (.given t.arg0)

def execSetProfile (s : State) : Host.Outcome State Fault Refusal :=
  whenReady s (·.take (isKind 7) (.exactly 16) carrySetProfile)

/-- Write the chosen profile (R77). -/
def State.choose (s : State) (p : Nat) : State := { s with input := { s.input with chosen := p } }

/-- SELECT_PROFILE (R77). -/
def carrySelectProfile (t : Taken) (s : State) : Answer :=
  if t.arg0 < 0 ∨ 7 < t.arg0 then s.answer .range .unstated
  else (s.choose t.arg0.toNat).answer .ok (.given t.arg0)

def execSelectProfile (s : State) : Host.Outcome State Fault Refusal :=
  whenReady s (·.take (isKind 8) .none carrySelectProfile)

/-- A halfword with a default for 0, clamped (R80). -/
def learnBound (lo hi default v : Nat) : Nat × Bool := clampedNat lo hi (if v = 0 then default else v)

/-- The learner as a start enters LEARNING (R80). -/
def startedLearner (t : Taken) : Learner :=
  let target := clampMark 1 120 (if t.arg2 = 0 then 24 else t.arg2)
  let low := learnBound 1500 15000 3000 (argLow t.arg3)
  let high := learnBound low.1 30000 15000 (argHigh t.arg3)
  { learning := true, slot := t.slot, profile := t.arg1.toNat, target := target.1, minBlocks := low.1,
    maxBlocks := high.1, elapsed := 0, signalBlocks := 0, histogram := List.replicate 241 0,
    clamped := target.2 || low.2 || high.2, counting := false }

/-- TRIM_LEARN start (R80): a long request. Any argument 0 but 0 and 1 is refused with INVALID (log 33). -/
def carryTrimLearnStart (t : Taken) (s : State) : Answer :=
  if t.arg0 ≠ 0 then s.answer .invalid .unstated
  else if s.input.learner.learning then s.answer .busy .unstated
  else if t.arg1 < 0 ∨ 7 < t.arg1 then s.answer .range .unstated
  else if t.arg1 ≠ s.input.active ∨ s.input.chosen ≠ s.input.active then s.answer .invalid .unstated
  else ⟨{ s with input := { s.input with learner := startedLearner t } }, none⟩

def execTrimLearnStart (s : State) : Host.Outcome State Fault Refusal :=
  whenReady s (·.take (fun t => isKind 9 t && decide (t.arg0 ≠ 1)) .none carryTrimLearnStart)

/-- TRIM_LEARN abort (R85). -/
def carryTrimLearnAbort (_t : Taken) (s : State) : Answer :=
  s.abortLearn.answer .ok (.given (boolInt s.input.learner.learning))

def execTrimLearnAbort (s : State) : Host.Outcome State Fault Refusal :=
  whenReady s (·.take (fun t => isKind 9 t && decide (t.arg0 = 1)) .none carryTrimLearnAbort)

/-! ## Profile changes at a block start (R55, R59, R60, R78) -/

/-- Is a profile change to be taken up (R78)? -/
def InputSection.changeDue (s : InputSection) : Bool := s.chosen != s.active || s.rewritten.contains s.chosen

/-- The Input Section with a profile made active (R55, R59, R60). -/
def InputSection.activate (s : InputSection) (p : Profile) : InputSection :=
  { s with
    active := s.chosen
    inputA := if p.input = .a then { s.inputA with threshold := p.threshold } else s.inputA
    inputB := if p.input = .b then { s.inputB with threshold := p.threshold } else s.inputB
    crossFrom := if p.input = s.selected then none else some s.selected
    selected := p.input
    trimTarget := p.trim
    trimGoal := p.trim }

/-- The Tuner at a profile change (R99): a restart where it is engaged and the input or the reference changes. -/
def State.tunerProfile (s : State) (p : Profile) : State :=
  if s.tuner.isEngaged && (p.input != s.input.selected || p.reference != s.tuner.reference) then
    State.handReading { s with tuner := s.tuner.restart p.reference }
  else { s with tuner := { s.tuner with reference := p.reference } }

/-- The profile work of a block start (R78): a learn running under another profile ends (R85). -/
def State.profileWork (s : State) : State :=
  let s' :=
    if s.input.changeDue then
      let p := s.store.profiles.getD s.input.chosen .reset
      let s₁ := if s.input.chosen ≠ s.input.active then s.abortLearn else s
      let s₂ := s₁.tunerProfile p
      { s₂ with input := s₂.input.activate p }
    else s
  { s' with input := { s'.input with rewritten := [] } }

/-! ## The close of a readout period (R57, R58) -/

/-- A holdoff and a count of unreported periods after a period, and whether a notice is due (R58, R74; log 36: a period
that writes the notice is not also held back). -/
def holdoffStep (eventful : Bool) (holdoff unreported : Nat) : Nat × Nat × Bool :=
  if eventful then
    if holdoff - 1 = 0 then (94, 0, true) else (holdoff - 1, countTo 65535 unreported, false)
  else (holdoff - 1, unreported, false)

def crackleNotice (input : Nat) (p : InputPath) : Notice := ⟨6, 2, input, [input, p.crackles, p.unreported, p.threshold]⟩

/-- An input at the close of a period (R57, R58, R63). -/
def InputPath.closePeriod (input : Nat) (p : InputPath) : InputPath × List Notice :=
  let h := holdoffStep (decide (4 ≤ p.crackles)) p.holdoff p.unreported
  ({ p with crackles := 0, holdoff := h.1, unreported := h.2.1, meter := .zero },
    if h.2.2 then [crackleNotice input p] else [])

end Sys2Proof.Machine
end

