-- ==== Sys2Proof/Machine/Router.lean ====
section
/-! DEFINITION. The Router: routes and their crossfades, the reference tone, the mutes, and the sinks of a block (03, 3.5
to 3.7). -/

namespace Sys2Proof.Machine

def Source.ofCode : Nat → Option Source
  | 0 => some .off | 1 => some .chain | 2 => some .dryA | 3 => some .dryB | 4 => some .tone | _ => none

/-! ## SET_ROUTE (R67, 11.4) -/

/-- A packed route entry as it is stored, with whether it was clamped; none for a source outside 0..4 (R67). -/
def routeEntry (arg : Int) : Option (RouteEntry × Bool) :=
  (Source.ofCode (argByte arg 0)).map fun src =>
    let level := clampMark (-96) 24 (signedOf 8 (argByte arg 1))
    let pan := clampMark (-64) 64 (signedOf 8 (argByte arg 2))
    (⟨src, level.1, pan.1⟩, level.2 || pan.2)

/-- The three entries of a SET_ROUTE. -/
def routeEntries (t : Taken) : Option (List (RouteEntry × Bool)) :=
  match routeEntry t.arg1, routeEntry t.arg2, routeEntry t.arg3 with
  | some a, some b, some c => some [a, b, c]
  | _, _, _ => none

def Router.mapSink (r : Router) (n : Nat) (f : Sink → Sink) : Router :=
  match n with
  | 0 => { r with main := f r.main }
  | 1 => { r with stage := f r.stage }
  | _ => { r with phones := f r.phones }

/-- SET_ROUTE (R67): the newest accepted route waits for the sink's next crossfade (R68, R69). A request that meets both
refusals of R67 gets RANGE, the first of its list (DEDUCED, log 45). -/
def carrySetRoute (t : Taken) (s : State) : Answer :=
  if t.arg0 < 0 ∨ 2 < t.arg0 then s.answer .range (.given t.arg0)
  else match routeEntries t with
    | none => s.answer .range (.given t.arg0)
    | some es =>
      if t.arg0 ≠ 2 ∧ es.any (fun e => e.1.source == .tone) then s.answer .invalid (.given t.arg0)
      else
        State.answer
          { s with router := s.router.mapSink t.arg0.toNat (fun k => { k with waiting := some (es.map (·.1)) }) }
          (okCode (es.any (·.2))) (.given t.arg0)

def execSetRoute (s : State) : Host.Outcome State Fault Refusal := whenReady s (·.take (isKind 14) .none carrySetRoute)

/-! ## Route crossfades (R68, R69) -/

/-- The eighth crossfade block is over. -/
def Sink.fadeOver (k : Sink) : Bool :=
  match k.fade with
  | some f => decide (256 ≤ f.samples)
  | none => false

/-- The incoming route enters the table, and the sink returns to IDLE (R68). -/
def Sink.endFade (k : Sink) : Sink :=
  match k.fade with
  | some f => if 256 ≤ f.samples then { k with route := f.incoming, fade := none } else k
  | none => k

/-- An IDLE sink to which a route has been handed (R68). -/
def Sink.startDue (k : Sink) : Bool := k.fade.isNone && k.waiting.isSome

/-- A crossfade starts toward the newest route handed to the sink (R68, R69). -/
def Sink.startFade (k : Sink) : Sink :=
  match k.fade, k.waiting with
  | none, some r => { k with fade := some ⟨r, 0⟩, waiting := none }
  | _, _ => k

/-- Eight blocks of 32 samples make a crossfade (R68). -/
def Sink.afterBlock (k : Sink) : Sink := { k with fade := k.fade.map fun f => { f with samples := f.samples + 32 } }

def Router.mapSinks (r : Router) (f : Sink → Sink) : Router :=
  { r with main := f r.main, stage := f r.stage, phones := f r.phones }

def Router.anySink (r : Router) (p : Sink → Bool) : Bool := p r.main || p r.stage || p r.phones

/-! ## The tone and the mutes at a block start (R70 to R72) -/

/-- The tone request (R70, R89). -/
def Tuner.toneOn (t : Tuner) : Bool := t.isEngaged && t.toneNote != 0

/-- The tone's ramp, phase and increment at a block start (R70, R71). At note 0, for which R71 gives no increment, the one of
the last note is kept, whatever the reference (DESIGN CHOICE, log 44). -/
def Tone.atBlockStart (tone : Tone) (t : Tuner) : Tone :=
  let ramp := tone.ramp.next t.toneOn
  { ramp := ramp
    phase := if tone.ramp = .off ∧ ramp = .rampOn then 0 else tone.phase
    increment := if t.toneNote = 0 then tone.increment else toneIncrement t.reference t.toneNote }

/-- The main goal is 0 while the Tuner is engaged in MUTE; the phones goal also asks for the phones-mute flag (R72). -/
def Tuner.mainGoal (t : Tuner) : Nat := if t.isEngaged && t.mode == .mute then 0 else 256

def Tuner.phonesGoal (t : Tuner) : Nat := if t.isEngaged && t.mode == .mute && t.phonesMute then 0 else 256

/-- A mute gain moves toward its goal by at most 32 (R72, R139). -/
def moveGain (current goal : Nat) : Nat := (glide 32 current goal).toNat

/-- The mute work of a block start (R70, R72, R89). -/
def Router.muteWork (r : Router) (t : Tuner) : Router :=
  { r with
    mainMutePrev := r.mainMute, mainMute := moveGain r.mainMute t.mainGoal,
    phonesMutePrev := r.phonesMute, phonesMute := moveGain r.phonesMute t.phonesGoal,
    tone := r.tone.atBlockStart t }

/-! ## The tone's samples (R70, R71) -/

/-- One sample of the oscillator and of the TONE source; `g` is G(−40) (R70, R71). -/
def toneSample (ramp : RampState) (increment : Nat) (g : Int) (phase : Nat) (i : Nat) : Nat × Int :=
  if ramp = .off then (phase, 0)
  else
    let t := scale (sineAt phase) g
    ((phase + increment) % 2 ^ 32, if ramp = .on then t else (t * ramp.weight i + 16) / 32)

/-- The TONE source over a block of n samples. -/
def Tone.block (tone : Tone) (n : Nat) : Tone × List Int :=
  let g := levelGain (-40)
  let r := overBlock (fun p i _ => toneSample tone.ramp tone.increment g p i) tone.phase 0 (List.replicate n 0)
  ({ tone with phase := r.1 }, r.2)

/-! ## The sinks of a block (R65, R66) -/

/-- The four sources of one sample. -/
structure Sources where
  chain : Int
  dryA : Int
  dryB : Int
  tone : Int
  deriving DecidableEq, Repr

def Sources.of (s : Sources) : Source → Int
  | .off => 0
  | .chain => s.chain
  | .dryA => s.dryA
  | .dryB => s.dryB
  | .tone => s.tone

/-- The muted and unmuted sums of both channels (R66). -/
structure Sums where
  left : Int
  right : Int
  leftTone : Int
  rightTone : Int
  deriving DecidableEq, Repr

def Sums.zero : Sums := ⟨0, 0, 0, 0⟩

/-- Add an entry's parts by the linear pan law (R65). In PHONES (`bypass`) the parts of TONE go to the unmuted sum
(R66). -/
def Sums.add (sums : Sums) (bypass : Bool) (src : Sources) (e : RouteEntry × Int) : Sums :=
  if e.1.source = .off then sums
  else
    let c := scale (src.of e.1.source) e.2
    let l := (c * (64 - e.1.pan) + 64) / 128
    let r := (c * (64 + e.1.pan) + 64) / 128
    if bypass && e.1.source == .tone then { sums with leftTone := sums.leftTone + l, rightTone := sums.rightTone + r }
    else { sums with left := sums.left + l, right := sums.right + r }

def routeSums (bypass : Bool) (src : Sources) (route : List (RouteEntry × Int)) : Sums :=
  route.foldl (fun s e => s.add bypass src e) .zero

/-- The crossfade of two sums at sample counter s (R68). -/
def crossSum (s out inc : Int) : Int := (out * (256 - s) + inc * s + 128) / 256

def crossSums (s : Int) (x y : Sums) : Sums :=
  ⟨crossSum s x.left y.left, crossSum s x.right y.right, crossSum s x.leftTone y.leftTone,
    crossSum s x.rightTone y.rightTone⟩

/-- A channel's value before saturation (R66, steps 1 and 2). -/
def channelValue (mute muted unmuted : Int) : Int := (muted * mute + 128) / 256 + unmuted

/-- Meter the values of a channel: those that saturation changes are clips (R62). -/
def Meter.addValues (m : Meter) (values : List Int) : Meter :=
  values.foldl (fun m v => m.add (saturate v) (saturate v != v)) m

/-- Each entry of a route with its gain factor (R65). -/
def withGains (route : List RouteEntry) : List (RouteEntry × Int) := route.map fun e => (e, levelGain e.level)

/-- The channel values of a sink over a block, left and right (R66, R68, R72). -/
def Sink.values (k : Sink) (bypass : Bool) (mutePrev mute : Nat) (src : List Sources) : List (Int × Int) :=
  let out := withGains k.route
  let inc := k.fade.map fun f => (withGains f.incoming, f.samples)
  src.mapIdx fun i x =>
    let sums := match inc with
      | none => routeSums bypass x out
      | some (r, done) => crossSums ((done : Int) + i + 1) (routeSums bypass x out) (routeSums bypass x r)
    let m := rampAt mutePrev mute i
    (channelValue m sums.left sums.leftTone, channelValue m sums.right sums.rightTone)

/-- A sink after a block, metered, and what it delivered (R62, R66). -/
def Sink.block (k : Sink) (bypass : Bool) (mutePrev mute : Nat) (src : List Sources) : Sink × SinkBlock :=
  let vs := k.values bypass mutePrev mute src
  ({ k.afterBlock with left := k.left.addValues (vs.map (·.1)), right := k.right.addValues (vs.map (·.2)) },
    ⟨vs.map fun v => saturate v.1, vs.map fun v => saturate v.2⟩)

/-- The four sources over a block. -/
def blockSources : List Int → List Int → List Int → List Int → List Sources
  | c :: cs, a :: as, b :: bs, t :: ts => ⟨c, a, b, t⟩ :: blockSources cs as bs ts
  | _, _, _, _ => []

/-- The Router over the block just ended: the tone runs, the sinks are delivered and metered (R64 to R72). -/
def Router.block (r : Router) (chain a b : List Int) : Router :=
  let tone := r.tone.block chain.length
  let src := blockSources chain a b tone.2
  let main := r.main.block false r.mainMutePrev r.mainMute src
  let stage := r.stage.block false r.mainMutePrev r.mainMute src
  let phones := r.phones.block true r.phonesMutePrev r.phonesMute src
  { r with
    tone := tone.1, main := main.1, stage := stage.1, phones := phones.1, delivered := [main.2, stage.2, phones.2] }

/-! ## The close of a readout period (R63, R74) -/

def clipNotice (sink : Nat) (k : Sink) : Notice := ⟨8, 3, sink, [sink, k.left.clips, k.right.clips, k.unreported]⟩

/-- A sink at the close of a period (R63, R74). -/
def Sink.closePeriod (sink : Nat) (k : Sink) : Sink × List Notice :=
  let h := holdoffStep (decide (0 < k.left.clips ∨ 0 < k.right.clips)) k.holdoff k.unreported
  ({ k with holdoff := h.1, unreported := h.2.1, left := .zero, right := .zero },
    if h.2.2 then [clipNotice sink k] else [])

end Sys2Proof.Machine
end

