-- ==== Sys2Proof/Machine/Transitions.lean ====
section
/-! DEFINITION. The Transition Unit: selects, staging, restaging, the turn, the ends, tails, engine stop and restart (07). -/

namespace Sys2Proof.Machine

/-! ## Finishing a select (R135) -/

/-- FADE 0, DIP 1, CUT 2, direct 3 (R135). -/
def DecidedKind.code : DecidedKind → Nat
  | .fade => 0 | .dip => 1 | .cut => 2 | .direct => 3

/-- LIVE 0, SUPERSEDED 1, EMPTY 2, CUT_SHORT 3 (R135). -/
def SelectOutcome.code : SelectOutcome → Nat
  | .live => 0 | .superseded => 1 | .empty => 2 | .cutShort => 3

/-- The kind argument of a SCENE notice: 255 for a select never staged (R135). -/
def Select.kindCode (x : Select) : Nat := (x.decided.map (fun d => d.1.code)).getD 255

def Origin.cls : Origin → Nat
  | .slot _ => 0
  | .assignment _ => 1

def Origin.index : Origin → Nat
  | .slot n => n
  | .assignment i => i

/-- The SCENE notice of a select; `other` is argument 3 (R135). -/
def sceneNotice (x : Select) (outcome : SelectOutcome) (other : Nat) : Notice :=
  ⟨1, x.origin.cls, x.origin.index, [x.scene, outcome.code, x.kindCode, other]⟩

/-- The result of a select's request slot (R135). -/
def SelectOutcome.result (o : SelectOutcome) (clamped : Bool) : Result :=
  match o with
  | .live => okCode clamped
  | .superseded => .superseded
  | .empty => .emptyScene
  | .cutShort => .cutShort

/-- The completion of a select that came from a request slot (R135). -/
def Select.completions (x : Select) (o : SelectOutcome) : List Completion :=
  match x.origin with
  | .slot n => [⟨n, o.result x.clamped, .given x.scene⟩]
  | .assignment _ => []

/-- A select finishes: its notice, its slot, and for LIVE and CUT_SHORT its lamp frames (R135). -/
def State.finishSelect (s : State) (x : Select) (o : SelectOutcome) (other : Nat) : State :=
  let s' := (s.notify (sceneNotice x o other)).completeAll (x.completions o)
  if o = .live ∨ o = .cutShort then s'.handFrames (x.lamps.map LampEntry.frame) else s'

/-- A select replaced by a newer one of this scene finishes SUPERSEDED (R122, R135). -/
def State.supersede (s : State) (old : Option Select) (scene : Nat) : State :=
  match old with
  | some x => s.finishSelect x .superseded scene
  | none => s

/-! ## Placing a select (R122, R138) -/

/-- A select becomes the stopped select (R138). -/
def State.stopSelect (s : State) (x : Select) : State :=
  State.supersede { s with transition := { s.transition with stopped := some x } } s.transition.stopped x.scene

/-- A select acts on the Transition Unit according to its state (R122). -/
def State.takeSelect (s : State) (x : Select) : State :=
  if !s.engine.running then s.stopSelect x
  else
    match s.transition.state with
    | .idle => { s with transition := { s.transition with inFlight := some x, state := .staging } }
    | .staging =>
      State.supersede
        { s with
          transition := { s.transition with inFlight := some x }
          engine := { s.engine with overlay := [] } }
        s.transition.inFlight x.scene
    | .dipOut =>
      State.supersede { s with transition := { s.transition with inFlight := some x, restageDue := true } }
        s.transition.inFlight x.scene
    | _ => State.supersede { s with transition := { s.transition with pending := some x } } s.transition.pending x.scene

/-- A select as it is taken, with nothing decided yet (R120). -/
def Select.taken (scene : Nat) (origin : Origin) (kind : Option TransKind) (length : Option Nat) (clamped : Bool) : Select :=
  { scene := scene, origin := origin, kind := kind, length := length, clamped := clamped, decided := none, lamps := [],
    fromStop := false }

/-- The requested fade length of a SELECT_SCENE: 0 is the scene's own (R121). -/
def requestedLength (v : Int) : Option Nat × Bool :=
  if v = 0 then (none, false)
  else
    let c := clampMark 2 480 v
    (some (evenUp c.1).toNat, c.2)

/-- SELECT_SCENE (R121): a long request. -/
def carrySelectScene (t : Taken) (s : State) : Answer :=
  if t.arg0 < 0 ∨ 127 < t.arg0 then s.answer .range (.given t.arg0)
  else if t.arg1 ≠ 255 ∧ (TransKind.ofCode t.arg1).isNone then s.answer .invalid (.given t.arg0)
  else if (s.store.scene t.arg0).isNone then s.answer .emptyScene (.given t.arg0)
  else
    let length := requestedLength t.arg2
    ⟨s.takeSelect (.taken t.arg0.toNat (.slot t.slot) (TransKind.ofCode t.arg1) length.1 length.2), none⟩

def execSelectScene (s : State) : Host.Outcome State Fault Refusal :=
  whenReady s (·.take (isKind 10) .none carrySelectScene)

/-- A select of the Control Mapper: a scene that is EMPTY is not taken and writes the EMPTY notice (R122, R149). -/
def State.mapperSelect (s : State) (assignment scene : Nat) : State :=
  let x := Select.taken scene (.assignment assignment) none none false
  if (s.store.scene scene).isNone then s.notify (sceneNotice x .empty 255) else s.takeSelect x

/-! ## Copying a record (R8, R20, R123) -/

/-- The kind and length of a select at its staging (R90, R120). -/
def State.decideKind (s : State) (x : Select) (r : SceneRecord) : DecidedKind × Nat :=
  if s.tuner.isEngaged && s.tuner.mode == .mute then (.cut, 2)
  else
    match x.kind.getD r.kind with
    | .fade => (.fade, x.length.getD r.fade)
    | .dip => (.dip, x.length.getD r.fade)
    | .cut => (.cut, 2)

def StageEntry.view (e : StageEntry) : EditView := ⟨e.kind, e.enable, e.params⟩

/-- One overlay entry on the copied entries: dropped where the kind differs or the budget test fails (R20). -/
def overlayEntryOn (beside : Int) (views : List EditView) (o : OverlayEntry) : List EditView :=
  let v := views.getD o.position .empty
  let v' := o.applyTo v
  if v.load < v'.load ∧ 1000 < sumOf EditView.load views - v.load + v'.load + beside then views
  else views.set o.position v'

/-- The entries of a record with the staging overlay applied (R20). -/
def overlayOn (beside : Int) (overlay : List OverlayEntry) (views : List EditView) : List EditView :=
  overlay.foldl (overlayEntryOn beside) views

/-- The entries as fresh instances without lanes (R8, R123, step 2). -/
def freshViews (tempo : Nat) (views : List EditView) : List Stage :=
  views.map fun v => freshAt v.kind v.enable v.targets tempo []

/-- The tempo that a copy of a record brings: its own, or the one written last (R8, R24). -/
def Engine.tempoWith (e : Engine) (r : SceneRecord) : Nat := if r.tempo = 0 then e.tempoTarget else r.tempo

/-- The profile and tempo fields of a copied record are written (R24, R77, R123). -/
def State.writeSceneFields (s : State) (r : SceneRecord) : State :=
  { s with
    input := if r.profile = 255 then s.input else { s.input with chosen := r.profile }
    engine := { s.engine with tempoTarget := s.engine.tempoWith r } }

/-! ## Carries (R124) -/

/-- Is a position carried: the LIVE instance against the copied entry (R124)? -/
def carried (live copy : Stage) : Bool :=
  live.kind == copy.kind && live.kind != .none && !live.tailMode &&
  (live.kind != .delay || live.target 3 == copy.target 3) && (live.kind != .cab || live.target 0 == copy.target 0)

/-- The placeholder of a carried position (R124). R124 gives it kind, targets, enable flag and mark, no kind state and no lanes;
its currents, set to the targets, its ramp, OFF, and its delay times, 0, none of which a block start moves, are the model's
choice (log 51). -/
def placeholderOf (copy : Stage) : Stage :=
  { Stage.none with
    kind := copy.kind, enable := copy.enable, targets := copy.targets, currents := copy.targets, carry := true,
    placeholder := true }

/-- Carries decided position by position: LIVE's instances with their marks, and NEXT's with its placeholders (R124). -/
def decideCarries : List Stage → List Stage → List Stage × List Stage
  | l :: ls, c :: cs =>
    let rest := decideCarries ls cs
    let yes := carried l c
    ({ l with carry := yes } :: rest.1, (if yes then placeholderOf c else c) :: rest.2)
  | ls, cs => (ls, cs)

def Stage.uncarried (st : Stage) : Stage := { st with carry := false }

/-! ## Budget tests and tails (R125, R130 to R132) -/

/-- Cut tails, oldest first, until a test passes or none is left (R125). -/
def cutUntil (passes : List Tail → Bool) : List Tail → List Tail
  | [] => []
  | t :: ts => if passes (t :: ts) then t :: ts else cutUntil passes ts

/-- The admission test of a FADE (R125). -/
def admissionTest (live next : List Stage) (tails : List Tail) : Bool :=
  decide (fullLoad live + fullLoad next + fullLoad (tailStages tails) ≤ 1000) &&
  decide (heldLanes live + askedLanes next + heldLanes (tailStages tails) ≤ 4)

/-- The dip test (R125). -/
def dipTest (next : List Stage) (tails : List Tail) : Bool :=
  decide (fullLoad next + fullLoad (tailStages tails) ≤ 1000) &&
  decide (askedLanes next + heldLanes (tailStages tails) ≤ 4)

/-- Mark a tail candidate (R130). -/
def Stage.markTail (st : Stage) : Stage :=
  if st.kind = .delay ∧ st.target 6 = 1 ∧ st.ramp = .on ∧ st.carry = false then { st with tailMode := true } else st

/-- A tail as it joins (R131). -/
def Tail.joining (st : Stage) : Tail := ⟨st, 0, 0, 0⟩

/-- A tail candidate is offered to the tail list: the oldest of two tails is cut, and the candidate joins if lanes and
load allow (R131). -/
def offerTail (next : List Stage) (tails : List Tail) (st : Stage) : List Tail :=
  let tails := if 2 ≤ tails.length then tails.drop 1 else tails
  if askedLanes next + heldLanes (tailStages tails) + st.lanes.length ≤ 4 ∧
      fullLoad next + fullLoad (tailStages tails) + 24 ≤ 1000 then
    tails ++ [.joining st]
  else tails

/-- The tail candidates of a released bank are offered in position order (R131). -/
def releaseTails (next released : List Stage) (tails : List Tail) : List Tail :=
  (released.filter (·.tailMode)).foldl (offerTail next) tails

/-! ## STAGE_SELECT (R123) -/

/-- The TU has not yet acted at this block start, and RUN is set before and after it. -/
def State.mayMove (s : State) : Bool := s.engine.running && s.engine.runNext && !s.transition.acted

/-- The record of the in-flight select, where its copy need not wait on a LOADING slot (R117). -/
def State.copyReady (s : State) : Option SceneRecord :=
  match s.transition.inFlightScene s.store with
  | some r => if s.store.mustWait r then none else some r
  | none => none

/-- The in-flight select of STAGING has no record: only its scene's clearing while it was the stopped select can bring
that about (log 37). -/
def State.stagedEmpty (s : State) : Bool := (s.transition.inFlightScene s.store).isNone

def State.stageDue (s : State) : Bool :=
  s.mayMove && s.transition.state == .staging && s.transition.inFlight.isSome && (s.copyReady.isSome || s.stagedEmpty)

/-- What the decision at a staging leaves: the kind, LIVE, NEXT and the tails (R123, steps 4 and 5; R125). -/
structure Staged where
  kind : DecidedKind
  live : List Stage
  next : List Stage
  tails : List Tail
  deriving DecidableEq, Repr

/-- A DIP or CUT: carries, and the dip test (R124, R125). -/
def stagedDip (kind : DecidedKind) (live next : List Stage) (tails : List Tail) : Staged :=
  let c := decideCarries live next
  ⟨kind, c.1, c.2, cutUntil (dipTest c.2) tails⟩

/-- A decided kind carried through the tests (R123, step 4): an admitted FADE gives its DELAYs their lanes; one that is
not becomes a DIP. -/
def stagedAs (kind : DecidedKind) (live next : List Stage) (tails : List Tail) : Staged :=
  if kind = .fade then
    let kept := cutUntil (admissionTest live next) tails
    if admissionTest live next kept then
      ⟨.fade, live, giveAllLanes (freeLanes (lanesOf live ++ lanesOf (tailStages kept))) next, kept⟩
    else stagedDip .dip live next kept
  else stagedDip kind live next tails

/-- The copy and the decision of a staging (R123). -/
def State.copyStaged (s : State) (x : Select) (r : SceneRecord) : State :=
  let d := s.decideKind x r
  let views := overlayOn s.loadBeside s.engine.overlay (r.stages.map StageEntry.view)
  let live := s.engine.live
  let g := stagedAs d.1 live.stages (freshViews (s.engine.tempoWith r) views) s.engine.tails
  let e := (s.engine.setLive { live with stages := g.live.map Stage.markTail }).setOther ⟨.next, x.scene, g.next⟩
  let fade := g.kind == .fade
  State.writeSceneFields
    { s with
      engine := { e with tails := g.tails, overlay := [] }
      transition := { s.transition with
        state := if fade then .fading else .dipOut
        inFlight := some { x with decided := some (g.kind, d.2), lamps := r.lamps }
        count := 1, phaseLength := if fade then d.2 else d.2 / 2, restageDue := false, acted := true }
      mapper := s.mapper.uncatchAll } r

/-- The in-flight select of an EMPTY scene finishes EMPTY (log 37). -/
def State.dropEmpty (s : State) (x : Select) : State :=
  State.finishSelect
    { s with
      engine := { s.engine with overlay := [] }
      transition := { s.transition with state := .idle, inFlight := none, acted := true } } x .empty 255

/-- The staging work of a block start (R123). -/
def State.stageWork (s : State) : State :=
  if s.stageDue then
    match s.transition.inFlight, s.copyReady with
    | some x, some r => s.copyStaged x r
    | some x, none => s.dropEmpty x
    | none, _ => s
  else s

/-! ## RESTAGE (R133) -/

def State.restageDue (s : State) : Bool :=
  s.mayMove && s.transition.state == .dipOut && s.transition.restageDue && s.transition.inFlight.isSome &&
  s.copyReady.isSome

/-- A FADE decided at a restaging is carried out as a dip (R133; log 13). -/
def DecidedKind.asDip : DecidedKind → DecidedKind
  | .fade => .dip
  | k => k

/-- Count a block of a phase; past its last block the count stays (R127 to R129, R133). -/
def Transition.advanced (t : Transition) : Nat := if t.count < t.phaseLength then t.count + 1 else t.count

/-- The restaging of NEXT (R133). -/
def State.copyRestaged (s : State) (x : Select) (r : SceneRecord) : State :=
  let d := s.decideKind x r
  let live := s.engine.live
  let g := stagedDip d.1.asDip live.stages (freshViews (s.engine.tempoWith r) (r.stages.map StageEntry.view)) s.engine.tails
  let e := (s.engine.setLive { live with stages := g.live }).setOther ⟨.next, x.scene, g.next⟩
  State.writeSceneFields
    { s with
      engine := { e with tails := g.tails }
      transition := { s.transition with
        inFlight := some { x with decided := some (g.kind, d.2), lamps := r.lamps }
        count := s.transition.advanced, restageDue := false, acted := true }
      mapper := s.mapper.uncatchAll } r

def State.restageWork (s : State) : State :=
  if s.restageDue then
    match s.transition.inFlight, s.copyReady with
    | some x, some r => s.copyRestaged x r
    | _, _ => s
  else s

/-! ## The turn of a dip (R128) -/

/-- The out-phase is over and no restage is due (R128, R133). -/
def State.turnDue (s : State) : Bool :=
  s.mayMove && s.transition.state == .dipOut && !s.transition.restageDue &&
  decide (s.transition.phaseLength ≤ s.transition.count)

/-- A carried instance moves into NEXT in place of its placeholder, with its targets and enable flag (R128, step 2). -/
def carryInto (live next : Stage) : Stage :=
  if next.placeholder then { live with targets := next.targets, enable := next.enable, carry := true } else next

/-- NEXT after the turn: carried instances moved in, and the others given their lanes, those held elsewhere being
`held` (R128). -/
def turned (held : List Nat) (live next : List Stage) : List Stage :=
  let moved := List.zipWith carryInto live next
  giveAllLanes (freeLanes (lanesOf moved ++ held)) moved

/-- The length of the in-phase: half the decided length (R129, R133). -/
def Select.inPhase (x : Option Select) : Nat := ((x.bind (·.decided)).map (fun d => d.2 / 2)).getD 1

/-- The turn (R128). -/
def State.turnWork (s : State) : State :=
  if s.turnDue then
    let live := s.engine.live
    let next := s.engine.other
    let tails := releaseTails next.stages live.stages s.engine.tails
    let e := s.engine.setLive { live with stages := List.replicate 12 .none }
    let e := e.setOther { next with stages := turned (lanesOf (tailStages tails)) live.stages next.stages }
    { s with
      engine := { e with tails := tails }
      transition := { s.transition with
        state := .dipIn, count := 1, phaseLength := Select.inPhase s.transition.inFlight, acted := true } }
  else s

/-! ## The end of a transition (R127, R129) -/

def State.fadeEndDue (s : State) : Bool :=
  s.engine.running && !s.transition.acted && s.transition.state == .fading &&
  decide (s.transition.phaseLength ≤ s.transition.count)

def State.dipEndDue (s : State) : Bool :=
  s.engine.running && !s.transition.acted && s.transition.state == .dipIn &&
  decide (s.transition.phaseLength ≤ s.transition.count)

/-- NEXT becomes LIVE with its carry marks cleared, and the outgoing bank IDLE (R6, R124, R127). -/
def Engine.swapped (e : Engine) (stages : List Stage) : Engine :=
  let live : Bank := ⟨.live, e.other.scene, stages.map Stage.uncarried⟩
  if e.aIsLive then { e with bankA := .idle, bankB := live } else { e with bankA := live, bankB := .idle }

/-- A pending select starts staging, unless this block start is a stop (R134, R137). The block count becomes 0 and the phase
length stands: no rule gives either in IDLE and STAGING after a transition (the model's choice, log 48). -/
def Transition.nextSelect (t : Transition) (stopping : Bool) : Transition :=
  match stopping, t.pending with
  | false, some x => { t with inFlight := some x, pending := none, state := .staging, count := 0 }
  | _, _ => { t with inFlight := none, state := .idle, count := 0 }

/-- The end of a transition: the roles swap, the tails join, the select finishes LIVE and a pending select starts
staging (R127, R129, R134). -/
def State.endTransition (s : State) : State :=
  let out := s.engine.live
  let next := s.engine.other
  let tails := releaseTails next.stages out.stages s.engine.tails
  let s' :=
    { s with
      engine := { s.engine.swapped next.stages with tails := tails }
      transition :=
        { s.transition.nextSelect (!s.engine.runNext) with liveWeight := 256, nextWeight := 0, acted := true }
      mapper := s.mapper.uncatchAll }
  match s.transition.inFlight with
  | some x => s'.finishSelect x .live out.scene
  | none => s'

def State.fadeEndWork (s : State) : State := if s.fadeEndDue then s.endTransition else s

def State.dipEndWork (s : State) : State := if s.dipEndDue then s.endTransition else s

/-! ## The direct copy (R138) -/

/-- The entries of a record copied directly into a new LIVE bank; the old one is released (R138). -/
def Engine.directCopied (e : Engine) (scene tempo : Nat) (views : List EditView) : Engine :=
  let stages := giveAllLanes (freeLanes (lanesOf (tailStages e.tails))) (freshViews tempo views)
  let live : Bank := ⟨.live, scene, stages⟩
  if e.aIsLive then { e with bankA := .idle, bankB := live } else { e with bankA := live, bankB := .idle }

/-- A select copied directly and finished (R137, R138); `views` are the record's entries with any overlay applied. -/
def State.directCopy (s : State) (x : Select) (r : SceneRecord) (views : List EditView) (o : SelectOutcome) : State :=
  let out := s.engine.live.scene
  let s' :=
    State.writeSceneFields
      { s with
        engine := { s.engine.directCopied x.scene (s.engine.tempoWith r) views with overlay := [] }
        transition := { s.transition with liveWeight := 256, nextWeight := 0 }
        mapper := s.mapper.uncatchAll } r
  s'.finishSelect { x with decided := some (.direct, 0), lamps := r.lamps } o out

def State.directDue (s : State) : Bool :=
  !s.engine.running && !s.engine.runNext && !s.transition.acted &&
  match s.transition.stopped with
  | some x => (s.store.scene x.scene).elim true (fun r => !s.store.mustWait r)
  | none => false

/-- The direct copy of the stopped select (R138). -/
def State.directWork (s : State) : State :=
  if s.directDue then
    match s.transition.stopped with
    | some x =>
      let s' := { s with transition := { s.transition with stopped := none, acted := true } }
      match s.store.scene x.scene with
      | none => s'.finishSelect x .empty 255
      | some r => s'.directCopy x r (r.stages.map StageEntry.view) (if x.fromStop then .cutShort else .live)
    | none => s
  else s

/-! ## The engine stop (R137) -/

def State.stopDue (s : State) : Bool := s.engine.running && !s.engine.runNext

/-- Step 1 (R137): the tails are cut, and the candidates lose their marks. -/
def Engine.cutTails (e : Engine) : Engine :=
  let unmark := fun (b : Bank) => { b with stages := b.stages.map fun st => { st with tailMode := false } }
  { e with tails := [], bankA := unmark e.bankA, bankB := unmark e.bankB }

/-- Step 2 for a transition that has a NEXT (R137): it becomes LIVE at once. -/
def State.stopCompleting (s : State) (x : Select) : State :=
  let out := s.engine.live
  let stages := turned [] out.stages s.engine.other.stages
  State.finishSelect
    { s with
      engine := s.engine.swapped stages
      transition := { s.transition with inFlight := none }
      mapper := s.mapper.uncatchAll } x .cutShort out.scene

/-- Step 2 for a select in STAGING, or whose restage was not made (R137). -/
def State.stopStaging (s : State) (x : Select) : State :=
  let s' := { s with transition := { s.transition with inFlight := none } }
  match s.store.scene x.scene with
  | none => s'.finishSelect x .empty 255
  | some r =>
    if s.store.mustWait r then s'.stopSelect { x with fromStop := true }
    else s'.directCopy x r (overlayOn s.loadBeside s.engine.overlay (r.stages.map StageEntry.view)) .cutShort

/-- NEXT's placeholders and instances cease and that bank becomes IDLE (R137). LIVE's carry marks are cleared, which neither
R124 nor R137 says (the model's choice, log 50). -/
def Engine.dropNext (e : Engine) : Engine :=
  (e.setLive { e.live with stages := e.live.stages.map Stage.uncarried }).setOther .idle

/-- Step 2 (R137). -/
def State.stopInFlight (s : State) : State :=
  match s.transition.inFlight with
  | none => s
  | some x =>
    match s.transition.state with
    | .staging => s.stopStaging x
    | .dipOut =>
      if s.transition.restageDue then State.stopStaging { s with engine := s.engine.dropNext } x else s.stopCompleting x
    | _ => s.stopCompleting x

/-- Step 3 (R137): a pending select is applied at once. -/
def State.stopPending (s : State) : State :=
  match s.transition.pending with
  | none => s
  | some x =>
    let s' := { s with transition := { s.transition with pending := none } }
    match s.store.scene x.scene with
    | none => s'.finishSelect x .empty 255
    | some r =>
      if s.store.mustWait r then s'.stopSelect x
      else s'.directCopy x r (r.stages.map StageEntry.view) .live

/-- Step 4 (R137). The block count becomes 0 and the phase length stands, which R137 does not say (the model's choice,
log 48). -/
def State.stopped (s : State) : State :=
  { s with
    engine := { s.engine with overlay := [], running := false }
    transition := { s.transition with
      state := .idle, count := 0, liveWeight := 256, nextWeight := 0, liveNew := 256, nextNew := 0, loadFigure := 0, blockLoad := 0,
      restageDue := false, acted := true } }

/-- The engine stop (R137). -/
def State.stopWork (s : State) : State :=
  if s.stopDue then State.stopped (State.stopPending (State.stopInFlight { s with engine := s.engine.cutTails })) else s

/-! ## The engine restart (R139) -/

def State.restartDue (s : State) : Bool := !s.engine.running && s.engine.runNext

/-- The engine restart: LIVE is made fresh in place, the start gain is 0, and a stopped select enters STAGING (R138,
R139). -/
def State.restartWork (s : State) : State :=
  if s.restartDue then
    let live := s.engine.live
    let e := s.engine.setLive { live with stages := live.stages.map (Stage.refreshed s.engine.tempoTarget) }
    let t := { s.transition with startGainPrev := 0, startGain := 0, acted := true }
    { s with
      engine := { e with running := true }
      transition := match t.stopped with
        | some x => { t with stopped := none, inFlight := some { x with fromStop := false }, state := .staging }
        | none => t }
  else s

/-! ## Counting the blocks of a transition (R127 to R129) -/

/-- A transition under way at which nothing else has happened counts a block. -/
def State.advanceWork (s : State) : State :=
  if s.engine.running && !s.transition.acted && s.transition.state != .idle && s.transition.state != .staging then
    { s with transition := { s.transition with count := s.transition.advanced } }
  else s

/-- The weights of the block that begins, LIVE and NEXT (R127, R128, R129). -/
def Transition.weights (t : Transition) : Nat × Nat :=
  match t.state with
  | .fading => (256 - 256 * t.count / t.phaseLength, 256 * t.count / t.phaseLength)
  | .dipOut => (256 - 256 * t.count / t.phaseLength, 0)
  | .dipIn => (0, 256 * t.count / t.phaseLength)
  | _ => (256, 0)

end Sys2Proof.Machine
end

