-- ==== Sys2Proof/Machine/Mapper.lean ====
section
/-! DEFINITION. The Control Mapper: assignments, actions, pedal takeover, tap tempo and referrals (08). -/

namespace Sys2Proof.Machine

/-! ## SET_ASSIGN and CLEAR_ASSIGN (R147, R148, 11.3) -/

def Trigger.ofCode : Nat → Option Trigger
  | 0 => some .press | 1 => some .releaseShort | 2 => some .hold | 3 => some .releaseAny | 4 => some .pedal | _ => none

def Action.ofCode : Nat → Option Action
  | 0 => some .scene | 1 => some .sceneStep | 2 => some .toggle | 3 => some .param | 4 => some .tunerToggle
  | 5 => some .tap | 6 => some .profile | 7 => some .forward | _ => none

def PedalCurve.ofCode : Nat → Option PedalCurve
  | 0 => some .linear | 1 => some .slow | 2 => some .fast | _ => none

/-- The image of an assignment as it is read: codes not yet checked (11.3). -/
structure AssignImage where
  enabled : Int
  scope : Nat
  scopeScene : Nat
  unit : Nat
  control : Nat
  trigger : Nat
  action : Nat
  argument : Int
  policy : Nat
  default : Nat
  kind : Nat
  index : Nat
  curve : Nat
  takeover : Nat
  min : Int
  max : Int
  deriving DecidableEq, Repr

def assignImage (image : List Byte) : AssignImage :=
  let byte := fun i => imageNat image i 1
  { enabled := imageInt image 0x00 1, scope := byte 0x01, scopeScene := byte 0x02, unit := byte 0x03,
    control := byte 0x04, trigger := byte 0x05, action := byte 0x06, argument := imageInt image 0x07 1,
    policy := byte 0x08, default := byte 0x09, kind := byte 0x0A, index := byte 0x0B, curve := byte 0x0C,
    takeover := byte 0x0D, min := imageInt image 0x10 4, max := imageInt image 0x14 4 }

/-- Is the action argument outside its range (R147, field 7)? -/
def argumentFault (action : Action) (v : Int) : Option Result :=
  let outside := fun (hi : Int) => if v < 0 ∨ hi < v then some Result.range else none
  match action with
  | .scene => outside 127
  | .toggle => outside 11
  | .param => outside 11
  | .profile => outside 7
  | .sceneStep => if v = 0 then some .invalid else none
  | _ => none

/-- The parameter index of a PARAM (R147, field 11). -/
def indexFault (kind : Nat) (index : Nat) : Option Result :=
  match paramRule ((Kind.ofCode kind).getD .none) index with
  | none => some .range
  | some r => if r.cls = .fixed then some .invalid else none

/-- The first fault of an assignment after its index, by field number (R147). -/
def AssignImage.fault (x : AssignImage) : Option (Nat × Result) :=
  match Trigger.ofCode x.trigger, Action.ofCode x.action with
  | none, _ =>
    if 1 < x.scope then some (1, .invalid)
    else if x.scope = 1 ∧ 127 < x.scopeScene then some (2, .range)
    else if x.unit < 1 ∨ 15 < x.unit then some (3, .range)
    else some (4, .invalid)
  | some trigger, action =>
    let param := action == some .param
    if 1 < x.scope then some (1, .invalid)
    else if x.scope = 1 ∧ 127 < x.scopeScene then some (2, .range)
    else if x.unit < 1 ∨ 15 < x.unit then some (3, .range)
    else if (if trigger = .pedal then 3 else 13) < x.control then some (5, .range)
    else if param ≠ (trigger == .pedal) then some (6, .invalid)
    else match action with
      | none => some (6, .invalid)
      | some a =>
        match argumentFault a x.argument with
        | some code => some (7, code)
        | none =>
          let refer := x.policy == 1
          if 1 < x.policy ∨ (refer ∧ a ≠ .scene ∧ a ≠ .sceneStep) then some (8, .invalid)
          else if refer ∧ 1 < x.default then some (9, .invalid)
          else if param then
            if x.kind < 1 ∨ 8 < x.kind then some (10, .invalid)
            else match indexFault x.kind x.index with
              | some code => some (11, code)
              | none =>
                if 2 < x.curve then some (12, .invalid)
                else if 1 < x.takeover then some (13, .invalid)
                else none
          else none

/-- The action argument as it is stored (R147): a SCENE_STEP direction is clamped to −1 or +1, and an action that does
not use it holds 0 (R145). -/
def argumentWritten (action : Action) (v : Int) : Int × Bool :=
  match action with
  | .sceneStep => clampMark (-1) 1 v
  | .scene => (v, false)
  | .toggle => (v, false)
  | .param => (v, false)
  | .profile => (v, false)
  | _ => (0, false)

/-- The assignment that an image without a fault is stored as (R145, R147). The default of a referral is APPLY 0 or
DROP 1. -/
def AssignImage.assignment (x : AssignImage) : Assignment × Bool :=
  let action := (Action.ofCode x.action).getD .scene
  let arg := argumentWritten action x.argument
  let enable := enableWritten x.enabled
  let base : Assignment :=
    { Assignment.cleared with
      enabled := enable.1, scope := if x.scope = 1 then some x.scopeScene else none, unit := x.unit,
      control := x.control, trigger := (Trigger.ofCode x.trigger).getD .press, action := action, argument := arg.1,
      refer := if x.policy = 1 then some (x.default == 0) else none }
  if action = .param then
    let k := (Kind.ofCode x.kind).getD .none
    let lo := paramClamped k x.index x.min
    let hi := paramClamped k x.index x.max
    ({ base with
        kind := k, index := x.index, min := lo.1, max := hi.1,
        curve := (PedalCurve.ofCode x.curve).getD .linear, takeover := x.takeover == 1 },
      enable.2 || arg.2 || lo.2 || hi.2)
  else (base, enable.2 || arg.2)

/-- SET_ASSIGN (R147). -/
def carrySetAssign (t : Taken) (s : State) : Answer :=
  if t.arg0 < 0 ∨ 31 < t.arg0 then s.answer .range (.given (fieldRefusal 0))
  else
    let image := assignImage (readBytes s.ram t.offset 32)
    match image.fault with
    | some f => s.answer f.2 (.given (fieldRefusal f.1))
    | none =>
      let a := image.assignment
      State.answer
        { s with mapper := { s.mapper with assignments := s.mapper.assignments.set t.arg0.toNat a.1 } }
        (okCode a.2) (.given t.arg0)

def execSetAssign (s : State) : Host.Outcome State Fault Refusal :=
  whenReady s (·.take (isKind 16) (.exactly 32) carrySetAssign)

/-- CLEAR_ASSIGN (R148). -/
def carryClearAssign (t : Taken) (s : State) : Answer :=
  if t.arg0 < 0 ∨ 31 < t.arg0 then s.answer .range .unstated
  else
    let was := (s.mapper.assignments.getD t.arg0.toNat .cleared).enabled
    State.answer
      { s with mapper := { s.mapper with assignments := s.mapper.assignments.set t.arg0.toNat .cleared } }
      .ok (.given (boolInt was))

def execClearAssign (s : State) : Host.Outcome State Fault Refusal :=
  whenReady s (·.take (isKind 17) .none carryClearAssign)

/-! ## Scenes and referrals (R149, R156) -/

/-- The base of a SCENE_STEP (R149). -/
def State.stepBase (s : State) : Nat :=
  match s.mapper.referral, s.transition.pending, s.transition.inFlight, s.transition.stopped with
  | some r, _, _, _ => r.scene
  | none, some x, _, _ => x.scene
  | none, none, some x, _ => x.scene
  | none, none, none, some x => x.scene
  | none, none, none, none => s.engine.live.scene

/-- The scenes that a SCENE_STEP searches, in order (R149). -/
def stepOrder (base : Nat) (up : Bool) : List Nat :=
  if base = 255 then (if up then List.range 128 else (List.range 128).reverse)
  else (List.range 127).map fun i => (if up then base + i + 1 else base + 256 - i - 1) % 128

/-- The scene that a SCENE_STEP names, if it finds a STORED entry (R149). -/
def State.stepScene (s : State) (up : Bool) : Option Nat :=
  (stepOrder s.stepBase up).find? fun (n : Nat) => (s.store.scene n).isSome

/-- The next referral id: from 255 to 1, skipping 0 (R156). -/
def nextId (id : Nat) : Nat := if 255 ≤ id then 1 else id + 1

def referNotice (r : Referral) (e : ControlEvent) : Notice := ⟨2, 1, r.assignment, [r.id, r.scene, e.unit, e.control]⟩

/-- A referral replaces any pending one, and a REFER notice is written (R156). -/
def State.makeReferral (s : State) (e : ControlEvent) (assignment scene : Nat) (apply : Bool) : State :=
  let id := nextId s.mapper.lastId
  let r : Referral := ⟨id, scene, assignment, apply, s.mapper.timeout⟩
  State.notify { s with mapper := { s.mapper with referral := some r, lastId := id } } (referNotice r e)

/-- A named scene with a policy (R149): selected at once, or referred where it is STORED. -/
def State.nameScene (s : State) (e : ControlEvent) (i scene : Nat) (refer : Option Bool) : State :=
  match refer with
  | none => s.mapperSelect i scene
  | some apply =>
    if (s.store.scene scene).isSome then s.makeReferral e i scene apply else s.mapperSelect i scene

/-- A pending referral ends with a select of a scene, from its assignment (R157, R158). -/
def State.settleReferral (s : State) (r : Referral) (scene : Nat) : State :=
  State.mapperSelect { s with mapper := { s.mapper with referral := none } } r.assignment scene

/-- VERDICT (R157). -/
def carryVerdict (t : Taken) (s : State) : Answer :=
  if t.arg1 < 0 ∨ 2 < t.arg1 then s.answer .invalid .unstated
  else match s.mapper.referral with
    | none => s.answer .tooLate (.given t.arg0)
    | some r =>
      if t.arg0 ≠ r.id then s.answer .tooLate (.given t.arg0)
      else if t.arg1 = 0 then (s.settleReferral r r.scene).answer .ok (.given r.scene)
      else if t.arg1 = 1 then
        State.answer { s with mapper := { s.mapper with referral := none } } .ok (.given 255)
      else if t.arg2 < 0 ∨ 127 < t.arg2 then s.answer .range .unstated
      else if (s.store.scene t.arg2).isNone then s.answer .emptyScene .unstated
      else (s.settleReferral r t.arg2.toNat).answer .ok (.given t.arg2)

def execVerdict (s : State) : Host.Outcome State Fault Refusal := whenReady s (·.take (isKind 18) .none carryVerdict)

/-- The referral reaches the end of its expiry at this block start (R158). -/
def State.expiryDue (s : State) : Bool :=
  match s.mapper.referral with
  | some r => decide (r.expiry ≤ 1)
  | none => false

/-- The expiry count of a block start (R158). -/
def State.referralWork (s : State) : State :=
  match s.mapper.referral with
  | none => s
  | some r =>
    if r.expiry ≤ 1 then
      if r.apply then s.settleReferral r r.scene else { s with mapper := { s.mapper with referral := none } }
    else { s with mapper := { s.mapper with referral := some { r with expiry := r.expiry - 1 } } }

/-! ## Pedals (R151 to R153) -/

/-- floor(√n) for n below 2^20. -/
def root (n : Nat) : Nat := greatest (fun g => decide (g * g ≤ n)) 10 0

/-- The curve of a pedal (R151). -/
def PedalCurve.apply (c : PedalCurve) (v : Nat) : Nat :=
  match c with
  | .linear => v
  | .slow => v * v / 1023
  | .fast => root (v * 1023)

/-- The mapped value of a pedal position, clamped as R14 clamps (R151). -/
def Assignment.mapped (a : Assignment) (v : Nat) : Int :=
  (paramClamped a.kind a.index (a.min + ((a.max - a.min) * a.curve.apply v + 511) / 1023)).1

/-- The takeover rule of CATCH: the state after, and whether m is written (R153). -/
def CatchState.step (c : CatchState) (m ref : Int) : CatchState × Bool :=
  if m = ref then (.caught, true)
  else
    match c, decide (m < ref) with
    | .uncaught, true => (.below, false)
    | .uncaught, false => (.above, false)
    | .below, true => (.below, false)
    | .below, false => (.caught, true)
    | .above, true => (.caught, true)
    | .above, false => (.above, false)
    | .caught, _ => (.caught, true)

def State.setCatch (s : State) (i : Nat) (c : CatchState) : State :=
  { s with mapper := { s.mapper with assignments := setAt s.mapper.assignments i (fun a => { a with catching := c }) } }

/-- The takeover rule of an assignment: JUMP allows every write (R152). -/
def Assignment.takes (a : Assignment) (m ref : Int) : CatchState × Bool :=
  if a.takeover then a.catching.step m ref else (a.catching, true)

/-- A PARAM action (R152): the kind must be the expected one; the takeover rule moves first; the write is an edit, and
uncatches the other CATCH assignments of the parameter (R154). -/
def State.paramAction (s : State) (i : Nat) (a : Assignment) (v : Nat) : State :=
  let view := s.editView a.argument.toNat
  if view.kind ≠ a.kind then s
  else
    let m := a.mapped v
    let c := a.takes m (view.targets.getD a.index 0)
    let s' := s.setCatch i c.1
    if c.2 then
      match s'.editParam a.argument a.index m a.kind.code with
      | .refused _ => s'
      | .wrote _ _ s₂ => { s₂ with mapper := s₂.mapper.uncatch a.argument a.index (some i) }
    else s'

/-- The flag that a TOGGLE turns over (R23): in STAGING the one that the overlay holds for the position, whatever kind its
entry was checked against, and otherwise that of the instance or record. -/
def State.toggledFlag (s : State) (p : Nat) : Bool :=
  match s.transition.state, s.engine.overlay.find? (fun o => o.position == p && o.index.isNone) with
  | .staging, some o => o.value == 1
  | _, _ => (s.editView p).enable

/-- A TOGGLE action (R23, R150). -/
def State.toggleAction (s : State) (position : Int) : State :=
  match s.editEnable position (boolInt !(s.toggledFlag position.toNat)) 0 with
  | .refused _ => s
  | .wrote _ _ s' => s'

/-! ## Tap tempo (R155) -/

/-- The tempo of a run of intervals (R155). -/
def tapTempo (intervals : List Nat) : Int :=
  clampInt 400 3000 (roundHalfUp (900000 * intervals.length) (intervals.foldl (· + ·) 0 : Nat))

/-- One tap at this time (R155). -/
def State.tap (s : State) (time : Word) : State :=
  match s.mapper.lastTap with
  | none => { s with mapper := { s.mapper with lastTap := some time } }
  | some last =>
    let b := (time - last).toNat
    if b < 300 ∨ 3000 < b then { s with mapper := { s.mapper with lastTap := some time, intervals := [] } }
    else
      let all := s.mapper.intervals ++ [b]
      let kept := all.drop (all.length - 3)
      State.writeTempo { s with mapper := { s.mapper with lastTap := some time, intervals := kept } } (tapTempo kept)

/-! ## Events (R144, R146, R150) -/

def switchNotice (i : Nat) (e : ControlEvent) : Notice := ⟨3, 1, i, [e.unit, e.control, e.trigger.code, e.value]⟩

/-- The scope of an assignment is met (R146). -/
def Assignment.inScope (a : Assignment) (live : Nat) : Bool :=
  match a.scope with
  | none => true
  | some scene => scene == live

/-- An event matches an assignment (R146). -/
def Assignment.isMatch (a : Assignment) (e : ControlEvent) (live : Nat) : Bool :=
  a.enabled && a.unit == e.unit && a.trigger == e.trigger && a.control == e.control && a.inScope live

/-- The action of a match (R149, R150, R152, R155); `tapped`: an earlier match of this event was a TAP. -/
def State.act (s : State) (i : Nat) (a : Assignment) (e : ControlEvent) (tapped : Bool) : State :=
  match a.action with
  | .scene => s.nameScene e i a.argument.toNat a.refer
  | .sceneStep =>
    match s.stepScene (decide (0 < a.argument)) with
    | some scene => s.nameScene e i scene a.refer
    | none => s
  | .toggle => s.toggleAction a.argument
  | .param => s.paramAction i a e.value
  | .tunerToggle => s.toggleTuner
  | .tap => if tapped then s else s.tap e.time
  | .profile => s.choose a.argument.toNat
  | .forward => s.notify (switchNotice i e)

/-- The assignments are tested from this index up, each on the state the ones before it left (R146). -/
def State.actFrom (e : ControlEvent) : List Nat → State → Bool → State
  | [], s, _ => s
  | i :: rest, s, tapped =>
    let a := s.mapper.assignments.getD i .cleared
    if a.isMatch e s.engine.live.scene then State.actFrom e rest (s.act i a e tapped) (tapped || a.action == .tap)
    else State.actFrom e rest s tapped

/-- The head event is removed and handled whole (R144). -/
def State.eventWork (s : State) : State :=
  match s.mapper.queue with
  | [] => s
  | e :: rest => State.actFrom e (List.range 32) { s with mapper := { s.mapper with queue := rest } } false

end Sys2Proof.Machine
end

