-- ==== Sys2Proof/Machine/BlockStart.lean ====
section
/-! DEFINITION. The block start: the block just ended is processed, and then the works of the block start follow in one
order (R5, R9, R144, R194; log 4). The commands that name one event of a block start run it up to that event (log 5). -/

namespace Sys2Proof.Machine

/-! ## The block just ended (R11, R126) -/

/-- What the chain makes of a block: both banks and the tails after it, the sum before saturation, and the CHAIN
samples. -/
structure ChainBlock where
  live : List Stage
  next : List Stage
  tails : List Tail
  sums : List Int
  chain : List Int
  deriving DecidableEq, Repr

/-- A bank is processed in a block where its weight at the start or at the end of it is above 0 (R126), and both banks are
in every FADING block (R127). -/
def Transition.runs (t : Transition) (prev new : Nat) : Bool :=
  t.state == .fading || decide (0 < prev) || decide (0 < new)

/-- A bank over a block: one that is not processed keeps its state and contributes 0 (R126). -/
def runBank (store : Store) (runs : Bool) (prev new : Nat) (stages : List Stage) (xs : List Int) :
    List Stage × List Int × List Int :=
  if runs then runStages store prev new stages xs else (stages, xs.map (fun _ => 0), [])

/-- The bank mix of R126, step 2. -/
def bankMix (t : Transition) : Nat → List Int → List Int → List Int
  | i, l :: ls, n :: ns =>
    (l * weightAt t.liveWeight t.liveNew i + n * weightAt t.nextWeight t.nextNew i + 4096) / 8192 ::
      bankMix t (i + 1) ls ns
  | _, _, _ => []

/-- The CHAIN sample of a sum (R126, steps 3 and 4; R139). -/
def chainOf (t : Transition) (i : Nat) (sum : Int) : Int :=
  (saturate sum * rampAt t.startGainPrev t.startGain i + 128) / 256

/-- The chain over a block (R11, R126). -/
def chainBlock (store : Store) (e : Engine) (t : Transition) (xs : List Int) : ChainBlock :=
  let live := runBank store (t.runs t.liveWeight t.liveNew) t.liveWeight t.liveNew e.live.stages xs
  let next := runBank store (t.runs t.nextWeight t.nextNew) t.nextWeight t.nextNew e.other.stages xs
  let tails := runTails store xs.length e.tails
  let wet := addRuns (addRuns live.2.2 next.2.2) tails.2
  let sums := (addRuns (bankMix t 0 live.2.1 next.2.1) wet).take xs.length
  ⟨live.1, next.1, tails.1, sums, mapBlock (chainOf t) 0 sums⟩

/-- The CHAIN tap point: a clip where the sum lay outside the range (R62). -/
def meterChain (m : Meter) : List Int → List Int → Meter
  | c :: cs, s :: ss => meterChain (m.add c (saturate s != s)) cs ss
  | _, _ => m

/-- While RUN is clear no stage is processed and the CHAIN bus carries zero (R10). -/
def State.chainOfBlock (s : State) (xs : List Int) : ChainBlock :=
  if s.engine.running then chainBlock s.store s.engine s.transition xs
  else
    ⟨s.engine.live.stages, s.engine.other.stages, s.engine.tails, xs.map (fun _ => 0), xs.map (fun _ => 0)⟩

/-- After the block its weights and gain are those in force, and its processed load the load figure (R126, R140). -/
def Transition.afterBlock (t : Transition) : Transition :=
  { t with liveWeight := t.liveNew, nextWeight := t.nextNew, loadFigure := t.blockLoad }

/-- The block just ended: the chain, the Router and the meters (R11, R59 to R66, R126). -/
def State.processBlock (s : State) : State :=
  let g := s.grid
  let c := s.chainOfBlock (s.input.chainInput g.samplesA g.samplesB)
  let e := (s.engine.setLive { s.engine.live with stages := c.live })
  let router := s.router.block c.chain g.samplesA g.samplesB
  { s with
    engine := { e.setOther { s.engine.other with stages := c.next } with tails := c.tails }
    transition := if s.engine.running then s.transition.afterBlock else s.transition
    input := s.input.afterBlock
    router := { router with chain := meterChain router.chain c.chain c.sums } }

/-- The first work of a block start: the block just ended, if one was in progress; then the count of block starts (R171,
R193) and what this block start finds as it begins: RUN (R136) and the trim target (R84). -/
def State.closeWork (s : State) : State :=
  let s := if s.grid.opened then s.processBlock else s
  { s with
    engine := { s.engine with runNext := s.port.run }
    transition := { s.transition with acted := false }
    input := { s.input with trimGoal := s.input.trimTarget }
    link := { s.link with blockCount := s.link.blockCount + 1 }
    report := { s.report with periodCount := s.report.periodCount + 1 } }

/-! ## Tails at a block start (R132) -/

/-- A tail's quiet counter over the block just ended (R132). -/
def Tail.countQuiet (t : Tail) : Tail := { t with quiet := if 180 ≤ peakCode t.wetPeak then t.quiet + 1 else 0 }

/-- A tail has been quiet for a whole repeat interval (R132). -/
def Tail.quietOver (t : Tail) : Bool := decide (ceilDiv t.stage.delayCurrent 32 ≤ t.quiet)

def Tail.countAge (t : Tail) : Tail := { t with age := t.age + 1 }

def Tail.ageOver (t : Tail) : Bool := decide (12000 ≤ t.age)

def Engine.quietWork (e : Engine) : Engine := { e with tails := (e.tails.map Tail.countQuiet).filter (fun t => !t.quietOver) }

def Engine.ageWork (e : Engine) : Engine := { e with tails := (e.tails.map Tail.countAge).filter (fun t => !t.ageOver) }

/-! ## The engine's own work (R9) -/

def Bank.atBlockStart (tempo : Nat) (b : Bank) : Bank := { b with stages := b.stages.map (Stage.atBlockStart tempo) }

def Tail.atBlockStart (tempo : Nat) (t : Tail) : Tail := { t with stage := t.stage.atBlockStart tempo }

/-- The processed load of the block that begins (R17, R126, R127). -/
def processedIn (e : Engine) (t : Transition) : Int :=
  (if t.runs t.liveWeight t.liveNew then processedLoad e.live.stages else 0) +
  (if t.runs t.nextWeight t.nextNew then processedLoad e.other.stages else 0) +
  processedLoad (tailStages e.tails)

/-- The engine's work of a block start: the tempo is taken up; while RUN is set the instances move (R9, R10, R24), and the
weights and the start gain of the block that begins are formed (R126, R139). -/
def State.engineWork (s : State) : State :=
  let tempo := s.engine.tempoTarget
  let e := { s.engine with tempo := tempo }
  if s.engine.running then
    let e := { e with
      bankA := e.bankA.atBlockStart tempo, bankB := e.bankB.atBlockStart tempo,
      tails := e.tails.map (Tail.atBlockStart tempo) }
    let w := s.transition.weights
    let t := { s.transition with
      liveNew := w.1, nextNew := w.2,
      startGainPrev := s.transition.startGain, startGain := moveGain s.transition.startGain 256 }
    { s with engine := e, transition := { t with blockLoad := (processedIn e t).toNat } }
  else { s with engine := e }

/-! ## The readout page (R193, R194, 11.2) -/

/-- LIVE, NEXT and pending scene numbers (R140): a bank without a scene reads 255, and so does NEXT while IDLE or
STAGING. -/
def State.sceneNumbers (s : State) : Nat × Nat × Nat :=
  (s.engine.live.scene, s.engine.other.scene, (s.transition.pending.map (·.scene)).getD 255)

def TransState.code : TransState → Nat
  | .idle => 0 | .staging => 1 | .fading => 2 | .dipOut => 3 | .dipIn => 4

def GateState.code : GateState → Nat
  | .closed => 0 | .opening => 1 | .opened => 2 | .holding => 3 | .closing => 4

def UnitState.code : UnitState → Nat
  | .unused => 0 | .joining => 1 | .present => 2 | .lost => 3

/-- The gate state of a position, 255 for other kinds (R194). -/
def Stage.gateFigure (st : Stage) : Int :=
  match st.state with
  | .gate g _ _ => g.code
  | _ => 255

/-- The gain reduction of a position, 255 for other kinds (R194). -/
def Stage.compFigure (st : Stage) : Int :=
  match st.state with
  | .comp gr => gr
  | _ => 255

/-- Lanes in use: those held by instances of LIVE, NEXT and the tail list (R140). -/
def Engine.lanesInUse (e : Engine) : Nat :=
  (lanesOf e.bankA.stages ++ lanesOf e.bankB.stages ++ lanesOf (tailStages e.tails)).length

/-- The CHAIN tap point as a page shows it: silent, peak code 255 and no clips, while RUN is clear (R10, R63, R193), which
R136 reads as from a stop up to the next restart; else the figures of the whole period (log 38). -/
def State.chainShown (s : State) : Meter := if s.engine.running then s.router.chain else .zero

/-- The nine tap points as a page shows them, in its order (R62). -/
def State.meters (s : State) : List Meter :=
  let r := s.router
  [s.input.inputA.meter, s.input.inputB.meter, s.chainShown, r.main.left, r.main.right, r.stage.left, r.stage.right,
   r.phones.left, r.phones.right]

/-- The figures that the owners hand over as the period closes (R194): the peaks, the clips and the crackles. -/
def State.periodFields (s : State) : List Field :=
  (s.meters.mapIdx fun i m => (⟨0x004 + i, 1, peakCode m.peak⟩ : Field)) ++
  [⟨0x00D, 1, 0⟩] ++
  (s.meters.mapIdx fun i m => (⟨0x00E + 2 * i, 2, m.clips⟩ : Field)) ++
  [⟨0x020, 2, s.input.inputA.crackles⟩, ⟨0x022, 2, s.input.inputB.crackles⟩]

/-- The figures of the Transition Unit and the engine (R140, R194). -/
def State.engineFields (s : State) : List Field :=
  let n := s.sceneNumbers
  [⟨0x024, 1, n.1⟩, ⟨0x025, 1, n.2.1⟩, ⟨0x026, 1, n.2.2⟩, ⟨0x027, 1, s.transition.state.code⟩,
   ⟨0x028, 2, s.transition.liveWeight⟩, ⟨0x02A, 2, s.transition.nextWeight⟩, ⟨0x02C, 2, s.transition.loadFigure⟩,
   ⟨0x02E, 1, s.engine.lanesInUse⟩, ⟨0x02F, 1, s.engine.tails.length⟩] ++
  ((List.range 12).map fun p => (⟨0x030 + p, 1, (s.engine.live.stages.getD p .none).gateFigure⟩ : Field)) ++
  ((List.range 12).map fun p => (⟨0x03C + p, 1, (s.engine.live.stages.getD p .none).compFigure⟩ : Field)) ++
  [⟨0x048, 2, s.engine.tempo⟩]

/-- The figures of the Tuner, the learner, the profile and the unit table (R101, R194). -/
def State.otherFields (s : State) : List Field :=
  let t := s.tuner
  [⟨0x04A, 1, t.state.code⟩, ⟨0x04B, 1, t.shown.1⟩, ⟨0x04C, 2, t.shown.2⟩, ⟨0x04E, 2, t.lastEstimate⟩,
   ⟨0x050, 1, boolInt s.input.learner.learning⟩, ⟨0x051, 1, 0⟩, ⟨0x052, 2, s.input.learner.signalBlocks⟩,
   ⟨0x054, 1, s.input.active⟩, ⟨0x055, 1, 0⟩, ⟨0x056, 2, s.input.trimCurrent⟩] ++
  ((s.store.profiles.getD s.input.active .reset).name.mapIdx fun i b => (⟨0x058 + i, 1, b.toNat⟩ : Field)) ++
  (s.link.units.mapIdx fun i u => (⟨0x060 + i, 1, u.state.code⟩ : Field)) ++
  ((List.range 230).map fun i => (⟨0x068 + 4 * i, 4, 0⟩ : Field))

/-- The serial first, then the figures (R194). -/
def State.pageFields (s : State) (serial : Word) : List Field :=
  ⟨0x000, 4, serial.toNat⟩ :: (s.periodFields ++ s.engineFields ++ s.otherFields)

/-- Where a page lies (11.2). -/
def pageAddress (select : Bool) : Nat := if select then 0xC00 else 0x800

/-- The page of the period is written and published (R193): page select, serial and SIGNAL.PAGE in that order. -/
def State.publishPage (s : State) : State :=
  let select := !s.report.pageSelect
  let serial := s.report.serial + 1
  let page := writeFields s.ram (pageAddress select) (s.pageFields serial)
  State.raise
    { s with
      ram := writeLE (writeLE page 0x0C (boolInt select) 2) 0x10 serial.toNat 4
      report := { s.report with pageSelect := select, serial := serial, periodCount := 0 } }
    .causePage

/-- The owners close the period: counts and peaks return to 0, and CRACKLE and CLIP notices are written (R57, R58, R63,
R74). -/
def State.closePeriods (s : State) : State :=
  let a := s.input.inputA.closePeriod 0
  let b := s.input.inputB.closePeriod 1
  let main := s.router.main.closePeriod 0
  let stage := s.router.stage.closePeriod 1
  let phones := s.router.phones.closePeriod 2
  State.notifyAll
    { s with
      input := { s.input with inputA := a.1, inputB := b.1 }
      router := { s.router with main := main.1, stage := stage.1, phones := phones.1, chain := .zero } }
    (a.2 ++ b.2 ++ main.2 ++ stage.2 ++ phones.2)

/-- A readout period closes at every 16th block start (R193). -/
def State.pageDue (s : State) : Bool := decide (16 ≤ s.report.periodCount)

/-- The readout work of a block start (R193; log 32: the notices after the page). -/
def State.pageWork (s : State) : State := if s.pageDue then s.publishPage.closePeriods else s

/-! ## The works in order -/

/-- What each work of a block start does. -/
def Work.run (w : Work) (s : State) : State :=
  match w with
  | .close => s.closeWork
  | .tailQuiet => { s with engine := s.engine.quietWork }
  | .tailAge => { s with engine := s.engine.ageWork }
  | .learn => s.learnWork
  | .window => s.windowWork s.grid.opened
  | .profile => s.profileWork
  | .collect => { s with tuner := s.tuner.takeUpEngage }
  | .tables => { s with store := s.store.takeUpTables }
  | .stage => s.stageWork
  | .restage => s.restageWork
  | .dipTurn => s.turnWork
  | .fadeEnd => s.fadeEndWork
  | .dipEnd => s.dipEndWork
  | .stop => s.stopWork
  | .restart => s.restartWork
  | .directCopy => s.directWork
  | .advance => s.advanceWork
  | .impulse => s.impulseWork
  | .engine => s.engineWork
  | .trim => { s with input := s.input.moveTrim }
  | .routeEnd => { s with router := s.router.mapSinks Sink.endFade }
  | .routeStart => { s with router := s.router.mapSinks Sink.startFade }
  | .mute => { s with router := s.router.muteWork s.tuner }
  | .referral => s.referralWork
  | .event => s.eventWork
  | .page => s.pageWork

/-- The order of the works of a block start (log 4). -/
def works : List Work :=
  [.close, .tailQuiet, .tailAge, .learn, .window, .profile, .collect, .tables, .stage, .restage, .dipTurn, .fadeEnd,
   .dipEnd, .stop, .restart, .directCopy, .advance, .impulse, .engine, .trim, .routeEnd, .routeStart, .mute, .referral,
   .event, .page]

def runWorks (ws : List Work) (s : State) : State := ws.foldl (fun s w => w.run s) s

/-- Where the present block start stands, as a mark on the state. The works themselves run with the mark at 0. -/
def State.mark (s : State) (done : Nat) : State := { s with grid := { s.grid with done := done } }

/-- After its last work the block start is over, and the next block takes its samples. -/
def State.openBlock (s : State) : State := { s with grid := { done := 0, opened := true, samplesA := [], samplesB := [] } }

/-- A whole block start: the works not yet done, in order. -/
def State.blockStart (s : State) : State := (runWorks (works.drop s.grid.done) (s.mark 0)).openBlock

/-- BLOCK_START (R9). -/
def execBlockStart (s : State) : Host.Outcome State Fault Refusal := whenReady s State.blockStart

/-- Where a work stands in the order. -/
def Work.place (w : Work) : Nat := works.findIdx (· == w)

/-- Everything of the present block start that comes before a work. -/
def State.before (s : State) (w : Work) : State := runWorks ((works.take w.place).drop s.grid.done) (s.mark 0)

/-- A command that names one event of a block start: the block start is run up to that event, if it is then due, and the
event happens; otherwise nothing changes (log 5). -/
def State.upTo (s : State) (w : Work) (due : State → Bool) : State :=
  if decide (s.grid.done ≤ w.place) && due (s.before w) then (w.run (s.before w)).mark (w.place + 1) else s

/-! ## The commands that name one event -/

/-- Has a HOLDING gate gone over to CLOSING in the block just ended (R26)? -/
def gateReleased (before after : Stage) : Bool :=
  match before.state, after.state with
  | .gate .holding _ _, .gate .closing _ _ => true
  | _, _ => false

/-- A gate's hold expires in the block that this block start closes (R26). -/
def State.gateHoldDue (s : State) : Bool :=
  let after := s.closeWork
  (List.zipWith gateReleased s.engine.live.stages after.engine.live.stages).any id ||
  (List.zipWith gateReleased s.engine.other.stages after.engine.other.stages).any id

def execGateHoldExpiry (s : State) : Host.Outcome State Fault Refusal := whenReady s (·.upTo .close State.gateHoldDue)

def State.tailQuietDue (s : State) : Bool := (s.engine.tails.map Tail.countQuiet).any Tail.quietOver

def execTailQuietEnd (s : State) : Host.Outcome State Fault Refusal := whenReady s (·.upTo .tailQuiet State.tailQuietDue)

def State.tailAgeDue (s : State) : Bool := (s.engine.tails.map Tail.countAge).any Tail.ageOver

def execTailAgeEnd (s : State) : Host.Outcome State Fault Refusal := whenReady s (·.upTo .tailAge State.tailAgeDue)

def execLearnComplete (s : State) : Host.Outcome State Fault Refusal := whenReady s (·.upTo .learn State.learnDue)

def execTunerWindowEnd (s : State) : Host.Outcome State Fault Refusal :=
  whenReady s (·.upTo .window (fun b => b.windowDue b.grid.opened))

def execTunerHoldExpiry (s : State) : Host.Outcome State Fault Refusal :=
  whenReady s (·.upTo .window (fun b => b.holdExpiryDue b.grid.opened))

def execProfileChangeTakeup (s : State) : Host.Outcome State Fault Refusal :=
  whenReady s (·.upTo .profile (fun b => b.input.changeDue))

def execStageSelect (s : State) : Host.Outcome State Fault Refusal := whenReady s (·.upTo .stage State.stageDue)

def execRestage (s : State) : Host.Outcome State Fault Refusal := whenReady s (·.upTo .restage State.restageDue)

def execDipTurn (s : State) : Host.Outcome State Fault Refusal := whenReady s (·.upTo .dipTurn State.turnDue)

def execFadeEnd (s : State) : Host.Outcome State Fault Refusal := whenReady s (·.upTo .fadeEnd State.fadeEndDue)

def execDipEnd (s : State) : Host.Outcome State Fault Refusal := whenReady s (·.upTo .dipEnd State.dipEndDue)

def execEngineStop (s : State) : Host.Outcome State Fault Refusal := whenReady s (·.upTo .stop State.stopDue)

def execEngineRestart (s : State) : Host.Outcome State Fault Refusal := whenReady s (·.upTo .restart State.restartDue)

def execDirectCopy (s : State) : Host.Outcome State Fault Refusal := whenReady s (·.upTo .directCopy State.directDue)

/-- An impulse slot reads its last group at this block start (R116). -/
def State.impulseDue (s : State) : Bool := s.store.impulses.any fun x => (x.advance s.ram).2.isSome

def execImpulseLoadComplete (s : State) : Host.Outcome State Fault Refusal := whenReady s (·.upTo .impulse State.impulseDue)

def execRouteCrossfadeEnd (s : State) : Host.Outcome State Fault Refusal :=
  whenReady s (·.upTo .routeEnd (fun b => b.router.anySink Sink.fadeOver))

def execRouteCrossfadeStart (s : State) : Host.Outcome State Fault Refusal :=
  whenReady s (·.upTo .routeStart (fun b => b.router.anySink Sink.startDue))

def execReferralExpiry (s : State) : Host.Outcome State Fault Refusal := whenReady s (·.upTo .referral State.expiryDue)

def execControlEventTake (s : State) : Host.Outcome State Fault Refusal :=
  whenReady s (·.upTo .event (fun b => !b.mapper.queue.isEmpty))

def execReadoutPeriodClose (s : State) : Host.Outcome State Fault Refusal := whenReady s (·.upTo .page State.pageDue)

/-! ## UNKNOWN_KIND_REQUEST (R186, R187) -/

/-- A kind that is not one of the codes of R187 completes at once with BAD_KIND and the kind read. -/
def carryUnknownKind (t : Taken) (s : State) : Answer := s.answer .badKind (.given t.kind)

def execUnknownKindRequest (s : State) : Host.Outcome State Fault Refusal :=
  whenReady s (·.take (fun t => decide (t.kind < 1 ∨ 22 < t.kind)) .none carryUnknownKind)

end Sys2Proof.Machine
end

