-- ==== Sys2Proof/Machine/Dispatch.lean ====
section
/-! DEFINITION. The meaning of every command, one arm for each. -/

namespace Sys2Proof.Machine

def exec (i : Instr) (s : State) : Host.Outcome State Fault Refusal :=
  match i with
  | .powerOn => Sys2Proof.Machine.execPowerOn s
  | .initialisationComplete => Sys2Proof.Machine.execInitialisationComplete s
  | .softReset => Sys2Proof.Machine.execSoftReset s
  | .controlWrite value => Sys2Proof.Machine.execControlWrite value s
  | .signalClear value => Sys2Proof.Machine.execSignalClear value s
  | .post value => Sys2Proof.Machine.execPost value s
  | .registerWriteIgnored register value => Sys2Proof.Machine.execRegisterWriteIgnored register value s
  | .exchangeRamWrite word value => Sys2Proof.Machine.execExchangeRamWrite word value s
  | .unknownKindRequest => Sys2Proof.Machine.execUnknownKindRequest s
  | .writeScene => Sys2Proof.Machine.execWriteScene s
  | .readScene => Sys2Proof.Machine.execReadScene s
  | .clearScene => Sys2Proof.Machine.execClearScene s
  | .loadFilter => Sys2Proof.Machine.execLoadFilter s
  | .loadCurve => Sys2Proof.Machine.execLoadCurve s
  | .loadImpulse => Sys2Proof.Machine.execLoadImpulse s
  | .impulseLoadComplete => Sys2Proof.Machine.execImpulseLoadComplete s
  | .setProfile => Sys2Proof.Machine.execSetProfile s
  | .selectProfile => Sys2Proof.Machine.execSelectProfile s
  | .trimLearnStart => Sys2Proof.Machine.execTrimLearnStart s
  | .trimLearnAbort => Sys2Proof.Machine.execTrimLearnAbort s
  | .learnComplete => Sys2Proof.Machine.execLearnComplete s
  | .selectScene => Sys2Proof.Machine.execSelectScene s
  | .setParam => Sys2Proof.Machine.execSetParam s
  | .setEnable => Sys2Proof.Machine.execSetEnable s
  | .setTempo => Sys2Proof.Machine.execSetTempo s
  | .setRoute => Sys2Proof.Machine.execSetRoute s
  | .tunerEngage => Sys2Proof.Machine.execTunerEngage s
  | .tunerDisengage => Sys2Proof.Machine.execTunerDisengage s
  | .setAssign => Sys2Proof.Machine.execSetAssign s
  | .clearAssign => Sys2Proof.Machine.execClearAssign s
  | .verdict => Sys2Proof.Machine.execVerdict s
  | .linkConfig => Sys2Proof.Machine.execLinkConfig s
  | .setUnit => Sys2Proof.Machine.execSetUnit s
  | .lamp => Sys2Proof.Machine.execLamp s
  | .text => Sys2Proof.Machine.execText s
  | .inputSample a b => Sys2Proof.Machine.execInputSample a b s
  | .blockStart => Sys2Proof.Machine.execBlockStart s
  | .gateHoldExpiry => Sys2Proof.Machine.execGateHoldExpiry s
  | .profileChangeTakeup => Sys2Proof.Machine.execProfileChangeTakeup s
  | .stageSelect => Sys2Proof.Machine.execStageSelect s
  | .restage => Sys2Proof.Machine.execRestage s
  | .fadeEnd => Sys2Proof.Machine.execFadeEnd s
  | .dipTurn => Sys2Proof.Machine.execDipTurn s
  | .dipEnd => Sys2Proof.Machine.execDipEnd s
  | .tailQuietEnd => Sys2Proof.Machine.execTailQuietEnd s
  | .tailAgeEnd => Sys2Proof.Machine.execTailAgeEnd s
  | .engineStop => Sys2Proof.Machine.execEngineStop s
  | .directCopy => Sys2Proof.Machine.execDirectCopy s
  | .engineRestart => Sys2Proof.Machine.execEngineRestart s
  | .routeCrossfadeStart => Sys2Proof.Machine.execRouteCrossfadeStart s
  | .routeCrossfadeEnd => Sys2Proof.Machine.execRouteCrossfadeEnd s
  | .tunerWindowEnd => Sys2Proof.Machine.execTunerWindowEnd s
  | .tunerHoldExpiry => Sys2Proof.Machine.execTunerHoldExpiry s
  | .readoutPeriodClose => Sys2Proof.Machine.execReadoutPeriodClose s
  | .referralExpiry => Sys2Proof.Machine.execReferralExpiry s
  | .controlEventTake => Sys2Proof.Machine.execControlEventTake s
  | .pollTurn => Sys2Proof.Machine.execPollTurn s
  | .stateReceive bytes => Sys2Proof.Machine.execStateReceive bytes s
  | .replyWindowExpiry => Sys2Proof.Machine.execReplyWindowExpiry s
  | .interByteTimeout => Sys2Proof.Machine.execInterByteTimeout s
  | .queueFrameSend => Sys2Proof.Machine.execQueueFrameSend s
  | .linkBreak => Sys2Proof.Machine.execLinkBreak s

end Sys2Proof.Machine
end

