-- ==== Sys2Proof/Safety.lean ====
section
/-! DEFINITION. What it means for a state to be sound: the invariants that every step keeps; and the words that the
statements share. -/

namespace Sys2Proof.Machine

/-- Exchange RAM is in its canonical form. -/
def State.memoryOk (s : State) : Prop := Memory.wf s.ram = true

/-- INT is asserted exactly while a bit of SIGNAL is set together with its enable (R191). -/
def State.intOk (s : State) : Prop := s.port.int = s.port.signal.anyEnabled s.port.enables

/-- The post queue holds exactly the POSTED slots, each once (R185). -/
def RequestUnit.exact (r : RequestUnit) : Prop :=
  r.slots.length = 32 ∧ r.queue.Nodup ∧ ∀ n, n ∈ r.queue ↔ r.slots[n]? = some .posted

/-- One bank is LIVE (R6). -/
def Engine.oneLive (e : Engine) : Prop :=
  (e.bankA.role = .live ∧ e.bankB.role ≠ .live) ∨ (e.bankA.role ≠ .live ∧ e.bankB.role = .live)

/-- An IDLE bank holds no stage instances, and its scene number is 255 (R6). -/
def Bank.idleOk (b : Bank) : Prop := b.role = .idle → b.stages = [] ∧ b.scene = 255

/-- The banks are as R6 has them, and there are at most two tails (R131). -/
def Engine.ok (e : Engine) : Prop := e.oneLive ∧ e.bankA.idleOk ∧ e.bankB.idleOk ∧ e.tails.length ≤ 2

/-- Every stored scene is within the budget of load and lanes (R106). -/
def Store.withinBudget (st : Store) : Prop := ∀ r, some r ∈ st.scenes → r.load ≤ 1000 ∧ r.lanes ≤ 4

/-- A stage entry as the Scene Store holds it (R104): NONE with enable off and zero parameters, or a kind with every
parameter in its range and every undefined one 0. -/
def StageEntry.legal (e : StageEntry) : Prop :=
  e.params.length = 8 ∧
  if e.kind = .none then e.enable = false ∧ e.params = List.replicate 8 0
  else ∀ i, i < 8 → paramWritten e.kind i (e.params.getD i 0) = (e.params.getD i 0, false) ∧
    -32768 ≤ e.params.getD i 0 ∧ e.params.getD i 0 ≤ 32767

/-- A record as the Scene Store holds it (R103, R104, R107). -/
def SceneRecord.legal (r : SceneRecord) : Prop :=
  r.name.length = 12 ∧ (∀ b, b ∈ r.name → 0x20 ≤ b.toNat ∧ b.toNat ≤ 0x7E) ∧
  2 ≤ r.fade ∧ r.fade ≤ 480 ∧ r.fade % 2 = 0 ∧ (r.profile ≤ 7 ∨ r.profile = 255) ∧
  (r.tempo = 0 ∨ 400 ≤ r.tempo ∧ r.tempo ≤ 3000) ∧ r.lamps.length ≤ 4 ∧ (∀ l, l ∈ r.lamps → 1 ≤ l.unit ∧ l.unit ≤ 15) ∧
  r.stages.length = 12 ∧ ∀ e, e ∈ r.stages → e.legal

/-- The table of R14: kind, index, the limits and the class. -/
def parameterTable : List (Kind × Nat × Int × Int × ParamClass) :=
  [(.gate, 0, 0, 192, .immediate), (.gate, 1, 0, 48, .immediate), (.gate, 2, 1, 250, .immediate),
   (.gate, 3, 1, 750, .immediate), (.gate, 4, 0, 750, .immediate), (.gate, 5, 0, 127, .level),
   (.comp, 0, 0, 240, .immediate), (.comp, 1, 10, 200, .immediate), (.comp, 2, 1, 24, .immediate),
   (.comp, 3, 1, 24, .immediate), (.comp, 4, 0, 48, .level)] ++
  [(.amp, 0, 0, 120, .level), (.amp, 1, -64, 64, .level), (.amp, 2, 0, 19, .immediate), (.amp, 3, 0, 255, .immediate),
   (.amp, 4, 1, 4, .immediate), (.amp, 5, 0, 127, .level), (.eq, 0, 0, 15, .immediate), (.eq, 1, 1, 4, .immediate),
   (.eq, 2, -48, 24, .level), (.cab, 0, 0, 3, .immediate), (.cab, 1, 64, 1024, .immediate), (.cab, 2, -48, 24, .level)] ++
  [(.mod, 0, 0, 3, .immediate), (.mod, 1, 1, 200, .immediate), (.mod, 2, 0, 100, .percent), (.mod, 3, 0, 100, .percent),
   (.mod, 4, -90, 90, .percent), (.delay, 0, 0, 1, .immediate), (.delay, 1, 1, 2047, .immediate),
   (.delay, 2, 0, 4, .immediate), (.delay, 3, 1, 2, .fixed), (.delay, 4, 0, 95, .percent), (.delay, 5, 0, 100, .percent),
   (.delay, 6, 0, 1, .immediate), (.vol, 0, 0, 127, .level)]

/-- Every stored scene is a legal record (R103, R104, R107). -/
def Store.scenesLegal (st : Store) : Prop := ∀ r, some r ∈ st.scenes → r.legal

/-- Every profile's name has 8 characters (R75), and the unit table has 8 entries (R163). -/
def State.tablesOk (s : State) : Prop :=
  (∀ p, p ∈ s.store.profiles → p.name.length = 8) ∧ s.link.units.length = 8

/-- While READY is 0, RUN, the enables and SIGNAL are 0 and the post queue is empty; while it is 1 no reset is in progress
(R182, R183). -/
def State.readyOk (s : State) : Prop :=
  (s.port.ready = false →
    s.port.run = false ∧ s.port.enables = .none ∧ s.port.signal = .none ∧ s.requests.queue = []) ∧
  (s.port.ready = true → s.port.softReset = false)

/-- Slot n is at the head of the post queue of a part that is ready and IDLE, so that its take is what comes next
(R186). `rest` are the slots behind it. -/
def State.headIs (s : State) (n : Nat) (rest : List Nat) : Prop :=
  s.port.ready = true ∧ s.requests.serving = false ∧ s.requests.queue = n :: rest ∧
  s.requests.slots[n]? = some .posted ∧ n < 32

/-- The blocks that no request machinery belongs to are those of `u`. -/
def State.sameBlocks (u t : State) : Prop :=
  t.input = u.input ∧ t.store = u.store ∧ t.engine = u.engine ∧ t.transition = u.transition ∧ t.tuner = u.tuner ∧
  t.router = u.router ∧ t.mapper = u.mapper ∧ t.link = u.link ∧ t.grid = u.grid

/-- A pedal value as it is sent: its high 3 bits, then its low 7 (11.5). -/
def pedalBytes (v : Nat) : List Nat := [v / 128, v % 128]

/-- The bytes of the STATE that a unit sends: HEAD, SOURCE, LEN, the payload of 11.5, and the check (R160, R161). -/
def stateBytes (unit : Nat) (f : StateFrame) : List Nat :=
  withCheck ([128 + 16, unit, 3 + 2 * f.pedals.length, f.switches % 128, f.switches / 128 % 128, f.pedals.length] ++
    (f.pedals.map pedalBytes).flatten)

/-- The request machinery and the port of `t` are those of `s`, with the blocks of `u`: a command that answers no slot and
reports nothing. -/
def State.onlyBlocks (s u t : State) : Prop :=
  u.sameBlocks t ∧ t.pending = s.pending ∧ t.port = s.port ∧ t.requests = s.requests ∧ t.report = s.report ∧ t.ram = s.ram

/-- The commands that name one event of a block start, with the work at which it happens and what makes it due (log 5). -/
def eventRows : List (Instr × Work × (State → Bool)) :=
  [(.gateHoldExpiry, .close, State.gateHoldDue), (.tailQuietEnd, .tailQuiet, State.tailQuietDue),
   (.tailAgeEnd, .tailAge, State.tailAgeDue), (.learnComplete, .learn, State.learnDue),
   (.tunerWindowEnd, .window, fun b => b.windowDue b.grid.opened),
   (.tunerHoldExpiry, .window, fun b => b.holdExpiryDue b.grid.opened),
   (.profileChangeTakeup, .profile, fun b => b.input.changeDue), (.stageSelect, .stage, State.stageDue),
   (.restage, .restage, State.restageDue), (.dipTurn, .dipTurn, State.turnDue), (.fadeEnd, .fadeEnd, State.fadeEndDue),
   (.dipEnd, .dipEnd, State.dipEndDue), (.engineStop, .stop, State.stopDue), (.engineRestart, .restart, State.restartDue),
   (.directCopy, .directCopy, State.directDue), (.impulseLoadComplete, .impulse, State.impulseDue),
   (.routeCrossfadeEnd, .routeEnd, fun b => b.router.anySink Sink.fadeOver),
   (.routeCrossfadeStart, .routeStart, fun b => b.router.anySink Sink.startDue),
   (.referralExpiry, .referral, State.expiryDue), (.controlEventTake, .event, fun b => !b.mapper.queue.isEmpty),
   (.readoutPeriodClose, .page, State.pageDue)]

/-- The present block start of a part that is ready has not come to this work yet. -/
def State.yetTo (s : State) (w : Work) : Prop := s.port.ready = true ∧ s.grid.done ≤ w.place

/-! ## Notices, and how a select finishes, as the host sees them (R135, R192) -/

/-- This notice stands at the entry of this count (R192, 11.2). -/
def noticeStands (m : Ram) (count : Word) (n : Notice) : Prop :=
  let a := 0x440 + 16 * (count.toNat % 32)
  readLE m a 4 = count.toNat ∧ readLE m (a + 4) 1 = n.kind % 256 ∧ readLE m (a + 5) 1 = n.originClass % 256 ∧
  readLE m (a + 6) 2 = n.originIndex % 65536 ∧ ∀ i, i < 4 → readLE m (a + 8 + 2 * i) 2 = (n.args.getD i 0 % 65536).toNat

/-- The kind that a SCENE notice gives a select: FADE 0, DIP 1, CUT 2, direct 3; 255 where it was never staged (R135). -/
def Select.carriedKind (x : Select) : Nat :=
  match x.decided with
  | none => 255
  | some (.fade, _) => 0
  | some (.dip, _) => 1
  | some (.cut, _) => 2
  | some (.direct, _) => 3

/-- The SCENE notice of a select stands at the entry of this count (R135): its origin's class and index, its scene, the
outcome, the kind and argument 3. -/
def sceneReport (m : Ram) (count : Word) (x : Select) (outcome kind other : Nat) : Prop :=
  noticeStands m count
    ⟨1, match x.origin with | .slot _ => 0 | .assignment _ => 1, match x.origin with | .slot n => n | .assignment i => i,
      [x.scene, outcome, kind, other]⟩

/-- The request slot of a select, TAKEN in `s`, is DONE in `t` with this result code and the select's scene as its value,
and SIGNAL.DONE is set (R135, R188). -/
def slotReport (s t : State) (x : Select) (code : Nat) : Prop :=
  ∀ k, x.origin = .slot k → k < 32 → s.requests.slots[k]? = some .taken →
    t.requests.slots[k]? = some .done ∧ t.port.signal.done = true ∧ readLE t.ram (slotAddress k + 0x1C) 2 = code ∧
    readLE t.ram (slotAddress k + 0x18) 4 = x.scene % 2 ^ 32

/-! ## Copies of a record, carries and lanes (R8, R18, R123 to R125, R130) -/

/-- The full load of a run of instances (R17). -/
def loadOf (l : List Stage) : Int := (l.map fun st => kindLoad st.kind st.targets).sum

/-- The lanes that a run of instances holds (R125). -/
def lanesHeld (l : List Stage) : Int := ((l.map fun st => st.lanes.length).sum : Nat)

/-- The lanes parameters of the DELAYs of a run of instances, placeholders among them (R125). -/
def lanesWanted (l : List Stage) : Int := (l.map fun st => if st.kind = .delay then st.targets.getD 3 0 else 0).sum

/-- The full load that copied entries give their bank (R17). -/
def entriesLoad (v : List EditView) : Int := (v.map fun e => kindLoad e.kind e.targets).sum

/-- The lanes parameters of the DELAYs among copied entries (R125). -/
def entriesLanes (v : List EditView) : Int := (v.map fun e => if e.kind = .delay then e.targets.getD 3 0 else 0).sum

/-- The admission test of a FADE to these entries (R125). -/
def admits (live : List Stage) (entries : List EditView) (tails : List Tail) : Prop :=
  loadOf live + entriesLoad entries + loadOf (tails.map (·.stage)) ≤ 1000 ∧
  lanesHeld live + entriesLanes entries + lanesHeld (tails.map (·.stage)) ≤ 4

/-- The dip test of these entries (R125). -/
def dipAdmits (entries : List EditView) (tails : List Tail) : Prop :=
  entriesLoad entries + loadOf (tails.map (·.stage)) ≤ 1000 ∧ entriesLanes entries + lanesHeld (tails.map (·.stage)) ≤ 4

/-- Tails are cut, oldest first, until a test passes or none is left (R125). -/
def cutTo (passes : List Tail → Prop) (tails kept : List Tail) : Prop :=
  ∃ k, k ≤ tails.length ∧ kept = tails.drop k ∧ (passes kept ∨ kept = []) ∧ ∀ j, j < k → ¬ passes (tails.drop j)

/-- A position is carried: the LIVE instance against the copied entry (R124). -/
def carries (l : Stage) (v : EditView) : Prop :=
  l.kind = v.kind ∧ v.kind ≠ .none ∧ (v.kind = .delay → l.targets.getD 3 0 = v.targets.getD 3 0) ∧
  (v.kind = .cab → l.targets.getD 0 0 = v.targets.getD 0 0) ∧ l.tailMode = false

/-- A fresh instance of a copied entry, its lanes apart (R8, R12). -/
def freshCopy (tempo : Nat) (v : EditView) (st : Stage) : Prop :=
  (v.kind = .none → st = .none) ∧
  (v.kind ≠ .none → st.kind = v.kind ∧ st.enable = v.enable ∧ st.targets = v.targets ∧ st.currents = v.targets ∧
    st.ramp = (if v.enable then .on else .off) ∧ st.state = clearedState v.kind v.targets ∧
    st.factors = factorsOf v.kind v.targets st.state ∧ st.carry = false ∧
    st.placeholder = false ∧ st.tailMode = false ∧ st.delayCurrent = st.delayTarget ∧
    (v.kind = .delay → st.delayTarget = delayTargetOf v.targets tempo))

/-- The placeholder of a carried position (R124): it holds no kind state and no lanes. -/
def placeholderCopy (v : EditView) (st : Stage) : Prop :=
  st.kind = v.kind ∧ st.enable = v.enable ∧ st.targets = v.targets ∧ st.carry = true ∧ st.placeholder = true ∧
  st.state = .nothing ∧ st.lanes = [] ∧ st.tailMode = false

/-- A DELAY that lanes are given to: it holds none, and is no placeholder (R18, R123, R128). -/
abbrev Stage.wantsLanes (st : Stage) : Prop := st.kind = .delay ∧ st.placeholder = false ∧ st.lanes = []

/-- `after` is `before` with lanes given to the DELAYs that hold none, each with its line zeroed (R18): lanes that no
instance of the bank and nothing beside it (`held`) holds, each given once; and where the pool has enough for all, each DELAY
has as many as its lanes parameter says. -/
def lanesGiven (held : List Nat) (before after : List Stage) : Prop :=
  after.length = before.length ∧
  (∀ (p : Nat) (c : Stage), before[p]? = some c →
    (¬ c.wantsLanes → after[p]? = some c) ∧
    (c.wantsLanes → ∃ lanes, after[p]? = some { c with lanes := lanes, state := .delay [] 0 } ∧
      (∀ n, n ∈ lanes → n < 4 ∧ n ∉ lanesOf before ∧ n ∉ held))) ∧
  ((lanesOf before ++ held).Nodup → (lanesOf after ++ held).Nodup) ∧
  ((∀ n, n ∈ lanesOf before ++ held → n < 4) → (lanesOf before ++ held).Nodup →
    (before.map fun c => if c.wantsLanes then (c.targets.getD 3 0).toNat else 0).sum + (lanesOf before ++ held).length ≤ 4 →
    ∀ (p : Nat) (c d : Stage), before[p]? = some c → c.wantsLanes → after[p]? = some d →
      d.lanes.length = (c.targets.getD 3 0).toNat)

/-- A bank of fresh copies of these entries, with the lanes of its DELAYs given (R8, R18, R123, R138). -/
def copiedBank (held : List Nat) (tempo : Nat) (entries : List EditView) (stages : List Stage) : Prop :=
  ∃ fresh : List Stage, fresh.length = entries.length ∧
    (∀ (p : Nat) (v : EditView), entries[p]? = some v →
      ∃ st, fresh[p]? = some st ∧ freshCopy tempo v st ∧ st.lanes = []) ∧
    lanesGiven held fresh stages

/-- The banks after a DIP or CUT has decided its carries (R124): NEXT has a placeholder where LIVE's instance is carried and
a fresh instance without lanes elsewhere, and LIVE's carry marks say which. -/
def dipBanks (tempo : Nat) (entries : List EditView) (live live' next : List Stage) : Prop :=
  live'.length = live.length ∧ next.length = entries.length ∧
  ∀ (p : Nat) (l : Stage) (v : EditView), live[p]? = some l → entries[p]? = some v →
    (∃ st, next[p]? = some st ∧ (carries l v → placeholderCopy v st) ∧
      (¬ carries l v → freshCopy tempo v st ∧ st.lanes = [])) ∧
    ∃ l', live'[p]? = some l' ∧ l' = { l with carry := l'.carry, tailMode := l'.tailMode } ∧ (l'.carry = true ↔ carries l v)

/-- The instances of LIVE are marked as tail candidates by R130's test, and keep a mark they have. -/
def tailsMarked (live live' : List Stage) : Prop :=
  ∀ (p : Nat) (l l' : Stage), live[p]? = some l → live'[p]? = some l' →
    (l'.tailMode = true ↔ l.tailMode = true ∨
      l.kind = .delay ∧ l.targets.getD 6 0 = 1 ∧ l.ramp = .on ∧ l'.carry = false)

/-- NEXT with the carried instances moved in (R128, step 2; R137). -/
def movedIn (live next moved : List Stage) : Prop :=
  moved.length = min live.length next.length ∧
  ∀ (p : Nat) (l c : Stage), live[p]? = some l → next[p]? = some c →
    (c.placeholder = true → moved[p]? = some { l with targets := c.targets, enable := c.enable, carry := true }) ∧
    (c.placeholder = false → moved[p]? = some c)

/-- The entries of a record, as a copy takes them. -/
def SceneRecord.entries (r : SceneRecord) : List EditView := r.stages.map fun e => ⟨e.kind, e.enable, e.params⟩

/-- The profile and tempo that a copied record brings (R24, R77, R123). -/
def bringsFields (b t : State) (r : SceneRecord) : Prop :=
  t.input.chosen = (if r.profile = 255 then b.input.chosen else r.profile) ∧
  t.engine.tempoTarget = (if r.tempo = 0 then b.engine.tempoTarget else r.tempo)

/-! ## What the outside is shown (R101, R102, R154, R194) -/

/-- The three values of a reading: the state's code, the note and cents10 (R101, R102). -/
def Tuner.reads (t : Tuner) : Nat × Int × Int :=
  match t.state, t.run.getLast? with
  | .off, _ => (0, 0, 0)
  | .listen, _ => (1, 0, 0)
  | .acquire, some r => (2, r.note, r.cents10)
  | .acquire, none => (2, 0, 0)
  | .locked, _ => (3, t.shownNote, t.shownCents)
  | .hold, _ => (4, t.shownNote, t.shownCents)

/-- The TUNE frames of a reading (R102, 11.5): one to each enabled, PRESENT unit with its display flag set, to it alone, with
cents10 + 500 as two 7-bit bytes; in the order of the unit table (the model's choice, log 40). -/
def readingFrames (units : List UnitEntry) (reading : Nat × Int × Int) : List MasterFrame :=
  let cents := (reading.2.2 + 500).toNat
  (units.filter fun u => decide (u.enabled = true ∧ u.state = .present ∧ u.display = true)).map fun u =>
    ⟨.tune, u.number, 15, [reading.1, reading.2.1.toNat, cents / 128 % 8, cents % 128]⟩

/-- The Control Mapper with every CATCH assignment UNCAUGHT (R154). -/
def Mapper.allUncaught (m : Mapper) : Mapper :=
  { m with assignments := m.assignments.map fun a => if a.takeover = true then { a with catching := .uncaught } else a }

/-- The gate state of an instance as a page shows it, 255 for another kind (R26, R194). -/
def gateShown (st : Stage) : Nat :=
  match st.state with
  | .gate .closed _ _ => 0
  | .gate .opening _ _ => 1
  | .gate .opened _ _ => 2
  | .gate .holding _ _ => 3
  | .gate .closing _ _ => 4
  | _ => 255

/-- The gain reduction of an instance as a page shows it, 255 for another kind (R28, R194). -/
def reductionShown (st : Stage) : Int :=
  match st.state with
  | .comp gr => gr
  | _ => 255

/-- The nine tap points as a page shows them, in its order (R62, R63); CHAIN is silent while RUN is clear (R10, log 38). -/
def metersShown (b : State) : List Meter :=
  let r := b.router
  [b.input.inputA.meter, b.input.inputB.meter, if b.engine.running = true then r.chain else ⟨0, 0⟩,
   r.main.left, r.main.right, r.stage.left, r.stage.right, r.phones.left, r.phones.right]

/-- The page at `page` holds the figures of `b` (R140, R194), each where 11.2 places it; its serial apart. -/
def pageHolds (m : Ram) (page : Nat) (b : State) : Prop :=
  let byte := fun o : Nat => readLE m (page + o) 1
  let half := fun o : Nat => readLE m (page + o) 2
  let live := b.engine.live.stages
  let other := b.engine.other.stages
  let learner := b.input.learner
  let profile := b.store.profiles.getD b.input.active .reset
  (∀ (k : Nat) (x : Meter), (metersShown b)[k]? = some x →
    byte (4 + k) = (peakCode x.peak).toNat % 256 ∧ half (0x0E + 2 * k) = x.clips % 65536) ∧
  byte 0x0D = 0 ∧ half 0x20 = b.input.inputA.crackles % 65536 ∧ half 0x22 = b.input.inputB.crackles % 65536 ∧
  byte 0x24 = b.engine.live.scene % 256 ∧ byte 0x25 = b.engine.other.scene % 256 ∧
  (∀ x, b.transition.pending = some x → byte 0x26 = x.scene % 256) ∧ (b.transition.pending = none → byte 0x26 = 255) ∧
  byte 0x27 = (match b.transition.state with | .idle => 0 | .staging => 1 | .fading => 2 | .dipOut => 3 | .dipIn => 4) ∧
  half 0x28 = b.transition.liveWeight % 65536 ∧ half 0x2A = b.transition.nextWeight % 65536 ∧
  half 0x2C = b.transition.loadFigure % 65536 ∧
  (byte 0x2E : Int) = (lanesHeld live + lanesHeld other + lanesHeld (b.engine.tails.map (·.stage))) % 256 ∧
  byte 0x2F = b.engine.tails.length % 256 ∧
  (∀ p, p < 12 → byte (0x30 + p) = gateShown (live.getD p .none) ∧
    (byte (0x3C + p) : Int) = reductionShown (live.getD p .none) % 256) ∧
  half 0x48 = b.engine.tempo % 65536 ∧
  byte 0x4A = b.tuner.reads.1 ∧ (byte 0x4B : Int) = b.tuner.reads.2.1 % 256 ∧ (half 0x4C : Int) = b.tuner.reads.2.2 % 65536 ∧
  half 0x4E = b.tuner.lastEstimate % 65536 ∧
  byte 0x50 = (if learner.learning = true then 1 else 0) ∧ byte 0x51 = 0 ∧ half 0x52 = learner.signalBlocks % 65536 ∧
  byte 0x54 = b.input.active % 256 ∧ byte 0x55 = 0 ∧ (half 0x56 : Int) = b.input.trimCurrent % 65536 ∧
  (∀ (i : Nat) (c : Byte), profile.name[i]? = some c → byte (0x58 + i) = c.toNat) ∧
  (∀ (i : Nat) (u : UnitEntry), b.link.units[i]? = some u →
    byte (0x60 + i) = (match u.state with | .unused => 0 | .joining => 1 | .present => 2 | .lost => 3)) ∧
  ∀ o, 0x68 ≤ o → o < 0x400 → byte o = 0

/-! ## Answers to requests -/

/-- A byte that a completion of slot n writes: the mirror, the result value and the result code (11.2). -/
def inResult (n a : Nat) : Prop :=
  (slotAddress n + 2 ≤ a ∧ a < slotAddress n + 4) ∨ (slotAddress n + 0x18 ≤ a ∧ a < slotAddress n + 0x1E)

/-- A result value as the slot's shared word reads (R188, R195): the value the rule gives, in 32 bits. -/
def valueReads (m : Ram) (n : Nat) : ResultValue → Prop
  | .given v => readLE m (slotAddress n + 0x18) 4 = argBits v
  | .unstated => True

/-- Slot n, taken from the head of the queue, is DONE with this result, and nothing else of the request machinery has
changed (R186, R188): the other slots, the rest of the queue, the notices and pages, every other byte of `ram`. -/
def State.answered (s t : State) (ram : Ram) (n : Nat) (rest : List Nat) (code : Result) (value : ResultValue) : Prop :=
  t.pending = s.pending ∧
  t.requests = { slots := s.requests.slots.set n .done, queue := rest, serving := false } ∧
  t.port = s.port.raise .causeDone ∧ t.report = s.report ∧
  readLE t.ram (slotAddress n + 2) 2 = SlotState.done.code ∧
  readLE t.ram (slotAddress n + 0x1C) 2 = code.code ∧ valueReads t.ram n value ∧
  ∀ a, ¬ inResult n a → readByte t.ram a = readByte ram a

/-- The command takes slot n, makes the blocks those of `u`, and answers the slot with this result. -/
def completes (c : Instr) (s u : State) (n : Nat) (rest : List Nat) (code : Result) (value : ResultValue) : Prop :=
  ∃ t, exec c s = .next t ∧ u.sameBlocks t ∧ s.answered t u.ram n rest code value

/-- As `completes`, for a command that also hands frames on: `u` is the state with its effect, with the notice of any frame
dropped, and slot n is answered in it. -/
def completesFrom (c : Instr) (s u : State) (n : Nat) (rest : List Nat) (code : Result) (value : ResultValue) : Prop :=
  ∃ t, exec c s = .next t ∧ u.sameBlocks t ∧ u.answered t u.ram n rest code value

/-- The command takes slot n and its owner keeps it: the slot stays TAKEN, and the blocks become those of `u`. -/
def keepsSlot (c : Instr) (s u : State) (n : Nat) (rest : List Nat) : Prop :=
  ∃ t, exec c s = .next t ∧ u.sameBlocks t ∧ t.pending = s.pending ∧
    t.requests = { slots := s.requests.slots.set n .taken, queue := rest, serving := false } ∧
    t.port = s.port ∧ t.report = s.report ∧ readLE t.ram (slotAddress n + 2) 2 = SlotState.taken.code ∧
    ∀ a, ¬ (slotAddress n + 2 ≤ a ∧ a < slotAddress n + 4) → readByte t.ram a = readByte s.ram a

end Sys2Proof.Machine
end

