-- ==== Sys2Proof/Laws/Memory.lean ====
section
/-! SUPPORT. Reads after writes of a memory in canonical form, and the canonical form itself: the lemmas that stand for
the definitions of Machine/Memory.lean. -/

namespace Sys2Proof.Machine

section Sparse
variable {α : Type} [DecidableEq α] {rest : Nat → α}

theorem sparseWf_mono {low low' : Nat} {m : List (Nat × α)} (h : low' ≤ low) (w : sparseWfFrom rest low m = true) :
    sparseWfFrom rest low' m = true := by
  cases m with
  | nil => rfl
  | cons c m =>
    obtain ⟨k, v⟩ := c
    simp only [sparseWfFrom, Bool.and_eq_true, decide_eq_true_eq] at w ⊢
    exact ⟨⟨by omega, w.1.2⟩, w.2⟩

theorem sparseRead_below {low i : Nat} {m : List (Nat × α)} (w : sparseWfFrom rest low m = true) (h : i < low) :
    sparseRead rest m i = rest i := by
  cases m with
  | nil => rfl
  | cons c m =>
    obtain ⟨k, v⟩ := c
    simp only [sparseWfFrom, Bool.and_eq_true, decide_eq_true_eq] at w
    simp only [sparseRead]
    rw [if_pos (by omega)]

theorem sparseRead_cons {low i j : Nat} {v : α} {m : List (Nat × α)} (w : sparseWfFrom rest low m = true) (h : i < low) :
    sparseRead rest (sparseCons rest i v m) j = if j = i then v else sparseRead rest m j := by
  unfold sparseCons
  split
  · rename_i hv
    split
    · rename_i hj; subst hj; rw [sparseRead_below w h, hv]
    · rfl
  · simp only [sparseRead]
    by_cases h1 : j < i
    · rw [if_pos h1, if_neg (by omega), sparseRead_below w (by omega)]
    · rw [if_neg h1]

theorem sparseWf_cons {low i : Nat} {v : α} {m : List (Nat × α)} (w : sparseWfFrom rest (i + 1) m = true) (h : low ≤ i) :
    sparseWfFrom rest low (sparseCons rest i v m) = true := by
  unfold sparseCons
  split
  · exact sparseWf_mono (by omega) w
  · rename_i hv
    simp only [sparseWfFrom, Bool.and_eq_true, decide_eq_true_eq]
    exact ⟨⟨h, hv⟩, w⟩

/-- A read after a write: the value written at its index, and what stood there elsewhere. -/
theorem sparseRead_write {low i j : Nat} {v : α} {m : List (Nat × α)} (w : sparseWfFrom rest low m = true) :
    sparseRead rest (sparseWrite rest m i v) j = if j = i then v else sparseRead rest m j := by
  induction m generalizing low with
  | nil =>
    simp only [sparseWrite]
    exact sparseRead_cons (low := i + 1) rfl (by omega)
  | cons c m ih =>
    obtain ⟨k, u⟩ := c
    have w' := w
    simp only [sparseWfFrom, Bool.and_eq_true, decide_eq_true_eq] at w
    simp only [sparseWrite]
    split
    · rename_i hi
      exact sparseRead_cons (low := k) (by simpa [sparseWfFrom] using ⟨w.1.2, w.2⟩) hi
    · split
      · rename_i h1 hi
        subst hi
        rw [sparseRead_cons w.2 (by omega)]
        by_cases hj : j = i
        · simp [hj]
        · rw [if_neg hj, if_neg hj]
          simp only [sparseRead]
          by_cases hlt : j < i
          · rw [if_pos hlt, sparseRead_below w.2 (by omega)]
          · rw [if_neg hlt, if_neg hj]
      · rename_i h1 hi
        simp only [sparseRead]
        rw [ih w.2]
        by_cases hj : j = i
        · subst hj
          rw [if_neg h1, if_neg hi, if_pos rfl, if_pos rfl]
        · simp only [if_neg hj]

/-- A write keeps the canonical form. -/
theorem sparseWf_write {low i : Nat} {v : α} {m : List (Nat × α)} (w : sparseWfFrom rest low m = true) (h : low ≤ i) :
    sparseWfFrom rest low (sparseWrite rest m i v) = true := by
  induction m generalizing low with
  | nil => exact sparseWf_cons rfl h
  | cons c m ih =>
    obtain ⟨k, u⟩ := c
    simp only [sparseWfFrom, Bool.and_eq_true, decide_eq_true_eq] at w
    simp only [sparseWrite]
    split
    · rename_i hi
      apply sparseWf_cons _ h
      simp only [sparseWfFrom, Bool.and_eq_true, decide_eq_true_eq]
      exact ⟨⟨by omega, w.1.2⟩, w.2⟩
    · split
      · rename_i h1 hi; subst hi; exact sparseWf_cons w.2 h
      · rename_i h1 hi
        simp only [sparseWfFrom, Bool.and_eq_true, decide_eq_true_eq]
        exact ⟨w.1, ih w.2 (by omega)⟩

theorem sparseCons_all {i : Nat} {v : α} {m : List (Nat × α)} {p : Nat × α → Bool} (hm : m.all p = true)
    (hi : p (i, v) = true) : (sparseCons rest i v m).all p = true := by
  unfold sparseCons; split
  · exact hm
  · simp [hm, hi]

theorem sparseWrite_all {i : Nat} {v : α} {m : List (Nat × α)} {p : Nat × α → Bool} (hm : m.all p = true)
    (hi : p (i, v) = true) : (sparseWrite rest m i v).all p = true := by
  induction m with
  | nil => exact sparseCons_all rfl hi
  | cons c m ih =>
    obtain ⟨k, u⟩ := c
    rw [List.all_cons, Bool.and_eq_true] at hm
    simp only [sparseWrite]
    split
    · exact sparseCons_all (by rw [List.all_cons, Bool.and_eq_true]; exact hm) hi
    · split
      · exact sparseCons_all hm.2 hi
      · rw [List.all_cons, Bool.and_eq_true]; exact ⟨hm.1, ih hm.2⟩

theorem sparseWf_filter {low : Nat} {m : List (Nat × α)} (p : Nat × α → Bool) (w : sparseWfFrom rest low m = true) :
    sparseWfFrom rest low (m.filter p) = true := by
  induction m generalizing low with
  | nil => rfl
  | cons c m ih =>
    obtain ⟨k, u⟩ := c
    simp only [sparseWfFrom, Bool.and_eq_true, decide_eq_true_eq] at w
    rw [List.filter_cons]
    split
    · simp only [sparseWfFrom, Bool.and_eq_true, decide_eq_true_eq]; exact ⟨w.1, ih w.2⟩
    · exact sparseWf_mono (by omega) (ih w.2)

theorem sparseRead_filter {low i : Nat} {m : List (Nat × α)} (p : Nat → Bool) (w : sparseWfFrom rest low m = true) :
    sparseRead rest (m.filter (fun c => p c.1)) i = if p i then sparseRead rest m i else rest i := by
  induction m generalizing low with
  | nil => simp [sparseRead]
  | cons c m ih =>
    obtain ⟨k, u⟩ := c
    simp only [sparseWfFrom, Bool.and_eq_true, decide_eq_true_eq] at w
    rw [List.filter_cons]
    have wf' := sparseWf_filter (fun c => p c.1) w.2
    split
    · rename_i hk
      simp only [sparseRead]
      rw [ih w.2]
      by_cases h1 : i < k
      · simp [h1]
      · rw [if_neg h1, if_neg h1]
        by_cases h2 : i = k
        · have hk' : p i = true := by rw [h2]; exact hk
          rw [if_pos h2, if_pos h2, if_pos hk']
        · rw [if_neg h2, if_neg h2]
    · rename_i hk
      rw [ih w.2]
      simp only [sparseRead]
      by_cases h1 : i < k
      · rw [if_pos h1, sparseRead_below w.2 (by omega)]
      · by_cases h2 : i = k
        · have hk' : ¬ p i = true := by rw [h2]; exact hk
          rw [if_neg hk', if_neg hk']
        · rw [if_neg h1, if_neg h2]

end Sparse

/-! ## Exchange RAM -/

theorem Memory.wf_iff (m : Ram) :
    Memory.wf m = true ↔ sparseWfFrom ramReset 0 m = true ∧ m.all (fun c => decide (c.1 < 0x8000)) = true := by
  unfold Memory.wf; rw [Bool.and_eq_true]

theorem readByte_writeByte {m : Ram} (w : Memory.wf m = true) {a j : Nat} {b : Byte} (ha : a < 0x8000) :
    readByte (writeByte m a b) j = if j = a then b else readByte m j := by
  unfold writeByte readByte
  rw [if_pos ha]
  exact sparseRead_write ((Memory.wf_iff m).1 w).1

theorem wf_writeByte {m : Ram} (w : Memory.wf m = true) (a : Nat) (b : Byte) : Memory.wf (writeByte m a b) = true := by
  unfold writeByte
  split
  · rename_i ha
    rw [Memory.wf_iff] at w ⊢
    exact ⟨sparseWf_write w.1 (Nat.zero_le _), sparseWrite_all w.2 (by simpa using ha)⟩
  · exact w

theorem readByte_writeByte_other {m : Ram} (w : Memory.wf m = true) {a j : Nat} {b : Byte} (h : j ≠ a) :
    readByte (writeByte m a b) j = readByte m j := by
  by_cases ha : a < 0x8000
  · rw [readByte_writeByte w ha, if_neg h]
  · unfold writeByte; rw [if_neg ha]

theorem wf_writeLE {m : Ram} (w : Memory.wf m = true) (a : Nat) (v : Int) (n : Nat) :
    Memory.wf (writeLE m a v n) = true := by
  induction n generalizing m a v with
  | zero => exact w
  | succ n ih => exact ih (wf_writeByte w _ _) _ _

theorem wf_writeBytes {m : Ram} (w : Memory.wf m = true) (a : Nat) (bs : List Byte) :
    Memory.wf (writeBytes m a bs) = true := by
  induction bs generalizing m a with
  | nil => exact w
  | cons b bs ih => exact ih (wf_writeByte w _ _) _

theorem wf_writeFields {m : Ram} (w : Memory.wf m = true) (base : Nat) (fs : List Field) :
    Memory.wf (writeFields m base fs) = true := by
  unfold writeFields
  induction fs generalizing m with
  | nil => exact w
  | cons f fs ih => exact ih (wf_writeLE w _ _ _)

theorem wf_filter {m : Ram} (w : Memory.wf m = true) (p : Host.Cell → Bool) : Memory.wf (m.filter p) = true := by
  rw [Memory.wf_iff] at w ⊢
  refine ⟨sparseWf_filter p w.1, ?_⟩
  rw [List.all_eq_true] at w ⊢
  intro c hc
  exact w.2 c (List.mem_filter.1 hc).1

/-- A multi-byte write leaves every byte outside it. -/
theorem readByte_writeLE_outside {m : Ram} (w : Memory.wf m = true) {a j n : Nat} {v : Int} (h : j < a ∨ a + n ≤ j) :
    readByte (writeLE m a v n) j = readByte m j := by
  induction n generalizing m a v with
  | zero => rfl
  | succ n ih =>
    unfold writeLE
    rw [ih (wf_writeByte w _ _) (by omega), readByte_writeByte_other w (by omega)]

theorem readByte_writeBytes_outside {m : Ram} (w : Memory.wf m = true) {a j : Nat} {bs : List Byte}
    (h : j < a ∨ a + bs.length ≤ j) : readByte (writeBytes m a bs) j = readByte m j := by
  induction bs generalizing m a with
  | nil => rfl
  | cons b bs ih =>
    unfold writeBytes
    simp only [List.length_cons] at h
    rw [ih (wf_writeByte w _ _) (by omega), readByte_writeByte_other w (by omega)]

theorem readByte_writeFields_outside {m : Ram} (w : Memory.wf m = true) {base j : Nat} {fs : List Field}
    (h : ∀ f ∈ fs, j < base + f.offset ∨ base + f.offset + f.size ≤ j) :
    readByte (writeFields m base fs) j = readByte m j := by
  unfold writeFields
  induction fs generalizing m with
  | nil => rfl
  | cons f fs ih =>
    rw [List.foldl_cons, ih (wf_writeLE w _ _ _) (fun g hg => h g (List.mem_cons_of_mem _ hg)),
      readByte_writeLE_outside w (h f (List.mem_cons_self ..))]

/-- Two runs of bytes that agree read as the same number. -/
theorem readLE_congr {m m' : Ram} {a n : Nat} (h : ∀ j, a ≤ j → j < a + n → readByte m j = readByte m' j) :
    readLE m a n = readLE m' a n := by
  induction n generalizing a with
  | zero => rfl
  | succ n ih =>
    unfold readLE
    rw [h a (by omega) (by omega), ih (fun j h1 h2 => h j (by omega) (by omega))]

theorem readLE_writeLE_outside {m : Ram} (w : Memory.wf m = true) {a b n k : Nat} {v : Int}
    (h : b + k ≤ a ∨ a + n ≤ b) : readLE (writeLE m a v n) b k = readLE m b k :=
  readLE_congr fun j h1 h2 => readByte_writeLE_outside w (by omega)

theorem byte_ofInt (v : Int) : (BitVec.ofInt 8 v).toNat = (v % 256).toNat := by
  rw [BitVec.toNat_ofInt]; rfl

/-- A number written in little-endian bytes reads back modulo 2^(8 n). -/
theorem readLE_writeLE_same {m : Ram} (w : Memory.wf m = true) {a n : Nat} (v : Int) (h : a + n ≤ 0x8000) :
    readLE (writeLE m a v n) a n = (v % 256 ^ n).toNat := by
  induction n generalizing m a v with
  | zero => simp [readLE]
  | succ n ih =>
    unfold readLE writeLE
    rw [ih (wf_writeByte w _ _) _ (by omega), readByte_writeLE_outside (wf_writeByte w _ _) (by omega),
      readByte_writeByte w (by omega), if_pos rfl, byte_ofInt]
    have h256 : (256 : Int) ^ (n + 1) = 256 * 256 ^ n := by rw [Int.pow_succ, Int.mul_comm]
    rw [h256]
    have hpos : (0 : Int) < 256 ^ n := Int.pow_pos (by decide)
    have key : v % (256 * 256 ^ n) = v % 256 + 256 * (v / 256 % 256 ^ n) := by
      rw [Int.emod_def, Int.emod_def v 256, Int.emod_def (v / 256), Int.ediv_ediv_of_nonneg (by decide : (0 : Int) ≤ 256),
        Int.mul_sub, Int.mul_assoc]
      omega
    rw [key]
    have h1 : 0 ≤ v % 256 := Int.emod_nonneg _ (by decide)
    have h2 : 0 ≤ v / 256 % 256 ^ n := Int.emod_nonneg _ (by omega)
    rw [Int.toNat_add h1 (by omega), Int.toNat_mul (by decide) h2]
    rfl

/-- A field of an image reads back where no field written after it overlaps it. -/
theorem readLE_writeFields {m : Ram} (w : Memory.wf m = true) {base : Nat} (before : List Field) (f : Field)
    (after : List Field) (h : ∀ g ∈ after, g.offset + g.size ≤ f.offset ∨ f.offset + f.size ≤ g.offset)
    (hb : base + f.offset + f.size ≤ 0x8000) :
    readLE (writeFields m base (before ++ f :: after)) (base + f.offset) f.size = (f.value % 256 ^ f.size).toNat := by
  have e : writeFields m base (before ++ f :: after) =
      writeFields (writeLE (writeFields m base before) (base + f.offset) f.value f.size) base after := by
    unfold writeFields; rw [List.foldl_append, List.foldl_cons]
  rw [e]
  have w1 := wf_writeFields w base before
  refine (readLE_congr fun j h1 h2 => readByte_writeFields_outside (wf_writeLE w1 _ _ _) fun g hg => ?_).trans
    (readLE_writeLE_same w1 _ hb)
  have := h g hg
  omega

end Sys2Proof.Machine
end

