-- ==== Sys2Proof/Laws/State.lean ====
section
/-! SUPPORT. What each update of the state leaves of its fields, one lemma for each field and update, so that no proof
unfolds a record update; and what the operations over it write. -/

namespace Sys2Proof.Machine

@[simp] theorem State.raise_pending (s : State) (c : Signals) : (s.raise c).pending = s.pending := rfl
@[simp] theorem State.raise_ram (s : State) (c : Signals) : (s.raise c).ram = s.ram := rfl
@[simp] theorem State.raise_requests (s : State) (c : Signals) : (s.raise c).requests = s.requests := rfl
@[simp] theorem State.raise_report (s : State) (c : Signals) : (s.raise c).report = s.report := rfl
@[simp] theorem State.raise_input (s : State) (c : Signals) : (s.raise c).input = s.input := rfl
@[simp] theorem State.raise_store (s : State) (c : Signals) : (s.raise c).store = s.store := rfl
@[simp] theorem State.raise_engine (s : State) (c : Signals) : (s.raise c).engine = s.engine := rfl
@[simp] theorem State.raise_transition (s : State) (c : Signals) : (s.raise c).transition = s.transition := rfl
@[simp] theorem State.raise_tuner (s : State) (c : Signals) : (s.raise c).tuner = s.tuner := rfl
@[simp] theorem State.raise_router (s : State) (c : Signals) : (s.raise c).router = s.router := rfl
@[simp] theorem State.raise_mapper (s : State) (c : Signals) : (s.raise c).mapper = s.mapper := rfl
@[simp] theorem State.raise_link (s : State) (c : Signals) : (s.raise c).link = s.link := rfl
@[simp] theorem State.raise_grid (s : State) (c : Signals) : (s.raise c).grid = s.grid := rfl
@[simp] theorem State.raise_unstated (s : State) (c : Signals) : (s.raise c).unstated = s.unstated := rfl

@[simp] theorem State.setSlot_pending (s : State) (n : Nat) (x : SlotState) : (s.setSlot n x).pending = s.pending := rfl
@[simp] theorem State.setSlot_port (s : State) (n : Nat) (x : SlotState) : (s.setSlot n x).port = s.port := rfl
@[simp] theorem State.setSlot_report (s : State) (n : Nat) (x : SlotState) : (s.setSlot n x).report = s.report := rfl
@[simp] theorem State.setSlot_input (s : State) (n : Nat) (x : SlotState) : (s.setSlot n x).input = s.input := rfl
@[simp] theorem State.setSlot_store (s : State) (n : Nat) (x : SlotState) : (s.setSlot n x).store = s.store := rfl
@[simp] theorem State.setSlot_engine (s : State) (n : Nat) (x : SlotState) : (s.setSlot n x).engine = s.engine := rfl
@[simp] theorem State.setSlot_transition (s : State) (n : Nat) (x : SlotState) : (s.setSlot n x).transition = s.transition := rfl
@[simp] theorem State.setSlot_tuner (s : State) (n : Nat) (x : SlotState) : (s.setSlot n x).tuner = s.tuner := rfl
@[simp] theorem State.setSlot_router (s : State) (n : Nat) (x : SlotState) : (s.setSlot n x).router = s.router := rfl
@[simp] theorem State.setSlot_mapper (s : State) (n : Nat) (x : SlotState) : (s.setSlot n x).mapper = s.mapper := rfl
@[simp] theorem State.setSlot_link (s : State) (n : Nat) (x : SlotState) : (s.setSlot n x).link = s.link := rfl
@[simp] theorem State.setSlot_grid (s : State) (n : Nat) (x : SlotState) : (s.setSlot n x).grid = s.grid := rfl
@[simp] theorem State.setSlot_unstated (s : State) (n : Nat) (x : SlotState) : (s.setSlot n x).unstated = s.unstated := rfl

@[simp] theorem State.writeResult_pending (s : State) (n : Nat) (c : Result) (v : ResultValue) : (s.writeResult n c v).pending = s.pending := rfl
@[simp] theorem State.writeResult_port (s : State) (n : Nat) (c : Result) (v : ResultValue) : (s.writeResult n c v).port = s.port := rfl
@[simp] theorem State.writeResult_requests (s : State) (n : Nat) (c : Result) (v : ResultValue) : (s.writeResult n c v).requests = s.requests := rfl
@[simp] theorem State.writeResult_report (s : State) (n : Nat) (c : Result) (v : ResultValue) : (s.writeResult n c v).report = s.report := rfl
@[simp] theorem State.writeResult_input (s : State) (n : Nat) (c : Result) (v : ResultValue) : (s.writeResult n c v).input = s.input := rfl
@[simp] theorem State.writeResult_store (s : State) (n : Nat) (c : Result) (v : ResultValue) : (s.writeResult n c v).store = s.store := rfl
@[simp] theorem State.writeResult_engine (s : State) (n : Nat) (c : Result) (v : ResultValue) : (s.writeResult n c v).engine = s.engine := rfl
@[simp] theorem State.writeResult_transition (s : State) (n : Nat) (c : Result) (v : ResultValue) : (s.writeResult n c v).transition = s.transition := rfl
@[simp] theorem State.writeResult_tuner (s : State) (n : Nat) (c : Result) (v : ResultValue) : (s.writeResult n c v).tuner = s.tuner := rfl
@[simp] theorem State.writeResult_router (s : State) (n : Nat) (c : Result) (v : ResultValue) : (s.writeResult n c v).router = s.router := rfl
@[simp] theorem State.writeResult_mapper (s : State) (n : Nat) (c : Result) (v : ResultValue) : (s.writeResult n c v).mapper = s.mapper := rfl
@[simp] theorem State.writeResult_link (s : State) (n : Nat) (c : Result) (v : ResultValue) : (s.writeResult n c v).link = s.link := rfl
@[simp] theorem State.writeResult_grid (s : State) (n : Nat) (c : Result) (v : ResultValue) : (s.writeResult n c v).grid = s.grid := rfl

@[simp] theorem State.endServing_pending (s : State) : (s.endServing).pending = s.pending := rfl
@[simp] theorem State.endServing_port (s : State) : (s.endServing).port = s.port := rfl
@[simp] theorem State.endServing_ram (s : State) : (s.endServing).ram = s.ram := rfl
@[simp] theorem State.endServing_report (s : State) : (s.endServing).report = s.report := rfl
@[simp] theorem State.endServing_input (s : State) : (s.endServing).input = s.input := rfl
@[simp] theorem State.endServing_store (s : State) : (s.endServing).store = s.store := rfl
@[simp] theorem State.endServing_engine (s : State) : (s.endServing).engine = s.engine := rfl
@[simp] theorem State.endServing_transition (s : State) : (s.endServing).transition = s.transition := rfl
@[simp] theorem State.endServing_tuner (s : State) : (s.endServing).tuner = s.tuner := rfl
@[simp] theorem State.endServing_router (s : State) : (s.endServing).router = s.router := rfl
@[simp] theorem State.endServing_mapper (s : State) : (s.endServing).mapper = s.mapper := rfl
@[simp] theorem State.endServing_link (s : State) : (s.endServing).link = s.link := rfl
@[simp] theorem State.endServing_grid (s : State) : (s.endServing).grid = s.grid := rfl
@[simp] theorem State.endServing_unstated (s : State) : (s.endServing).unstated = s.unstated := rfl

@[simp] theorem State.takeHead_pending (s : State) (n : Nat) (r : List Nat) : (s.takeHead n r).pending = s.pending := rfl
@[simp] theorem State.takeHead_port (s : State) (n : Nat) (r : List Nat) : (s.takeHead n r).port = s.port := rfl
@[simp] theorem State.takeHead_report (s : State) (n : Nat) (r : List Nat) : (s.takeHead n r).report = s.report := rfl
@[simp] theorem State.takeHead_input (s : State) (n : Nat) (r : List Nat) : (s.takeHead n r).input = s.input := rfl
@[simp] theorem State.takeHead_store (s : State) (n : Nat) (r : List Nat) : (s.takeHead n r).store = s.store := rfl
@[simp] theorem State.takeHead_engine (s : State) (n : Nat) (r : List Nat) : (s.takeHead n r).engine = s.engine := rfl
@[simp] theorem State.takeHead_transition (s : State) (n : Nat) (r : List Nat) : (s.takeHead n r).transition = s.transition := rfl
@[simp] theorem State.takeHead_tuner (s : State) (n : Nat) (r : List Nat) : (s.takeHead n r).tuner = s.tuner := rfl
@[simp] theorem State.takeHead_router (s : State) (n : Nat) (r : List Nat) : (s.takeHead n r).router = s.router := rfl
@[simp] theorem State.takeHead_mapper (s : State) (n : Nat) (r : List Nat) : (s.takeHead n r).mapper = s.mapper := rfl
@[simp] theorem State.takeHead_link (s : State) (n : Nat) (r : List Nat) : (s.takeHead n r).link = s.link := rfl
@[simp] theorem State.takeHead_grid (s : State) (n : Nat) (r : List Nat) : (s.takeHead n r).grid = s.grid := rfl
@[simp] theorem State.takeHead_unstated (s : State) (n : Nat) (r : List Nat) : (s.takeHead n r).unstated = s.unstated := rfl

@[simp] theorem State.notify_pending (s : State) (n : Notice) : (s.notify n).pending = s.pending := rfl
@[simp] theorem State.notify_requests (s : State) (n : Notice) : (s.notify n).requests = s.requests := rfl
@[simp] theorem State.notify_input (s : State) (n : Notice) : (s.notify n).input = s.input := rfl
@[simp] theorem State.notify_store (s : State) (n : Notice) : (s.notify n).store = s.store := rfl
@[simp] theorem State.notify_engine (s : State) (n : Notice) : (s.notify n).engine = s.engine := rfl
@[simp] theorem State.notify_transition (s : State) (n : Notice) : (s.notify n).transition = s.transition := rfl
@[simp] theorem State.notify_tuner (s : State) (n : Notice) : (s.notify n).tuner = s.tuner := rfl
@[simp] theorem State.notify_router (s : State) (n : Notice) : (s.notify n).router = s.router := rfl
@[simp] theorem State.notify_mapper (s : State) (n : Notice) : (s.notify n).mapper = s.mapper := rfl
@[simp] theorem State.notify_link (s : State) (n : Notice) : (s.notify n).link = s.link := rfl
@[simp] theorem State.notify_grid (s : State) (n : Notice) : (s.notify n).grid = s.grid := rfl
@[simp] theorem State.notify_unstated (s : State) (n : Notice) : (s.notify n).unstated = s.unstated := rfl

@[simp] theorem State.mark_pending (s : State) (d : Nat) : (s.mark d).pending = s.pending := rfl
@[simp] theorem State.mark_port (s : State) (d : Nat) : (s.mark d).port = s.port := rfl
@[simp] theorem State.mark_ram (s : State) (d : Nat) : (s.mark d).ram = s.ram := rfl
@[simp] theorem State.mark_requests (s : State) (d : Nat) : (s.mark d).requests = s.requests := rfl
@[simp] theorem State.mark_report (s : State) (d : Nat) : (s.mark d).report = s.report := rfl
@[simp] theorem State.mark_input (s : State) (d : Nat) : (s.mark d).input = s.input := rfl
@[simp] theorem State.mark_store (s : State) (d : Nat) : (s.mark d).store = s.store := rfl
@[simp] theorem State.mark_engine (s : State) (d : Nat) : (s.mark d).engine = s.engine := rfl
@[simp] theorem State.mark_transition (s : State) (d : Nat) : (s.mark d).transition = s.transition := rfl
@[simp] theorem State.mark_tuner (s : State) (d : Nat) : (s.mark d).tuner = s.tuner := rfl
@[simp] theorem State.mark_router (s : State) (d : Nat) : (s.mark d).router = s.router := rfl
@[simp] theorem State.mark_mapper (s : State) (d : Nat) : (s.mark d).mapper = s.mapper := rfl
@[simp] theorem State.mark_link (s : State) (d : Nat) : (s.mark d).link = s.link := rfl
@[simp] theorem State.mark_unstated (s : State) (d : Nat) : (s.mark d).unstated = s.unstated := rfl

@[simp] theorem State.openBlock_pending (s : State) : (s.openBlock).pending = s.pending := rfl
@[simp] theorem State.openBlock_port (s : State) : (s.openBlock).port = s.port := rfl
@[simp] theorem State.openBlock_ram (s : State) : (s.openBlock).ram = s.ram := rfl
@[simp] theorem State.openBlock_requests (s : State) : (s.openBlock).requests = s.requests := rfl
@[simp] theorem State.openBlock_report (s : State) : (s.openBlock).report = s.report := rfl
@[simp] theorem State.openBlock_input (s : State) : (s.openBlock).input = s.input := rfl
@[simp] theorem State.openBlock_store (s : State) : (s.openBlock).store = s.store := rfl
@[simp] theorem State.openBlock_engine (s : State) : (s.openBlock).engine = s.engine := rfl
@[simp] theorem State.openBlock_transition (s : State) : (s.openBlock).transition = s.transition := rfl
@[simp] theorem State.openBlock_tuner (s : State) : (s.openBlock).tuner = s.tuner := rfl
@[simp] theorem State.openBlock_router (s : State) : (s.openBlock).router = s.router := rfl
@[simp] theorem State.openBlock_mapper (s : State) : (s.openBlock).mapper = s.mapper := rfl
@[simp] theorem State.openBlock_link (s : State) : (s.openBlock).link = s.link := rfl
@[simp] theorem State.openBlock_unstated (s : State) : (s.openBlock).unstated = s.unstated := rfl

theorem State.raise_port (s : State) (c : Signals) : (s.raise c).port = s.port.raise c := rfl

theorem State.setSlot_requests (s : State) (n : Nat) (x : SlotState) :
    (s.setSlot n x).requests = { s.requests with slots := s.requests.slots.set n x } := rfl

theorem State.setSlot_ram (s : State) (n : Nat) (x : SlotState) :
    (s.setSlot n x).ram = writeLE s.ram (slotAddress n + 2) x.code 2 := rfl

theorem State.takeHead_requests (s : State) (n : Nat) (r : List Nat) :
    (s.takeHead n r).requests = { slots := s.requests.slots.set n .taken, queue := r, serving := true } := rfl

/-- A completion of a slot that is not TAKEN does nothing. -/
theorem State.complete_of_not_taken {s : State} {n : Nat} (h : s.requests.slots[n]? ≠ some .taken) (c : Result)
    (v : ResultValue) : s.complete n c v = s := by
  unfold State.complete; rw [if_neg h]

/-- The completion of a TAKEN slot (R188). -/
theorem State.complete_of_taken {s : State} {n : Nat} (h : s.requests.slots[n]? = some .taken) (c : Result)
    (v : ResultValue) : s.complete n c v = ((s.writeResult n c v).setSlot n .done).raise .causeDone := by
  unfold State.complete; rw [if_pos h]

@[simp] theorem State.complete_pending (s : State) (n : Nat) (c : Result) (v : ResultValue) :
    (s.complete n c v).pending = s.pending := by unfold State.complete; split <;> rfl
@[simp] theorem State.complete_report (s : State) (n : Nat) (c : Result) (v : ResultValue) :
    (s.complete n c v).report = s.report := by unfold State.complete; split <;> rfl
@[simp] theorem State.complete_input (s : State) (n : Nat) (c : Result) (v : ResultValue) :
    (s.complete n c v).input = s.input := by unfold State.complete; split <;> rfl
@[simp] theorem State.complete_store (s : State) (n : Nat) (c : Result) (v : ResultValue) :
    (s.complete n c v).store = s.store := by unfold State.complete; split <;> rfl
@[simp] theorem State.complete_engine (s : State) (n : Nat) (c : Result) (v : ResultValue) :
    (s.complete n c v).engine = s.engine := by unfold State.complete; split <;> rfl
@[simp] theorem State.complete_transition (s : State) (n : Nat) (c : Result) (v : ResultValue) :
    (s.complete n c v).transition = s.transition := by unfold State.complete; split <;> rfl
@[simp] theorem State.complete_tuner (s : State) (n : Nat) (c : Result) (v : ResultValue) :
    (s.complete n c v).tuner = s.tuner := by unfold State.complete; split <;> rfl
@[simp] theorem State.complete_router (s : State) (n : Nat) (c : Result) (v : ResultValue) :
    (s.complete n c v).router = s.router := by unfold State.complete; split <;> rfl
@[simp] theorem State.complete_mapper (s : State) (n : Nat) (c : Result) (v : ResultValue) :
    (s.complete n c v).mapper = s.mapper := by unfold State.complete; split <;> rfl
@[simp] theorem State.complete_link (s : State) (n : Nat) (c : Result) (v : ResultValue) :
    (s.complete n c v).link = s.link := by unfold State.complete; split <;> rfl
@[simp] theorem State.complete_grid (s : State) (n : Nat) (c : Result) (v : ResultValue) :
    (s.complete n c v).grid = s.grid := by unfold State.complete; split <;> rfl

end Sys2Proof.Machine
end

