-- ==== Sys2Proof/Laws/Images.lean ====
section
/-! SUPPORT. What the images of scenes and profiles are read as: the lengths, and that the record of a scene image without
a fault is legal (R103, R104, R106, R107). -/

namespace Sys2Proof.Machine

theorem readBytes_length (m : Ram) (a n : Nat) : (readBytes m a n).length = n := by
  induction n generalizing a with
  | zero => rfl
  | succ n ih => unfold readBytes; simp [ih]

theorem byteSum_lt (bs : List Byte) : bs.foldr (fun b acc => b.toNat + 256 * acc) 0 < 256 ^ bs.length := by
  induction bs with
  | nil => decide
  | cons b bs ih =>
    have := b.isLt
    rw [List.foldr_cons, List.length_cons, Nat.pow_succ]
    omega

/-- A field of an image is below 256 to its size. -/
theorem imageNat_lt (image : List Byte) (offset size : Nat) : imageNat image offset size < 256 ^ size :=
  Nat.lt_of_lt_of_le (byteSum_lt _) (Nat.pow_le_pow_right (by decide) (by simp <;> omega))

/-- The bounds that a clamped parameter keeps (R14). -/
theorem paramRule_bounds {k : Kind} {i : Nat} {r : ParamRule} (h : paramRule k i = some r) :
    -32768 ≤ r.lo ∧ r.lo ≤ r.hi ∧ r.hi ≤ 32767 := by
  unfold paramRule at h
  split at h <;> cases h <;> decide

theorem paramRule_amp3 : paramRule .amp 3 = some ⟨0, 255, .immediate⟩ := rfl

theorem paramRule_cab1 : paramRule .cab 1 = some ⟨64, 1024, .immediate⟩ := rfl

/-- A parameter as it is written is written again unchanged, and fits 16 bits (R14, R104). -/
theorem paramWritten_legal (k : Kind) (i : Nat) (v : Int) :
    paramWritten k i (paramWritten k i v).1 = ((paramWritten k i v).1, false) ∧
    -32768 ≤ (paramWritten k i v).1 ∧ (paramWritten k i v).1 ≤ 32767 := by
  by_cases hc : k = .cab ∧ i = 1
  · obtain ⟨rfl, rfl⟩ := hc
    have e : ∀ v, paramWritten .cab 1 v = (clampInt 64 1024 v / 64 * 64, decide (v < 64 ∨ 1024 < v)) := fun v => by
      unfold paramWritten paramClamped; rw [paramRule_cab1]; simp [clampMark]
    simp only [e, Prod.mk.injEq, decide_eq_false_iff_not]
    unfold clampInt
    refine ⟨⟨?_, ?_⟩, ?_, ?_⟩ <;> omega
  · have e : ∀ v, paramWritten k i v = paramClamped k i v := fun v => by unfold paramWritten; rw [if_neg hc]
    rw [e, e]
    unfold paramClamped
    split
    · exact ⟨rfl, by decide, by decide⟩
    · rename_i r hr
      have hb := paramRule_bounds hr
      dsimp only
      by_cases ha : k = .amp ∧ i = 3
      · obtain ⟨rfl, rfl⟩ := ha
        rw [paramRule_amp3] at hr
        cases hr
        simp only [true_and, clampMark, clampInt]
        split
        · simp <;> omega
        · rw [if_neg (by omega)]
          simp only [Prod.mk.injEq, decide_eq_false_iff_not]
          refine ⟨⟨?_, ?_⟩, ?_, ?_⟩ <;> omega
      · rw [if_neg (fun h => ha ⟨h.1, h.2.1⟩), if_neg (fun h => ha ⟨h.1, h.2.1⟩)]
        simp only [clampMark, clampInt, Prod.mk.injEq]
        refine ⟨⟨?_, decide_eq_false ?_⟩, ?_, ?_⟩ <;> omega

theorem StageEntry.legal_none : StageEntry.legal ⟨.none, false, List.replicate 8 0⟩ := by
  unfold StageEntry.legal; simp

/-- A stage entry as an image gives it is legal (R104). -/
theorem imageStage_legal (image : List Byte) (p : Nat) : (imageStage image p).1.legal := by
  unfold imageStage
  split
  · exact StageEntry.legal_none
  · exact StageEntry.legal_none
  · rename_i k hk _
    dsimp only
    unfold StageEntry.legal
    refine ⟨by simp [imageParams], ?_⟩
    split
    · rename_i hn; exact absurd hn hk
    · intro i hi
      have e : ((imageParams image p k).map (·.1)).getD i 0 =
          (paramWritten k i (imageInt image (stageEntryOffset p + 2 + 2 * i) 2)).1 := by
        simp [imageParams, List.getD_eq_getElem?_getD, hi]
      dsimp only
      rw [e]
      exact paramWritten_legal k i _

/-- The lamp entries that an image without a fault counts name a unit (R106, R107). -/
theorem imageLamp_unit {image : List Byte} (h : imageFault image = none) {i : Nat} (hi : i < imageLampCount image) :
    1 ≤ (imageLamp image i).unit ∧ (imageLamp image i).unit ≤ 15 := by
  have h4 : imageLampCount image ≤ 4 := Nat.min_le_left _ _
  unfold imageFault at h
  rw [List.find?_eq_none] at h
  have := h (i + 13) (by simp <;> omega)
  rw [if_neg (by omega), if_neg (by omega)] at this
  simp only [Nat.add_sub_cancel, hi, decide_true, Bool.true_and, beq_iff_eq] at this
  refine ⟨by omega, ?_⟩
  have hv := imageNat_lt image (0x14 + 4 * i) 4
  unfold imageLamp
  dsimp only
  omega

/-- The record of an image without a fault is legal (R106, R107). -/
theorem imageScene_legal {image : List Byte} (hl : image.length = 256) (h : imageFault image = none) :
    (imageScene image).1.legal := by
  unfold imageScene
  dsimp only
  refine ⟨?_, ?_, ?_, ?_, ?_, ?_, ?_, ?_, ?_, ?_, ?_⟩
  · simp [nameWritten, hl]
  · intro b hb
    simp only [nameWritten, List.mem_map] at hb
    obtain ⟨x, _, rfl⟩ := hb
    unfold nameByte
    split
    · simp_all
    · decide
  · unfold clampMark clampInt evenUp; dsimp only; omega
  · unfold clampMark clampInt evenUp; dsimp only; omega
  · unfold clampMark clampInt evenUp; dsimp only; omega
  · have := imageNat_lt image 0x0D 1
    unfold sceneProfileWritten
    split
    · exact .inl (Nat.le_refl 7)
    · dsimp only; omega
  · unfold sceneTempoWritten
    split
    · exact .inl rfl
    · right; unfold clampInt; dsimp only; omega
  · simpa [imageLampCount] using Nat.min_le_left 4 _
  · intro l hl
    simp only [List.mem_map, List.mem_range] at hl
    obtain ⟨i, hi, rfl⟩ := hl
    exact imageLamp_unit h hi
  · simp
  · intro e he
    simp only [List.mem_map, List.mem_range] at he
    obtain ⟨_, ⟨p, _, rfl⟩, rfl⟩ := he
    exact imageStage_legal image p

/-- A profile's name has 8 characters (R75, R76). -/
theorem imageProfile_name {image : List Byte} (h : image.length = 16) : (imageProfile image).1.name.length = 8 := by
  unfold imageProfile nameWritten; simp [h]

end Sys2Proof.Machine
end

