-- ==== Sys2Proof/Laws/Keeps.lean ====
section
/-! SUPPORT. What every owner's operation keeps: the queue of commands, the block start's mark, the post queue, and the
invariants of Safety.lean. One lemma for each operation over the state; a proof about a command cites these and never
unfolds an operation. -/

namespace Sys2Proof.Machine

-- One proof at a time: proofs that wait for each other each hold a thread and its stack.
set_option Elab.async false

/-- `t` comes from `s` by an owner's work: it keeps what no owner touches, and the invariants. -/
structure Keeps (s t : State) : Prop where
  pending : t.pending = s.pending
  grid : t.grid = s.grid
  ready : t.port.ready = s.port.ready
  softReset : t.port.softReset = s.port.softReset
  run : t.port.run = s.port.run
  enables : t.port.enables = s.port.enables
  queue : t.requests.queue = s.requests.queue
  serving : t.requests.serving = s.requests.serving
  exact : s.requests.exact → t.requests.exact
  memory : s.memoryOk → t.memoryOk
  int : s.intOk → t.intOk
  engine : s.engine.ok → t.engine.ok
  scenes : s.store.withinBudget → t.store.withinBudget
  legal : s.store.scenesLegal → t.store.scenesLegal
  tables : s.tablesOk → t.tablesOk

theorem Keeps.refl (s : State) : Keeps s s := ⟨rfl, rfl, rfl, rfl, rfl, rfl, rfl, rfl, id, id, id, id, id, id, id⟩

theorem Keeps.trans {s t u : State} (h : Keeps s t) (k : Keeps t u) : Keeps s u :=
  ⟨k.pending.trans h.pending, k.grid.trans h.grid, k.ready.trans h.ready, k.softReset.trans h.softReset,
    k.run.trans h.run, k.enables.trans h.enables, k.queue.trans h.queue, k.serving.trans h.serving,
    fun x => k.exact (h.exact x), fun x => k.memory (h.memory x), fun x => k.int (h.int x), fun x => k.engine (h.engine x),
    fun x => k.scenes (h.scenes x), fun x => k.legal (h.legal x), fun x => k.tables (h.tables x)⟩

/-- A change of the blocks alone. -/
theorem Keeps.blocks {s t : State} (hp : t.pending = s.pending) (hg : t.grid = s.grid) (ho : t.port = s.port)
    (hr : t.requests = s.requests) (hm : t.ram = s.ram) (he : s.engine.ok → t.engine.ok)
    (hs : t.store.scenes = s.store.scenes := by rfl) (ht : s.tablesOk → t.tablesOk := by exact id) : Keeps s t := by
  refine ⟨hp, hg, by rw [ho], by rw [ho], by rw [ho], by rw [ho], by rw [hr], by rw [hr], by rw [hr]; exact id, ?_, ?_, he, ?_,
    ?_, ht⟩
  · unfold State.memoryOk; rw [hm]; exact id
  · unfold State.intOk; rw [ho]; exact id
  · unfold Store.withinBudget; rw [hs]; exact id
  · unfold Store.scenesLegal; rw [hs]; exact id

/-- A change of blocks other than the Signal Engine. -/
theorem Keeps.others {s t : State} (hp : t.pending = s.pending) (hg : t.grid = s.grid) (ho : t.port = s.port)
    (hr : t.requests = s.requests) (hm : t.ram = s.ram) (he : t.engine = s.engine)
    (hs : t.store.scenes = s.store.scenes := by rfl) (ht : s.tablesOk → t.tablesOk := by exact id) : Keeps s t :=
  .blocks hp hg ho hr hm (by rw [he]; exact id) hs ht

theorem Keeps.foldl {α : Type} {f : State → α → State} (h : ∀ s a, Keeps s (f s a)) (l : List α) (s : State) :
    Keeps s (l.foldl f s) := by
  induction l generalizing s with
  | nil => exact .refl s
  | cons a l ih => exact (h s a).trans (ih _)

/-! ## Ops -/

theorem Port.raise_int (p : Port) (c : Signals) : (p.raise c).int = (p.raise c).signal.anyEnabled (p.raise c).enables := rfl

theorem State.raise_keeps (s : State) (c : Signals) : Keeps s (s.raise c) :=
  ⟨rfl, rfl, rfl, rfl, rfl, rfl, rfl, rfl, id, id, fun _ => rfl, id, id, id, id⟩

/-- A write of Exchange RAM, where the canonical form is kept. -/
theorem Keeps.ram {s : State} {m : Ram} (h : Memory.wf s.ram = true → Memory.wf m = true) : Keeps s { s with ram := m } :=
  ⟨rfl, rfl, rfl, rfl, rfl, rfl, rfl, rfl, id, h, id, id, id, id, id⟩

/-- A slot that is not POSTED changes to a state that is not POSTED: the post queue still holds exactly the POSTED ones. -/
theorem RequestUnit.exact_set {r : RequestUnit} {n : Nat} {x : SlotState} (h : r.exact) (hn : r.slots[n]? ≠ some .posted)
    (hx : x ≠ .posted) : RequestUnit.exact { r with slots := r.slots.set n x } := by
  obtain ⟨h1, h2, h3⟩ := h
  refine ⟨by simpa using h1, h2, fun k => ?_⟩
  rw [h3 k, List.getElem?_set]
  by_cases hk : n = k
  · subst hk
    simp only [if_pos]
    constructor
    · intro hp; exact absurd hp hn
    · intro hp
      split at hp
      · simp only [Option.some.injEq] at hp; exact absurd hp hx
      · cases hp
  · rw [if_neg hk]

theorem State.setSlot_keeps {s : State} {n : Nat} {x : SlotState} (hn : s.requests.slots[n]? ≠ some .posted)
    (hx : x ≠ .posted) : Keeps s (s.setSlot n x) :=
  ⟨rfl, rfl, rfl, rfl, rfl, rfl, rfl, rfl, fun h => RequestUnit.exact_set h hn hx, fun h => wf_writeLE h _ _ _, id, id, id, id, id⟩

theorem State.writeResult_keeps (s : State) (n : Nat) (c : Result) (v : ResultValue) : Keeps s (s.writeResult n c v) :=
  ⟨rfl, rfl, rfl, rfl, rfl, rfl, rfl, rfl, id, fun h => wf_writeLE (wf_writeLE h _ _ _) _ _ _, id, id, id, id, id⟩

theorem State.complete_keeps (s : State) (n : Nat) (c : Result) (v : ResultValue) : Keeps s (s.complete n c v) := by
  by_cases h : s.requests.slots[n]? = some .taken
  · rw [State.complete_of_taken h]
    refine (s.writeResult_keeps n c v).trans (.trans (State.setSlot_keeps ?_ (by decide)) (State.raise_keeps _ _))
    show s.requests.slots[n]? ≠ _
    rw [h]; decide
  · rw [State.complete_of_not_taken h]; exact .refl s

theorem State.completeAll_keeps (s : State) (cs : List Completion) : Keeps s (s.completeAll cs) :=
  .foldl (fun s _ => s.complete_keeps _ _ _) cs s

theorem State.notify_keeps (s : State) (n : Notice) : Keeps s (s.notify n) :=
  ⟨rfl, rfl, rfl, rfl, rfl, rfl, rfl, rfl, id, fun h => wf_writeLE (wf_writeFields h _ _) _ _ _, fun _ => rfl, id,
    id, id, id⟩

theorem State.notifyAll_keeps (s : State) (ns : List Notice) : Keeps s (s.notifyAll ns) :=
  .foldl (fun s n => s.notify_keeps n) ns s

/-! ## Scene Store -/

/-- A change of the Scene Store that leaves the scenes and the profiles. -/
theorem Keeps.store (s : State) (x : Store) (h : x.scenes = s.store.scenes := by rfl)
    (hp : x.profiles = s.store.profiles := by rfl) : Keeps s { s with store := x } :=
  .others rfl rfl rfl rfl rfl rfl h fun k => ⟨by rw [show State.store _ = x from rfl, hp]; exact k.1, k.2⟩

/-- The names of the profiles stay 8 characters long when profiles are written so. -/
theorem State.tablesOk_profiles {s t : State} (hl : t.link = s.link)
    (hp : ∀ p, p ∈ t.store.profiles → p.name.length = 8 ∨ ∃ q ∈ s.store.profiles, p.name = q.name) :
    s.tablesOk → t.tablesOk := fun k =>
  ⟨fun p h => (hp p h).elim id fun ⟨q, hq, e⟩ => e ▸ k.1 q hq, by rw [hl]; exact k.2⟩

/-- An element of a modified list is an element of the list, or is made by the modification from one. -/
theorem mem_setAt {α : Type} {l : List α} {i : Nat} {f : α → α} {x : α} (h : x ∈ setAt l i f) : x ∈ l ∨ ∃ y ∈ l, x = f y := by
  unfold setAt at h
  obtain ⟨k, hk, rfl⟩ := List.getElem_of_mem h
  rw [List.getElem_modify]
  have hl : k < l.length := by simpa using hk
  split
  · exact .inr ⟨_, List.getElem_mem hl, rfl⟩
  · exact .inl (List.getElem_mem hl)

theorem setAt_length {α : Type} (l : List α) (i : Nat) (f : α → α) : (setAt l i f).length = l.length :=
  List.length_modify ..

theorem wf_writeScene {m : Ram} (h : Memory.wf m = true) (a : Nat) (r : SceneRecord) : Memory.wf (writeScene m a r) = true :=
  wf_writeFields (wf_writeBytes h _ _) _ _

theorem State.impulseWork_keeps (s : State) : Keeps s s.impulseWork :=
  (Keeps.store s _).trans (State.completeAll_keeps _ _)

/-! ## The banks -/

theorem Engine.live_role {e : Engine} (h : e.oneLive) : e.live.role = .live := by
  unfold Engine.live Engine.aIsLive
  rcases h with h | h
  · rw [if_pos (by rw [h.1]; rfl)]; exact h.1
  · rw [if_neg (by simpa using h.1)]; exact h.2

theorem Engine.other_role {e : Engine} (h : e.oneLive) : e.other.role ≠ .live := by
  unfold Engine.other Engine.aIsLive
  rcases h with h | h
  · rw [if_pos (by rw [h.1]; rfl)]; exact h.2
  · rw [if_neg (by simpa using h.1)]; exact h.1

theorem Bank.idleOk_of_live {b : Bank} (h : b.role = .live) : b.idleOk := fun k => absurd (h.symm.trans k) (by decide)

theorem Bank.idleOk_next (n : Nat) (l : List Stage) : Bank.idleOk ⟨.next, n, l⟩ := nofun

theorem Bank.idleOk_idle : Bank.idle.idleOk := fun _ => ⟨rfl, rfl⟩

/-- A bank whose stages are made from its own, none from none. -/
theorem Bank.idleOk_stages {b : Bank} (h : b.idleOk) (l : List Stage) (hl : b.stages = [] → l = []) :
    Bank.idleOk { b with stages := l } := fun k => ⟨hl (h k).1, (h k).2⟩

theorem Engine.other_idleOk {e : Engine} (h : e.ok) : e.other.idleOk := by
  unfold Engine.other; split
  · exact h.2.2.1
  · exact h.2.1

theorem Engine.ok_setLive {e : Engine} {b : Bank} (h : e.ok) (hb : b.role = .live) : (e.setLive b).ok := by
  obtain ⟨h1, h2, h3, h4⟩ := h
  unfold Engine.setLive
  split
  · rename_i ha
    refine ⟨.inl ⟨hb, ?_⟩, Bank.idleOk_of_live hb, h3, h4⟩
    rcases h1 with h1 | h1
    · exact h1.2
    · exact absurd (by simpa [Engine.aIsLive] using ha) h1.1
  · rename_i ha
    refine ⟨.inr ⟨?_, hb⟩, h2, Bank.idleOk_of_live hb, h4⟩
    simpa [Engine.aIsLive] using ha

theorem Engine.ok_setOther {e : Engine} {b : Bank} (h : e.ok) (hb : b.role ≠ .live) (hi : b.idleOk) : (e.setOther b).ok := by
  obtain ⟨h1, h2, h3, h4⟩ := h
  unfold Engine.setOther
  split
  · rename_i ha
    exact ⟨.inl ⟨by simpa [Engine.aIsLive] using ha, hb⟩, h2, hi, h4⟩
  · rename_i ha
    refine ⟨.inr ⟨hb, ?_⟩, hi, h3, h4⟩
    rcases h1 with h1 | h1
    · exact absurd (by simpa [Engine.aIsLive] using h1.1) ha
    · exact h1.2

theorem Engine.ok_liveStages {e : Engine} (h : e.ok) (l : List Stage) : (e.setLive { e.live with stages := l }).ok :=
  Engine.ok_setLive h (Engine.live_role h.1)

theorem Engine.ok_otherStages {e : Engine} (h : e.ok) (l : List Stage) (hl : e.other.stages = [] → l = []) :
    (e.setOther { e.other with stages := l }).ok :=
  Engine.ok_setOther h (Engine.other_role h.1) (Bank.idleOk_stages (Engine.other_idleOk h) l hl)

/-- The banks and the tails decide; the rest of the engine does not. -/
theorem Engine.ok_of_banks {e f : Engine} (ha : f.bankA = e.bankA) (hb : f.bankB = e.bankB) (ht : f.tails.length ≤ 2)
    (h : e.ok) : f.ok := by
  obtain ⟨h1, h2, h3, _⟩ := h
  unfold Engine.ok Engine.oneLive
  rw [ha, hb]
  exact ⟨h1, h2, h3, ht⟩

theorem Engine.ok_tails {e : Engine} (h : e.ok) {l : List Tail} (hl : l.length ≤ 2) : Engine.ok { e with tails := l } :=
  Engine.ok_of_banks (e := e) rfl rfl hl h

/-- After one bank is made LIVE the other is IDLE. -/
theorem Engine.ok_swap (e : Engine) {b : Bank} (hb : b.role = .live) (ht : e.tails.length ≤ 2) :
    (if e.aIsLive then { e with bankA := .idle, bankB := b } else { e with bankA := b, bankB := .idle }).ok := by
  split
  · exact ⟨.inr ⟨(nofun : Role.idle ≠ .live), hb⟩, Bank.idleOk_idle, Bank.idleOk_of_live hb, ht⟩
  · exact ⟨.inl ⟨hb, (nofun : Role.idle ≠ .live)⟩, Bank.idleOk_of_live hb, Bank.idleOk_idle, ht⟩

theorem Engine.setLive_tails (e : Engine) (b : Bank) : (e.setLive b).tails = e.tails := by unfold Engine.setLive; split <;> rfl

theorem Engine.setOther_tails (e : Engine) (b : Bank) : (e.setOther b).tails = e.tails := by
  unfold Engine.setOther; split <;> rfl

theorem Engine.setLive_other (e : Engine) (b : Bank) (hb : b.role = .live) (h : e.oneLive) : (e.setLive b).other = e.other := by
  unfold Engine.setLive Engine.other Engine.aIsLive
  rcases h with h | h
  · have ha : (e.bankA.role == Role.live) = true := by rw [h.1]; rfl
    simp only [ha, if_true, hb, beq_self_eq_true]
  · have ha : (e.bankA.role == Role.live) = false := by simpa using h.1
    simp only [ha, Bool.false_eq_true, if_false]

/-! ## Edits -/

theorem State.putEdit_keeps (s : State) (p : Nat) (f : Stage → Stage) (o : OverlayEntry) : Keeps s (s.putEdit p f o) := by
  unfold State.putEdit
  split
  · exact .blocks rfl rfl rfl rfl rfl fun h => Engine.ok_liveStages h _
  · exact .blocks rfl rfl rfl rfl rfl fun h => Engine.ok_of_banks rfl rfl h.2.2.2 h
  · exact .blocks rfl rfl rfl rfl rfl fun h => Engine.ok_otherStages h _ (fun hn => by rw [hn]; simp [setAt])

/-- What an edit leaves: where it is made, the state is one that `Keeps`. -/
theorem State.editParam_keeps {s t : State} {p i v k w : Int} {c : Bool} (h : s.editParam p i v k = .wrote w c t) : Keeps s t := by
  unfold State.editParam at h
  split at h
  · cases h
  · dsimp only at h
    split at h
    · cases h
    · split at h
      · cases h
      · split at h
        · cases h
        · split at h
          · cases h
          · split at h
            · cases h
            · cases h; exact State.putEdit_keeps _ _ _ _

theorem State.editEnable_keeps {s t : State} {p v k w : Int} {c : Bool} (h : s.editEnable p v k = .wrote w c t) : Keeps s t := by
  unfold State.editEnable at h
  split at h
  · cases h
  · dsimp only at h
    split at h
    · cases h
    · cases h; exact State.putEdit_keeps _ _ _ _

theorem Keeps.mapper (s : State) (m : Mapper) : Keeps s { s with mapper := m } := .others rfl rfl rfl rfl rfl rfl

theorem State.writeTempo_keeps (s : State) (v : Int) : Keeps s (s.writeTempo v) :=
  .blocks rfl rfl rfl rfl rfl fun h => Engine.ok_of_banks rfl rfl h.2.2.2 h

/-! ## Stage Link -/

/-- A change of the link that keeps the size of the unit table. -/
theorem Keeps.link (s : State) (l : Link) (h : l.units.length = s.link.units.length := by rfl) :
    Keeps s { s with link := l } :=
  .others rfl rfl rfl rfl rfl rfl rfl fun k => ⟨k.1, h.trans k.2⟩

theorem Link.mirror_units (l : Link) (f : MasterFrame) : (l.mirror f).units = l.units := by
  unfold Link.mirror; split
  · split <;> rfl
  · rfl

theorem Link.place_units (l : Link) (f : MasterFrame) : (l.place f).1.units = l.units := by
  unfold Link.place; split
  · rfl
  · split
    · rfl
    · split <;> rfl

theorem Link.handed_units (l : Link) (f : MasterFrame) : (((l.mirror f).place f).1).units = l.units :=
  (Link.place_units _ _).trans (Link.mirror_units _ _)

theorem State.handFrame_keeps (s : State) (f : MasterFrame) : Keeps s (s.handFrame f) := by
  unfold State.handFrame
  dsimp only
  split
  · exact (Keeps.link s _ (by rw [Link.handed_units])).trans (State.notify_keeps _ _)
  · exact Keeps.link s _ (by rw [Link.handed_units])

theorem State.handFrames_keeps (s : State) (fs : List MasterFrame) : Keeps s (s.handFrames fs) :=
  .foldl (fun s f => s.handFrame_keeps f) fs s

theorem State.handEvents_keeps (s : State) (es : List ControlEvent) : Keeps s (s.handEvents es) :=
  .foldl (fun s _ => (Keeps.mapper s _).trans (State.notifyAll_keeps _ _)) es s

theorem State.linkMiss_keeps (s : State) (e : Nat) (d : Bool) : Keeps s (s.linkMiss e d) := by
  unfold State.linkMiss
  split
  · exact Keeps.link s _
  · split
    · exact Keeps.link s _
    · exact (Keeps.link s _ (List.length_set ..)).trans (State.notifyAll_keeps _ _)

theorem State.windowExpiry_keeps (s : State) : Keeps s s.windowExpiry := by
  unfold State.windowExpiry; split
  · exact s.linkMiss_keeps _ _
  · exact .refl s

theorem State.interByteTimeout_keeps (s : State) : Keeps s s.interByteTimeout := by
  unfold State.interByteTimeout; split
  · exact s.linkMiss_keeps _ _
  · exact .refl s

theorem State.goodState_keeps (s : State) (e : Nat) (u : UnitEntry) (f : StateFrame) : Keeps s (s.goodState e u f) := by
  unfold State.goodState
  split
  · exact Keeps.link s _
  · exact (Keeps.link s _ (List.length_set ..)).trans (State.handEvents_keeps _ _)
  · exact (Keeps.link s _ (List.length_set ..)).trans ((State.notify_keeps _ _).trans (State.handFrames_keeps _ _))

theorem State.judge_keeps (s : State) (e : Nat) (d : Bool) (bs : List Nat) : Keeps s (s.judge e d bs) := by
  unfold State.judge
  split
  · exact Keeps.link s _
  · split
    · exact Keeps.link s _
    · exact s.linkMiss_keeps _ _
    · split
      · exact Keeps.link s _
      · exact s.goodState_keeps _ _ _

theorem State.receiveByte_keeps (s : State) (b : RxByte) : Keeps s (s.receiveByte b) := by
  unfold State.receiveByte
  split
  · split
    · exact .refl s
    · split
      · exact s.linkMiss_keeps _ _
      · exact s.judge_keeps _ _ _
  · split
    · exact s.linkMiss_keeps _ _
    · exact s.judge_keeps _ _ _
  · exact .refl s

theorem State.receive_keeps (s : State) (bs : List RxByte) : Keeps s (s.receive bs) :=
  .foldl (fun s b => s.receiveByte_keeps b) bs s

/-! ## Tuner -/

theorem Keeps.tuner (s : State) (t : Tuner) : Keeps s { s with tuner := t } := .others rfl rfl rfl rfl rfl rfl

theorem State.handReading_keeps (s : State) : Keeps s s.handReading := s.handFrames_keeps _

theorem State.setTuner_keeps (s : State) (t : Tuner) : Keeps s (s.setTuner t) := by
  unfold State.setTuner
  dsimp only
  split
  · exact Keeps.tuner s t
  · exact (Keeps.tuner s t).trans (State.handReading_keeps _)

theorem State.toggleTuner_keeps (s : State) : Keeps s s.toggleTuner := by
  unfold State.toggleTuner; split <;> exact s.setTuner_keeps _

theorem State.windowWork_keeps (s : State) (b : Bool) : Keeps s (s.windowWork b) := by
  unfold State.windowWork
  split
  · split
    · dsimp only
      split
      · exact (Keeps.tuner s _).trans ((State.notify_keeps _ _).trans (State.handReading_keeps _))
      · exact (Keeps.tuner s _).trans (State.handReading_keeps _)
    · exact Keeps.tuner s _
  · exact .refl s

/-! ## Input Section -/

theorem Keeps.input (s : State) (i : InputSection) : Keeps s { s with input := i } := .others rfl rfl rfl rfl rfl rfl

theorem State.abortLearn_keeps (s : State) : Keeps s s.abortLearn := by
  unfold State.abortLearn; split
  · exact (Keeps.input s _).trans (State.completeAll_keeps _ _)
  · exact .refl s

theorem State.writeLearnedTrim_keeps (s : State) (v : Int) : Keeps s (s.writeLearnedTrim v) :=
  .others rfl rfl rfl rfl rfl rfl rfl (State.tablesOk_profiles rfl fun p h =>
    .inr ((mem_setAt h).elim (fun h => ⟨p, h, rfl⟩) fun ⟨q, hq, e⟩ => ⟨q, hq, e ▸ rfl⟩))

theorem State.learnWork_keeps (s : State) : Keeps s s.learnWork := by
  unfold State.learnWork
  split
  · dsimp only
    split
    · exact Keeps.input s _
    · split
      · exact (Keeps.input s _).trans ((State.writeLearnedTrim_keeps _ _).trans
          ((Keeps.input _ _).trans (State.complete_keeps _ _ _ _)))
      · exact (Keeps.input s _).trans ((Keeps.input _ _).trans (State.complete_keeps _ _ _ _))
  · split
    · exact Keeps.input s _
    · exact .refl s

theorem State.tunerProfile_keeps (s : State) (p : Profile) : Keeps s (s.tunerProfile p) := by
  unfold State.tunerProfile; split
  · exact (Keeps.tuner s _).trans (State.handReading_keeps _)
  · exact Keeps.tuner s _

theorem State.profileWork_keeps (s : State) : Keeps s s.profileWork := by
  unfold State.profileWork
  dsimp only
  split
  · split
    · exact (State.abortLearn_keeps s).trans ((State.tunerProfile_keeps _ _).trans
        ((Keeps.input _ _).trans (Keeps.input _ _)))
    · exact (State.tunerProfile_keeps s _).trans ((Keeps.input _ _).trans (Keeps.input _ _))
  · exact Keeps.input s _

theorem State.choose_keeps (s : State) (p : Nat) : Keeps s (s.choose p) := Keeps.input s _

/-! ## Transition Unit -/

theorem Keeps.transition (s : State) (t : Transition) : Keeps s { s with transition := t } := .others rfl rfl rfl rfl rfl rfl

theorem State.finishSelect_keeps (s : State) (x : Select) (o : SelectOutcome) (n : Nat) : Keeps s (s.finishSelect x o n) := by
  unfold State.finishSelect
  dsimp only
  have h := (State.notify_keeps s (sceneNotice x o n)).trans (State.completeAll_keeps _ (x.completions o))
  split
  · exact h.trans (State.handFrames_keeps _ _)
  · exact h

theorem State.supersede_keeps (s : State) (x : Option Select) (n : Nat) : Keeps s (s.supersede x n) := by
  unfold State.supersede; split
  · exact s.finishSelect_keeps _ _ _
  · exact .refl s

theorem State.stopSelect_keeps (s : State) (x : Select) : Keeps s (s.stopSelect x) :=
  (Keeps.transition s _).trans (State.supersede_keeps _ _ _)

theorem State.takeSelect_keeps (s : State) (x : Select) : Keeps s (s.takeSelect x) := by
  unfold State.takeSelect
  split
  · exact s.stopSelect_keeps x
  · split
    · exact Keeps.transition s _
    · refine .trans ?_ (State.supersede_keeps _ _ _)
      exact .blocks rfl rfl rfl rfl rfl fun h => Engine.ok_of_banks rfl rfl h.2.2.2 h
    · exact (Keeps.transition s _).trans (State.supersede_keeps _ _ _)
    · exact (Keeps.transition s _).trans (State.supersede_keeps _ _ _)

theorem State.mapperSelect_keeps (s : State) (i n : Nat) : Keeps s (s.mapperSelect i n) := by
  unfold State.mapperSelect
  dsimp only
  split
  · exact s.notify_keeps _
  · exact s.takeSelect_keeps _

theorem State.writeSceneFields_keeps (s : State) (r : SceneRecord) : Keeps s (s.writeSceneFields r) :=
  .blocks rfl rfl rfl rfl rfl fun h => Engine.ok_of_banks rfl rfl h.2.2.2 h

theorem cutUntil_length (p : List Tail → Bool) (l : List Tail) : (cutUntil p l).length ≤ l.length := by
  induction l with
  | nil => exact Nat.le_refl _
  | cons t l ih =>
    unfold cutUntil; split
    · exact Nat.le_refl _
    · exact Nat.le_trans ih (Nat.le_succ _)

theorem offerTail_length (next : List Stage) (tails : List Tail) (st : Stage) (h : tails.length ≤ 2) :
    (offerTail next tails st).length ≤ 2 := by
  unfold offerTail
  dsimp only
  split <;> split <;> first | omega | (simp only [List.length_append, List.length_drop, List.length_cons, List.length_nil]; omega)

theorem releaseTails_length (next released : List Stage) (tails : List Tail) (h : tails.length ≤ 2) :
    (releaseTails next released tails).length ≤ 2 := by
  unfold releaseTails
  generalize released.filter (·.tailMode) = l
  induction l generalizing tails with
  | nil => exact h
  | cons st l ih => exact ih _ (offerTail_length _ _ _ h)

theorem stagedDip_tails (k : DecidedKind) (live next : List Stage) (tails : List Tail) :
    (stagedDip k live next tails).tails.length ≤ tails.length := cutUntil_length _ _

theorem stagedAs_tails (k : DecidedKind) (live next : List Stage) (tails : List Tail) :
    (stagedAs k live next tails).tails.length ≤ tails.length := by
  unfold stagedAs
  split
  · dsimp only
    split
    · exact cutUntil_length _ _
    · exact Nat.le_trans (stagedDip_tails _ _ _ _) (cutUntil_length _ _)
  · exact stagedDip_tails _ _ _ _

/-- NEXT made in the bank that is not LIVE, with LIVE's instances marked. -/
theorem Engine.ok_staged {e : Engine} (h : e.ok) (l : List Stage) (n : Nat) (l' : List Stage) {tails : List Tail}
    (ht : tails.length ≤ 2) :
    Engine.ok { (e.setLive { e.live with stages := l }).setOther ⟨.next, n, l'⟩ with tails := tails } :=
  Engine.ok_tails (Engine.ok_setOther (Engine.ok_liveStages h l) (show Role.next ≠ .live by decide) (Bank.idleOk_next n l')) ht

theorem State.copyStaged_keeps (s : State) (x : Select) (r : SceneRecord) : Keeps s (s.copyStaged x r) := by
  unfold State.copyStaged
  dsimp only
  refine .trans ?_ (State.writeSceneFields_keeps _ _)
  refine .blocks rfl rfl rfl rfl rfl fun h => ?_
  exact Engine.ok_of_banks rfl rfl (Nat.le_trans (stagedAs_tails _ _ _ _) h.2.2.2)
    (Engine.ok_staged h _ _ _ (Nat.le_trans (stagedAs_tails _ _ _ _) h.2.2.2))

theorem State.dropEmpty_keeps (s : State) (x : Select) : Keeps s (s.dropEmpty x) := by
  refine .trans ?_ (State.finishSelect_keeps _ _ _ _)
  exact .blocks rfl rfl rfl rfl rfl fun h => Engine.ok_of_banks rfl rfl h.2.2.2 h

theorem State.stageWork_keeps (s : State) : Keeps s s.stageWork := by
  unfold State.stageWork
  split
  · split
    · exact s.copyStaged_keeps _ _
    · exact s.dropEmpty_keeps _
    · exact .refl s
  · exact .refl s

theorem State.copyRestaged_keeps (s : State) (x : Select) (r : SceneRecord) : Keeps s (s.copyRestaged x r) := by
  unfold State.copyRestaged
  dsimp only
  refine .trans ?_ (State.writeSceneFields_keeps _ _)
  exact .blocks rfl rfl rfl rfl rfl fun h =>
    Engine.ok_staged h _ _ _ (Nat.le_trans (stagedDip_tails _ _ _ _) h.2.2.2)

theorem State.restageWork_keeps (s : State) : Keeps s s.restageWork := by
  unfold State.restageWork
  split
  · split
    · exact s.copyRestaged_keeps _ _
    · exact .refl s
  · exact .refl s

theorem giveAllLanes_nil (free : List Nat) : giveAllLanes free [] = [] := rfl

theorem turned_nil (held : List Nat) (live : List Stage) : turned held live [] = [] := by
  unfold turned; simp [giveAllLanes]

theorem State.turnWork_keeps (s : State) : Keeps s s.turnWork := by
  unfold State.turnWork
  split
  · dsimp only
    refine .blocks rfl rfl rfl rfl rfl fun h => ?_
    refine Engine.ok_tails ?_ (releaseTails_length _ _ _ h.2.2.2)
    have h' := Engine.ok_liveStages h (List.replicate 12 .none)
    refine Engine.ok_setOther h' ?_ ?_
    · exact Engine.other_role h.1
    · exact Bank.idleOk_stages (Engine.other_idleOk h) _ (fun hn => by rw [hn]; exact turned_nil _ _)
  · exact .refl s

theorem Engine.swapped_ok (e : Engine) (l : List Stage) (ht : e.tails.length ≤ 2) : (e.swapped l).ok := by
  unfold Engine.swapped
  exact Engine.ok_swap e rfl ht

theorem State.endTransition_keeps (s : State) : Keeps s s.endTransition := by
  unfold State.endTransition
  dsimp only
  have h : Keeps s { s with
      engine := { s.engine.swapped s.engine.other.stages with
        tails := releaseTails s.engine.other.stages s.engine.live.stages s.engine.tails }
      transition :=
        { s.transition.nextSelect (!s.engine.runNext) with liveWeight := 256, nextWeight := 0, acted := true }
      mapper := s.mapper.uncatchAll } :=
    .blocks rfl rfl rfl rfl rfl fun h =>
      Engine.ok_tails (Engine.swapped_ok _ _ h.2.2.2) (releaseTails_length _ _ _ h.2.2.2)
  split
  · exact h.trans (State.finishSelect_keeps _ _ _ _)
  · exact h

theorem State.fadeEndWork_keeps (s : State) : Keeps s s.fadeEndWork := by
  unfold State.fadeEndWork; split
  · exact s.endTransition_keeps
  · exact .refl s

theorem State.dipEndWork_keeps (s : State) : Keeps s s.dipEndWork := by
  unfold State.dipEndWork; split
  · exact s.endTransition_keeps
  · exact .refl s

theorem Engine.directCopied_ok (e : Engine) (n k : Nat) (v : List EditView) (ht : e.tails.length ≤ 2) :
    (e.directCopied n k v).ok := by
  unfold Engine.directCopied
  exact Engine.ok_swap e rfl ht

theorem State.directCopy_keeps (s : State) (x : Select) (r : SceneRecord) (v : List EditView) (o : SelectOutcome) :
    Keeps s (s.directCopy x r v o) := by
  unfold State.directCopy
  dsimp only
  refine .trans (.trans ?_ (State.writeSceneFields_keeps _ _)) (State.finishSelect_keeps _ _ _ _)
  refine .blocks rfl rfl rfl rfl rfl fun h => ?_
  have hd := Engine.directCopied_ok s.engine x.scene (s.engine.tempoWith r) v h.2.2.2
  exact Engine.ok_of_banks rfl rfl hd.2.2.2 hd

theorem State.directWork_keeps (s : State) : Keeps s s.directWork := by
  unfold State.directWork
  split
  · split
    · dsimp only
      split
      · exact (Keeps.transition s _).trans (State.finishSelect_keeps _ _ _ _)
      · exact (Keeps.transition s _).trans (State.directCopy_keeps _ _ _ _ _)
    · exact .refl s
  · exact .refl s

theorem Engine.cutTails_ok {e : Engine} (h : e.ok) : e.cutTails.ok := by
  obtain ⟨h1, h2, h3, _⟩ := h
  exact ⟨h1, Bank.idleOk_stages h2 _ (fun k => by rw [k]; rfl), Bank.idleOk_stages h3 _ (fun k => by rw [k]; rfl),
    Nat.zero_le _⟩

theorem State.stopCompleting_keeps (s : State) (x : Select) : Keeps s (s.stopCompleting x) := by
  unfold State.stopCompleting
  dsimp only
  refine .trans ?_ (State.finishSelect_keeps _ _ _ _)
  exact .blocks rfl rfl rfl rfl rfl fun h => Engine.swapped_ok _ _ h.2.2.2

theorem State.stopStaging_keeps (s : State) (x : Select) : Keeps s (s.stopStaging x) := by
  unfold State.stopStaging
  dsimp only
  split
  · exact (Keeps.transition s _).trans (State.finishSelect_keeps _ _ _ _)
  · split
    · exact (Keeps.transition s _).trans (State.stopSelect_keeps _ _)
    · exact (Keeps.transition s _).trans (State.directCopy_keeps _ _ _ _ _)

theorem Engine.dropNext_ok {e : Engine} (h : e.ok) : e.dropNext.ok :=
  Engine.ok_setOther (Engine.ok_liveStages h _) (by decide) Bank.idleOk_idle

theorem State.stopInFlight_keeps (s : State) : Keeps s s.stopInFlight := by
  unfold State.stopInFlight
  split
  · exact .refl s
  · split
    · exact s.stopStaging_keeps _
    · split
      · refine .trans ?_ (State.stopStaging_keeps _ _)
        exact .blocks rfl rfl rfl rfl rfl fun h => Engine.dropNext_ok h
      · exact s.stopCompleting_keeps _
    · exact s.stopCompleting_keeps _

theorem State.stopPending_keeps (s : State) : Keeps s s.stopPending := by
  unfold State.stopPending
  split
  · exact .refl s
  · dsimp only
    split
    · exact (Keeps.transition s _).trans (State.finishSelect_keeps _ _ _ _)
    · split
      · exact (Keeps.transition s _).trans (State.stopSelect_keeps _ _)
      · exact (Keeps.transition s _).trans (State.directCopy_keeps _ _ _ _ _)

theorem State.stopped_keeps (s : State) : Keeps s s.stopped :=
  .blocks rfl rfl rfl rfl rfl fun h => Engine.ok_of_banks rfl rfl h.2.2.2 h

theorem State.stopWork_keeps (s : State) : Keeps s s.stopWork := by
  unfold State.stopWork
  split
  · have h0 : Keeps s { s with engine := s.engine.cutTails } :=
      .blocks rfl rfl rfl rfl rfl fun h => Engine.cutTails_ok h
    exact ((h0.trans (State.stopInFlight_keeps _)).trans (State.stopPending_keeps _)).trans (State.stopped_keeps _)
  · exact .refl s

theorem State.restartWork_keeps (s : State) : Keeps s s.restartWork := by
  unfold State.restartWork
  split
  · dsimp only
    refine .blocks rfl rfl rfl rfl rfl fun h => ?_
    have h' := Engine.ok_liveStages h (s.engine.live.stages.map (Stage.refreshed s.engine.tempoTarget))
    exact Engine.ok_of_banks rfl rfl h'.2.2.2 h'
  · exact .refl s

theorem State.advanceWork_keeps (s : State) : Keeps s s.advanceWork := by
  unfold State.advanceWork; split
  · exact Keeps.transition s _
  · exact .refl s

/-! ## Control Mapper -/

theorem State.makeReferral_keeps (s : State) (e : ControlEvent) (i n : Nat) (b : Bool) : Keeps s (s.makeReferral e i n b) :=
  (Keeps.mapper s _).trans (State.notify_keeps _ _)

theorem State.nameScene_keeps (s : State) (e : ControlEvent) (i n : Nat) (r : Option Bool) : Keeps s (s.nameScene e i n r) := by
  unfold State.nameScene
  split
  · exact s.mapperSelect_keeps _ _
  · split
    · exact s.makeReferral_keeps _ _ _ _
    · exact s.mapperSelect_keeps _ _

theorem State.settleReferral_keeps (s : State) (r : Referral) (n : Nat) : Keeps s (s.settleReferral r n) :=
  (Keeps.mapper s _).trans (State.mapperSelect_keeps _ _ _)

theorem State.referralWork_keeps (s : State) : Keeps s s.referralWork := by
  unfold State.referralWork
  split
  · exact .refl s
  · split
    · split
      · exact s.settleReferral_keeps _ _
      · exact Keeps.mapper s _
    · exact Keeps.mapper s _

theorem State.setCatch_keeps (s : State) (i : Nat) (c : CatchState) : Keeps s (s.setCatch i c) := Keeps.mapper s _

theorem State.paramAction_keeps (s : State) (i : Nat) (a : Assignment) (v : Nat) : Keeps s (s.paramAction i a v) := by
  unfold State.paramAction
  dsimp only
  split
  · exact .refl s
  · split
    · split
      · exact s.setCatch_keeps _ _
      · rename_i hw
        exact (s.setCatch_keeps _ _).trans ((State.editParam_keeps hw).trans (Keeps.mapper _ _))
    · exact s.setCatch_keeps _ _

theorem State.toggleAction_keeps (s : State) (p : Int) : Keeps s (s.toggleAction p) := by
  unfold State.toggleAction
  split
  · exact .refl s
  · rename_i hw; exact State.editEnable_keeps hw

theorem State.tap_keeps (s : State) (w : Word) : Keeps s (s.tap w) := by
  unfold State.tap
  split
  · exact Keeps.mapper s _
  · dsimp only
    split
    · exact Keeps.mapper s _
    · exact (Keeps.mapper s _).trans (State.writeTempo_keeps _ _)

theorem State.act_keeps (s : State) (i : Nat) (a : Assignment) (e : ControlEvent) (b : Bool) : Keeps s (s.act i a e b) := by
  unfold State.act
  split
  · exact s.nameScene_keeps _ _ _ _
  · split
    · exact s.nameScene_keeps _ _ _ _
    · exact .refl s
  · exact s.toggleAction_keeps _
  · exact s.paramAction_keeps _ _ _
  · exact s.toggleTuner_keeps
  · split
    · exact .refl s
    · exact s.tap_keeps _
  · exact s.choose_keeps _
  · exact s.notify_keeps _

theorem State.actFrom_keeps (e : ControlEvent) (l : List Nat) (s : State) (b : Bool) : Keeps s (State.actFrom e l s b) := by
  induction l generalizing s b with
  | nil => exact .refl s
  | cons i l ih =>
    unfold State.actFrom
    dsimp only
    split
    · exact (s.act_keeps _ _ _ _).trans (ih _ _)
    · exact ih _ _

theorem State.eventWork_keeps (s : State) : Keeps s s.eventWork := by
  unfold State.eventWork; split
  · exact .refl s
  · exact (Keeps.mapper s _).trans (State.actFrom_keeps _ _ _ _)

/-! ## Block start -/

theorem runStages_nil (store : Store) (p n : Nat) (xs : List Int) : (runStages store p n [] xs).1 = [] := rfl

theorem runBank_nil (store : Store) (b : Bool) (p n : Nat) (xs : List Int) : (runBank store b p n [] xs).1 = [] := by
  unfold runBank; split <;> rfl

theorem runTails_length (store : Store) (n : Nat) (l : List Tail) : (runTails store n l).1.length = l.length := by
  induction l with
  | nil => rfl
  | cons t l ih => unfold runTails; simp [ih]

theorem State.processBlock_keeps (s : State) : Keeps s s.processBlock := by
  unfold State.processBlock
  dsimp only
  refine .blocks rfl rfl rfl rfl rfl fun h => ?_
  have ho : ∀ l, (s.engine.setLive { s.engine.live with stages := l }).ok := Engine.ok_liveStages h
  have hs : ∀ l k : List Stage, (s.engine.other.stages = [] → k = []) →
      ((s.engine.setLive { s.engine.live with stages := l }).setOther { s.engine.other with stages := k }).ok :=
    fun l k hk => Engine.ok_setOther (ho l) (Engine.other_role h.1) (Bank.idleOk_stages (Engine.other_idleOk h) _ hk)
  refine Engine.ok_tails (hs _ _ fun hn => ?_) ?_
  · unfold State.chainOfBlock; split
    · unfold chainBlock; dsimp only; rw [hn]; exact runBank_nil _ _ _ _ _
    · exact hn
  · unfold State.chainOfBlock; split
    · unfold chainBlock; dsimp only; rw [runTails_length]; exact h.2.2.2
    · exact h.2.2.2

theorem State.closeWork_keeps (s : State) : Keeps s s.closeWork := by
  unfold State.closeWork
  dsimp only
  split
  · exact (State.processBlock_keeps s).trans
      (.blocks rfl rfl rfl rfl rfl fun h => Engine.ok_of_banks rfl rfl h.2.2.2 h)
  · exact .blocks rfl rfl rfl rfl rfl fun h => Engine.ok_of_banks rfl rfl h.2.2.2 h

theorem Keeps.tails {s : State} {l : List Tail} (h : l.length ≤ s.engine.tails.length) :
    Keeps s { s with engine := { s.engine with tails := l } } :=
  .blocks rfl rfl rfl rfl rfl fun k => Engine.ok_tails k (Nat.le_trans h k.2.2.2)

theorem Bank.atBlockStart_idleOk {b : Bank} (h : b.idleOk) (n : Nat) : (b.atBlockStart n).idleOk :=
  Bank.idleOk_stages h _ fun k => by rw [k]; rfl

theorem State.engineWork_keeps (s : State) : Keeps s s.engineWork := by
  unfold State.engineWork
  dsimp only
  split
  · refine .blocks rfl rfl rfl rfl rfl fun h => ?_
    obtain ⟨h1, h2, h3, h4⟩ := h
    exact ⟨h1, Bank.atBlockStart_idleOk h2 _, Bank.atBlockStart_idleOk h3 _, by simpa using h4⟩
  · exact .blocks rfl rfl rfl rfl rfl fun h => Engine.ok_of_banks rfl rfl h.2.2.2 h

/-- A write of Exchange RAM and of the Report Unit's counts. -/
theorem Keeps.reported {s : State} {m : Ram} {x : Report} (h : Memory.wf s.ram = true → Memory.wf m = true) :
    Keeps s { s with ram := m, report := x } :=
  ⟨rfl, rfl, rfl, rfl, rfl, rfl, rfl, rfl, id, h, id, id, id, id, id⟩

theorem State.publishPage_keeps (s : State) : Keeps s s.publishPage := by
  unfold State.publishPage
  dsimp only
  generalize s.pageFields (s.report.serial + 1) = fs
  exact (Keeps.reported fun h => wf_writeLE (wf_writeLE (wf_writeFields h _ _) _ _ _) _ _ _).trans (State.raise_keeps _ _)

theorem State.closePeriods_keeps (s : State) : Keeps s s.closePeriods := by
  unfold State.closePeriods
  dsimp only
  refine .trans ?_ (State.notifyAll_keeps _ _)
  exact .others rfl rfl rfl rfl rfl rfl

theorem State.pageWork_keeps (s : State) : Keeps s s.pageWork := by
  unfold State.pageWork; split
  · exact s.publishPage_keeps.trans (State.closePeriods_keeps _)
  · exact .refl s

/-- Every work of a block start keeps what no owner touches, and the invariants. -/
theorem Work.run_keeps (w : Work) (s : State) : Keeps s (w.run s) := by
  cases w
  case close => exact s.closeWork_keeps
  case tailQuiet => exact Keeps.tails (Nat.le_trans (List.length_filter_le _ _) (by simp))
  case tailAge => exact Keeps.tails (Nat.le_trans (List.length_filter_le _ _) (by simp))
  case learn => exact s.learnWork_keeps
  case window => exact s.windowWork_keeps _
  case profile => exact s.profileWork_keeps
  case collect => exact Keeps.tuner s _
  case tables => exact Keeps.store s _
  case stage => exact s.stageWork_keeps
  case restage => exact s.restageWork_keeps
  case dipTurn => exact s.turnWork_keeps
  case fadeEnd => exact s.fadeEndWork_keeps
  case dipEnd => exact s.dipEndWork_keeps
  case stop => exact s.stopWork_keeps
  case restart => exact s.restartWork_keeps
  case directCopy => exact s.directWork_keeps
  case advance => exact s.advanceWork_keeps
  case impulse => exact s.impulseWork_keeps
  case engine => exact s.engineWork_keeps
  case trim => exact Keeps.input s _
  case routeEnd => exact .others rfl rfl rfl rfl rfl rfl
  case routeStart => exact .others rfl rfl rfl rfl rfl rfl
  case mute => exact .others rfl rfl rfl rfl rfl rfl
  case referral => exact s.referralWork_keeps
  case event => exact s.eventWork_keeps
  case page => exact s.pageWork_keeps

theorem runWorks_keeps (ws : List Work) (s : State) : Keeps s (runWorks ws s) := .foldl (fun s w => w.run_keeps s) ws s

theorem runWorks_append (xs ys : List Work) (s : State) : runWorks (xs ++ ys) s = runWorks ys (runWorks xs s) := by
  unfold runWorks; rw [List.foldl_append]

end Sys2Proof.Machine
end

