-- ==== Sys2Proof/Laws/Take.lean ====
section
/-! SUPPORT. What a take of a posted slot does (R186, R188), said once: the slots and the queue, the owner's answer, the
bytes of the result. Every proof about a request cites these. -/

namespace Sys2Proof.Machine

-- One proof at a time: proofs that wait for each other each hold a thread and its stack.
set_option Elab.async false

/-! ## The owners' answers -/

/-- The state with its effect, as an owner hands it back, `Keeps` what no owner touches. -/
def CarryKeeps (carry : Taken → State → Answer) : Prop := ∀ t s, Keeps s (carry t s).state

theorem State.answer_state (s : State) (c : Result) (v : ResultValue) : (s.answer c v).state = s := rfl

/-- A scene entry that becomes EMPTY, or a legal record within the budget. -/
theorem Keeps.scene (s : State) (n : Nat) (x : Option SceneRecord)
    (h : ∀ r, x = some r → (r.load ≤ 1000 ∧ r.lanes ≤ 4) ∧ r.legal) :
    Keeps s { s with store := { s.store with scenes := s.store.scenes.set n x } } := by
  refine ⟨rfl, rfl, rfl, rfl, rfl, rfl, rfl, rfl, id, id, id, id, fun k r hr => ?_, fun k r hr => ?_, id⟩
  · rcases List.mem_or_eq_of_mem_set hr with hr | hr
    · exact k r hr
    · exact (h r hr.symm).1
  · rcases List.mem_or_eq_of_mem_set hr with hr | hr
    · exact k r hr
    · exact (h r hr.symm).2

theorem carryWriteScene_keeps : CarryKeeps carryWriteScene := fun t s => by
  unfold carryWriteScene
  split
  · exact .refl s
  · dsimp only
    split
    · exact .refl s
    · split
      · exact .refl s
      · rename_i hb
        refine Keeps.scene s _ _ fun r hr => ?_
        cases hr
        exact ⟨by omega, imageScene_legal (readBytes_length _ _ _) (by assumption)⟩

theorem carryReadScene_keeps : CarryKeeps carryReadScene := fun t s => by
  unfold carryReadScene
  split
  · exact .refl s
  · split
    · exact .refl s
    · exact Keeps.ram fun h => wf_writeScene h _ _

theorem carryClearScene_keeps : CarryKeeps carryClearScene := fun t s => by
  unfold carryClearScene
  split
  · exact .refl s
  · split
    · exact .refl s
    · exact Keeps.scene s _ _ nofun

theorem carryLoadFilter_keeps : CarryKeeps carryLoadFilter := fun t s => by
  unfold carryLoadFilter
  split
  · exact .refl s
  · exact Keeps.store s _

theorem carryLoadCurve_keeps : CarryKeeps carryLoadCurve := fun t s => by
  unfold carryLoadCurve
  split
  · exact .refl s
  · exact Keeps.store s _

theorem carryLoadImpulse_keeps : CarryKeeps carryLoadImpulse := fun t s => by
  unfold carryLoadImpulse
  split
  · exact .refl s
  · split
    · exact .refl s
    · split
      · exact .refl s
      · exact Keeps.store s _

/-- A profile written with a name of 8 characters. -/
theorem Keeps.profile (s : State) (i : InputSection) (n : Nat) (p : Profile) (h : p.name.length = 8) :
    Keeps s { s with store := { s.store with profiles := s.store.profiles.set n p }, input := i } :=
  .others rfl rfl rfl rfl rfl rfl rfl (State.tablesOk_profiles rfl fun q hq =>
    (List.mem_or_eq_of_mem_set hq).elim (fun hq => .inr ⟨q, hq, rfl⟩) fun e => .inl (e ▸ h))

theorem carrySetProfile_keeps : CarryKeeps carrySetProfile := fun t s => by
  unfold carrySetProfile
  split
  · exact .refl s
  · dsimp only
    split
    · exact (State.abortLearn_keeps s).trans (Keeps.profile _ _ _ _ (imageProfile_name (readBytes_length _ _ _)))
    · exact Keeps.profile _ _ _ _ (imageProfile_name (readBytes_length _ _ _))

theorem carrySelectProfile_keeps : CarryKeeps carrySelectProfile := fun t s => by
  unfold carrySelectProfile
  split
  · exact .refl s
  · exact s.choose_keeps _

theorem carryTrimLearnStart_keeps : CarryKeeps carryTrimLearnStart := fun t s => by
  unfold carryTrimLearnStart
  split
  · exact .refl s
  · split
    · exact .refl s
    · split
      · exact .refl s
      · split
        · exact .refl s
        · exact Keeps.input s _

theorem carryTrimLearnAbort_keeps : CarryKeeps carryTrimLearnAbort := fun _ s => s.abortLearn_keeps

theorem carrySelectScene_keeps : CarryKeeps carrySelectScene := fun t s => by
  unfold carrySelectScene
  split
  · exact .refl s
  · split
    · exact .refl s
    · split
      · exact .refl s
      · exact s.takeSelect_keeps _

theorem carrySetParam_keeps : CarryKeeps carrySetParam := fun t s => by
  unfold carrySetParam
  split
  · exact .refl s
  · rename_i h; exact (State.editParam_keeps h).trans (Keeps.mapper _ _)

theorem carrySetEnable_keeps : CarryKeeps carrySetEnable := fun t s => by
  unfold carrySetEnable
  split
  · exact .refl s
  · rename_i h; exact State.editEnable_keeps h

theorem carrySetTempo_keeps : CarryKeeps carrySetTempo := fun _ s => s.writeTempo_keeps _

theorem Keeps.router (s : State) (r : Router) : Keeps s { s with router := r } := .others rfl rfl rfl rfl rfl rfl

theorem carrySetRoute_keeps : CarryKeeps carrySetRoute := fun t s => by
  unfold carrySetRoute
  split
  · exact .refl s
  · split
    · exact .refl s
    · split
      · exact .refl s
      · exact Keeps.router s _

theorem carryTunerEngage_keeps : CarryKeeps carryTunerEngage := fun t s => by
  unfold carryTunerEngage
  split
  · exact .refl s
  · exact s.setTuner_keeps _

theorem carryTunerDisengage_keeps : CarryKeeps carryTunerDisengage := fun _ s => s.setTuner_keeps _

theorem carrySetAssign_keeps : CarryKeeps carrySetAssign := fun t s => by
  unfold carrySetAssign
  split
  · exact .refl s
  · dsimp only
    split
    · exact .refl s
    · exact Keeps.mapper s _

theorem carryClearAssign_keeps : CarryKeeps carryClearAssign := fun t s => by
  unfold carryClearAssign
  split
  · exact .refl s
  · exact Keeps.mapper s _

theorem carryVerdict_keeps : CarryKeeps carryVerdict := fun t s => by
  unfold carryVerdict
  split
  · exact .refl s
  · split
    · exact .refl s
    · split
      · exact .refl s
      · split
        · exact s.settleReferral_keeps _ _
        · split
          · exact Keeps.mapper s _
          · split
            · exact .refl s
            · split
              · exact .refl s
              · exact s.settleReferral_keeps _ _

theorem Link.endTurn_units (l : Link) : l.endTurn.units = l.units := by unfold Link.endTurn; split <;> rfl

theorem Link.configure_units (l : Link) (a b : Bool) : (l.configure a b).units.length = l.units.length := by
  unfold Link.configure; split
  · unfold Link.disable Link.idleLine; dsimp only; split
    · rfl
    · rw [Link.endTurn_units]
    · rfl
  · rfl
  · exact List.length_map ..
  · rfl
  · rfl

theorem carryLinkConfig_keeps : CarryKeeps carryLinkConfig := fun _ _ =>
  .others rfl rfl rfl rfl rfl rfl rfl fun k => ⟨k.1, (Link.configure_units _ _ _).trans k.2⟩

theorem carrySetUnit_keeps : CarryKeeps carrySetUnit := fun t s => by
  unfold carrySetUnit
  split
  · exact .refl s
  · dsimp only
    split
    · exact .refl s
    · exact Keeps.link s _ (setAt_length ..)

theorem carryLamp_keeps : CarryKeeps carryLamp := fun t s => by
  unfold carryLamp
  split
  · exact .refl s
  · exact s.handFrame_keeps _

theorem carryText_keeps : CarryKeeps carryText := fun t s => by
  unfold carryText
  dsimp only
  split
  · exact .refl s
  · split
    · exact .refl s
    · exact s.handFrame_keeps _

theorem carryUnknownKind_keeps : CarryKeeps carryUnknownKind := fun _ s => .refl s

/-! ## What a command of the part keeps -/

/-- `t` comes from `s` by a command other than a reset: what stays, and the invariants. -/
structure Steps (s t : State) : Prop where
  pending : t.pending = s.pending
  ready : t.port.ready = s.port.ready
  softReset : t.port.softReset = s.port.softReset
  exact : s.requests.exact → t.requests.exact
  memory : s.memoryOk → t.memoryOk
  int : s.intOk → t.intOk
  engine : s.engine.ok → t.engine.ok
  scenes : s.store.withinBudget → t.store.withinBudget
  legal : s.store.scenesLegal → t.store.scenesLegal
  tables : s.tablesOk → t.tablesOk

theorem Keeps.steps {s t : State} (h : Keeps s t) : Steps s t :=
  ⟨h.pending, h.ready, h.softReset, h.exact, h.memory, h.int, h.engine, h.scenes, h.legal, h.tables⟩

theorem Steps.refl (s : State) : Steps s s := (Keeps.refl s).steps

theorem Steps.trans {s t u : State} (h : Steps s t) (k : Steps t u) : Steps s u :=
  ⟨k.pending.trans h.pending, k.ready.trans h.ready, k.softReset.trans h.softReset, fun x => k.exact (h.exact x),
    fun x => k.memory (h.memory x), fun x => k.int (h.int x), fun x => k.engine (h.engine x),
    fun x => k.scenes (h.scenes x), fun x => k.legal (h.legal x), fun x => k.tables (h.tables x)⟩

/-! ## The take -/

/-- The slot at the head of the queue is POSTED, and after its take the queue is exactly the POSTED slots again. -/
theorem RequestUnit.exact_take {r : RequestUnit} {n : Nat} {rest : List Nat} {b : Bool} (h : r.exact)
    (hq : r.queue = n :: rest) : RequestUnit.exact { slots := r.slots.set n .taken, queue := rest, serving := b } := by
  obtain ⟨h1, h2, h3⟩ := h
  rw [hq] at h2
  have hn : n ∉ rest := (List.nodup_cons.1 h2).1
  refine ⟨by simpa using h1, (List.nodup_cons.1 h2).2, fun k => ?_⟩
  show k ∈ rest ↔ _
  have h3k := h3 k
  rw [hq, List.mem_cons] at h3k
  rw [List.getElem?_set]
  by_cases hk : n = k
  · subst hk
    rw [if_pos rfl]
    constructor
    · intro h; exact absurd h hn
    · intro h; split at h
      · simp at h
      · cases h
  · rw [if_neg hk]
    constructor
    · intro h; exact h3k.1 (.inr h)
    · intro h
      rcases h3k.2 h with h | h
      · exact absurd h.symm hk
      · exact h

theorem RequestUnit.exact_post {r : RequestUnit} {n : Nat} (h : r.exact) (hn : n < 32) (hp : r.slots[n]? ≠ some .posted) :
    RequestUnit.exact { r with slots := r.slots.set n .posted, queue := r.queue ++ [n] } := by
  obtain ⟨h1, h2, h3⟩ := h
  have hnq : n ∉ r.queue := fun hm => hp ((h3 n).1 hm)
  refine ⟨by simpa using h1, ?_, fun k => ?_⟩
  · show (r.queue ++ [n]).Nodup
    rw [List.nodup_append]
    refine ⟨h2, by simp, fun a ha b hb => ?_⟩
    rw [List.mem_singleton] at hb
    exact fun e => hnq (hb ▸ e ▸ ha)
  · show k ∈ r.queue ++ [n] ↔ _
    rw [List.mem_append, List.mem_singleton, h3 k, List.getElem?_set]
    by_cases hk : n = k
    · subst hk; simp [h1, hn]
    · rw [if_neg hk]
      constructor
      · rintro (h | h)
        · exact h
        · exact absurd h.symm hk
      · exact .inl

theorem State.takeHead_steps {s : State} {n : Nat} {rest : List Nat} (hq : s.requests.queue = n :: rest) :
    Steps s (s.takeHead n rest) :=
  ⟨rfl, rfl, rfl, fun h => RequestUnit.exact_take (r := s.requests) h hq, fun h => wf_writeLE h _ _ _, id, id, id, id, id⟩

theorem State.endServing_steps (s : State) : Steps s s.endServing := ⟨rfl, rfl, rfl, id, id, id, id, id, id, id⟩

theorem State.finish_steps {s : State} {a : Answer} (h : Keeps s a.state) (n : Nat) : Steps s (State.finish a n) := by
  unfold State.finish
  split
  · exact h.steps.trans ((State.complete_keeps _ _ _ _).steps.trans (State.endServing_steps _))
  · exact h.steps.trans (State.endServing_steps _)

theorem State.serve_steps {carry : Taken → State → Answer} (h : CarryKeeps carry) (s : State) (t : Taken) (need : BufferNeed) :
    Steps s (s.serve t need carry) := by
  unfold State.serve
  split
  · exact State.finish_steps (h t s) _
  · exact State.finish_steps (.refl s) _

/-- A take, whatever it finds. -/
theorem State.take_steps {carry : Taken → State → Answer} (h : CarryKeeps carry) (s : State) (due : Taken → Bool)
    (need : BufferNeed) : Steps s (s.take due need carry) := by
  unfold State.take
  split
  · exact .refl s
  · rename_i hq
    split
    · exact (State.takeHead_steps hq).trans (State.serve_steps h _ _ _)
    · exact .refl s

/-! ## The result of a take -/

/-- The command's take is of the slot at the head: it comes to what its owner answers. -/
theorem State.take_of_head {s : State} {n : Nat} {rest : List Nat} (h : s.headIs n rest) {due : Taken → Bool}
    (hdue : due (takenAt s.ram n) = true) (need : BufferNeed) (carry : Taken → State → Answer) :
    s.take due need carry = (s.takeHead n rest).serve (takenAt s.ram n) need carry := by
  obtain ⟨_, hs, hq, _, _⟩ := h
  unfold State.take
  rw [hq]
  simp [hs, hdue]

theorem whenReady_of_head {s : State} {n : Nat} {rest : List Nat} (h : s.headIs n rest) (f : State → State) :
    whenReady s f = .next (f s) := by
  unfold whenReady; rw [h.1]; rfl

theorem State.serve_of_passes {s : State} {t : Taken} {need : BufferNeed} {carry : Taken → State → Answer}
    (h : need.passes t = true) : s.serve t need carry = State.finish (carry t s) t.slot := by
  unfold State.serve; rw [if_pos h]

theorem BufferNeed.none_passes (t : Taken) : BufferNeed.passes .none t = true := rfl

/-- A byte outside the mirror of slot n. -/
theorem takeHead_byte {s : State} (w : s.memoryOk) {n : Nat} {rest : List Nat} {a : Nat}
    (h : ¬ (slotAddress n + 2 ≤ a ∧ a < slotAddress n + 4)) : readByte (s.takeHead n rest).ram a = readByte s.ram a :=
  readByte_writeLE_outside w (by omega)

theorem slotAddress_lt {n : Nat} (h : n < 32) : slotAddress n + 32 ≤ 0x440 := by unfold slotAddress; omega

/-- The bytes of a buffer are those before the take (11.1: the buffer area lies above the slots). -/
theorem takeHead_buffer {s : State} (w : s.memoryOk) {n : Nat} {rest : List Nat} (hn : n < 32) {a : Nat} (ha : 0x1000 ≤ a) :
    readByte (s.takeHead n rest).ram a = readByte s.ram a :=
  takeHead_byte w (by have := slotAddress_lt hn; omega)

theorem readBytes_congr {m m' : Ram} {a : Nat} (k : Nat) (h : ∀ i, i < k → readByte m (a + i) = readByte m' (a + i)) :
    readBytes m a k = readBytes m' a k := by
  induction k generalizing a with
  | zero => rfl
  | succ k ih =>
    unfold readBytes
    rw [show readByte m a = readByte m' a from h 0 (Nat.succ_pos k), ih]
    intro i hi
    have := h (i + 1) (by omega)
    rwa [Nat.add_comm i 1, ← Nat.add_assoc] at this

theorem takeHead_readBytes {s : State} (w : s.memoryOk) {n : Nat} {rest : List Nat} (hn : n < 32) {a : Nat}
    (ha : 0x1000 ≤ a) (k : Nat) : readBytes (s.takeHead n rest).ram a k = readBytes s.ram a k :=
  readBytes_congr k fun i _ => takeHead_buffer w hn (by omega)

theorem BufferNeed.offset_of_passes {need : BufferNeed} {t : Taken} (hn : need ≠ .none) (h : need.passes t = true) :
    0x1000 ≤ t.offset := by
  unfold BufferNeed.passes at h
  split at h
  · exact absurd rfl hn
  · simp only [Bool.and_eq_true, decide_eq_true_eq] at h; exact h.1.2.1

/-- What the completion of a TAKEN slot leaves: the result in the slot, DONE, SIGNAL.DONE, and nothing else (R188). -/
theorem State.complete_answered {s : State} (w : s.memoryOk) {n : Nat} {code : Result} {value : ResultValue}
    (ht : s.requests.slots[n]? = some .taken) (hn : n < 32) :
    let t := s.complete n code value
    t.pending = s.pending ∧ s.sameBlocks t ∧ t.report = s.report ∧ t.port = s.port.raise .causeDone ∧
    t.requests = { s.requests with slots := s.requests.slots.set n .done } ∧
    readLE t.ram (slotAddress n + 2) 2 = SlotState.done.code ∧ readLE t.ram (slotAddress n + 0x1C) 2 = code.code ∧
    valueReads t.ram n value ∧ ∀ a, ¬ inResult n a → readByte t.ram a = readByte s.ram a := by
  have hb := slotAddress_lt hn
  have w1 : Memory.wf (writeLE s.ram (slotAddress n + 0x1C) code.code 2) = true := wf_writeLE w _ _ _
  have w2 := wf_writeLE w1 (slotAddress n + 0x18) (s.resultNumber value) 4
  rw [State.complete_of_taken ht]
  dsimp only
  refine ⟨rfl, ⟨rfl, rfl, rfl, rfl, rfl, rfl, rfl, rfl, rfl⟩, rfl, rfl, rfl, ?_, ?_, ?_, ?_⟩
  · exact (readLE_writeLE_same w2 _ (by omega)).trans rfl
  · refine (readLE_writeLE_outside w2 (by omega)).trans ((readLE_writeLE_outside w1 (by omega)).trans ?_)
    refine (readLE_writeLE_same w _ (by omega)).trans ?_
    cases code <;> rfl
  · cases value with
    | unstated => trivial
    | given v =>
      exact (readLE_writeLE_outside w2 (by omega)).trans ((readLE_writeLE_same w1 _ (by omega)).trans rfl)
  · intro a ha
    unfold inResult at ha
    exact (readByte_writeLE_outside w2 (by omega)).trans
      ((readByte_writeLE_outside w1 (by omega)).trans (readByte_writeLE_outside w (by omega)))

/-- `v` differs from `s` in the blocks and Exchange RAM alone. -/
def Quiet (s v : State) : Prop :=
  v.pending = s.pending ∧ v.requests = s.requests ∧ v.port = s.port ∧ v.report = s.report

theorem Quiet.refl (s : State) : Quiet s s := ⟨rfl, rfl, rfl, rfl⟩

/-- A request answered at once, of the slot at the head, comes to `answered` (R186, R188). `v` is the state its owner hands
back: the blocks of `u`, and the bytes of `u` but for those of the result. -/
theorem State.take_answers {s u v : State} {n : Nat} {rest : List Nat} {code : Result} {value : ResultValue}
    {due : Taken → Bool} {need : BufferNeed} {carry : Taken → State → Answer} (h : s.headIs n rest)
    (hdue : due (takenAt s.ram n) = true) (hneed : need.passes (takenAt s.ram n) = true) (hk : CarryKeeps carry)
    (w : s.memoryOk) (hc : carry (takenAt s.ram n) (s.takeHead n rest) = v.answer code value)
    (hq : Quiet (s.takeHead n rest) v) (hb : u.sameBlocks v)
    (hr : ∀ a, ¬ inResult n a → readByte v.ram a = readByte u.ram a) :
    ∃ t, whenReady s (·.take due need carry) = .next t ∧ u.sameBlocks t ∧ s.answered t u.ram n rest code value := by
  have wv : v.memoryOk := by
    have := (hk (takenAt s.ram n) (s.takeHead n rest)).memory (wf_writeLE w _ _ _)
    rwa [hc] at this
  obtain ⟨hp, hs, ho, hrep⟩ := hq
  have ht : v.requests.slots[n]? = some .taken := by
    rw [hs]
    have hlt : n < s.requests.slots.length := by
      rcases Nat.lt_or_ge n s.requests.slots.length with h' | h'
      · exact h'
      · have := h.2.2.2.1; rw [List.getElem?_eq_none h'] at this; cases this
    show (s.requests.slots.set n .taken)[n]? = _
    simp [hlt]
  obtain ⟨c1, c2, c3, c4, c5, c6, c7, c8, c9⟩ := State.complete_answered (code := code) (value := value) wv ht h.2.2.2.2
  refine ⟨(v.complete n code value).endServing, ?_, ?_, ?_⟩
  · rw [whenReady_of_head h, State.take_of_head h hdue, State.serve_of_passes hneed, hc]; rfl
  · obtain ⟨b1, b2, b3, b4, b5, b6, b7, b8, b9⟩ := hb
    obtain ⟨d1, d2, d3, d4, d5, d6, d7, d8, d9⟩ := c2
    exact ⟨d1.trans b1, d2.trans b2, d3.trans b3, d4.trans b4, d5.trans b5, d6.trans b6, d7.trans b7, d8.trans b8,
      d9.trans b9⟩
  · refine ⟨c1.trans hp, ?_, c4.trans (by rw [ho]; rfl), c3.trans hrep, c6, c7, c8, fun a ha => (c9 a ha).trans (hr a ha)⟩
    show ({ (v.complete n code value).requests with serving := false } : RequestUnit) = _
    rw [c5, hs]
    show ({ slots := (s.requests.slots.set n .taken).set n .done, queue := rest, serving := false } : RequestUnit) = _
    rw [List.set_set]

/-- The same where the owner changes blocks alone: every byte outside the result is as before the take. -/
theorem State.take_answers_blocks {s u v : State} {n : Nat} {rest : List Nat} {code : Result} {value : ResultValue}
    {due : Taken → Bool} {need : BufferNeed} {carry : Taken → State → Answer} (h : s.headIs n rest)
    (hdue : due (takenAt s.ram n) = true) (hneed : need.passes (takenAt s.ram n) = true) (hk : CarryKeeps carry)
    (w : s.memoryOk) (hc : carry (takenAt s.ram n) (s.takeHead n rest) = v.answer code value)
    (hq : Quiet (s.takeHead n rest) v) (hb : u.sameBlocks v) (hv : v.ram = (s.takeHead n rest).ram) (hu : u.ram = s.ram) :
    ∃ t, whenReady s (·.take due need carry) = .next t ∧ u.sameBlocks t ∧ s.answered t u.ram n rest code value := by
  refine State.take_answers h hdue hneed hk w hc hq hb fun a ha => ?_
  rw [hv, hu]
  exact takeHead_byte w (by unfold inResult at ha; omega)

/-- A request that fails the buffer check (R186): nothing but the slot changes. -/
theorem State.take_badBuffer {s : State} {n : Nat} {rest : List Nat} {due : Taken → Bool} {need : BufferNeed}
    {carry : Taken → State → Answer} (h : s.headIs n rest) (hdue : due (takenAt s.ram n) = true)
    (hneed : need.passes (takenAt s.ram n) = false) (w : s.memoryOk) :
    ∃ t, whenReady s (·.take due need carry) = .next t ∧ s.sameBlocks t ∧
      s.answered t s.ram n rest .badBuffer (.given need.needed) := by
  have hs : (s.takeHead n rest).serve (takenAt s.ram n) need carry =
      (s.takeHead n rest).serve (takenAt s.ram n) .none fun _ s => s.answer .badBuffer (.given need.needed) := by
    unfold State.serve; rw [hneed]; rfl
  have := State.take_answers_blocks (u := s) (v := s.takeHead n rest) (due := due) (need := .none)
    (carry := fun _ s => s.answer .badBuffer (.given need.needed)) h hdue rfl (fun _ s => .refl s) w rfl (.refl _)
    ⟨rfl, rfl, rfl, rfl, rfl, rfl, rfl, rfl, rfl⟩ rfl rfl
  rw [whenReady_of_head h, State.take_of_head h hdue] at this ⊢
  rw [hs]; exact this

/-- A long request that its owner keeps (R186): the slot stays TAKEN. -/
theorem State.take_keepsSlot {s u v : State} {n : Nat} {rest : List Nat} {due : Taken → Bool} {need : BufferNeed}
    {carry : Taken → State → Answer} (h : s.headIs n rest) (hdue : due (takenAt s.ram n) = true)
    (hneed : need.passes (takenAt s.ram n) = true) (w : s.memoryOk)
    (hc : carry (takenAt s.ram n) (s.takeHead n rest) = ⟨v, none⟩) (hq : Quiet (s.takeHead n rest) v)
    (hb : u.sameBlocks v) (hv : v.ram = (s.takeHead n rest).ram) :
    ∃ t, whenReady s (·.take due need carry) = .next t ∧ u.sameBlocks t ∧ t.pending = s.pending ∧
      t.requests = { slots := s.requests.slots.set n .taken, queue := rest, serving := false } ∧
      t.port = s.port ∧ t.report = s.report ∧ readLE t.ram (slotAddress n + 2) 2 = SlotState.taken.code ∧
      ∀ a, ¬ (slotAddress n + 2 ≤ a ∧ a < slotAddress n + 4) → readByte t.ram a = readByte s.ram a := by
  have hlt := slotAddress_lt h.2.2.2.2
  obtain ⟨hp, hs, ho, hrep⟩ := hq
  refine ⟨v.endServing, ?_, hb, hp, ?_, ho, hrep, ?_, ?_⟩
  · rw [whenReady_of_head h, State.take_of_head h hdue, State.serve_of_passes hneed, hc]; rfl
  · show ({ v.requests with serving := false } : RequestUnit) = _
    rw [hs]; rfl
  · show readLE v.ram _ 2 = _
    rw [hv]
    exact (readLE_writeLE_same w _ (by omega)).trans rfl
  · intro a ha
    show readByte v.ram a = _
    rw [hv]; exact takeHead_byte w ha

end Sys2Proof.Machine
end

