-- ==== Sys2Proof/Laws/Transitions.lean ====
section
/-! SUPPORT. What the Transition Unit's operations come to, said in the words of the rules: cut tails, carries, fresh copies,
lanes given, and how a finished select reports (R8, R18, R124, R125, R128, R135). Each operation once; a proof about a command
cites these. -/

namespace Sys2Proof.Machine

/-! ## Sums -/

theorem sumOf_eq {α : Type} (f : α → Int) (l : List α) : sumOf f l = (l.map f).sum := by
  induction l with
  | nil => rfl
  | cons x l ih => rw [List.map_cons, List.sum_cons, ← ih]; rfl

theorem fullLoad_eq (l : List Stage) : fullLoad l = loadOf l := sumOf_eq _ _

theorem sum_natCast (l : List Nat) : ((l.sum : Nat) : Int) = (l.map Int.ofNat).sum := by
  induction l with
  | nil => rfl
  | cons x l ih => rw [List.map_cons, List.sum_cons, List.sum_cons, ← ih]; rfl

theorem heldLanes_eq (l : List Stage) : heldLanes l = lanesHeld l := by
  unfold heldLanes lanesHeld
  rw [sumOf_eq, sum_natCast, List.map_map]; rfl

theorem askedLanes_eq (l : List Stage) : askedLanes l = lanesWanted l := sumOf_eq _ _

/-! ## Tails cut by a test (R125) -/

/-- `cutUntil` cuts tails as R125 says. -/
theorem cutUntil_cutTo {p : List Tail → Bool} {P : List Tail → Prop} (h : ∀ l, p l = true ↔ P l) (l : List Tail) :
    cutTo P l (cutUntil p l) := by
  induction l with
  | nil => exact ⟨0, Nat.le_refl _, rfl, .inr rfl, fun j hj => absurd hj (Nat.not_lt_zero _)⟩
  | cons t l ih =>
    unfold cutUntil
    split
    · rename_i hp
      exact ⟨0, Nat.zero_le _, rfl, .inl ((h _).1 hp), fun j hj => absurd hj (Nat.not_lt_zero _)⟩
    · rename_i hp
      obtain ⟨k, h1, h2, h3, h4⟩ := ih
      refine ⟨k + 1, Nat.succ_le_succ h1, h2, h3, fun j hj => ?_⟩
      cases j with
      | zero => exact fun hP => hp ((h _).2 hP)
      | succ j => exact h4 j (by omega)

/-- Where no run of tails passes, none is left. -/
theorem cutUntil_nil {p : List Tail → Bool} {l : List Tail} (h : p (cutUntil p l) = false) : cutUntil p l = [] := by
  induction l with
  | nil => rfl
  | cons t l ih =>
    unfold cutUntil at h ⊢
    split
    · rename_i hp; rw [if_pos hp, hp] at h; cases h
    · rename_i hp; rw [if_neg hp] at h; exact ih h

/-! ## Fresh copies (R8, R123) -/

/-- A fresh instance of an entry is the copy that R8 gives, its lanes apart. -/
theorem freshAt_copy (tempo : Nat) (v : EditView) (lanes : List Nat := []) :
    freshCopy tempo v (freshAt v.kind v.enable v.targets tempo lanes) := by
  unfold freshCopy freshAt
  refine ⟨fun h => if_pos h, fun h => ?_⟩
  rw [if_neg h]
  refine ⟨rfl, rfl, rfl, rfl, rfl, rfl, rfl, rfl, rfl, rfl, rfl, fun hk => ?_⟩
  show (if v.kind = .delay then _ else _) = _
  rw [if_pos hk]

theorem freshAt_kind (k : Kind) (e : Bool) (ts : List Int) (tempo : Nat) (n : List Nat) : (freshAt k e ts tempo n).kind = k := by
  unfold freshAt
  split
  · rename_i h; rw [h]; rfl
  · rfl

theorem freshAt_lanes (k : Kind) (e : Bool) (ts : List Int) (tempo : Nat) : (freshAt k e ts tempo []).lanes = [] := by
  unfold freshAt; split <;> rfl

/-- The load and the lanes parameter of a fresh instance are its entry's. -/
theorem freshAt_load (v : EditView) (tempo : Nat) (n : List Nat) :
    (freshAt v.kind v.enable v.targets tempo n).load = kindLoad v.kind v.targets := by
  unfold freshAt
  split
  · rename_i h; rw [h]; rfl
  · rfl

theorem freshAt_asked (v : EditView) (tempo : Nat) (n : List Nat) :
    kindLanes (freshAt v.kind v.enable v.targets tempo n).kind (freshAt v.kind v.enable v.targets tempo n).targets =
      if v.kind = .delay then v.targets.getD 3 0 else 0 := by
  unfold freshAt
  split
  · rename_i h; rw [h]; rfl
  · rfl

theorem freshViews_load (tempo : Nat) (v : List EditView) : fullLoad (freshViews tempo v) = entriesLoad v := by
  unfold fullLoad entriesLoad freshViews
  rw [sumOf_eq, List.map_map]
  exact congrArg List.sum (List.map_congr_left fun e _ => freshAt_load e tempo [])

theorem freshViews_asked (tempo : Nat) (v : List EditView) : askedLanes (freshViews tempo v) = entriesLanes v := by
  unfold askedLanes entriesLanes freshViews
  rw [sumOf_eq, List.map_map]
  exact congrArg List.sum (List.map_congr_left fun e _ => freshAt_asked e tempo [])

theorem freshViews_noLanes (tempo : Nat) (v : List EditView) : lanesOf (freshViews tempo v) = [] := by
  unfold lanesOf freshViews
  rw [List.map_map, List.flatten_eq_nil_iff]
  intro l hl
  obtain ⟨e, _, rfl⟩ := List.mem_map.1 hl
  exact freshAt_lanes _ _ _ _

theorem freshViews_get (tempo : Nat) {v : List EditView} {p : Nat} {e : EditView} (h : v[p]? = some e) :
    (freshViews tempo v)[p]? = some (freshAt e.kind e.enable e.targets tempo []) := by
  unfold freshViews; rw [List.getElem?_map, h]; rfl

/-- The two tests of R125, in their own words. -/
theorem admissionTest_iff (live : List Stage) (tempo : Nat) (v : List EditView) (tails : List Tail) :
    admissionTest live (freshViews tempo v) tails = true ↔ admits live v tails := by
  unfold admissionTest admits
  rw [Bool.and_eq_true, decide_eq_true_iff, decide_eq_true_iff, fullLoad_eq, freshViews_load, fullLoad_eq, heldLanes_eq,
    freshViews_asked, heldLanes_eq]
  rfl

/-! ## Carries (R124) -/

theorem carried_iff (l : Stage) (v : EditView) (tempo : Nat) :
    carried l (freshAt v.kind v.enable v.targets tempo []) = true ↔ carries l v := by
  unfold carried carries
  rw [freshAt_kind]
  by_cases hk : l.kind = v.kind
  · by_cases hn : v.kind = .none
    · simp [hk, hn]
    · have ht : ∀ i, (freshAt v.kind v.enable v.targets tempo []).target i = v.targets.getD i 0 := fun i => by
        unfold freshAt; rw [if_neg hn]; rfl
      rw [ht, ht]
      unfold Stage.target
      simp only [hk, beq_self_eq_true, Bool.true_and, Bool.and_eq_true, Bool.not_eq_true', Bool.or_eq_true, bne_iff_ne, ne_eq,
        hn, not_false_eq_true, true_and, beq_iff_eq]
      constructor
      · rintro ⟨⟨h1, h2⟩, h3⟩
        exact ⟨fun h => h2.resolve_left fun k => k h, fun h => h3.resolve_left fun k => k h, h1⟩
      · rintro ⟨h1, h2, h3⟩
        exact ⟨⟨h3, Classical.or_iff_not_imp_left.2 fun k => h1 (Classical.not_not.1 k)⟩,
          Classical.or_iff_not_imp_left.2 fun k => h2 (Classical.not_not.1 k)⟩
  · have : (l.kind == v.kind) = false := by simpa using hk
    simp [hk]

theorem decideCarries_length (l c : List Stage) :
    (decideCarries l c).1.length = l.length ∧ (decideCarries l c).2.length = c.length := by
  induction l generalizing c with
  | nil => unfold decideCarries; exact ⟨rfl, rfl⟩
  | cons x l ih =>
    cases c with
    | nil => unfold decideCarries; exact ⟨rfl, rfl⟩
    | cons y c =>
      unfold decideCarries
      have := ih c
      simp [this.1, this.2]

theorem decideCarries_get {l cs : List Stage} {p : Nat} {x y : Stage} (hx : l[p]? = some x) (hy : cs[p]? = some y) :
    (decideCarries l cs).1[p]? = some { x with carry := carried x y } ∧
    (decideCarries l cs).2[p]? = some (if carried x y then placeholderOf y else y) := by
  induction l generalizing cs p with
  | nil => simp at hx
  | cons a l ih =>
    cases cs with
    | nil => simp at hy
    | cons b cs =>
      unfold decideCarries
      cases p with
      | zero => simp at hx hy; subst hx hy; simp
      | succ p => simpa using ih (by simpa using hx) (by simpa using hy)

/-- A placeholder and a fresh instance give NEXT the same load and lanes (R124, R125). -/
theorem decideCarries_sum (f : Stage → Int) (hf : ∀ y, f (placeholderOf y) = f y) (l c : List Stage) :
    sumOf f (decideCarries l c).2 = sumOf f c := by
  induction l generalizing c with
  | nil => unfold decideCarries; rfl
  | cons x l ih =>
    cases c with
    | nil => unfold decideCarries; rfl
    | cons y c =>
      unfold decideCarries
      show f (if carried x y then placeholderOf y else y) + sumOf f (decideCarries l c).2 = f y + sumOf f c
      rw [ih]
      split
      · rw [hf]
      · rfl

/-- The dip test of a staged dip, in its own words (R125). -/
theorem dipTest_iff (live : List Stage) (tempo : Nat) (v : List EditView) (tails : List Tail) :
    dipTest (decideCarries live (freshViews tempo v)).2 tails = true ↔ dipAdmits v tails := by
  unfold dipTest dipAdmits
  have h1 : fullLoad (decideCarries live (freshViews tempo v)).2 = entriesLoad v :=
    (decideCarries_sum _ (fun _ => rfl) _ _).trans (freshViews_load tempo v)
  have h2 : askedLanes (decideCarries live (freshViews tempo v)).2 = entriesLanes v :=
    (decideCarries_sum _ (fun _ => rfl) _ _).trans (freshViews_asked tempo v)
  rw [Bool.and_eq_true, decide_eq_true_iff, decide_eq_true_iff, h1, h2, fullLoad_eq, heldLanes_eq]
  rfl

/-- What deciding the carries leaves in both banks (R124), with any tail marks put on LIVE after. -/
theorem decideCarries_banks (live : List Stage) (tempo : Nat) (v : List EditView) (mark : Stage → Stage)
    (hm : ∀ x, mark x = { x with tailMode := (mark x).tailMode }) :
    dipBanks tempo v live ((decideCarries live (freshViews tempo v)).1.map mark) (decideCarries live (freshViews tempo v)).2 := by
  obtain ⟨h1, h2⟩ := decideCarries_length live (freshViews tempo v)
  refine ⟨by rw [List.length_map, h1], by rw [h2]; exact List.length_map .., fun p l e hl he => ?_⟩
  obtain ⟨g1, g2⟩ := decideCarries_get hl (freshViews_get tempo he)
  have hc := carried_iff l e tempo
  constructor
  · refine ⟨_, g2, fun h => ?_, fun h => ?_⟩
    · rw [if_pos (hc.2 h)]
      have hn := h.2.1
      refine ⟨freshAt_kind _ _ _ _ _, ?_, ?_, rfl, rfl, rfl, rfl, rfl⟩
      · show (freshAt _ _ _ _ _).enable = _; unfold freshAt; rw [if_neg hn]; rfl
      · show (freshAt _ _ _ _ _).targets = _; unfold freshAt; rw [if_neg hn]; rfl
    · rw [if_neg (fun k => h (hc.1 k))]
      exact ⟨freshAt_copy tempo e, freshAt_lanes _ _ _ _⟩
  · refine ⟨_, by rw [List.getElem?_map, g1]; rfl, ?_, ?_⟩
    · rw [hm]
    · rw [hm]; exact hc

/-! ## Lanes (R18, R128) -/

theorem lanesOf_cons (st : Stage) (l : List Stage) : lanesOf (st :: l) = st.lanes ++ lanesOf l := rfl

/-- How many lanes the DELAYs without lanes of a run of instances are to be given. -/
def lanesDue (l : List Stage) : Nat := (l.map fun c => if c.wantsLanes then (c.targets.getD 3 0).toNat else 0).sum

theorem giveAllLanes_cons_wants {st : Stage} (h : st.wantsLanes) (free : List Nat) (l : List Stage) :
    giveAllLanes free (st :: l) =
      { st with lanes := free.take (st.targets.getD 3 0).toNat, state := .delay [] 0 } ::
        giveAllLanes (free.drop (st.targets.getD 3 0).toNat) l := by
  show (st.giveLanes free).1 :: giveAllLanes (st.giveLanes free).2 l = _
  unfold Stage.giveLanes
  rw [if_pos h]
  rfl

theorem giveAllLanes_cons_keeps {st : Stage} (h : ¬ st.wantsLanes) (free : List Nat) (l : List Stage) :
    giveAllLanes free (st :: l) = st :: giveAllLanes free l := by
  show (st.giveLanes free).1 :: giveAllLanes (st.giveLanes free).2 l = _
  unfold Stage.giveLanes
  rw [if_neg h]

theorem lanesDue_cons (st : Stage) (l : List Stage) :
    lanesDue (st :: l) = (if st.wantsLanes then (st.targets.getD 3 0).toNat else 0) + lanesDue l := by
  unfold lanesDue; rw [List.map_cons, List.sum_cons]

theorem giveAllLanes_length (free : List Nat) (l : List Stage) : (giveAllLanes free l).length = l.length := by
  induction l generalizing free with
  | nil => rfl
  | cons st l ih =>
    by_cases h : st.wantsLanes
    · rw [giveAllLanes_cons_wants h, List.length_cons, List.length_cons, ih]
    · rw [giveAllLanes_cons_keeps h, List.length_cons, List.length_cons, ih]

/-- The lanes after are the lanes before and the first of the free ones. -/
theorem giveAllLanes_perm (free : List Nat) (l : List Stage) :
    (lanesOf (giveAllLanes free l)).Perm (lanesOf l ++ free.take (lanesDue l)) := by
  induction l generalizing free with
  | nil => unfold lanesDue; simp [giveAllLanes]
  | cons st l ih =>
    rw [lanesDue_cons]
    by_cases h : st.wantsLanes
    · rw [giveAllLanes_cons_wants h, if_pos h, lanesOf_cons, lanesOf_cons, h.2.2, List.nil_append]
      show (free.take (st.targets.getD 3 0).toNat ++ _).Perm _
      rw [List.take_add]
      refine (List.Perm.append_left _ (ih _)).trans ?_
      rw [← List.append_assoc, ← List.append_assoc]
      exact List.Perm.append_right _ List.perm_append_comm
    · rw [giveAllLanes_cons_keeps h, if_neg h, Nat.zero_add, lanesOf_cons, lanesOf_cons, List.append_assoc]
      exact List.Perm.append_left _ (ih _)

theorem giveAllLanes_get {free : List Nat} {l : List Stage} {p : Nat} {c : Stage} (h : l[p]? = some c) :
    (¬ c.wantsLanes → (giveAllLanes free l)[p]? = some c) ∧
    (c.wantsLanes → ∃ lanes, (giveAllLanes free l)[p]? = some { c with lanes := lanes, state := .delay [] 0 } ∧
      (∀ n, n ∈ lanes → n ∈ free) ∧ (lanesDue l ≤ free.length → lanes.length = (c.targets.getD 3 0).toNat)) := by
  induction l generalizing free p with
  | nil => simp at h
  | cons st l ih =>
    rw [lanesDue_cons]
    by_cases hw : st.wantsLanes
    · rw [giveAllLanes_cons_wants hw, if_pos hw]
      cases p with
      | zero =>
        simp only [List.getElem?_cons_zero, Option.some.injEq] at h
        subst h
        refine ⟨fun k => absurd hw k, fun _ => ⟨_, rfl, fun n hn => List.mem_of_mem_take hn, fun hd => ?_⟩⟩
        rw [List.length_take]; omega
      | succ p =>
        have := @ih (free.drop (st.targets.getD 3 0).toNat) p (by simpa using h)
        refine ⟨fun k => by simpa using this.1 k, fun k => ?_⟩
        obtain ⟨lanes, h1, h2, h3⟩ := this.2 k
        refine ⟨lanes, by simpa using h1, fun n hn => List.mem_of_mem_drop (h2 n hn), fun hd => h3 ?_⟩
        rw [List.length_drop]; omega
    · rw [giveAllLanes_cons_keeps hw, if_neg hw, Nat.zero_add]
      cases p with
      | zero =>
        simp only [List.getElem?_cons_zero, Option.some.injEq] at h
        subst h
        exact ⟨fun _ => rfl, fun k => absurd k hw⟩
      | succ p => simpa using @ih free p (by simpa using h)

theorem mem_freeLanes {held : List Nat} {n : Nat} : n ∈ freeLanes held ↔ n < 4 ∧ n ∉ held := by
  unfold freeLanes; simp

theorem freeLanes_nodup (held : List Nat) : (freeLanes held).Nodup := List.filter_sublist.nodup List.nodup_range

/-- The pool has four lanes (R18). -/
theorem freeLanes_length {held : List Nat} (hd : held.Nodup) (hb : ∀ n, n ∈ held → n < 4) :
    (freeLanes held).length + held.length = 4 := by
  have hp : ((List.range 4).filter fun n => held.contains n).Perm held := by
    rw [List.perm_ext_iff_of_nodup (List.filter_sublist.nodup List.nodup_range) hd]
    intro n
    simp only [List.mem_filter, List.mem_range, List.contains_iff_mem]
    exact ⟨fun h => h.2, fun h => ⟨hb n h, h⟩⟩
  have hl := List.length_eq_countP_add_countP (fun n => held.contains n) (l := List.range 4)
  rw [List.countP_eq_length_filter, hp.length_eq, List.countP_eq_length_filter, List.length_range] at hl
  unfold freeLanes
  have he : (fun n => decide ¬held.contains n = true) = fun n => !held.contains n := by funext n; simp
  rw [he] at hl
  omega

/-- Lanes are given as R18 says. -/
theorem giveAllLanes_given (held : List Nat) (l : List Stage) :
    lanesGiven held l (giveAllLanes (freeLanes (lanesOf l ++ held)) l) := by
  refine ⟨giveAllLanes_length _ _, fun p c h => ?_, fun hn => ?_, fun hb hn hd p c d hc hw hg => ?_⟩
  · have := @giveAllLanes_get (freeLanes (lanesOf l ++ held)) l p c h
    refine ⟨this.1, fun hw => ?_⟩
    obtain ⟨lanes, h1, h2, _⟩ := this.2 hw
    refine ⟨lanes, h1, fun n hm => ?_⟩
    have := mem_freeLanes.1 (h2 n hm)
    simpa using this
  · have hp := (giveAllLanes_perm (freeLanes (lanesOf l ++ held)) l).append_right held
    rw [hp.nodup_iff]
    have ht : ((freeLanes (lanesOf l ++ held)).take (lanesDue l)).Nodup := (List.take_sublist _ _).nodup (freeLanes_nodup _)
    have hx : (lanesOf l ++ (freeLanes (lanesOf l ++ held)).take (lanesDue l) ++ held).Perm
        ((freeLanes (lanesOf l ++ held)).take (lanesDue l) ++ (lanesOf l ++ held)) := by
      rw [← List.append_assoc]
      exact List.Perm.append_right _ List.perm_append_comm
    rw [hx.nodup_iff, List.nodup_append]
    refine ⟨ht, hn, fun a ha b hb' he => ?_⟩
    subst he
    exact (mem_freeLanes.1 (List.mem_of_mem_take ha)).2 hb'
  · obtain ⟨lanes, h1, _, h3⟩ := (@giveAllLanes_get (freeLanes (lanesOf l ++ held)) l p c hc).2 hw
    rw [hg] at h1
    have hf := freeLanes_length hn hb
    cases h1
    refine h3 ?_
    show lanesDue l ≤ _
    have : lanesDue l + (lanesOf l ++ held).length ≤ 4 := hd
    omega

/-- Fresh copies with their lanes given (R18, R123, R138). -/
theorem giveAllLanes_copied (held : List Nat) (tempo : Nat) (v : List EditView) :
    copiedBank held tempo v (giveAllLanes (freeLanes held) (freshViews tempo v)) := by
  refine ⟨freshViews tempo v, List.length_map .., fun p e h =>
    ⟨_, freshViews_get tempo h, freshAt_copy tempo e, freshAt_lanes _ _ _ _⟩, ?_⟩
  have := giveAllLanes_given held (freshViews tempo v)
  rwa [freshViews_noLanes, List.nil_append] at this

/-- Carried instances moved into NEXT (R128, step 2). -/
theorem carryInto_moved (live next : List Stage) : movedIn live next (List.zipWith carryInto live next) := by
  refine ⟨List.length_zipWith .., fun p l c hl hc => ?_⟩
  rw [List.getElem?_zipWith, hl, hc]
  unfold carryInto
  exact ⟨fun h => by simp [h], fun h => by simp [h]⟩

/-- NEXT after the turn (R128, steps 2 and 3). -/
theorem turned_given (held : List Nat) (live next : List Stage) :
    ∃ moved, movedIn live next moved ∧ lanesGiven held moved (turned held live next) :=
  ⟨_, carryInto_moved live next, giveAllLanes_given held _⟩

/-! ## A finished select's report (R135) -/

theorem Origin.cls_eq (o : Origin) : o.cls = (match o with | .slot _ => 0 | .assignment _ => 1) := by cases o <;> rfl

theorem Select.kindCode_eq (x : Select) : x.kindCode = x.carriedKind := by
  unfold Select.kindCode Select.carriedKind
  rcases x.decided with _ | ⟨k, n⟩
  · rfl
  · cases k <;> rfl

theorem noticeAddress_bounds (c : Nat) : 0x440 ≤ noticeAddress c ∧ noticeAddress c + 16 ≤ 0x640 := by
  unfold noticeAddress; omega

/-- A notice touches its entry and the count's copy alone (R192). -/
theorem State.notify_outside {s : State} (w : s.memoryOk) (n : Notice) {a : Nat}
    (h : a < noticeAddress s.report.noticeCount.toNat ∨ noticeAddress s.report.noticeCount.toNat + 16 ≤ a)
    (h8 : a < 0x08 ∨ 0x0C ≤ a) : readByte (s.notify n).ram a = readByte s.ram a := by
  refine (readByte_writeLE_outside (wf_writeFields w _ _) (by omega)).trans (readByte_writeFields_outside w ?_)
  intro f hf
  unfold noticeFields at hf
  simp only [List.mem_cons, List.not_mem_nil, or_false] at hf
  rcases hf with rfl | rfl | rfl | rfl | rfl | rfl | rfl | rfl <;> dsimp only <;> omega

/-- A notice as it is read back (R192, 11.2). -/
theorem State.notify_reads {s : State} (w : s.memoryOk) (n : Notice) :
    noticeStands (s.notify n).ram s.report.noticeCount n := by
  have hb := noticeAddress_bounds s.report.noticeCount.toNat
  have hc := s.report.noticeCount.isLt
  have read : ∀ (before : List Field) (f : Field) (after : List Field),
      noticeFields n s.report.noticeCount.toNat = before ++ f :: after → f.offset + f.size ≤ 16 →
      (∀ g ∈ after, g.offset + g.size ≤ f.offset ∨ f.offset + f.size ≤ g.offset) →
      readLE (s.notify n).ram (noticeAddress s.report.noticeCount.toNat + f.offset) f.size =
        (f.value % 256 ^ f.size).toNat := fun before f after he hf h => by
    refine (readLE_writeLE_outside (wf_writeFields w _ _) (by omega)).trans ?_
    rw [he]
    exact readLE_writeFields w before f after h (by omega)
  refine ⟨?_, ?_, ?_, ?_, fun i hi => ?_⟩
  · refine (read [_, _, _, _, _, _, _] ⟨0, 4, _⟩ [] rfl (by simp) (by simp)).trans ?_
    dsimp only; omega
  · refine (read [] ⟨4, 1, _⟩ [_, _, _, _, _, _, _] rfl (by simp) (by simp)).trans ?_
    dsimp only; omega
  · refine (read [_] ⟨5, 1, _⟩ [_, _, _, _, _, _] rfl (by simp) (by simp)).trans ?_
    dsimp only; omega
  · refine (read [_, _] ⟨6, 2, _⟩ [_, _, _, _, _] rfl (by simp) (by simp)).trans ?_
    dsimp only; omega
  · match i, hi with
    | 0, _ => exact read [_, _, _] ⟨8, 2, _⟩ [_, _, _, _] rfl (by simp) (by simp)
    | 1, _ => exact read [_, _, _, _] ⟨10, 2, _⟩ [_, _, _] rfl (by simp) (by simp)
    | 2, _ => exact read [_, _, _, _, _] ⟨12, 2, _⟩ [_, _] rfl (by simp) (by simp)
    | 3, _ => exact read [_, _, _, _, _, _] ⟨14, 2, _⟩ [_] rfl (by simp) (by simp)

/-- A notice stands as long as the bytes of its entry do. -/
theorem noticeStands_congr {m m' : Ram} {c : Word} {n : Notice}
    (h : ∀ a, noticeAddress c.toNat ≤ a → a < noticeAddress c.toNat + 16 → readByte m' a = readByte m a)
    (r : noticeStands m c n) : noticeStands m' c n := by
  have e : ∀ j n, j + n ≤ 16 → readLE m' (0x440 + 16 * (c.toNat % 32) + j) n = readLE m (0x440 + 16 * (c.toNat % 32) + j) n :=
    fun j n hj => readLE_congr fun a h1 h2 => h a (by unfold noticeAddress; omega) (by unfold noticeAddress; omega)
  obtain ⟨h0, h1, h2, h3, h4⟩ := r
  exact ⟨(e 0 4 (by decide)).trans h0, (e 4 1 (by decide)).trans h1, (e 5 1 (by decide)).trans h2,
    (e 6 2 (by decide)).trans h3, fun i hi => by rw [Nat.add_assoc, e (8 + 2 * i) 2 (by omega), ← Nat.add_assoc]; exact h4 i hi⟩

/-! ## A select that finishes (R135) -/

/-- The bytes of the notice area and of the header's count, at which a hand-over of frames may write. -/
theorem State.handFrame_outside {s : State} (w : s.memoryOk) (f : MasterFrame) {a : Nat} (h8 : a < 0x08 ∨ 0x0C ≤ a)
    (h : a < noticeAddress s.report.noticeCount.toNat ∨ noticeAddress s.report.noticeCount.toNat + 16 ≤ a) :
    readByte (s.handFrame f).ram a = readByte s.ram a := by
  unfold State.handFrame
  dsimp only
  split
  · exact State.notify_outside (s := { s with link := ((s.link.mirror f).place f).1 }) w _ h h8
  · rfl

/-- A hand-over of a frame changes the link, and otherwise writes at most one notice (R174). -/
theorem State.handFrame_rest (s : State) (f : MasterFrame) :
    (s.handFrame f).link = ((s.link.mirror f).place f).1 ∧ (s.handFrame f).requests = s.requests ∧
    ((s.handFrame f).report.noticeCount = s.report.noticeCount ∨
      (s.handFrame f).report.noticeCount = s.report.noticeCount + 1) ∧
    (s.port.signal.done = true → (s.handFrame f).port.signal.done = true) ∧
    (s.port.signal.notice = true → (s.handFrame f).port.signal.notice = true) := by
  unfold State.handFrame
  dsimp only
  split
  · exact ⟨rfl, rfl, .inr rfl, fun h => by show (_ || _) = true; rw [h]; rfl, fun _ => by show (_ || _) = true; simp [Signals.causeNotice]⟩
  · exact ⟨rfl, rfl, .inl rfl, id, id⟩

/-- What frames do to the link depends on the link alone (R174, R175). -/
theorem State.handFrames_link {s t : State} (h : s.link = t.link) (fs : List MasterFrame) :
    (s.handFrames fs).link = (t.handFrames fs).link := by
  unfold State.handFrames
  induction fs generalizing s t with
  | nil => exact h
  | cons f fs ih =>
    refine ih ?_
    rw [(s.handFrame_rest f).1, (t.handFrame_rest f).1, h]

theorem State.handFrames_requests (s : State) (fs : List MasterFrame) : (s.handFrames fs).requests = s.requests := by
  unfold State.handFrames
  induction fs generalizing s with
  | nil => rfl
  | cons f fs ih => exact (ih _).trans (s.handFrame_rest f).2.1

theorem State.handFrames_signal (s : State) (fs : List MasterFrame) :
    (s.port.signal.done = true → (s.handFrames fs).port.signal.done = true) ∧
    (s.port.signal.notice = true → (s.handFrames fs).port.signal.notice = true) := by
  unfold State.handFrames
  induction fs generalizing s with
  | nil => exact ⟨id, id⟩
  | cons f fs ih =>
    exact ⟨fun h => (ih _).1 ((s.handFrame_rest f).2.2.2.1 h), fun h => (ih _).2 ((s.handFrame_rest f).2.2.2.2 h)⟩

/-- Up to 31 frames leave every byte outside the header's count and the 31 notices after those written (R192). -/
theorem State.handFrames_outside {s : State} (w : s.memoryOk) (fs : List MasterFrame) {k : Nat} (hk : k + fs.length ≤ 31)
    {a : Nat} {c : Word} (hc : ∃ j, j ≤ k ∧ s.report.noticeCount = c + 1 + BitVec.ofNat 32 j) (h8 : a < 0x08 ∨ 0x0C ≤ a)
    (h : a < 0x440 ∨ 0x640 ≤ a ∨ (noticeAddress c.toNat ≤ a ∧ a < noticeAddress c.toNat + 16)) :
    readByte (s.handFrames fs).ram a = readByte s.ram a := by
  unfold State.handFrames
  induction fs generalizing s k with
  | nil => rfl
  | cons f fs ih =>
    rw [List.length_cons] at hk
    obtain ⟨j, hj, he⟩ := hc
    have hb := noticeAddress_bounds s.report.noticeCount.toNat
    have hn : s.report.noticeCount.toNat % 32 = (c.toNat + 1 + j) % 32 := by
      rw [he]
      have h1 : (1 : Word).toNat = 1 := rfl
      simp only [BitVec.toNat_add, BitVec.toNat_ofNat, h1]
      omega
    refine (ih ((s.handFrame_keeps f).memory w) (k := k + 1) (by omega) ?_).trans (State.handFrame_outside w f h8 ?_)
    · rcases (s.handFrame_rest f).2.2.1 with hr | hr
      · exact ⟨j, by omega, by rw [hr, he]⟩
      · refine ⟨j + 1, by omega, ?_⟩
        rw [hr, he, BitVec.ofNat_add, ← BitVec.add_assoc]
        rfl
    · have hcc := noticeAddress_bounds c.toNat
      unfold noticeAddress at *
      omega

theorem State.completeAll_select (s : State) (x : Select) (o : SelectOutcome) :
    s.completeAll (x.completions o) = (match x.origin with
      | .slot k => s.complete k (o.result x.clamped) (.given x.scene)
      | .assignment _ => s) := by
  unfold Select.completions; cases x.origin <;> rfl

/-- The SCENE notice as it is written (R135). -/
theorem State.notify_scene {s : State} (w : s.memoryOk) (x : Select) (o : SelectOutcome) (other : Nat) :
    sceneReport (s.notify (sceneNotice x o other)).ram s.report.noticeCount x o.code x.carriedKind other := by
  refine cast (congrArg (noticeStands _ _) ?_) (State.notify_reads w (sceneNotice x o other))
  unfold sceneNotice
  rw [Select.kindCode_eq]
  cases x.origin <;> rfl

/-- A select that finishes: its notice, its slot, and its lamp frames (R135). -/
theorem State.finishSelect_reports {s : State} (w : s.memoryOk) (x : Select) (o : SelectOutcome) (other : Nat)
    (hl : s.requests.slots.length = 32) (hx : o = .live ∨ o = .cutShort → x.lamps.length ≤ 4) :
    let t := s.finishSelect x o other
    sceneReport t.ram s.report.noticeCount x o.code x.carriedKind other ∧
    slotReport s t x (o.result x.clamped).code ∧ t.port.signal.notice = true ∧
    t.link = (if o = .live ∨ o = .cutShort then (s.handFrames (x.lamps.map LampEntry.frame)).link else s.link) := by
  -- the notice, then the slot, then the frames
  have hn := State.notify_scene w x o other
  have hw1 : (s.notify (sceneNotice x o other)).memoryOk := (s.notify_keeps _).memory w
  generalize hs1 : s.notify (sceneNotice x o other) = s1 at hn hw1
  have hr1 : s1.requests = s.requests ∧ s1.link = s.link ∧ s1.report.noticeCount = s.report.noticeCount + 1 ∧
      s1.port.signal.notice = true := by
    rw [← hs1]
    exact ⟨rfl, rfl, rfl, by show (_ || _) = true; simp [Signals.causeNotice]⟩
  obtain ⟨hq, hlink, hcount, hsig⟩ := hr1
  have key : ∀ s2 : State, s1.completeAll (x.completions o) = s2 →
      s2.memoryOk ∧ sceneReport s2.ram s.report.noticeCount x o.code x.carriedKind other ∧
      slotReport s s2 x (o.result x.clamped).code ∧ s2.link = s.link ∧
      s2.report.noticeCount = s.report.noticeCount + 1 ∧ s2.port.signal.notice = true := by
    intro s2 h2
    have hw2 : s2.memoryOk := h2 ▸ (State.completeAll_keeps s1 _).memory hw1
    rw [State.completeAll_select] at h2
    cases ho : x.origin with
    | assignment i =>
      rw [ho] at h2
      dsimp only at h2
      subst h2
      exact ⟨hw2, hn, (fun k hk => by rw [ho] at hk; cases hk), hlink, hcount, hsig⟩
    | slot k =>
      rw [ho] at h2
      dsimp only at h2
      by_cases hk : s1.requests.slots[k]? = some .taken
      · have hlt : k < 32 := by
          rw [hq] at hk
          rcases Nat.lt_or_ge k s.requests.slots.length with h' | h'
          · omega
          · rw [List.getElem?_eq_none h'] at hk; cases hk
        obtain ⟨_, c2, c3, c4, c5, c6, c7, c8, c9⟩ :=
          State.complete_answered (code := o.result x.clamped) (value := .given x.scene) hw1 hk hlt
        rw [h2] at c2 c3 c4 c5 c6 c7 c8 c9
        have hadr := slotAddress_lt hlt
        have hb := noticeAddress_bounds s.report.noticeCount.toNat
        refine ⟨hw2, noticeStands_congr (fun a h1 h2' => c9 a (by unfold inResult; omega)) hn, ?_, c2.2.2.2.2.2.2.2.1.trans hlink,
          by rw [c3, hcount], by rw [c4]; show (_ || _) = true; rw [hsig]; rfl⟩
        intro k' hk' _ _
        rw [ho] at hk'
        cases hk'
        refine ⟨?_, by rw [c4]; show (_ || _) = true; simp [Signals.causeDone], c7, ?_⟩
        · rw [c5, hq]
          show (s.requests.slots.set k .done)[k]? = _
          rw [List.getElem?_set_self (by omega)]
        · exact c8.trans (by unfold argBits; omega)
      · rw [State.complete_of_not_taken hk] at h2
        subst h2
        refine ⟨hw2, hn, fun k' hk' _ ht => ?_, hlink, hcount, hsig⟩
        rw [ho] at hk'
        cases hk'
        rw [hq] at hk
        exact absurd ht hk
  obtain ⟨g1, g2, g3, g4, g5, g6⟩ := key _ rfl
  unfold State.finishSelect
  dsimp only
  rw [hs1]
  generalize s1.completeAll (x.completions o) = s2 at g1 g2 g3 g4 g5 g6
  split
  · rename_i ho
    have hx := hx ho
    have hout := fun a => @State.handFrames_outside s2 g1 (x.lamps.map LampEntry.frame) 0 (by simpa using by omega) a
      s.report.noticeCount ⟨0, Nat.le_refl _, by rw [g5]; simp⟩
    have hsg := s2.handFrames_signal (x.lamps.map LampEntry.frame)
    refine ⟨noticeStands_congr (fun a h1 h2 => hout a ?_ (.inr (.inr ⟨h1, h2⟩))) g2, fun k hk hlt ht => ?_, hsg.2 g6,
      State.handFrames_link g4 _⟩
    · have := noticeAddress_bounds s.report.noticeCount.toNat; omega
    · obtain ⟨a1, a2, a3, a4⟩ := g3 k hk hlt ht
      have hadr := slotAddress_lt hlt
      have h40 : 0x40 ≤ slotAddress k := by unfold slotAddress; omega
      refine ⟨by rw [State.handFrames_requests]; exact a1, hsg.1 a2, ?_, ?_⟩
      · exact (readLE_congr fun j h1 h2 => hout j (by omega) (.inl (by omega))).trans a3
      · exact (readLE_congr fun j h1 h2 => hout j (by omega) (.inl (by omega))).trans a4
  · exact ⟨g2, g3, g6, g4⟩

/-- Nothing but a select's report, its slot and the link's frames comes of finishing it (R135). -/
theorem State.finishSelect_blocks (s : State) (x : Select) (o : SelectOutcome) (n : Nat) :
    let t := s.finishSelect x o n
    t.transition = s.transition ∧ t.engine = s.engine ∧ t.store = s.store ∧ t.input = s.input ∧ t.tuner = s.tuner ∧
    t.router = s.router ∧ t.mapper = s.mapper ∧ t.requests.queue = s.requests.queue := by
  let same := fun s t : State => t.transition = s.transition ∧ t.engine = s.engine ∧ t.store = s.store ∧ t.input = s.input ∧
    t.tuner = s.tuner ∧ t.router = s.router ∧ t.mapper = s.mapper ∧ t.requests.queue = s.requests.queue
  have trans : ∀ {s t u : State}, same s t → same t u → same s u := fun h k =>
    ⟨k.1.trans h.1, k.2.1.trans h.2.1, k.2.2.1.trans h.2.2.1, k.2.2.2.1.trans h.2.2.2.1, k.2.2.2.2.1.trans h.2.2.2.2.1,
      k.2.2.2.2.2.1.trans h.2.2.2.2.2.1, k.2.2.2.2.2.2.1.trans h.2.2.2.2.2.2.1, k.2.2.2.2.2.2.2.trans h.2.2.2.2.2.2.2⟩
  have refl : ∀ s : State, same s s := fun _ => ⟨rfl, rfl, rfl, rfl, rfl, rfl, rfl, rfl⟩
  have frames : ∀ (fs : List MasterFrame) (s : State), same s (s.handFrames fs) := by
    intro fs
    induction fs with
    | nil => exact refl
    | cons f fs ih =>
      intro s
      refine trans ?_ (ih (s.handFrame f))
      unfold State.handFrame
      dsimp only
      split <;> exact refl _
  have completed : ∀ s : State, same s (s.completeAll (x.completions o)) := by
    intro s
    rw [State.completeAll_select]
    split
    · unfold State.complete; split <;> exact refl _
    · exact refl _
  show same s (s.finishSelect x o n)
  unfold State.finishSelect
  dsimp only
  split
  · exact trans (refl s) (trans (completed (s.notify _)) (frames _ _))
  · exact trans (refl s) (completed (s.notify _))

/-- Two notices less than 32 apart stand at different entries (R192). -/
theorem noticeAddress_apart {c : Word} {j : Nat} (hj : 1 ≤ j) (hj' : j ≤ 31) :
    let a := noticeAddress (c + BitVec.ofNat 32 j).toNat
    a + 16 ≤ noticeAddress c.toNat ∨ noticeAddress c.toNat + 16 ≤ a := by
  dsimp only
  unfold noticeAddress
  simp only [BitVec.toNat_add, BitVec.toNat_ofNat]
  omega

/-- A byte that later notices of a block start leave alone: outside the header's count and the notice area, or in the entry of
an earlier notice. -/
def outlasts (c : Word) (a : Nat) : Prop :=
  (a < 0x08 ∨ 0x0C ≤ a) ∧ (a < 0x440 ∨ 0x640 ≤ a ∨ (noticeAddress c.toNat ≤ a ∧ a < noticeAddress c.toNat + 16))

/-- What a later select's finish leaves of an earlier one's report (R135, R137): its notice, the bytes of every slot but its own,
and every slot that is DONE. -/
theorem State.finishSelect_leaves {s : State} (w : s.memoryOk) (hl : s.requests.slots.length = 32) (y : Select) (o : SelectOutcome)
    (m : Nat) {c : Word} {j : Nat} (hj : j ≤ 5) (hc : s.report.noticeCount = c + 1 + BitVec.ofNat 32 j)
    (hy : o = .live ∨ o = .cutShort → y.lamps.length ≤ 4) :
    let t := s.finishSelect y o m
    (∀ a, outlasts c a → (∀ k, k < 32 → s.requests.slots[k]? = some .taken → y.origin = .slot k → ¬ inResult k a) →
      readByte t.ram a = readByte s.ram a) ∧
    (∀ k : Nat, s.requests.slots[k]? = some SlotState.done → t.requests.slots[k]? = some SlotState.done) ∧
    (s.port.signal.done = true → t.port.signal.done = true) := by
  have key : ∀ s2 : State, (s.notify (sceneNotice y o m)).completeAll (y.completions o) = s2 →
      s2.memoryOk ∧ s2.report.noticeCount = c + 1 + BitVec.ofNat 32 (j + 1) ∧
      (∀ a, outlasts c a → (∀ k, k < 32 → s.requests.slots[k]? = some .taken → y.origin = .slot k → ¬ inResult k a) →
        readByte s2.ram a = readByte s.ram a) ∧
      (∀ k : Nat, s.requests.slots[k]? = some SlotState.done → s2.requests.slots[k]? = some SlotState.done) ∧
      (s.port.signal.done = true → s2.port.signal.done = true) := by
    intro s2 h2
    have w1 : (s.notify (sceneNotice y o m)).memoryOk := (s.notify_keeps _).memory w
    have hcnt : (s.notify (sceneNotice y o m)).report.noticeCount = c + 1 + BitVec.ofNat 32 (j + 1) := by
      show s.report.noticeCount + 1 = _
      rw [hc, BitVec.ofNat_add, ← BitVec.add_assoc]; rfl
    have b1 : ∀ a, outlasts c a → readByte (s.notify (sceneNotice y o m)).ram a = readByte s.ram a := by
      intro a ha
      refine State.notify_outside w _ ?_ ha.1
      have := @noticeAddress_apart c (j + 1) (by omega) (by omega)
      have e : s.report.noticeCount = c + BitVec.ofNat 32 (j + 1) := by
        rw [hc, BitVec.ofNat_add, BitVec.add_assoc, BitVec.add_comm 1]; rfl
      rw [e]
      have hb := noticeAddress_bounds (c + BitVec.ofNat 32 (j + 1)).toNat
      have := ha.2
      omega
    have q1 : (s.notify (sceneNotice y o m)).requests = s.requests := rfl
    have p1 : s.port.signal.done = true → (s.notify (sceneNotice y o m)).port.signal.done = true := by
      intro h; show (_ || _) = true; rw [h]; rfl
    have w2 : s2.memoryOk := h2 ▸ (State.completeAll_keeps _ _).memory w1
    generalize s.notify (sceneNotice y o m) = s1 at *
    rw [State.completeAll_select] at h2
    cases ho : y.origin with
    | assignment i =>
      rw [ho] at h2; dsimp only at h2; subst h2
      exact ⟨w2, hcnt, fun a ha _ => b1 a ha, fun k h => by rw [q1]; exact h, p1⟩
    | slot k =>
      rw [ho] at h2; dsimp only at h2
      by_cases hk : s1.requests.slots[k]? = some .taken
      · have hlt : k < 32 := by
          rw [q1] at hk
          rcases Nat.lt_or_ge k s.requests.slots.length with h' | h'
          · omega
          · rw [List.getElem?_eq_none h'] at hk; cases hk
        obtain ⟨_, c2, c3, c4, c5, c6, c7, c8, c9⟩ :=
          State.complete_answered (code := o.result y.clamped) (value := .given y.scene) w1 hk hlt
        rw [h2] at c2 c3 c4 c5 c6 c7 c8 c9
        refine ⟨w2, by rw [c3, hcnt], fun a ha hn => (c9 a ?_).trans (b1 a ha), fun i hi => ?_, fun h => ?_⟩
        · exact hn k hlt (by rw [← q1]; exact hk) rfl
        · rw [c5, q1]
          show (s.requests.slots.set k .done)[i]? = _
          by_cases hik : i = k
          · subst hik; rw [List.getElem?_set_self (by omega)]
          · rw [List.getElem?_set_ne (by omega)]; exact hi
        · rw [c4]; show (_ || _) = true; rw [p1 h]; rfl
      · rw [State.complete_of_not_taken hk] at h2
        subst h2
        exact ⟨w2, hcnt, fun a ha _ => b1 a ha, fun k h => by rw [q1]; exact h, p1⟩
  intro t
  obtain ⟨g1, g2, g3, g4, g5⟩ := key _ rfl
  show (∀ a, _ → _ → readByte (State.finishSelect _ _ _ _).ram a = _) ∧
    (∀ k, _ → (State.finishSelect _ _ _ _).requests.slots[k]? = _) ∧ (_ → (State.finishSelect _ _ _ _).port.signal.done = _)
  unfold State.finishSelect
  dsimp only
  generalize (s.notify (sceneNotice y o m)).completeAll (y.completions o) = s2 at *
  split
  · rename_i ho
    have hy := hy ho
    have hout := fun a =>
      @State.handFrames_outside s2 g1 (y.lamps.map LampEntry.frame) 10 (by simpa using by omega) a c ⟨j + 1, by omega, g2⟩
    exact ⟨fun a ha hn => (hout a ha.1 ha.2).trans (g3 a ha hn), fun k h => by rw [State.handFrames_requests]; exact g4 k h,
      fun h => (s2.handFrames_signal _).1 (g5 h)⟩
  · exact ⟨g3, g4, g5⟩

/-! ## A direct copy (R137, R138) -/

theorem Engine.directCopied_banks (e : Engine) (n k : Nat) (v : List EditView) :
    (e.directCopied n k v).live = ⟨.live, n, giveAllLanes (freeLanes (lanesOf (tailStages e.tails))) (freshViews k v)⟩ ∧
    (e.directCopied n k v).other = ⟨.idle, 255, []⟩ ∧ (e.directCopied n k v).tails = e.tails := by
  unfold Engine.directCopied
  dsimp only
  split <;> exact ⟨rfl, rfl, rfl⟩

/-- What a direct copy leaves in the blocks (R138). -/
theorem State.directCopy_blocks (s : State) (x : Select) (r : SceneRecord) (v : List EditView) (o : SelectOutcome) :
    let t := s.directCopy x r v o
    t.engine.live =
      ⟨.live, x.scene, giveAllLanes (freeLanes (lanesOf (tailStages s.engine.tails))) (freshViews (s.engine.tempoWith r) v)⟩ ∧
    t.engine.other = ⟨.idle, 255, []⟩ ∧ t.engine.tails = s.engine.tails ∧ t.engine.overlay = [] ∧
    t.engine.running = s.engine.running ∧ t.transition = { s.transition with liveWeight := 256, nextWeight := 0 } ∧
    bringsFields s t r ∧ t.store = s.store ∧ t.tuner = s.tuner ∧ t.router = s.router ∧
    t.requests.queue = s.requests.queue := by
  intro t
  let e := { s.engine.directCopied x.scene (s.engine.tempoWith r) v with overlay := [] }
  obtain ⟨h1, h2, h3, h4, h5, h6, _, h8⟩ := State.finishSelect_blocks (State.writeSceneFields
      { s with
        engine := e
        transition := { s.transition with liveWeight := 256, nextWeight := 0 }
        mapper := s.mapper.uncatchAll } r) { x with decided := some (.direct, 0), lamps := r.lamps } o s.engine.live.scene
  obtain ⟨l1, l2, l3⟩ := s.engine.directCopied_banks x.scene (s.engine.tempoWith r) v
  have ht : e.tempoWith r = s.engine.tempoWith r := by
    show Engine.tempoWith { Engine.directCopied _ _ _ _ with overlay := [] } r = _
    unfold Engine.tempoWith Engine.directCopied
    dsimp only
    split
    · split <;> rfl
    · rfl
  have he : t.engine = { e with tempoTarget := s.engine.tempoWith r } := by
    refine h2.trans ?_
    unfold State.writeSceneFields
    dsimp only
    rw [ht]
  refine ⟨by rw [he]; exact l1, by rw [he]; exact l2, by rw [he]; exact l3, by rw [he], ?_, h1, ⟨?_, by rw [he]; rfl⟩, h3, h5,
    h6, h8⟩
  · rw [he]
    show (Engine.directCopied _ _ _ _).running = _
    unfold Engine.directCopied
    dsimp only
    split <;> rfl
  · refine (congrArg _ h4).trans ?_
    unfold State.writeSceneFields
    dsimp only
    split <;> rfl

/-- How a direct copy reports its select (R135, R138). -/
theorem State.directCopy_reports {s : State} (w : s.memoryOk) (hl : s.requests.slots.length = 32) (x : Select)
    (r : SceneRecord) (v : List EditView) (o : SelectOutcome) (ho : o = .live ∨ o = .cutShort) (hr : r.lamps.length ≤ 4) :
    let t := s.directCopy x r v o
    slotReport s t x (o.result x.clamped).code ∧ sceneReport t.ram s.report.noticeCount x o.code 3 s.engine.live.scene ∧
    t.port.signal.notice = true ∧ t.link = (s.handFrames (r.lamps.map LampEntry.frame)).link := by
  intro t
  let s' : State := State.writeSceneFields
      { s with
        engine := { s.engine.directCopied x.scene (s.engine.tempoWith r) v with overlay := [] }
        transition := { s.transition with liveWeight := 256, nextWeight := 0 }
        mapper := s.mapper.uncatchAll } r
  obtain ⟨h1, h2, h3, h4⟩ := State.finishSelect_reports (s := s') w { x with decided := some (.direct, 0), lamps := r.lamps }
    o s.engine.live.scene hl (fun _ => hr)
  rw [if_pos ho] at h4
  exact ⟨h2, h1, h3, h4.trans (State.handFrames_link (t := s) (s := s') rfl _)⟩

end Sys2Proof.Machine
end

