-- ==== Sys2Proof/Laws/Chain.lean ====
section
/-! SUPPORT. What a block start does to the parts of a stage instance (R15, R29, R45), and the runs of samples that make up a
block: every run of a bank is as long as the block, and the mixes sample by sample (R11, R126, R65). -/

namespace Sys2Proof.Machine

/-! ## A stage instance at a block start -/

/-- A current after its move (R15). -/
theorem moveCurrents_get {k : Kind} {i : Nat} {r : ParamRule} (ts cs : List Int) (h : paramRule k i = some r) :
    (moveCurrents k ts cs).getD i 0 = r.cls.move (cs.getD i 0) (ts.getD i 0) := by
  have hi : i < 8 := by
    rcases Nat.lt_or_ge i 8 with h' | h'
    · exact h'
    · exfalso
      unfold paramRule at h
      split at h <;> first | omega | cases h
  unfold moveCurrents
  rw [List.getD_eq_getElem?_getD, List.getElem?_map, List.getElem?_range hi]
  simp [h]

/-- Only the kind state follows the sections in use. -/
theorem Stage.settleSections_state (st : Stage) :
    st.settleSections = { st with state := st.settleSections.state } := by
  unfold Stage.settleSections; split <;> rfl

theorem Stage.settleSections_spec (st : Stage) :
    ((∀ hs, st.state ≠ .sections hs) → st.settleSections.state = st.state) ∧
    (∀ hs, st.state = .sections hs → st.settleSections.state = .sections (clearUnused (sectionsUsed st) hs)) := by
  unfold Stage.settleSections
  constructor
  · intro h; split
    · rename_i hs hh; exact absurd hh (h hs)
    · rfl
  · intro hs h; rw [h]

/-- The histories of the sections in use stay, and the others are zero (R29, R45). -/
theorem clearUnused_get {hs : List History} {i : Nat} {h : History} (used : Nat) (hh : hs[i]? = some h) :
    (clearUnused used hs)[i]? = some (if i < used then h else ⟨0, 0, 0, 0⟩) := by
  unfold clearUnused; rw [List.getElem?_mapIdx, hh]; rfl

/-- Sections at rest stay at rest. -/
theorem clearUnused_zero (used n : Nat) :
    clearUnused used (List.replicate n .zero) = List.replicate n .zero := by
  unfold clearUnused
  apply List.ext_getElem?
  intro i
  rw [List.getElem?_mapIdx]
  by_cases h : i < n
  · simp [h]
  · simp [h]

/-! ## Runs of samples -/

theorem overBlock_length {σ : Type} (f : σ → Nat → Int → σ × Int) (st : σ) (i : Nat) (xs : List Int) :
    (overBlock f st i xs).2.length = xs.length := by
  induction xs generalizing st i with
  | nil => rfl
  | cons x xs ih => simp [overBlock, ih]

theorem mapBlock_length (f : Nat → Int → Int) (i : Nat) (xs : List Int) : (mapBlock f i xs).length = xs.length := by
  induction xs generalizing i with
  | nil => rfl
  | cons x xs ih => simp [mapBlock, ih]

theorem crossfadeBlock_length (r : RampState) (i : Nat) (xs ys : List Int) (h : ys.length = xs.length) :
    (crossfadeBlock r i xs ys).length = xs.length := by
  induction xs generalizing i ys with
  | nil => rfl
  | cons x xs ih =>
    cases ys with
    | nil => simp at h
    | cons y ys => simp [crossfadeBlock, ih _ ys (by simpa using h)]

theorem kindBlock_length (store : Store) (st : Stage) (p n : Nat) (xs : List Int) :
    (kindBlock store st p n xs).output.length = xs.length := by
  unfold kindBlock
  dsimp only
  split <;> first | (simp [rampScaled, mapBlock_length, overBlock_length]; done) | skip
  unfold delayBlock
  dsimp only
  split <;> simp [overBlock_length]

theorem Stage.run_length (store : Store) (p n : Nat) (st : Stage) (xs : List Int) :
    (st.run store p n xs).2.1.length = xs.length := by
  unfold Stage.run
  split
  · exact crossfadeBlock_length _ _ _ _ (kindBlock_length _ _ _ _ _)
  · rfl

/-- The output of a bank is as long as its input. -/
theorem runStages_length (store : Store) (p n : Nat) (l : List Stage) (xs : List Int) :
    (runStages store p n l xs).2.1.length = xs.length := by
  induction l generalizing xs with
  | nil => rfl
  | cons st l ih => unfold runStages; exact (ih _).trans (Stage.run_length _ _ _ _ _)

/-- A missing sample counts as 0. -/
theorem addRuns_get (xs ys : List Int) (i : Nat) : (addRuns xs ys).getD i 0 = xs.getD i 0 + ys.getD i 0 := by
  induction xs generalizing ys i with
  | nil => simp [addRuns]
  | cons x xs ih =>
    cases ys with
    | nil => simp [addRuns]
    | cons y ys =>
      cases i with
      | zero => simp [addRuns]
      | succ i => simpa [addRuns] using ih ys i

theorem addRuns_length (xs ys : List Int) : (addRuns xs ys).length = max xs.length ys.length := by
  induction xs generalizing ys with
  | nil => simp [addRuns]
  | cons x xs ih =>
    cases ys with
    | nil => simp [addRuns]
    | cons y ys => simp [addRuns, ih]

/-- The mix of the two banks at one sample (R126). -/
theorem bankMix_get (t : Transition) (k : Nat) (ls ns : List Int) (i : Nat) (l n : Int)
    (hl : ls[i]? = some l) (hn : ns[i]? = some n) :
    (bankMix t k ls ns)[i]? =
      some ((l * weightAt t.liveWeight t.liveNew (k + i) + n * weightAt t.nextWeight t.nextNew (k + i) + 4096) / 8192) := by
  induction i generalizing k ls ns with
  | zero =>
    cases ls with
    | nil => cases hl
    | cons a ls => cases ns with
      | nil => cases hn
      | cons b ns => cases hl; cases hn; rfl
  | succ i ih =>
    cases ls with
    | nil => cases hl
    | cons a ls => cases ns with
      | nil => cases hn
      | cons b ns =>
        have := ih (k + 1) ls ns hl hn
        rw [show k + 1 + i = k + (i + 1) by omega] at this
        exact this

theorem bankMix_length (t : Transition) (k : Nat) (ls ns : List Int) :
    (bankMix t k ls ns).length = min ls.length ns.length := by
  induction ls generalizing k ns with
  | nil => simp [bankMix]
  | cons a ls ih => cases ns with
    | nil => simp [bankMix]
    | cons b ns => simp [bankMix, ih]

theorem mapBlock_get (f : Nat → Int → Int) (k : Nat) (xs : List Int) (i : Nat) (x : Int) (h : xs[i]? = some x) :
    (mapBlock f k xs)[i]? = some (f (k + i) x) := by
  induction i generalizing k xs with
  | zero => cases xs with
    | nil => cases h
    | cons a xs => cases h; rfl
  | succ i ih => cases xs with
    | nil => cases h
    | cons a xs =>
      have := ih (k + 1) xs h
      rw [show k + 1 + i = k + (i + 1) by omega] at this
      exact this

/-- Samples scaled by a ramped factor, one of them (R16). -/
theorem rampScaled_get (prev new : Int) (xs : List Int) (i : Nat) (x : Int) (h : xs[i]? = some x) :
    (rampScaled prev new xs)[i]? = some (scale x (rampAt prev new i)) := by
  have := mapBlock_get (fun i x => scale x (rampAt prev new i)) 0 xs i x h
  simpa [rampScaled] using this

/-- The crossfade of a ramp block at one sample (R13). -/
theorem crossfadeBlock_get (r : RampState) (k : Nat) (xs ys : List Int) (i : Nat) (x y : Int) (hx : xs[i]? = some x)
    (hy : ys[i]? = some y) : (crossfadeBlock r k xs ys)[i]? = some (crossfaded r (k + i) x y) := by
  induction i generalizing k xs ys with
  | zero =>
    cases xs with
    | nil => cases hx
    | cons a xs => cases ys with
      | nil => cases hy
      | cons b ys => cases hx; cases hy; rfl
  | succ i ih =>
    cases xs with
    | nil => cases hx
    | cons a xs => cases ys with
      | nil => cases hy
      | cons b ys =>
        have := ih (k + 1) xs ys hx hy
        rw [show k + 1 + i = k + (i + 1) by omega] at this
        exact this

/-! ## Numbers found bit by bit -/

/-- What `greatest` finds passes the test, and where the first number out of reach does not, its successor does not either
(R2, R71). -/
theorem greatest_spec {test : Nat → Bool} (b acc : Nat) (ha : test acc = true) :
    test (greatest test b acc) = true ∧ acc ≤ greatest test b acc ∧ greatest test b acc < acc + 2 ^ b ∧
    (test (acc + 2 ^ b) = false → test (greatest test b acc + 1) = false) := by
  induction b generalizing acc with
  | zero => exact ⟨ha, Nat.le_refl _, Nat.lt_succ_self _, id⟩
  | succ b ih =>
    have hp : (2 : Nat) ^ (b + 1) = 2 ^ b + 2 ^ b := by rw [Nat.pow_succ]; omega
    unfold greatest
    by_cases h : test (acc + 2 ^ b) = true
    · rw [if_pos h]
      obtain ⟨h1, h2, h3, h4⟩ := ih _ h
      exact ⟨h1, by omega, by omega, fun k => h4 (by rw [Nat.add_assoc, ← hp]; exact k)⟩
    · rw [if_neg h]
      obtain ⟨h1, h2, h3, h4⟩ := ih _ ha
      exact ⟨h1, h2, by omega, fun _ => h4 (by simpa using h)⟩

end Sys2Proof.Machine
end

