-- ==== Sys2Proof/Laws/Edits.lean ====
section
/-! SUPPORT. What entering an edit in the staging overlay does, and what the overlay makes of an entry (R20); and what a change
of one entry does to a load (R17, R21). -/

namespace Sys2Proof.Machine

/-! ## The overlay in its order (R20) -/

theorem overlayInsert_mem (o x : OverlayEntry) (l : List OverlayEntry) : x ∈ overlayInsert o l ↔ x = o ∨ x ∈ l := by
  induction l with
  | nil => simp [overlayInsert]
  | cons y l ih =>
    unfold overlayInsert
    split
    · simp
    · simp [ih, or_left_comm]

/-- Inserting keeps the order. -/
theorem overlayInsert_sorted {o : OverlayEntry} {l : List OverlayEntry} (h : l.Pairwise fun x y => x.key < y.key)
    (hn : ∀ x ∈ l, x.key ≠ o.key) :
    (overlayInsert o l).Pairwise fun x y => x.key < y.key := by
  induction l with
  | nil => simp [overlayInsert]
  | cons y l ih =>
    rw [List.pairwise_cons] at h
    unfold overlayInsert
    split
    · rename_i hlt
      rw [List.pairwise_cons, List.pairwise_cons]
      refine ⟨?_, h⟩
      intro z hz
      rcases List.mem_cons.1 hz with rfl | hz
      · exact hlt
      · exact Nat.lt_trans hlt (h.1 z hz)
    · rename_i hlt
      rw [List.pairwise_cons]
      refine ⟨?_, ih h.2 (fun x hx => hn x (List.mem_cons_of_mem _ hx))⟩
      intro z hz
      rcases (overlayInsert_mem o z l).1 hz with rfl | hz
      · have := hn y List.mem_cons_self; omega
      · exact h.1 z hz

/-- Entries of one position and index have one key. -/
theorem OverlayEntry.key_congr {x o : OverlayEntry} (h : x.position = o.position) (h' : x.index = o.index) :
    x.key = o.key := by
  unfold OverlayEntry.key; rw [h, h']

/-- What an overlay holds after an edit is entered: the edit, and the entries of other keys. -/
theorem overlayPut_mem (o x : OverlayEntry) (l : List OverlayEntry) :
    x ∈ overlayPut o l ↔ x = o ∨ (x ∈ l ∧ x.key ≠ o.key) := by
  unfold overlayPut
  rw [overlayInsert_mem, List.mem_filter, bne_iff_ne]

/-- An entry of the same position and index is replaced (R20). -/
theorem overlayPut_replaces {o x : OverlayEntry} {l : List OverlayEntry} (hx : x ∈ overlayPut o l)
    (h : x.position = o.position) (h' : x.index = o.index) : x = o :=
  ((overlayPut_mem o x l).1 hx).elim id fun k => absurd (OverlayEntry.key_congr h h') k.2

/-- Entering an edit keeps the overlay in its order. -/
theorem overlayPut_sorted (o : OverlayEntry) {l : List OverlayEntry} (h : l.Pairwise fun x y => x.key < y.key) :
    (overlayPut o l).Pairwise fun x y => x.key < y.key :=
  overlayInsert_sorted (h.sublist List.filter_sublist) fun _ hx => bne_iff_ne.1 (List.mem_filter.1 hx).2

/-! ## The overlay applied (R20) -/

theorem OverlayEntry.applyTo_kind (o : OverlayEntry) (v : EditView) : (o.applyTo v).kind = v.kind := by
  unfold OverlayEntry.applyTo; split
  · split <;> rfl
  · rfl

theorem OverlayEntry.applyTo_length (o : OverlayEntry) (v : EditView) : (o.applyTo v).targets.length = v.targets.length := by
  unfold OverlayEntry.applyTo; split
  · split
    · rfl
    · simp
  · rfl

theorem OverlayEntry.applyTo_enable (o : OverlayEntry) (v : EditView) :
    (o.applyTo v).enable = if o.kind = v.kind ∧ o.index = none then o.value == 1 else v.enable := by
  unfold OverlayEntry.applyTo
  by_cases h : o.kind = v.kind <;> cases hi : o.index <;> simp [h]

theorem OverlayEntry.applyTo_target (o : OverlayEntry) (v : EditView) (i : Nat) :
    (o.applyTo v).targets[i]? =
      if o.kind = v.kind ∧ o.index = some i ∧ i < v.targets.length then some o.value else v.targets[i]? := by
  unfold OverlayEntry.applyTo
  by_cases h : o.kind = v.kind
  · cases hi : o.index with
    | none => simp [h]
    | some j =>
      simp only [h, if_true, List.getElem?_set, true_and, Option.some.injEq]
      by_cases hj : j = i
      · subst hj; simp
        by_cases hl : j < v.targets.length
        · simp [hl]
        · simp [hl]
      · simp [hj]
  · simp [h]

/-- A run of entries of one position, of different indices: each one of the entry's kind has its value, and what none of them
names stays. -/
theorem OverlayEntry.applyAll (l : List OverlayEntry) (v : EditView) (hd : l.Pairwise fun x y => x.index ≠ y.index) :
    let w := l.foldl (fun v o => o.applyTo v) v
    w.kind = v.kind ∧ w.targets.length = v.targets.length ∧
    (∀ o, (o ∈ l ∧ o.kind = v.kind) → o.index = none → w.enable = (o.value == 1)) ∧
    ((∀ o, (o ∈ l ∧ o.kind = v.kind) → o.index ≠ none) → w.enable = v.enable) ∧
    (∀ o i, (o ∈ l ∧ o.kind = v.kind) → o.index = some i → i < v.targets.length → w.targets[i]? = some o.value) ∧
    ∀ i, (∀ o, (o ∈ l ∧ o.kind = v.kind) → o.index ≠ some i) → w.targets[i]? = v.targets[i]? := by
  induction l generalizing v with
  | nil => simp
  | cons a l ih =>
    rw [List.pairwise_cons] at hd
    have := ih (a.applyTo v) hd.2
    simp only [OverlayEntry.applyTo_kind, OverlayEntry.applyTo_length] at this
    obtain ⟨g1, g2, g3, g4, g5, g6⟩ := this
    refine ⟨g1, g2, ?_, ?_, ?_, ?_⟩
    · intro o ho hi
      rcases List.mem_cons.1 ho.1 with rfl | hm
      · rw [List.foldl_cons, g4 (fun x hx => by rw [← hi]; exact (hd.1 x hx.1).symm), OverlayEntry.applyTo_enable,
          if_pos ⟨ho.2, hi⟩]
      · exact g3 o ⟨hm, ho.2⟩ hi
    · intro h
      rw [List.foldl_cons, g4 (fun x hx => h x ⟨List.mem_cons_of_mem _ hx.1, hx.2⟩), OverlayEntry.applyTo_enable, if_neg]
      rintro ⟨h1, h2⟩
      exact h a ⟨List.mem_cons_self, h1⟩ h2
    · intro o i ho hi hl
      rcases List.mem_cons.1 ho.1 with rfl | hm
      · rw [List.foldl_cons, g6 i (fun x hx => by rw [← hi]; exact (hd.1 x hx.1).symm), OverlayEntry.applyTo_target,
          if_pos ⟨ho.2, hi, hl⟩]
      · exact g5 o i ⟨hm, ho.2⟩ hi hl
    · intro i h
      rw [List.foldl_cons, g6 i (fun x hx => h x ⟨List.mem_cons_of_mem _ hx.1, hx.2⟩), OverlayEntry.applyTo_target, if_neg]
      rintro ⟨h1, h2, _⟩
      exact h a ⟨List.mem_cons_self, h1⟩ h2

/-! ## Load (R17, R21) -/

/-- The load of a run of entries after one of them is replaced. -/
theorem entriesLoad_set {views : List EditView} {p : Nat} {v : EditView} (w : EditView) (h : views[p]? = some v) :
    entriesLoad (views.set p w) = sumOf EditView.load views - v.load + w.load := by
  induction views generalizing p with
  | nil => simp at h
  | cons a l ih =>
    cases p with
    | zero =>
      simp at h; subst h
      simp only [List.set_cons_zero, entriesLoad, List.map_cons, List.sum_cons, sumOf_eq, EditView.load]
      rw [show List.map EditView.load l = List.map (fun e => kindLoad e.kind e.targets) l from rfl]
      omega
    | succ p =>
      simp at h
      have := ih h
      simp only [List.set_cons_succ, entriesLoad, List.map_cons, List.sum_cons, sumOf_eq, EditView.load] at this ⊢
      omega

end Sys2Proof.Machine
end

