-- ==== Sys2Proof/Laws/Events.lean ====
section
/-! SUPPORT. The commands that name one event of a block start, the block start itself, and the port's commands: what each
does, and what every one of them keeps. -/

namespace Sys2Proof.Machine

/-! ## Events of a block start -/

theorem State.mark_steps (s : State) (k : Nat) : Steps s (s.mark k) := ⟨rfl, rfl, rfl, id, id, id, id, id, id, id⟩

theorem State.openBlock_steps (s : State) : Steps s s.openBlock := ⟨rfl, rfl, rfl, id, id, id, id, id, id, id⟩

/-- What comes before a work, and the work, keep everything that no owner touches, and leave the mark at 0. -/
theorem State.before_keeps (s : State) (w : Work) : Keeps (s.mark 0) (s.before w) := runWorks_keeps _ _

theorem State.before_port (s : State) (w : Work) :
    (s.before w).port.ready = s.port.ready ∧ (s.before w).port.run = s.port.run ∧
    (s.before w).port.enables = s.port.enables ∧ (s.before w).requests.queue = s.requests.queue ∧
    (s.before w).pending = s.pending ∧ (s.before w).grid = { s.grid with done := 0 } :=
  let k := s.before_keeps w
  ⟨k.ready, k.run, k.enables, k.queue, k.pending, k.grid⟩

/-- An event that is due happens: the block start is run up to it, and it. -/
theorem State.upTo_of_due {s : State} {w : Work} {due : State → Bool} (hd : s.grid.done ≤ w.place)
    (h : due (s.before w) = true) : s.upTo w due = (w.run (s.before w)).mark (w.place + 1) := by
  unfold State.upTo; simp [hd, h]

/-- An event that is not due leaves everything as it was (log 3). -/
theorem State.upTo_of_not_due {s : State} {w : Work} {due : State → Bool}
    (h : ¬ (s.grid.done ≤ w.place ∧ due (s.before w) = true)) : s.upTo w due = s := by
  unfold State.upTo
  rw [if_neg]
  simpa using h

theorem State.upTo_steps (s : State) (w : Work) (due : State → Bool) : Steps s (s.upTo w due) := by
  unfold State.upTo
  split
  · exact (State.mark_steps s 0).trans
      ((s.before_keeps w).steps.trans ((w.run_keeps _).steps.trans (State.mark_steps _ _)))
  · exact .refl s

/-- What a block start still has to do after an event's command is what it had to do after that event. -/
theorem State.blockStart_after_upTo (s : State) (w : Work) (due : State → Bool) (hw : w ∈ works) :
    (s.upTo w due).blockStart = s.blockStart := by
  by_cases h : s.grid.done ≤ w.place ∧ due (s.before w) = true
  · rw [State.upTo_of_due h.1 h.2]
    have hlt : w.place < works.length := List.findIdx_lt_length_of_exists ⟨w, hw, by simp⟩
    have hget : works[w.place] = w := by
      have h := List.findIdx_getElem (w := hlt) (p := (· == w)) (xs := works)
      exact eq_of_beq h
    have hg : (w.run (s.before w)).grid.done = 0 := by
      rw [(w.run_keeps _).grid, (s.before_keeps w).grid]; rfl
    have hm : ((w.run (s.before w)).mark (w.place + 1)).mark 0 = w.run (s.before w) := by
      show ({ w.run (s.before w) with grid := { (w.run (s.before w)).grid with done := 0 } } : State) = _
      rw [← hg]
    unfold State.blockStart
    show (runWorks (works.drop (w.place + 1)) (State.mark _ 0)).openBlock = _
    rw [hm]
    congr 1
    have hs : works.drop s.grid.done =
        (works.take w.place).drop s.grid.done ++ (w :: works.drop (w.place + 1)) := by
      conv => lhs; rw [← List.take_append_drop w.place works]
      rw [List.drop_append_of_le_length (by rw [List.length_take]; omega), List.drop_eq_getElem_cons hlt, hget]
    rw [hs, runWorks_append]
    rfl
  · rw [State.upTo_of_not_due h]

theorem State.blockStart_steps (s : State) : Steps s s.blockStart :=
  (State.mark_steps s 0).trans ((runWorks_keeps _ _).steps.trans (State.openBlock_steps _))

/-! ## The other commands -/

theorem State.inputSample_steps (s : State) (a b : Int) : Steps s (s.inputSample a b) := by
  unfold State.inputSample; split
  · exact ⟨rfl, rfl, rfl, id, id, id, id, id, id, id⟩
  · exact .refl s

theorem State.writeSignal_steps (s : State) (v : Half) : Steps s (s.writeSignal v) :=
  ⟨rfl, rfl, rfl, id, id, fun _ => rfl, id, id, id, id⟩

theorem State.writeWord_steps (s : State) (w : BitVec 14) (v : Half) : Steps s (s.writeWord w v) :=
  ⟨rfl, rfl, rfl, id, fun h => wf_writeLE h _ _ _, id, id, id, id, id⟩

theorem State.postable_iff {s : State} {n : Nat} :
    s.postable n = true ↔ s.requests.slots[n]? = some .free ∨ s.requests.slots[n]? = some .done := by
  unfold State.postable; simp

theorem State.writePost_steps (s : State) (v : Half) : Steps s (s.writePost v) := by
  unfold State.writePost
  split
  · rename_i h
    rw [State.postable_iff] at h
    refine ⟨rfl, rfl, rfl, fun he => ?_, fun w => wf_writeLE w _ _ _, id, id, id, id, id⟩
    have hn : v.toNat < 32 := by
      rw [← he.1]
      rcases Nat.lt_or_ge v.toNat s.requests.slots.length with hl | hl
      · exact hl
      · rw [List.getElem?_eq_none hl] at h; simp at h
    exact RequestUnit.exact_post he hn (by rcases h with h | h <;> rw [h] <;> decide)
  · exact (State.raise_keeps _ _).steps

theorem State.control_steps (s : State) (v : Nat) : Steps s { s with port := s.port.control v } :=
  ⟨rfl, rfl, rfl, id, id, fun _ => rfl, id, id, id, id⟩

end Sys2Proof.Machine
end

