-- ==== Sys2Proof/Certificates/Slice0/Obligations.lean ====
section
/-! DEFINITION. The statements about the model. Each says what a command or the part does, in the terms of the rules that
OBLIGATIONS.json cites. -/

open Sys2Proof Sys2Proof.Machine

/-! ## Steps -/

/-- A step carries out the command at the front of the queue with the queue's rest waiting. -/
def Obligations.StepRunsTheFrontCommand : Prop :=
  ∀ (c : Instr) (rest : List Instr) (s : State),
    step { s with pending := c :: rest } = exec c { s with pending := rest }

/-! ## Power, port and Exchange RAM -/

/-- R182: the port before READY, what initialisation leaves, and READY. The blocks' own reset states are `State.reset`'s.
INITIALISATION_COMPLETE ends an initialisation; while READY is 1 there is none to end (log 3). -/
def Obligations.PowerOnThenInitialisation : Prop :=
  (∀ s : State, ∃ t u : State,
     exec .powerOn s = .next t ∧ t.pending = s.pending ∧
     (∀ w : BitVec 14, t.readWord w = 0) ∧ t.readRegister 0 = BitVec.ofNat 16 (0x4860 + Config.revision.toNat) ∧
     t.readRegister 1 = 0 ∧ t.readRegister 2 = 0 ∧ t.readRegister 3 = 0 ∧
     (∀ (w : BitVec 14) (v : Half), exec (.exchangeRamWrite w v) t = .next t) ∧
     (∀ v : Half, exec (.controlWrite v) t = .next t ∧ exec (.signalClear v) t = .next t ∧ exec (.post v) t = .next t) ∧
     exec .initialisationComplete t = .next u ∧ u.pending = s.pending ∧
     readLE u.ram 0x00 2 = 1 ∧ readLE u.ram 0x02 2 = 32 ∧ readLE u.ram 0x04 2 = 32 ∧ readLE u.ram 0x08 4 = 0 ∧
     readLE u.ram 0x0C 2 = 0 ∧ readLE u.ram 0x10 4 = 0 ∧ readLE u.ram 0x14 2 = 0x1000 ∧ readLE u.ram 0x16 2 = 0x8000 ∧
     (∀ a, 0x40 ≤ a → a < 0x640 → readByte u.ram a = 0) ∧ (∀ a, 0x800 ≤ a → a < 0x1000 → readByte u.ram a = 0) ∧
     u.report.noticeCount = 0 ∧ u.report.pageSelect = false ∧ u.report.serial = 0 ∧ u.requests.queue = [] ∧
     u.requests.slots = List.replicate 32 .free ∧ u.requests.serving = false ∧ u.port.signal = ⟨false, false, false, false⟩ ∧
     u.port.ready = true ∧ u.link.blockCount = 0 ∧ u.report.periodCount = 0 ∧ u.grid.opened = false ∧
     State.reset.sameBlocks u) ∧
  (∀ s : State,
     (s.port.ready = true → exec .initialisationComplete s = .next s) ∧
     (s.port.ready = false → ∃ t, exec .initialisationComplete s = .next t ∧ t.port.ready = true ∧ t.port.softReset = false ∧
       t.port.run = false ∧ t.port.enables = ⟨false, false, false, false⟩ ∧ t.port.int = false ∧ t.pending = s.pending ∧
       State.reset.sameBlocks t))

/-- R183: a soft reset started at the port, by either command that writes 1 to SOFT_RESET, and its completion. -/
def Obligations.SoftResetAndItsCompletion : Prop :=
  ∀ (s : State) (v : Half), v.getLsbD 1 = true →
    (s.port.ready = false → exec .softReset s = .next s ∧ exec (.controlWrite v) s = .next s) ∧
    (s.memoryOk → s.port.ready = true → ∃ t u : State,
      exec .softReset s = .next t ∧ exec (.controlWrite v) s = .next t ∧ t.port.ready = false ∧ t.port.softReset = true ∧
      t.readRegister 1 = 2 ∧ t.readRegister 2 = 0 ∧ t.readRegister 3 = 0 ∧ (∀ w : BitVec 14, t.readWord w = 0) ∧
      (∀ (w : BitVec 14) (x : Half), exec (.exchangeRamWrite w x) t = .next t) ∧
      (∀ x : Half, exec (.controlWrite x) t = .next t ∧ exec (.signalClear x) t = .next t ∧ exec (.post x) t = .next t) ∧
      exec .initialisationComplete t = .next u ∧ u.port.ready = true ∧ u.port.softReset = false ∧ u.pending = s.pending ∧
      (∀ a, (0x640 ≤ a ∧ a < 0x800) ∨ 0x1000 ≤ a → readByte u.ram a = readByte s.ram a) ∧
      (∀ a, ¬ ((0x640 ≤ a ∧ a < 0x800) ∨ 0x1000 ≤ a) → readByte u.ram a = ramReset a) ∧
      (∀ n, n < 32 → u.requests.slots[n]? = some .free) ∧ (∀ a, 0x40 ≤ a → a < 0x440 → readByte u.ram a = 0) ∧
      u.requests.queue = [] ∧ u.port.run = false ∧ u.port.enables = ⟨false, false, false, false⟩ ∧
      u.port.signal = ⟨false, false, false, false⟩ ∧ u.port.int = false ∧ u.report = ⟨0, false, 0, 0⟩ ∧
      u.link.blockCount = 0 ∧ State.reset.sameBlocks u)

/-- R181 and 11.1: a write to CONTROL with SOFT_RESET at 0 replaces RUN and the four enables. R191: a write of 1 clears a bit
of SIGNAL, a 0 leaves it. INT follows both. -/
def Obligations.PortWritesSetControlAndSignal : Prop :=
  (∀ (s : State) (v : Half), s.port.ready = true → v.getLsbD 1 = false →
     ∃ t, exec (.controlWrite v) s = .next t ∧ s.sameBlocks t ∧ t.pending = s.pending ∧ t.requests = s.requests ∧
       t.report = s.report ∧ t.ram = s.ram ∧ t.port.run = v.getLsbD 0 ∧
       t.port.enables = ⟨v.getLsbD 4, v.getLsbD 5, v.getLsbD 6, v.getLsbD 7⟩ ∧ t.port.ready = true ∧
       t.port.softReset = s.port.softReset ∧ t.port.signal = s.port.signal ∧
       (t.port.int = true ↔
         s.port.signal.done = true ∧ v.getLsbD 4 = true ∨ s.port.signal.notice = true ∧ v.getLsbD 5 = true ∨
         s.port.signal.collide = true ∧ v.getLsbD 6 = true ∨ s.port.signal.page = true ∧ v.getLsbD 7 = true)) ∧
  (∀ (s : State) (v : Half), s.port.ready = true →
     ∃ t, exec (.signalClear v) s = .next t ∧ s.sameBlocks t ∧ t.pending = s.pending ∧ t.requests = s.requests ∧
       t.report = s.report ∧ t.ram = s.ram ∧ t.port.run = s.port.run ∧ t.port.enables = s.port.enables ∧
       t.port.ready = true ∧ t.port.softReset = s.port.softReset ∧
       t.port.signal = ⟨s.port.signal.done && !v.getLsbD 0, s.port.signal.notice && !v.getLsbD 1,
         s.port.signal.collide && !v.getLsbD 2, s.port.signal.page && !v.getLsbD 3⟩ ∧
       t.port.int = t.port.signal.anyEnabled t.port.enables)

/-- R185: a POST queues a slot that is FREE or DONE, and is a collision otherwise; the queue holds each POSTED slot once;
POST reads its length. -/
def Obligations.PostQueuesOrCollides : Prop :=
  ∀ (s : State) (v : Half), s.memoryOk → s.requests.exact → s.port.ready = true →
    ((s.requests.slots[v.toNat]? = some .free ∨ s.requests.slots[v.toNat]? = some .done) →
      ∃ t, exec (.post v) s = .next t ∧ s.sameBlocks t ∧ t.pending = s.pending ∧ t.port = s.port ∧ t.report = s.report ∧
        t.requests = { slots := s.requests.slots.set v.toNat .posted, queue := s.requests.queue ++ [v.toNat],
                       serving := s.requests.serving } ∧
        readLE t.ram (0x40 + 32 * v.toNat + 2) 2 = 1 ∧
        (∀ a, ¬ (0x40 + 32 * v.toNat + 2 ≤ a ∧ a < 0x40 + 32 * v.toNat + 4) → readByte t.ram a = readByte s.ram a) ∧
        t.requests.exact) ∧
    ((32 ≤ v.toNat ∨ s.requests.slots[v.toNat]? = some .posted ∨ s.requests.slots[v.toNat]? = some .taken) →
      ∃ t, exec (.post v) s = .next t ∧ s.onlyBlocks s { t with port := s.port } ∧
        t.port = s.port.raise ⟨false, false, true, false⟩ ∧ t.port.signal.collide = true) ∧
    s.readRegister 3 = BitVec.ofNat 16 s.requests.queue.length ∧ s.requests.queue.length ≤ 32

/-- R181, R182 (and log 24 for a write to a register that does take it): writes to PORT_ID, and to any register while READY is
0, change nothing. R179: a write replaces a word of Exchange RAM whole; a read returns it; nothing else changes. -/
def Obligations.RamWritesAndIgnoredRegisterWrites : Prop :=
  (∀ (s : State) (r : BitVec 2) (v : Half),
     (s.port.ready = false → exec (.registerWriteIgnored r v) s = .next s) ∧
     exec (.registerWriteIgnored 0 v) s = .next s ∧
     exec (.registerWriteIgnored 1 v) s = exec (.controlWrite v) s ∧
     exec (.registerWriteIgnored 2 v) s = exec (.signalClear v) s ∧ exec (.registerWriteIgnored 3 v) s = exec (.post v) s) ∧
  (∀ (s : State) (w : BitVec 14) (v : Half), s.memoryOk → s.port.ready = true →
     ∃ t, exec (.exchangeRamWrite w v) s = .next t ∧ t.readWord w = v ∧
       (∀ a, a < 2 * w.toNat ∨ 2 * w.toNat + 2 ≤ a → readByte t.ram a = readByte s.ram a) ∧
       s.onlyBlocks s { t with ram := s.ram })

/-- What the part is right after reset, where a rule states the value (R6, R18, R24, R55, R60, R72, R77, R86, R119, R142, R156,
R163, R165, R177, R181, R184, R191 to R193); READY at 1 there is the model's reading (log 1), and so is the Exchange RAM of
nothing listed (log 2). -/
def Obligations.ResetLeavesStatedValues : Prop :=
  State.reset.port = ⟨false, false, true, ⟨false, false, false, false⟩, ⟨false, false, false, false⟩, false⟩ ∧
  State.reset.requests = ⟨List.replicate 32 .free, [], false⟩ ∧ State.reset.report = ⟨0, false, 0, 0⟩ ∧
  State.reset.ram = [] ∧ State.reset.pending = [] ∧
  State.reset.engine.bankA.role = .live ∧ State.reset.engine.bankA.scene = 255 ∧
  State.reset.engine.bankA.stages = List.replicate 12 .none ∧ State.reset.engine.bankB = ⟨.idle, 255, []⟩ ∧
  State.reset.engine.tails = [] ∧ State.reset.engine.tempo = 1200 ∧
  State.reset.input.chosen = 0 ∧ State.reset.input.active = 0 ∧ State.reset.input.selected = .a ∧
  State.reset.input.trimTarget = 0 ∧ State.reset.input.trimCurrent = 0 ∧ State.reset.input.trimFactor = 65536 ∧
  State.reset.store.scenes = List.replicate 128 none ∧
  State.reset.transition.state = .idle ∧ State.reset.transition.liveWeight = 256 ∧
  State.reset.transition.nextWeight = 0 ∧ State.reset.transition.startGain = 0 ∧
  State.reset.tuner.state = .off ∧ State.reset.tuner.reference = 4400 ∧
  State.reset.router.mainMute = 256 ∧ State.reset.router.phonesMute = 256 ∧
  State.reset.mapper.timeout = 45 ∧ State.reset.mapper.lastId = 0 ∧ State.reset.mapper.queue = [] ∧
  State.reset.link.enabled = false ∧ State.reset.link.holdMs = 600 ∧ State.reset.link.deadband = 2 ∧
  State.reset.link.units.map (·.state) = List.replicate 8 .unused ∧ State.reset.link.cycle = 0

/-! ## The Request Unit -/

/-- R186, step 1: a kind that is none of the codes 1..22 completes with BAD_KIND and the kind read. Step 2, for every kind that
uses a buffer: the offset is a multiple of 4 and at least 0x1000, the buffer ends at 0x8000 or below, and the length is one
the kind accepts; or the request completes with BAD_BUFFER. -/
def Obligations.TakesRefuseBadKindsAndBuffers : Prop :=
  (∀ (s : State) (n : Nat) (rest : List Nat), s.memoryOk → s.headIs n rest →
     ((takenAt s.ram n).kind = 0 ∨ 22 < (takenAt s.ram n).kind) →
     completes .unknownKindRequest s s n rest .badKind (.given (takenAt s.ram n).kind)) ∧
  ((∀ (c : Instr) (code length : Nat),
     (c, code, length) ∈ [(.writeScene, 1, 256), (.readScene, 2, 256), (.loadFilter, 4, 80), (.loadCurve, 5, 1028),
       (.setProfile, 7, 16), ((.setAssign : Instr), (16 : Nat), (32 : Nat))] →
     ∀ (s : State) (n : Nat) (rest : List Nat), s.memoryOk → s.headIs n rest → (takenAt s.ram n).kind = code →
       ((takenAt s.ram n).offset % 4 ≠ 0 ∨ (takenAt s.ram n).offset < 0x1000 ∨
         0x8000 < (takenAt s.ram n).offset + (takenAt s.ram n).length ∨ (takenAt s.ram n).length ≠ length) →
       completes c s s n rest .badBuffer (.given length)) ∧
   (∀ (s : State) (n : Nat) (rest : List Nat), s.memoryOk → s.headIs n rest → (takenAt s.ram n).kind = 6 →
     ((takenAt s.ram n).offset % 4 ≠ 0 ∨ (takenAt s.ram n).offset < 0x1000 ∨
       0x8000 < (takenAt s.ram n).offset + (takenAt s.ram n).length ∨ (takenAt s.ram n).length % 256 ≠ 0 ∨
       (takenAt s.ram n).length < 256 ∨ 4096 < (takenAt s.ram n).length) →
     completes .loadImpulse s s n rest .badBuffer (.given 0)))

/-! ## Scene Store -/

/-- WRITE_SCENE (R106): each check in its order, and the record stored; and which field of an image is the first that cannot be
carried out: a stage kind outside 0..8, the transition kind outside 0..2, a lamp entry within the lamp count for unit 0
(11.3 gives the positions). The record that an image without a fault is stored as, field by field, and what makes its mark
(R104, R107, 11.3); the table of R14, and how a parameter value is clamped and rounded as it is written. -/
def Obligations.WriteSceneChecksThenStores : Prop :=
  (∀ (s : State) (n : Nat) (rest : List Nat), s.memoryOk → s.headIs n rest →
     let t := takenAt s.ram n
     let image := readBytes s.ram t.offset 256
     let r := imageScene image
     t.kind = 1 → (BufferNeed.exactly 256).passes t = true →
     (t.arg0 < 0 ∨ 127 < t.arg0 → completes .writeScene s s n rest .range .unstated) ∧
     (0 ≤ t.arg0 → t.arg0 ≤ 127 →
       (∀ f, imageFault image = some f → completes .writeScene s s n rest .invalid (.given (65535 * 65536 + (f : Int)))) ∧
       (imageFault image = none →
         (1000 < r.1.load ∨ 4 < r.1.lanes →
           completes .writeScene s s n rest .invalid (.given (r.1.load + 65536 * r.1.lanes))) ∧
         (r.1.load ≤ 1000 → r.1.lanes ≤ 4 →
           completes .writeScene s
             { s with store := { s.store with scenes := s.store.scenes.set t.arg0.toNat (some r.1) } } n rest
             (if r.2 then .okClamped else .ok) (.given (r.1.load + 65536 * r.1.lanes)))))) ∧
  (∀ image : List Byte, image.length = 256 →
     let byte := fun i => (image.getD i 0).toNat
     let bad := fun f => (f < 12 ∧ 8 < byte (0x24 + 18 * f)) ∨ (f = 12 ∧ 2 < byte 0x0C) ∨
       (13 ≤ f ∧ f < 17 ∧ f - 13 < min 4 (byte 0x12) ∧ byte (0x17 + 4 * (f - 13)) / 16 = 0)
     ∀ f, imageFault image = some f ↔ bad f ∧ ∀ g, g < f → ¬ bad g) ∧
  (∀ image : List Byte, image.length = 256 → imageFault image = none →
     let byte := fun i => (image.getD i 0).toNat
     let half := fun i => byte i + 256 * byte (i + 1)
     let word := fun i => half i + 65536 * half (i + 2)
     let r := (imageScene image).1
     let fade := max 2 (min 480 (signedOf 16 (half 0x0E)))
     r.name = ((image.take 12).map fun b => if 0x20 ≤ b.toNat ∧ b.toNat ≤ 0x7E then b else 0x20) ∧
     r.kind.code = byte 0x0C ∧ (r.fade : Int) = fade + fade % 2 ∧
     r.profile = (if 8 ≤ byte 0x0D ∧ byte 0x0D ≤ 254 then 7 else byte 0x0D) ∧
     r.tempo = (if half 0x10 = 0 then 0 else max 400 (min 3000 (half 0x10))) ∧
     r.lamps.length = min 4 (byte 0x12) ∧
     (∀ i e, r.lamps[i]? = some e → e.unit = word (0x14 + 4 * i) / 2 ^ 28 ∧
       e.lamps.toNat = word (0x14 + 4 * i) % 2 ^ 14 ∧ e.blink.toNat = word (0x14 + 4 * i) / 2 ^ 14 % 2 ^ 14) ∧
     r.stages.length = 12 ∧
     (∀ p, p < 12 → ∃ e, r.stages[p]? = some e ∧ e.kind.code = byte (0x24 + 18 * p) ∧
       (e.kind = .none → e.enable = false ∧ e.params = List.replicate 8 0) ∧
       (e.kind ≠ .none → (e.enable = true ↔ 0 < signedOf 8 (byte (0x25 + 18 * p))) ∧ e.params.length = 8 ∧
         ∀ i, i < 8 → e.params[i]? = some (paramWritten e.kind i (signedOf 16 (half (0x26 + 18 * p + 2 * i)))).1)) ∧
     ((imageScene image).2 = true ↔
       (∃ b, b ∈ image.take 12 ∧ (b.toNat < 0x20 ∨ 0x7E < b.toNat)) ∨ signedOf 16 (half 0x0E) < 2 ∨
       480 < signedOf 16 (half 0x0E) ∨ (8 ≤ byte 0x0D ∧ byte 0x0D ≤ 254) ∨ (1 ≤ half 0x10 ∧ half 0x10 ≤ 399) ∨
       3000 < half 0x10 ∨ 4 < byte 0x12 ∨
       ∃ p e, p < 12 ∧ r.stages[p]? = some e ∧ e.kind ≠ .none ∧
         (signedOf 8 (byte (0x25 + 18 * p)) < 0 ∨ 1 < signedOf 8 (byte (0x25 + 18 * p)) ∨
           ∃ i, i < 8 ∧ (paramWritten e.kind i (signedOf 16 (half (0x26 + 18 * p + 2 * i)))).2 = true))) ∧
  (∀ (k : Kind) (i : Nat) (lo hi : Int) (cls : ParamClass),
     paramRule k i = some ⟨lo, hi, cls⟩ ↔ (k, i, lo, hi, cls) ∈ parameterTable) ∧
  (∀ (k : Kind) (i : Nat) (v : Int),
     (paramRule k i = none → paramWritten k i v = (0, false)) ∧
     (∀ r, paramRule k i = some r →
       let c := if k = .amp ∧ i = 3 ∧ 16 ≤ v ∧ v ≤ 254 then 15 else max r.lo (min r.hi v)
       paramWritten k i v = (if k = .cab ∧ i = 1 then c / 64 * 64 else c, decide (c ≠ v))))

/-- READ_SCENE (R108): the refusals, and the image of the record written into the buffer and nowhere else. -/
def Obligations.ReadSceneWritesImage : Prop :=
  ∀ (s : State) (n : Nat) (rest : List Nat), s.memoryOk → s.headIs n rest →
    let t := takenAt s.ram n
    t.kind = 2 → (BufferNeed.exactly 256).passes t = true →
    (t.arg0 < 0 ∨ 127 < t.arg0 → completes .readScene s s n rest .range .unstated) ∧
    (0 ≤ t.arg0 → t.arg0 ≤ 127 →
      ((s.store.scenes[t.arg0.toNat]?).join = none → completes .readScene s s n rest .emptyScene .unstated) ∧
      (∀ r, s.store.scenes[t.arg0.toNat]? = some (some r) → r.legal →
        (∀ a, a < t.offset ∨ t.offset + 256 ≤ a → readByte (writeScene s.ram t.offset r) a = readByte s.ram a) ∧
        completes .readScene s { s with ram := writeScene s.ram t.offset r } n rest .ok
          (.given (r.load + 65536 * r.lanes))))

/-- The image that READ_SCENE writes is one that WRITE_SCENE reads as the same record, with nothing clamped and no fault:
no field of a record is lost or changed on its way out and in (R104, R106 to R108, 11.3). -/
def Obligations.SceneImageRoundTrip : Prop :=
  ∀ (m : Ram) (base : Nat) (r : SceneRecord), Memory.wf m = true → base + 256 ≤ 0x8000 → r.legal →
    imageFault (readBytes (writeScene m base r) base 256) = none ∧
    imageScene (readBytes (writeScene m base r) base 256) = (r, false)

/-- CLEAR_SCENE (R109). -/
def Obligations.ClearSceneEmptiesEntry : Prop :=
  ∀ (s : State) (n : Nat) (rest : List Nat), s.memoryOk → s.headIs n rest →
    let t := takenAt s.ram n
    let tr := s.transition
    let held :=
      ((tr.state = .staging ∨ tr.state = .dipOut ∧ tr.restageDue = true) ∧ ∃ x, tr.inFlight = some x ∧ (x.scene : Int) = t.arg0) ∨
      ∃ x, tr.pending = some x ∧ (x.scene : Int) = t.arg0
    t.kind = 3 →
    (t.arg0 < 0 ∨ 127 < t.arg0 → completes .clearScene s s n rest .range .unstated) ∧
    (0 ≤ t.arg0 → t.arg0 ≤ 127 →
      (held → completes .clearScene s s n rest .inUse .unstated) ∧
      (¬ held → completes .clearScene s
        { s with store := { s.store with scenes := s.store.scenes.set t.arg0.toNat none } } n rest .ok
        (.given (if ((s.store.scenes[t.arg0.toNat]?).join).isSome then 1 else 0))))

/-- LOAD_FILTER and LOAD_CURVE (R112, R113): the loaded contents are the buffer's, and the contents in force stay. The tables
work of a block start (R111; its place among the works is log 4): the loaded contents of every filter set and every user curve
come into force, and nothing else changes. -/
def Obligations.TableLoadsWriteLoadedContents : Prop :=
  (∀ (s : State) (n : Nat) (rest : List Nat), s.memoryOk → s.headIs n rest →
    let t := takenAt s.ram n
    (t.kind = 4 → (BufferNeed.exactly 80).passes t = true →
      (t.arg0 < 0 ∨ 15 < t.arg0 → completes .loadFilter s s n rest .range .unstated) ∧
      (0 ≤ t.arg0 → t.arg0 ≤ 15 →
        let at4 := fun i k => signedOf 32 (readLE s.ram (t.offset + 20 * i + 4 * k) 4)
        let loaded := (List.range 4).map fun i => (⟨at4 i 0, at4 i 1, at4 i 2, at4 i 3, at4 i 4⟩ : Coeffs)
        completes .loadFilter s
          { s with store := { s.store with
              filters := s.store.filters.modify t.arg0.toNat fun f => { f with loaded := loaded } } }
          n rest .ok (.given t.arg0))) ∧
    (t.kind = 5 → (BufferNeed.exactly 1028).passes t = true →
      (t.arg0 < 16 ∨ 19 < t.arg0 → completes .loadCurve s s n rest .range (.given t.arg0)) ∧
      (16 ≤ t.arg0 → t.arg0 ≤ 19 →
        let point := fun k => signedOf 32 (readLE s.ram (t.offset + 4 * k) 4)
        let loaded := (List.range 257).map fun k => max (-8388608) (min 8388607 (point k))
        completes .loadCurve s
          { s with store := { s.store with
              curves := s.store.curves.modify (t.arg0.toNat - 16) fun c => { c with loaded := loaded } } }
          n rest (if (List.range 257).any fun k => decide (point k < -8388608 ∨ 8388607 < point k) then .okClamped else .ok)
          (.given t.arg0)))) ∧
  (∀ s : State,
    let t := Work.tables.run s
    t = { s with store := { s.store with filters := t.store.filters, curves := t.store.curves } } ∧
    t.store.filters.length = s.store.filters.length ∧ t.store.curves.length = s.store.curves.length ∧
    (∀ (i : Nat) (f : FilterSet), s.store.filters[i]? = some f →
      t.store.filters[i]? = some { inForce := f.loaded, loaded := f.loaded }) ∧
    (∀ (i : Nat) (c : UserCurve), s.store.curves[i]? = some c →
      t.store.curves[i]? = some { inForce := c.loaded, loaded := c.loaded }))

/-- LOAD_IMPULSE (R115): the checks in their order, and the load kept; when a slot is in use. IMPULSE_LOAD_COMPLETE (R116): a
slot that has read its last group takes the new contents, and its request, still TAKEN, is DONE with the load's result and
the new length; how a group is read. The impulse work of a block start (R116): a LOADING slot that has more than one group
left reads its next group and stays LOADING, its contents in force as they were; a READY slot stays as it is. -/
def Obligations.ImpulseLoadsAreKeptThenComplete : Prop :=
  (∀ (s : State) (n : Nat) (rest : List Nat), s.memoryOk → s.headIs n rest →
     let t := takenAt s.ram n
     t.kind = 6 → BufferNeed.impulse.passes t = true →
     (t.arg0 < 0 ∨ 3 < t.arg0 → completes .loadImpulse s s n rest .range .unstated) ∧
     (0 ≤ t.arg0 → t.arg0 ≤ 3 →
       (s.store.loading t.arg0 = true → completes .loadImpulse s s n rest .busy .unstated) ∧
       (s.store.loading t.arg0 = false →
         (s.impulseInUse t.arg0 = true → completes .loadImpulse s s n rest .inUse .unstated) ∧
         (s.impulseInUse t.arg0 = false → keepsSlot .loadImpulse s
           { s with store := { s.store with impulses := s.store.impulses.modify t.arg0.toNat fun x =>
               { x with load := some ⟨n, t.length / 4, t.offset, [], false⟩ } } } n rest)))) ∧
  (∀ (s : State) (i : Nat) (x : ImpulseSlot) (l : ImpulseLoad), s.yetTo .impulse →
     let b := s.before .impulse
     let group := readSamples b.ram (l.offset + 4 * l.copied.length) 64
     b.store.impulses[i]? = some x → x.load = some l → l.length ≤ l.copied.length + 64 →
     ∃ t, exec .impulseLoadComplete s = .next t ∧
       t.store.impulses[i]? = some ⟨l.copied ++ group.map (·.1), none⟩ ∧
       (b.requests.slots[l.slot]? = some .taken → t.requests.slots[l.slot]? = some .done ∧ t.port.signal.done = true) ∧
       (s.memoryOk → s.requests.exact → b.requests.slots[l.slot]? = some .taken →
         (∀ j y m, j ≠ i → b.store.impulses[j]? = some y → y.load = some m → m.slot ≠ l.slot) →
         readLE t.ram (slotAddress l.slot + 0x1C) 2 = (if l.clamped || group.any (·.2) then 1 else 0) ∧
         readLE t.ram (slotAddress l.slot + 0x18) 4 = l.length % 2 ^ 32) ∧
       t.store.scenes = b.store.scenes ∧ t.engine = b.engine ∧ t.transition = b.transition ∧ t.input = b.input) ∧
  (∀ (s : State) (n : Int),
     let tr := s.transition
     let naming := fun st : Stage => st.kind = .cab ∧ (st.targets.getD 0 0 = n ∨ st.currents.getD 0 0 = n)
     s.impulseInUse n = true ↔
       (∃ st, (st ∈ s.engine.bankA.stages ∨ st ∈ s.engine.bankB.stages) ∧ naming st) ∨
       ((tr.state = .staging ∨ tr.state = .dipOut ∧ tr.restageDue = true) ∧
         ∃ x r e, tr.inFlight = some x ∧ s.store.scenes[x.scene]? = some (some r) ∧ e ∈ r.stages ∧ e.kind = .cab ∧
           e.params.getD 0 0 = n) ∨
       (tr.state = .staging ∧ ∃ o, o ∈ s.engine.overlay ∧ o.kind = .cab ∧ o.index = some 0 ∧ o.value = n)) ∧
  (∀ s : State,
     let t := Work.impulse.run s
     let unfinished := fun l : ImpulseLoad => l.copied.length + 64 < l.length
     (∀ (i : Nat) (x : ImpulseSlot), s.store.impulses[i]? = some x →
       (x.load = none → t.store.impulses[i]? = some x) ∧
       (∀ l, x.load = some l → unfinished l →
         let group := readSamples s.ram (l.offset + 4 * l.copied.length) 64
         let l' := { l with copied := l.copied ++ group.map (·.1), clamped := l.clamped || group.any (·.2) }
         t.store.impulses[i]? = some { x with load := some l' })) ∧
     ((∀ x l, x ∈ s.store.impulses → x.load = some l → unfinished l) →
       t = { s with store := { s.store with impulses := t.store.impulses } })) ∧
  (∀ (m : Ram) (a n : Nat), readSamples m a n = (List.range n).map fun k =>
     let v := signedOf 32 (readLE m (a + 4 * k) 4)
     (max (-8388608) (min 8388607 v), decide (v < -8388608 ∨ 8388607 < v)))

/-! ## Inputs, profiles and the trim learner -/

/-- INPUT_SAMPLE (R54, R56, R57, R61, R62) while a block takes samples (log 6: 32 of them, and none after one of the block
start's events): both inputs are suppressed, counted and metered, and the selected one's sample joins a collection. What the
suppressor delivers, when a sample is a crackle, and what is counted and metered (R56, R57, R62, R63). -/
def Obligations.InputSampleIsSuppressed : Prop :=
  (∀ (s : State) (a b : BitVec 24), s.port.ready = true → s.grid.opened = true → s.grid.done = 0 →
     s.grid.samplesA.length < 32 →
     let ya := s.input.inputA.delivered a.toInt
     let yb := s.input.inputB.delivered b.toInt
     let y := match s.input.selected with | .a => ya | .b => yb
     ∃ t, exec (.inputSample a b) s = .next t ∧
       s.onlyBlocks
         { s with
           input := { s.input with inputA := s.input.inputA.sample a.toInt, inputB := s.input.inputB.sample b.toInt }
           tuner := { s.tuner with history :=
             if s.tuner.state ≠ .off ∧ s.tuner.collecting = true then (y :: s.tuner.history).take 2048
             else s.tuner.history }
           grid := { s.grid with samplesA := s.grid.samplesA ++ [ya], samplesB := s.grid.samplesB ++ [yb] } } t) ∧
  (∀ (p : InputPath) (x : Int),
     let pred := max (-8388608) (min 8388607 (2 * p.x1 - p.x2))
     let far := fun y : Int => (p.threshold : Int) * 65536 < (x - y).natAbs
     let crackle := p.threshold ≠ 0 ∧ far pred ∧ far p.x1
     (crackle → p.delivered x = pred ∧ (p.sample x).crackles = p.crackles + 1) ∧
     (¬ crackle → p.delivered x = x ∧ (p.sample x).crackles = p.crackles) ∧
     (p.sample x).x2 = p.x1 ∧ (p.sample x).x1 = p.delivered x ∧ (p.sample x).threshold = p.threshold ∧
     (p.sample x).holdoff = p.holdoff ∧ (p.sample x).unreported = p.unreported ∧
     (p.sample x).meter.peak = max p.meter.peak (p.delivered x).natAbs ∧
     (p.sample x).meter.clips =
       p.meter.clips + (if p.delivered x = -8388608 ∨ p.delivered x = 8388607 then 1 else 0) ∧
     InputPath.reset.x1 = 0 ∧ InputPath.reset.x2 = 0)

/-- SET_PROFILE (R76) of a profile that no learn measures: the clamped record is written; and the record that an image is stored
as (R76, 11.3), each field with its clamp. -/
def Obligations.SetProfileWritesClampedRecord : Prop :=
  (∀ (s : State) (n : Nat) (rest : List Nat), s.memoryOk → s.headIs n rest →
     let t := takenAt s.ram n
     t.kind = 7 → (BufferNeed.exactly 16).passes t = true →
     (t.arg0 < 0 ∨ 7 < t.arg0 → completes .setProfile s s n rest .range (.given t.arg0)) ∧
     (0 ≤ t.arg0 → t.arg0 ≤ 7 → (s.input.learner.learning = false ∨ s.input.learner.profile ≠ t.arg0.toNat) →
       let r := imageProfile (readBytes s.ram t.offset 16)
       completes .setProfile s
         { s with
           store := { s.store with profiles := s.store.profiles.set t.arg0.toNat r.1 }
           input := { s.input with rewritten := t.arg0.toNat :: s.input.rewritten } }
         n rest (if r.2 then .okClamped else .ok) (.given t.arg0))) ∧
  (∀ image : List Byte, image.length = 16 →
     let byte := fun i => (image.getD i 0).toNat
     let trim := signedOf 16 (byte 2 + 256 * byte 3)
     let reference := byte 4 + 256 * byte 5
     let p := (imageProfile image).1
     (p.input = .a ↔ byte 0 = 0) ∧ p.trim = max (-24) (min 48 trim) ∧ p.threshold = min 127 (byte 1) ∧
     p.reference = max 4000 (min 4800 reference) ∧
     p.name = ((image.drop 8).map fun b => if 0x20 ≤ b.toNat ∧ b.toNat ≤ 0x7E then b else 0x20) ∧
     ((imageProfile image).2 = true ↔
       1 < byte 0 ∨ trim < -24 ∨ 48 < trim ∨ 127 < byte 1 ∨ reference < 4000 ∨ 4800 < reference ∨
       ∃ b, b ∈ image.drop 8 ∧ (b.toNat < 0x20 ∨ 0x7E < b.toNat)))

/-- SELECT_PROFILE (R77) and SET_TEMPO (R24). -/
def Obligations.SelectProfileAndSetTempo : Prop :=
  ∀ (s : State) (n : Nat) (rest : List Nat), s.memoryOk → s.headIs n rest →
    let t := takenAt s.ram n
    (t.kind = 8 →
      (t.arg0 < 0 ∨ 7 < t.arg0 → completes .selectProfile s s n rest .range .unstated) ∧
      (0 ≤ t.arg0 → t.arg0 ≤ 7 → completes .selectProfile s { s with input := { s.input with chosen := t.arg0.toNat } }
        n rest .ok (.given t.arg0))) ∧
    (t.kind = 13 →
      (t.arg0 < 400 → completes .setTempo s { s with engine := { s.engine with tempoTarget := 400 } } n rest .okClamped
        (.given 400)) ∧
      (400 ≤ t.arg0 → t.arg0 ≤ 3000 → completes .setTempo s
        { s with engine := { s.engine with tempoTarget := t.arg0.toNat } } n rest .ok (.given t.arg0)) ∧
      (3000 < t.arg0 → completes .setTempo s { s with engine := { s.engine with tempoTarget := 3000 } } n rest .okClamped
        (.given 3000)))

/-- TRIM_LEARN start (R80): INVALID for an action that is neither start nor abort, BUSY, RANGE, INVALID in their order; or
the learner enters LEARNING with clamped settings, and the slot is kept. -/
def Obligations.TrimLearnStartChecksThenLearns : Prop :=
  ∀ (s : State) (n : Nat) (rest : List Nat), s.memoryOk → s.headIs n rest →
    let t := takenAt s.ram n
    let half := fun k => argBits t.arg3 / 65536 ^ k % 65536
    let target := max 1 (min 120 (if t.arg2 = 0 then 24 else t.arg2))
    let low := max 1500 (min 15000 (if half 0 = 0 then 3000 else half 0))
    let high := max low (min 30000 (if half 1 = 0 then 15000 else half 1))
    t.kind = 9 →
    (t.arg0 ≠ 0 → t.arg0 ≠ 1 → completes .trimLearnStart s s n rest .invalid .unstated) ∧
    (t.arg0 = 0 →
      (s.input.learner.learning = true → completes .trimLearnStart s s n rest .busy .unstated) ∧
      (s.input.learner.learning = false →
        (t.arg1 < 0 ∨ 7 < t.arg1 → completes .trimLearnStart s s n rest .range .unstated) ∧
        (0 ≤ t.arg1 → t.arg1 ≤ 7 →
          (t.arg1 ≠ s.input.active ∨ s.input.chosen ≠ s.input.active →
            completes .trimLearnStart s s n rest .invalid .unstated) ∧
          (t.arg1 = s.input.active → s.input.chosen = s.input.active →
            ∃ clamped, keepsSlot .trimLearnStart s
              { s with input := { s.input with learner :=
                { learning := true, slot := n, profile := t.arg1.toNat, target := target, minBlocks := low,
                  maxBlocks := high, elapsed := 0, signalBlocks := 0, histogram := List.replicate 241 0,
                  clamped := clamped, counting := false } } } n rest ∧
              (clamped = true ↔
                (t.arg2 ≠ 0 ∧ (t.arg2 < 1 ∨ 120 < t.arg2)) ∨
                (half 0 ≠ 0 ∧ (half 0 < 1500 ∨ 15000 < half 0)) ∨
                (half 1 ≠ 0 ∧ (half 1 < low ∨ 30000 < half 1)))))))

/-- TRIM_LEARN abort (R85); and R85, R76: a SET_PROFILE of the learned profile ends the learn with ABORTED and its signal
blocks, then writes. -/
def Obligations.AbortedLearnsWriteNoTrim : Prop :=
  (∀ (s : State) (n : Nat) (rest : List Nat), s.memoryOk → s.headIs n rest →
     let t := takenAt s.ram n
     let l := s.input.learner
     t.kind = 9 → t.arg0 = 1 →
     (l.learning = false → completes .trimLearnAbort s s n rest .ok (.given 0)) ∧
     (l.learning = true → l.slot < 32 → l.slot ≠ n → s.requests.slots[l.slot]? = some .taken →
       ∃ u, exec .trimLearnAbort s = .next u ∧
         u.input = { s.input with learner := { l with learning := false, counting := false } } ∧
         u.requests.slots[l.slot]? = some .done ∧ readLE u.ram (slotAddress l.slot + 0x1C) 2 = 16 ∧
         readLE u.ram (slotAddress l.slot + 0x18) 4 = l.signalBlocks % 2 ^ 32 ∧
         u.requests.slots[n]? = some .done ∧ readLE u.ram (slotAddress n + 0x1C) 2 = 0 ∧
         readLE u.ram (slotAddress n + 0x18) 4 = 1 ∧ u.store = s.store ∧ u.pending = s.pending)) ∧
  (∀ (s : State) (n : Nat) (rest : List Nat), s.memoryOk → s.headIs n rest →
     let t := takenAt s.ram n
     let l := s.input.learner
     t.kind = 7 → (BufferNeed.exactly 16).passes t = true → 0 ≤ t.arg0 → t.arg0 ≤ 7 →
     l.learning = true → l.profile = t.arg0.toNat → l.slot < 32 → l.slot ≠ n → s.requests.slots[l.slot]? = some .taken →
     ∃ u, exec .setProfile s = .next u ∧ u.input.learner.learning = false ∧
       u.requests.slots[l.slot]? = some .done ∧ readLE u.ram (slotAddress l.slot + 0x1C) 2 = 16 ∧
       readLE u.ram (slotAddress l.slot + 0x18) 4 = l.signalBlocks % 2 ^ 32 ∧
       u.requests.slots[n]? = some .done ∧
       u.store.profiles = s.store.profiles.set t.arg0.toNat (imageProfile (readBytes s.ram t.offset 16)).1 ∧
       u.pending = s.pending ∧ u.engine = s.engine ∧ u.transition = s.transition)

/-- LEARN_COMPLETE (R82 to R84): the completion tests end the learn, the trim is written where the outcome says so, and the
start slot, still TAKEN, is answered. How the learn work of a block start counts the block just ended, by its raw peak code
(R61, R81): from the first block that begins after the start was taken. The completion tests and the outcome of a learn
(R82, R83), for the profile's old trim. -/
def Obligations.LearnCompletionWritesTrim : Prop :=
  (∀ (s : State) (e : LearnEnd), s.yetTo .learn →
     let b := s.before .learn
     let l := b.input.learner
     s.memoryOk → l.learning = true → l.counting = true → b.grid.opened = true → b.learnEnd = some e →
     ∃ t, exec .learnComplete s = .next t ∧ t.input.learner.learning = false ∧
       (e.trim = none → t.store = b.store ∧ t.input.trimTarget = b.input.trimTarget) ∧
       (∀ v, e.trim = some v →
         t.store = { b.store with profiles := b.store.profiles.modify l.profile fun p => { p with trim := v } } ∧
         t.input.trimTarget = if b.input.active = l.profile then v else b.input.trimTarget) ∧
       (l.slot < 32 → b.requests.slots[l.slot]? = some .taken →
         t.requests.slots[l.slot]? = some .done ∧ readLE t.ram (slotAddress l.slot + 0x1C) 2 = e.code.code ∧
         readLE t.ram (slotAddress l.slot + 0x18) 4 = argBits e.value) ∧
       t.pending = b.pending ∧ t.engine = b.engine ∧ t.router = b.router ∧ t.tuner = b.tuner ∧ t.link = b.link) ∧
  (∀ b : State,
     let l := b.input.learner
     let samples := match b.input.selected with
       | .a => b.grid.samplesA
       | .b => b.grid.samplesB
     let code := if b.engine.running then peakCode (blockPeak samples) else 255
     let counted : Learner :=
       if code ≤ 120 then
         { l with
           elapsed := l.elapsed + 1, signalBlocks := l.signalBlocks + 1
           histogram := l.histogram.modify code.toNat (· + 1) }
       else { l with elapsed := l.elapsed + 1 }
     let t := Work.learn.run b
     (l.learning = false → t = b) ∧
     (l.learning = true → l.counting = false ∨ b.grid.opened = false →
       t = { b with input := { b.input with learner := { l with counting := true } } }) ∧
     (l.learning = true → l.counting = true → b.grid.opened = true →
       b.learnEnd = counted.finished ((b.store.profiles.getD l.profile .reset).trim) ∧
       (b.learnEnd = none → t = { b with input := { b.input with learner := counted } }) ∧
       (∀ e, b.learnEnd = some e → t.input.learner = { counted with learning := false, counting := false }))) ∧
  (∀ (l : Learner) (old : Int),
     let total := fun k => (l.histogram.take k).foldl (· + ·) 0
     let new := fun p : Nat => max (-24) (min 48 ((p : Int) - l.target))
     let value := fun p : Nat => new p % 65536 + 65536 * (l.signalBlocks : Int)
     let full := 1500 ≤ l.signalBlocks ∧ l.minBlocks ≤ l.elapsed
     (¬ full → l.elapsed < l.maxBlocks → l.finished old = none) ∧
     (¬ full → l.maxBlocks ≤ l.elapsed → l.signalBlocks < 300 →
       l.finished old = some ⟨.noSignal, l.signalBlocks, none⟩) ∧
     (∀ p, p < 241 → l.signalBlocks ≤ 20 * total (p + 1) → (∀ q, q < p → 20 * total (q + 1) < l.signalBlocks) →
       (full →
         ((new p - old).natAbs ≤ 2 → l.finished old = some ⟨.unchanged, value p, none⟩) ∧
         (2 < (new p - old).natAbs → l.signalBlocks < 100 * l.histogram.getD 0 0 →
           l.finished old = some ⟨.clipped, value p, some (new p)⟩) ∧
         (2 < (new p - old).natAbs → 100 * l.histogram.getD 0 0 ≤ l.signalBlocks →
           l.finished old = some ⟨if l.clamped then .okClamped else .ok, value p, some (new p)⟩)) ∧
       (¬ full → l.maxBlocks ≤ l.elapsed → 300 ≤ l.signalBlocks →
         ((new p - old).natAbs ≤ 2 → l.finished old = some ⟨.unchanged, value p, none⟩) ∧
         (2 < (new p - old).natAbs → l.finished old = some ⟨.partialLearn, value p, some (new p)⟩))))

/-- PROFILE_CHANGE_TAKEUP (R55, R59, R60, R78, R85, R99); a restart of the Tuner hands its reading on (R102). -/
def Obligations.ProfileChangeTakesUpChosen : Prop :=
  ∀ s : State, s.yetTo .profile →
    let b := s.before .profile
    let p := b.store.profiles.getD b.input.chosen .reset
    (b.input.chosen ≠ b.input.active ∨ b.input.chosen ∈ b.input.rewritten) →
    ∃ t, exec .profileChangeTakeup s = .next t ∧ t.input.active = b.input.chosen ∧ t.input.chosen = b.input.chosen ∧
      t.input.rewritten = [] ∧ t.input.selected = p.input ∧ t.input.trimTarget = p.trim ∧
      t.input.crossFrom = (if p.input = b.input.selected then none else some b.input.selected) ∧
      t.input.inputA.threshold = (if p.input = .a then p.threshold else b.input.inputA.threshold) ∧
      t.input.inputB.threshold = (if p.input = .b then p.threshold else b.input.inputB.threshold) ∧
      t.tuner.reference = p.reference ∧ t.store = b.store ∧ t.engine = b.engine ∧ t.transition = b.transition ∧
      (b.tuner.state = .off → t.tuner = { b.tuner with reference := p.reference }) ∧
      (b.tuner.state ≠ .off → (p.input ≠ b.input.selected ∨ p.reference ≠ b.tuner.reference) →
        t.tuner.state = .listen ∧ t.tuner.history = [] ∧ t.tuner.windowCount = 0 ∧ t.tuner.run = [] ∧
        t.tuner.accepted = [] ∧ t.tuner.shownNote = 0 ∧ t.tuner.shownCents = 0 ∧ t.tuner.collecting = true ∧
        t.link = (b.handFrames (readingFrames b.link.units (1, 0, 0))).link) ∧
      (b.tuner.state = .off ∨ p.input = b.input.selected ∧ p.reference = b.tuner.reference →
        t.tuner = { b.tuner with reference := p.reference } ∧ t.link = b.link) ∧
      (b.input.chosen ≠ b.input.active → b.input.learner.learning = true → t.input.learner.learning = false) ∧
      (b.input.chosen = b.input.active → t.input.learner = b.input.learner)

/-! ## Transitions -/

/-- SELECT_SCENE (R121, R122): the refusals in their order, and what a taken select does in each state of the Transition
Unit; the slot stays TAKEN. `x` is the select as taken. A select that a newer one replaces, in flight in STAGING or DIP_OUT,
pending, or stopped, finishes SUPERSEDED, in its slot and in a SCENE notice (R122, R135, R138). -/
def Obligations.SelectSceneChecksThenPlaces : Prop :=
  (∀ (s : State) (n : Nat) (rest : List Nat), s.memoryOk → s.headIs n rest →
     let t := takenAt s.ram n
     let tr := s.transition
     let kindOk := t.arg1 = 0 ∨ t.arg1 = 1 ∨ t.arg1 = 2 ∨ t.arg1 = 255
     t.kind = 10 →
     (t.arg0 < 0 ∨ 127 < t.arg0 → completes .selectScene s s n rest .range (.given t.arg0)) ∧
     (0 ≤ t.arg0 → t.arg0 ≤ 127 →
       (¬ kindOk → completes .selectScene s s n rest .invalid (.given t.arg0)) ∧
       (kindOk →
         ((s.store.scenes[t.arg0.toNat]?).join = none →
           completes .selectScene s s n rest .emptyScene (.given t.arg0)) ∧
         (∀ r, s.store.scenes[t.arg0.toNat]? = some (some r) →
           ∃ x : Select, x.scene = t.arg0.toNat ∧ x.origin = .slot n ∧ x.decided = none ∧ x.fromStop = false ∧
             x.kind = (if t.arg1 = 0 then some .fade else if t.arg1 = 1 then some .dip else if t.arg1 = 2 then some .cut
               else none) ∧
             x.length = (if t.arg2 = 0 then none
               else some ((max 2 (min 480 t.arg2) + max 2 (min 480 t.arg2) % 2).toNat)) ∧
             (x.clamped = true ↔ t.arg2 ≠ 0 ∧ (t.arg2 < 2 ∨ 480 < t.arg2)) ∧
             (s.engine.running = true → tr.state = .idle →
               keepsSlot .selectScene s { s with transition := { tr with inFlight := some x, state := .staging } } n rest) ∧
             (s.engine.running = false → tr.stopped = none →
               keepsSlot .selectScene s { s with transition := { tr with stopped := some x } } n rest) ∧
             (s.engine.running = true → tr.state = .fading ∨ tr.state = .dipIn → tr.pending = none →
               keepsSlot .selectScene s { s with transition := { tr with pending := some x } } n rest) ∧
             (∃ u, exec .selectScene s = .next u ∧ u.pending = s.pending ∧
               (s.engine.running = false → u.transition = { tr with stopped := some x } ∧ u.engine = s.engine) ∧
               (s.engine.running = true →
                 (tr.state = .staging →
                   u.transition = { tr with inFlight := some x } ∧ u.engine = { s.engine with overlay := [] }) ∧
                 (tr.state = .dipOut →
                   u.transition = { tr with inFlight := some x, restageDue := true } ∧ u.engine = s.engine) ∧
                 (tr.state = .fading ∨ tr.state = .dipIn →
                   u.transition = { tr with pending := some x } ∧ u.engine = s.engine)) ∧
               (∀ old, s.requests.exact →
                 (s.engine.running = true ∧ (tr.state = .staging ∨ tr.state = .dipOut) ∧ tr.inFlight = some old) ∨
                 (s.engine.running = true ∧ (tr.state = .fading ∨ tr.state = .dipIn) ∧ tr.pending = some old) ∨
                 (s.engine.running = false ∧ tr.stopped = some old) →
                 slotReport s u old 9 ∧ sceneReport u.ram s.report.noticeCount old 1 old.carriedKind x.scene ∧
                 u.port.signal.notice = true ∧ u.report.noticeCount = s.report.noticeCount + 1 ∧ u.link = s.link ∧
                 u.requests.queue = rest ∧ u.requests.serving = false ∧
                 (old.origin ≠ .slot n → u.requests.slots[n]? = some .taken))))))) ∧
  (∀ (s : State) (x y : Select), s.memoryOk → s.requests.exact →
     let t := s.takeSelect y
     let tr := s.transition
     let reported := slotReport s t x 9 ∧ sceneReport t.ram s.report.noticeCount x 1 x.carriedKind y.scene ∧
       t.port.signal.notice = true ∧ t.report.noticeCount = s.report.noticeCount + 1 ∧ t.link = s.link
     (s.engine.running = true → tr.state = .staging ∨ tr.state = .dipOut → tr.inFlight = some x →
       t.transition.inFlight = some y ∧ reported) ∧
     (s.engine.running = true → tr.state = .fading ∨ tr.state = .dipIn → tr.pending = some x →
       t.transition.pending = some y ∧ reported) ∧
     (s.engine.running = false → tr.stopped = some x → t.transition.stopped = some y ∧ reported))

/-- STAGE_SELECT (R123) of a select whose record can be copied: its kind and length (R90, R120); what NEXT holds at each
position, as R8 makes it fresh, with the carries and placeholders of R124 for a dip and the lanes of R18 for a fade; the
admission test and the dip test with the tails they cut (R125); the tail marks of LIVE (R130); and the state of the unit.
`entries` are the record's, with those of the staging overlay applied (R20), where it holds any. RESTAGE (R133): the same
over NEXT, with no overlay and the tail marks as they are; both leave every CATCH assignment uncaught (R154); the transition
stays a dip, its count and phase length go on. The lamp entries that a select keeps are the model's (log 12), and so is the
kind a restaged FADE is reported with, DIP (log 13). -/
def Obligations.StagingCopiesIntoNext : Prop :=
  (∀ (s : State) (x : Select) (r : SceneRecord), s.yetTo .stage →
     let b := s.before .stage
     let live := b.engine.live.stages
     let tempo := if r.tempo = 0 then b.engine.tempoTarget else r.tempo
     let kind := x.kind.getD r.kind
     let length := x.length.getD r.fade
     let muted := b.tuner.state ≠ .off ∧ b.tuner.mode = .mute
     b.mayMove = true → b.transition.state = .staging → b.transition.inFlight = some x →
     b.store.scenes[x.scene]? = some (some r) → b.store.mustWait r = false →
     ∃ t d entries, exec .stageSelect s = .next t ∧
       t.transition.inFlight = some { x with decided := some d, lamps := r.lamps } ∧
       entries = overlayOn b.loadBeside b.engine.overlay r.entries ∧
       entries.length = r.entries.length ∧ (b.engine.overlay = [] → entries = r.entries) ∧
       (∀ p, (∀ o, o ∈ b.engine.overlay → o.position ≠ p) → entries[p]? = r.entries[p]?) ∧
       (muted ∨ kind = .cut → d = (.cut, 2)) ∧ (¬ muted → kind = .dip → d = (.dip, length)) ∧
       (muted ∨ kind ≠ .fade → cutTo (dipAdmits entries) b.engine.tails t.engine.tails) ∧
       (¬ muted → kind = .fade → ∃ kept, cutTo (admits live entries) b.engine.tails kept ∧ t.engine.tails = kept ∧
         (admits live entries kept → d = (.fade, length) ∧
           copiedBank (lanesOf live ++ lanesOf (kept.map (·.stage))) tempo entries t.engine.other.stages ∧
           ∀ (p : Nat) (l : Stage), live[p]? = some l →
             ∃ l', t.engine.live.stages[p]? = some l' ∧ l' = { l with tailMode := l'.tailMode }) ∧
         (¬ admits live entries kept → kept = [] ∧ d = (.dip, length))) ∧
       (d.1 ≠ .fade → dipBanks tempo entries live t.engine.live.stages t.engine.other.stages) ∧
       tailsMarked live t.engine.live.stages ∧
       t.transition.state = (if d.1 = .fade then .fading else .dipOut) ∧ t.transition.count = 1 ∧
       t.transition.phaseLength = (if d.1 = .fade then d.2 else d.2 / 2) ∧ t.transition.restageDue = false ∧
       t.transition.pending = b.transition.pending ∧ t.engine.other.role = .next ∧
       t.engine.other.scene = x.scene ∧ t.engine.other.stages.length = r.stages.length ∧
       t.engine.live.role = b.engine.live.role ∧ t.engine.live.scene = b.engine.live.scene ∧
       t.engine.live.stages.length = live.length ∧ t.engine.overlay = [] ∧ bringsFields b t r ∧
       t.engine.tails.length ≤ b.engine.tails.length ∧ t.store = b.store ∧ t.requests = b.requests ∧ t.port = b.port ∧
       t.router = b.router ∧ t.tuner = b.tuner ∧ t.mapper = b.mapper.allUncaught) ∧
  (∀ (s : State) (x : Select) (r : SceneRecord), s.yetTo .restage →
     let b := s.before .restage
     let live := b.engine.live.stages
     let tempo := if r.tempo = 0 then b.engine.tempoTarget else r.tempo
     let kind := x.kind.getD r.kind
     let muted := b.tuner.state ≠ .off ∧ b.tuner.mode = .mute
     b.mayMove = true → b.transition.state = .dipOut → b.transition.restageDue = true → b.transition.inFlight = some x →
     b.store.scenes[x.scene]? = some (some r) → b.store.mustWait r = false →
     ∃ t d, exec .restage s = .next t ∧ t.transition.inFlight = some { x with decided := some d, lamps := r.lamps } ∧
       (muted ∨ kind = .cut → d = (.cut, 2)) ∧ (¬ muted → kind ≠ .cut → d = (.dip, x.length.getD r.fade)) ∧
       cutTo (dipAdmits r.entries) b.engine.tails t.engine.tails ∧
       dipBanks tempo r.entries live t.engine.live.stages t.engine.other.stages ∧
       (∀ (p : Nat) (l l' : Stage), live[p]? = some l → t.engine.live.stages[p]? = some l' → l'.tailMode = l.tailMode) ∧
       t.transition.state = .dipOut ∧ t.transition.restageDue = false ∧
       t.transition.phaseLength = b.transition.phaseLength ∧
       t.transition.count = (if b.transition.count < b.transition.phaseLength then b.transition.count + 1
         else b.transition.count) ∧
       t.engine.other.role = .next ∧ t.engine.other.scene = x.scene ∧ t.engine.live.scene = b.engine.live.scene ∧
       bringsFields b t r ∧ t.store = b.store ∧ t.requests = b.requests ∧ t.port = b.port ∧ t.router = b.router ∧
       t.mapper = b.mapper.allUncaught)

/-- DIP_TURN (R128): the outgoing bank holds only NONE instances, its tail candidates are offered to the tail list in position
order (R131), carried instances, a DELAY with its lanes among them, have moved into NEXT, the other DELAYs of NEXT have been
given lanes, and the in-phase, half the decided length (R129, R133), begins. R131: how a candidate is offered. -/
def Obligations.DipTurnReleasesOutgoing : Prop :=
  (∀ s : State, s.yetTo .dipTurn →
    let b := s.before .dipTurn
    b.mayMove = true → b.transition.state = .dipOut → b.transition.restageDue = false →
    b.transition.phaseLength ≤ b.transition.count →
    ∃ t, exec .dipTurn s = .next t ∧ t.transition.state = .dipIn ∧ t.transition.count = 1 ∧
      (∀ x d, b.transition.inFlight = some x → x.decided = some d → t.transition.phaseLength = d.2 / 2) ∧
      t.transition.inFlight = b.transition.inFlight ∧
      t.engine.live = { b.engine.live with stages := List.replicate 12 .none } ∧
      t.engine.other.role = b.engine.other.role ∧ t.engine.other.scene = b.engine.other.scene ∧
      t.engine.tails = releaseTails b.engine.other.stages b.engine.live.stages b.engine.tails ∧
      (∃ moved, movedIn b.engine.live.stages b.engine.other.stages moved ∧
        lanesGiven (lanesOf (t.engine.tails.map (·.stage))) moved t.engine.other.stages) ∧
      (∀ (p : Nat) (l c : Stage), b.engine.live.stages[p]? = some l → b.engine.other.stages[p]? = some c →
        c.placeholder = true → l.kind ≠ .delay ∨ l.lanes ≠ [] →
        t.engine.other.stages[p]? = some { l with targets := c.targets, enable := c.enable, carry := true }) ∧
      t.port = b.port ∧ t.requests = b.requests ∧ t.store = b.store ∧ t.input = b.input) ∧
  (∀ (next released : List Stage) (tails : List Tail),
    releaseTails next released tails = (released.filter fun st => st.tailMode).foldl (offerTail next) tails) ∧
  (∀ (next : List Stage) (tails : List Tail) (st : Stage),
    let left := if 2 ≤ tails.length then tails.tail else tails
    let fits := lanesWanted next + lanesHeld (left.map (·.stage)) + st.lanes.length ≤ 4 ∧
      loadOf next + loadOf (left.map (·.stage)) + 24 ≤ 1000
    (fits → offerTail next tails st = left ++ [⟨st, 0, 0, 0⟩]) ∧ (¬ fits → offerTail next tails st = left))

/-- FADE_END and DIP_END (R127, R129, R134, R135): the roles swap, the outgoing bank is IDLE with scene 255, its tail
candidates are offered to the tail list (R131), the select finishes LIVE in its notice and its slot, its lamp entries are
handed on as LAMP frames, each for its unit alone, and the unit is IDLE, or STAGING with the select that was pending; every
CATCH assignment is uncaught (R154). The frames' lamp entries are the record's as it was copied (log 12). -/
def Obligations.TransitionEndSwapsRoles : Prop :=
  (∀ (s : State) (c : Instr) (w : Work) (st : TransState),
    (c = .fadeEnd ∧ w = .fadeEnd ∧ st = .fading) ∨ (c = .dipEnd ∧ w = .dipEnd ∧ st = .dipIn) →
    s.yetTo w → s.memoryOk → s.requests.exact →
    let b := s.before w
    b.engine.running = true → b.transition.acted = false → b.transition.state = st →
    b.transition.phaseLength ≤ b.transition.count →
    ∃ t, exec c s = .next t ∧ t.engine.live.role = .live ∧ t.engine.live.scene = b.engine.other.scene ∧
      t.engine.live.stages = b.engine.other.stages.map (fun x => { x with carry := false }) ∧
      t.engine.other = ⟨.idle, 255, []⟩ ∧ t.transition.liveWeight = 256 ∧ t.transition.nextWeight = 0 ∧
      t.engine.tails = releaseTails b.engine.other.stages b.engine.live.stages b.engine.tails ∧
      (b.engine.runNext = true → ∀ x, b.transition.pending = some x →
        t.transition.state = .staging ∧ t.transition.inFlight = some x ∧ t.transition.pending = none) ∧
      (b.engine.runNext = false → ∀ x, b.transition.pending = some x →
        t.transition.state = .idle ∧ t.transition.inFlight = none ∧ t.transition.pending = some x) ∧
      (b.transition.pending = none → t.transition.state = .idle ∧ t.transition.inFlight = none) ∧
      (b.transition.inFlight = none → t.report = b.report ∧ t.link = b.link) ∧
      (∀ x, b.transition.inFlight = some x → x.lamps = [] → t.report.noticeCount = b.report.noticeCount + 1) ∧
      (∀ x, b.transition.inFlight = some x → x.lamps.length ≤ 4 →
        sceneReport t.ram b.report.noticeCount x 0 x.carriedKind b.engine.live.scene ∧ t.port.signal.notice = true ∧
        slotReport b t x (if x.clamped then 1 else 0) ∧
        t.link = (b.handFrames (x.lamps.map fun e => ⟨.lamp, e.unit, 15,
          [e.lamps.toNat % 128, e.lamps.toNat / 128, e.blink.toNat % 128, e.blink.toNat / 128]⟩)).link) ∧
      t.store = b.store ∧ t.input = b.input ∧ t.tuner = b.tuner ∧ t.router = b.router ∧ t.mapper = b.mapper.allUncaught)

/-- TAIL_QUIET_END and TAIL_AGE_END (R132): exactly the tails whose counter, after this block start's count, has reached its
limit leave the list; the others stay in order with the count. -/
def Obligations.TailsEndByQuietOrAge : Prop :=
  (∀ s : State, s.yetTo .tailQuiet →
    let b := s.before .tailQuiet
    let count := fun t : Tail => if 180 ≤ peakCode t.wetPeak then t.quiet + 1 else 0
    let ends := fun t : Tail => decide (t.stage.delayCurrent ≤ 32 * count t)
    (∃ t, t ∈ b.engine.tails ∧ ends t = true) →
    ∃ t, exec .tailQuietEnd s = .next t ∧
      b.onlyBlocks { b with
        engine := { b.engine with tails := (b.engine.tails.filter fun x => !ends x).map fun x => { x with quiet := count x } }
        grid := t.grid } t) ∧
  (∀ s : State, s.yetTo .tailAge →
    let b := s.before .tailAge
    (∃ t, t ∈ b.engine.tails ∧ 12000 ≤ t.age + 1) →
    ∃ t, exec .tailAgeEnd s = .next t ∧
      b.onlyBlocks { b with
        engine := { b.engine with
          tails := (b.engine.tails.filter fun x => decide (x.age + 1 < 12000)).map fun x => { x with age := x.age + 1 } }
        grid := t.grid } t)

/-- ENGINE_STOP (R137): the tails and the overlay are gone and the unit is IDLE at full LIVE weight; a transition whose NEXT
is staged ends with NEXT LIVE, its carried instances moved in and its lanes given; a select in STAGING, or in DIP_OUT with a
restage due, is copied directly with the staging overlay applied as R20 gives (its budget is tested after the tails are cut,
so that only LIVE stands beside a FADE), or waits as the stopped select; both finish CUT_SHORT (R135), a pending select
beside them or not; then the pending select is copied directly and finishes LIVE, or waits. A select whose scene has been
cleared finishes EMPTY (the model's choice, log 37); a NEXT made LIVE and a direct copy leave every CATCH assignment uncaught
(R154); the lamp entries handed on are those of the record as it was copied (log 12). ENGINE_RESTART (R138, R139): every
instance of LIVE is made fresh in place, its kind state cleared, its factors and delay times set and its lanes kept, the
start gain is 0, and a stopped select enters STAGING. -/
def Obligations.EngineStopAndRestart : Prop :=
  (∀ s : State, s.yetTo .stop → s.memoryOk → s.requests.exact →
     let b := s.before .stop
     let tr := b.transition
     let unmarked := fun l : List Stage => l.map fun st => { st with tailMode := false }
     let lamps := fun l : List LampEntry => l.map fun e => (⟨.lamp, e.unit, 15,
       [e.lamps.toNat % 128, e.lamps.toNat / 128, e.blink.toNat % 128, e.blink.toNat / 128]⟩ : MasterFrame)
     let staged := tr.state = .fading ∨ tr.state = .dipIn ∨ tr.state = .dipOut ∧ tr.restageDue = false
     let unstaged := tr.state = .staging ∨ tr.state = .dipOut ∧ tr.restageDue = true
     b.engine.running = true → b.engine.runNext = false →
     ∃ t, exec .engineStop s = .next t ∧ t.engine.running = false ∧ t.engine.tails = [] ∧ t.engine.overlay = [] ∧
       t.transition.state = .idle ∧ t.transition.inFlight = none ∧ t.transition.pending = none ∧
       t.transition.liveWeight = 256 ∧ t.transition.nextWeight = 0 ∧ t.transition.loadFigure = 0 ∧
       (∀ x, tr.inFlight = some x → staged → t.mapper = b.mapper.allUncaught) ∧
       (∀ x r, tr.inFlight = some x → unstaged → b.store.scenes[x.scene]? = some (some r) → b.store.mustWait r = false →
         t.mapper = b.mapper.allUncaught) ∧
       (∀ y r, tr.pending = some y → b.store.scenes[y.scene]? = some (some r) → b.store.mustWait r = false →
         t.mapper = b.mapper.allUncaught) ∧
       (tr.pending = none → tr.inFlight = none ∨ unstaged ∧ (∀ x r, tr.inFlight = some x →
         b.store.scenes[x.scene]? = some (some r) → b.store.mustWait r = true) → t.mapper = b.mapper) ∧
       (tr.inFlight = none → tr.pending = none →
         t.engine.live = { b.engine.live with stages := unmarked b.engine.live.stages } ∧ t.input = b.input ∧
         t.transition.stopped = tr.stopped ∧ t.report = b.report ∧ t.requests = b.requests ∧ t.link = b.link) ∧
       (∀ x, tr.inFlight = some x → staged → x.lamps.length ≤ 4 →
         (∀ y r, tr.pending = some y → b.store.scenes[y.scene]? = some (some r) → r.lamps.length ≤ 4) →
         slotReport b t x 11 ∧ sceneReport t.ram b.report.noticeCount x 3 x.carriedKind b.engine.live.scene ∧
         t.port.signal.notice = true) ∧
       (∀ x r, tr.inFlight = some x → unstaged → b.store.scenes[x.scene]? = some (some r) → b.store.mustWait r = false →
         r.lamps.length ≤ 4 →
         (∀ y r, tr.pending = some y → b.store.scenes[y.scene]? = some (some r) → r.lamps.length ≤ 4) →
         slotReport b t x 11 ∧ sceneReport t.ram b.report.noticeCount x 3 3 b.engine.live.scene ∧
         t.port.signal.notice = true) ∧
       (∀ x, tr.inFlight = some x → tr.pending = none → staged →
         t.engine.live.scene = b.engine.other.scene ∧ t.engine.live.role = .live ∧ t.engine.other = ⟨.idle, 255, []⟩ ∧
         (∃ moved stages, movedIn (unmarked b.engine.live.stages) (unmarked b.engine.other.stages) moved ∧
           lanesGiven [] moved stages ∧ t.engine.live.stages = stages.map (fun st => { st with carry := false })) ∧
         t.transition.stopped = tr.stopped ∧ t.input = b.input ∧ t.engine.tempoTarget = b.engine.tempoTarget ∧
         t.link = (b.handFrames (lamps x.lamps)).link) ∧
       (∀ x r, tr.inFlight = some x → tr.pending = none → unstaged → b.store.scenes[x.scene]? = some (some r) →
         (b.store.mustWait r = false →
           t.engine.live.scene = x.scene ∧ t.engine.live.role = .live ∧ t.engine.other = ⟨.idle, 255, []⟩ ∧
           (let beside := if tr.state = .staging ∧ x.kind.getD r.kind = .fade then loadOf b.engine.live.stages else 0
            copiedBank [] (if r.tempo = 0 then b.engine.tempoTarget else r.tempo)
              (overlayOn beside b.engine.overlay r.entries) t.engine.live.stages) ∧
           bringsFields b t r ∧ t.transition.stopped = tr.stopped ∧ t.link = (b.handFrames (lamps r.lamps)).link) ∧
         (b.store.mustWait r = true →
           t.transition.stopped = some { x with fromStop := true } ∧ t.engine.live.scene = b.engine.live.scene ∧
           t.input = b.input ∧ t.engine.tempoTarget = b.engine.tempoTarget ∧
           (tr.stopped = none → t.report = b.report ∧ t.requests = b.requests) ∧
           (tr.state = .dipOut → t.engine.other = ⟨.idle, 255, []⟩))) ∧
       (∀ x, tr.inFlight = some x → tr.pending = none → unstaged → (b.store.scenes[x.scene]?).join = none →
         t.engine.live.scene = b.engine.live.scene ∧ t.input = b.input ∧ t.transition.stopped = tr.stopped ∧
         slotReport b t x 8 ∧ sceneReport t.ram b.report.noticeCount x 2 x.carriedKind 255) ∧
       (∀ y r, tr.pending = some y → b.store.scenes[y.scene]? = some (some r) →
         (b.store.mustWait r = false →
           t.engine.live.scene = y.scene ∧ t.engine.live.role = .live ∧ t.engine.other = ⟨.idle, 255, []⟩ ∧
           copiedBank [] t.engine.tempoTarget r.entries t.engine.live.stages ∧
           (r.tempo ≠ 0 → t.engine.tempoTarget = r.tempo) ∧ (r.profile ≠ 255 → t.input.chosen = r.profile) ∧
           (tr.inFlight = none → bringsFields b t r ∧ t.transition.stopped = tr.stopped ∧
             (r.lamps.length ≤ 4 → slotReport b t y (if y.clamped then 1 else 0) ∧
               sceneReport t.ram b.report.noticeCount y 0 3 b.engine.live.scene ∧
               t.link = (b.handFrames (lamps r.lamps)).link)) ∧
           (∀ x, tr.inFlight = some x → staged → bringsFields b t r ∧ t.transition.stopped = tr.stopped ∧
             t.link = (b.handFrames (lamps x.lamps ++ lamps r.lamps)).link ∧
             (x.origin ≠ y.origin → x.lamps.length ≤ 4 → r.lamps.length ≤ 4 →
               slotReport b t y (if y.clamped then 1 else 0) ∧
               sceneReport t.ram ((b.handFrames (lamps x.lamps)).report.noticeCount + 1) y 0 3 b.engine.other.scene))) ∧
         (b.store.mustWait r = true → t.transition.stopped = some y ∧
           (tr.inFlight = none → t.engine.live.scene = b.engine.live.scene ∧ t.input = b.input))) ∧
       t.store = b.store ∧ t.tuner = b.tuner ∧ t.router = b.router ∧ t.requests.queue = b.requests.queue) ∧
  (∀ s : State, s.yetTo .restart →
     let b := s.before .restart
     b.engine.running = false → b.engine.runNext = true →
     ∃ t, exec .engineRestart s = .next t ∧ t.engine.running = true ∧ t.transition.startGain = 0 ∧
       t.engine.live.scene = b.engine.live.scene ∧ t.engine.live.role = b.engine.live.role ∧
       t.engine.live.stages.length = b.engine.live.stages.length ∧
       (∀ (p : Nat) (o : Stage), b.engine.live.stages[p]? = some o →
         ∃ st, t.engine.live.stages[p]? = some st ∧
           freshCopy b.engine.tempoTarget ⟨o.kind, o.enable, o.targets⟩ st ∧ (o.kind ≠ .none → st.lanes = o.lanes)) ∧
       t.engine.other = b.engine.other ∧ t.engine.tails = b.engine.tails ∧
       (b.transition.stopped = none → t.transition.state = b.transition.state ∧ t.transition.inFlight = b.transition.inFlight) ∧
       (∀ x, b.transition.stopped = some x → t.transition.stopped = none ∧ t.transition.state = .staging ∧
         t.transition.inFlight = some { x with fromStop := false }) ∧
       t.requests = b.requests ∧ t.port = b.port ∧ t.store = b.store ∧ t.input = b.input ∧ t.router = b.router)

/-- DIRECT_COPY (R138): the stopped select's record becomes LIVE, every instance fresh and every DELAY given lanes beside
those of the tail list; the old LIVE bank is released; the select finishes LIVE, or CUT_SHORT where it came from an engine
stop, with kind direct, and its lamp entries are handed on (R135; those of the record as it is copied, log 12). Every CATCH
assignment is uncaught (R154). A select whose entry is EMPTY finishes EMPTY and changes no bank; one whose record names a
LOADING slot waits. -/
def Obligations.DirectCopyMakesSceneLive : Prop :=
  ∀ (s : State) (x : Select), s.yetTo .directCopy →
    let b := s.before .directCopy
    let lamps := fun l : List LampEntry => l.map fun e => (⟨.lamp, e.unit, 15,
      [e.lamps.toNat % 128, e.lamps.toNat / 128, e.blink.toNat % 128, e.blink.toNat / 128]⟩ : MasterFrame)
    b.engine.running = false → b.engine.runNext = false → b.transition.acted = false → b.transition.stopped = some x →
    (∀ r, b.store.scenes[x.scene]? = some (some r) → b.store.mustWait r = false →
      ∃ t, exec .directCopy s = .next t ∧ t.transition.stopped = none ∧ t.engine.live.role = .live ∧
        t.engine.live.scene = x.scene ∧ t.engine.live.stages.length = r.stages.length ∧
        copiedBank (lanesOf (b.engine.tails.map (·.stage))) (if r.tempo = 0 then b.engine.tempoTarget else r.tempo) r.entries
          t.engine.live.stages ∧
        (∀ (p : Nat) (e : StageEntry), r.stages[p]? = some e → e.kind ≠ .none → ∃ st, t.engine.live.stages[p]? = some st ∧
          st.kind = e.kind ∧ st.enable = e.enable ∧ st.targets = e.params ∧ st.currents = e.params ∧
          st.ramp = if e.enable then .on else .off) ∧
        t.engine.other = ⟨.idle, 255, []⟩ ∧ t.engine.tails = b.engine.tails ∧ t.transition.liveWeight = 256 ∧
        t.transition.nextWeight = 0 ∧ bringsFields b t r ∧ t.store = b.store ∧ t.requests.queue = b.requests.queue ∧
        t.mapper = b.mapper.allUncaught ∧
        (s.memoryOk → s.requests.exact → r.lamps.length ≤ 4 →
          slotReport b t x (if x.fromStop then 11 else if x.clamped then 1 else 0) ∧
          sceneReport t.ram b.report.noticeCount x (if x.fromStop then 3 else 0) 3 b.engine.live.scene ∧
          t.port.signal.notice = true ∧ t.link = (b.handFrames (lamps r.lamps)).link)) ∧
    ((b.store.scenes[x.scene]?).join = none →
      ∃ t, exec .directCopy s = .next t ∧ t.transition.stopped = none ∧ t.engine = b.engine ∧ t.input = b.input ∧
        t.store = b.store ∧ t.link = b.link ∧ t.mapper = b.mapper ∧
        (s.memoryOk → s.requests.exact → slotReport b t x 8 ∧ sceneReport t.ram b.report.noticeCount x 2 x.carriedKind 255 ∧
          t.port.signal.notice = true ∧ t.report.noticeCount = b.report.noticeCount + 1)) ∧
    (∀ r, b.store.scenes[x.scene]? = some (some r) → b.store.mustWait r = true → exec .directCopy s = .next s)

/-! ## Edits -/

/-- SET_PARAM and SET_ENABLE (R21, R22): a refused edit changes nothing, and one that passes is written; a parameter
written makes the CATCH assignments of that parameter uncaught (R154). -/
def Obligations.EditRequestsWriteOrRefuse : Prop :=
  ∀ (s : State) (n : Nat) (rest : List Nat), s.memoryOk → s.headIs n rest →
    let t := takenAt s.ram n
    (t.kind = 11 →
      (∀ code, s.editParam t.arg0 t.arg1 t.arg2 t.arg3 = .refused code → completes .setParam s s n rest code .unstated) ∧
      (∀ v clamped u, s.editParam t.arg0 t.arg1 t.arg2 t.arg3 = .wrote v clamped u →
        completes .setParam s
          { u with mapper := { u.mapper with assignments := u.mapper.assignments.map fun a =>
              if a.action = .param ∧ a.takeover = true ∧ a.argument = t.arg0 ∧ (a.index : Int) = t.arg1 then
                { a with catching := .uncaught } else a } }
          n rest (if clamped then .okClamped else .ok) (.given v))) ∧
    (t.kind = 12 →
      (∀ code, s.editEnable t.arg0 t.arg1 t.arg2 = .refused code → completes .setEnable s s n rest code .unstated) ∧
      (∀ v clamped u, s.editEnable t.arg0 t.arg1 t.arg2 = .wrote v clamped u →
        completes .setEnable s u n rest (if clamped then .okClamped else .ok) (.given v)))

/-- The refusals of R21 and R22 (that a SET_PARAM which meets several gets RANGE before INVALID before IN_USE is the model's
choice, log 45), and the value written (R14, R19, R22): a target of the instance and its overlay entry, or the
enable flag and its entry (R9, R20); where an edit lands in each state of the
Transition Unit, that it replaces an overlay entry of its position and index, and that it touches nothing else (R19, R20).
The loads (R17) and the budget test, which a write that raises no load passes (R21, log 21); what an edit is checked against
in each state (R19, R20); and how a copy applies the overlay, entry by entry (R20). -/
def Obligations.EditsAreCheckedAndLand : Prop :=
  (∀ (s : State) (p i v k : Int),
     let view := s.editViews.getD p.toNat ⟨.none, false, List.replicate 8 0⟩
     (p < 0 ∨ 11 < p → s.editParam p i v k = .refused .range ∧ s.editEnable p v k = .refused .range) ∧
     (0 ≤ p → p ≤ 11 →
       (view.kind = .none → s.editParam p i v k = .refused .invalid ∧ s.editEnable p v k = .refused .invalid) ∧
       (view.kind ≠ .none →
         (k ≠ 0 → k ≠ view.kind.code → s.editEnable p v k = .refused .invalid) ∧
         (k = 0 ∨ k = view.kind.code → s.editEnable p v k =
           .wrote (if 0 < v then 1 else 0) (decide (v < 0 ∨ 1 < v)) (s.putEnable p.toNat (decide (0 < v)) view.kind)) ∧
         (i < 0 ∨ paramRule view.kind i.toNat = none → s.editParam p i v k = .refused .range) ∧
         (∀ rule, 0 ≤ i → paramRule view.kind i.toNat = some rule →
           let w := paramWritten view.kind i.toNat v
           let bad := k ≠ 0 ∧ k ≠ view.kind.code ∨ rule.cls = .fixed ∨ s.overBudget view i.toNat w.1 = true
           (bad → s.editParam p i v k = .refused .invalid) ∧
           (¬ bad → view.kind = .cab → i = 0 → s.store.loading w.1 = true → s.editParam p i v k = .refused .inUse) ∧
           (¬ bad → view.kind ≠ .cab ∨ i ≠ 0 ∨ s.store.loading w.1 = false →
             s.editParam p i v k = .wrote w.1 w.2 (s.putTarget p.toNat i.toNat w.1 view.kind)))))) ∧
  (∀ (s : State) (p i : Nat) (v : Int) (on : Bool) (k : Kind),
     s.putTarget p i v k = s.putEdit p (fun st => { st with targets := st.targets.set i v }) ⟨p, some i, v, k⟩ ∧
     s.putEnable p on k = s.putEdit p (fun st => { st with enable := on }) ⟨p, none, if on then 1 else 0, k⟩) ∧
  (∀ (s : State) (p : Nat) (f : Stage → Stage) (o : OverlayEntry),
     let t := s.putEdit p f o
     (∃ e, t = { s with engine := e }) ∧ t.engine.tails = s.engine.tails ∧ t.engine.tempoTarget = s.engine.tempoTarget ∧
     (s.transition.state = .idle →
       t.engine.live = { s.engine.live with stages := s.engine.live.stages.modify p f } ∧
       t.engine.other = s.engine.other ∧ t.engine.overlay = s.engine.overlay) ∧
     (s.transition.state = .staging →
       t.engine.live = s.engine.live ∧ t.engine.other = s.engine.other ∧ o ∈ t.engine.overlay ∧
       (∀ x, x ∈ t.engine.overlay → x = o ∨ x ∈ s.engine.overlay) ∧
       (∀ x, x ∈ s.engine.overlay → x.key ≠ o.key → x ∈ t.engine.overlay) ∧
       (∀ x, x ∈ t.engine.overlay → x.position = o.position → x.index = o.index → x = o) ∧
       (s.engine.overlay.Pairwise (fun x y => x.key < y.key) → t.engine.overlay.Pairwise fun x y => x.key < y.key)) ∧
     (s.transition.state = .fading ∨ s.transition.state = .dipOut ∨ s.transition.state = .dipIn →
       t.engine.other = { s.engine.other with stages := s.engine.other.stages.modify p f } ∧
       t.engine.live = s.engine.live ∧ t.engine.overlay = s.engine.overlay)) ∧
  (∀ x y : OverlayEntry, (∀ i, x.index = some i → i < 8) → (∀ i, y.index = some i → i < 8) →
     let place := fun o : OverlayEntry => (o.index.map (· + 1)).getD 0 -- the enable flag first, then the indices
     (x.key < y.key ↔ x.position < y.position ∨ x.position = y.position ∧ place x < place y)) ∧
  (∀ ps : List Int,
     kindLoad .none ps = 0 ∧ kindLoad .gate ps = 8 ∧ kindLoad .comp ps = 16 ∧
     kindLoad .amp ps = 96 + (if ps.getD 3 0 = 255 then 0 else 8 * ps.getD 4 0) ∧ kindLoad .eq ps = 8 * ps.getD 1 0 ∧
     kindLoad .cab ps = ps.getD 1 0 / 4 ∧ kindLoad .mod ps = 24 ∧ kindLoad .delay ps = 24 ∧ kindLoad .vol ps = 2) ∧
  (∀ (s : State) (p i : Nat) (v beside : Int) (view : EditView), s.editViews[p]? = some view →
     let tr := s.transition
     let after := { view with targets := view.targets.set i v }
     let asFade := ∃ x, tr.inFlight = some x ∧ (x.kind = some .fade ∨
       x.kind = none ∧ ∃ r, s.store.scenes[x.scene]? = some (some r) ∧ r.kind = .fade)
     let together := tr.state = .fading ∨ tr.state = .staging ∧ asFade
     (together → beside = loadOf s.engine.live.stages) → (¬ together → beside = 0) →
     (s.overBudget view i v = true ↔ kindLoad view.kind view.targets < kindLoad after.kind after.targets ∧
       1000 < entriesLoad (s.editViews.set p after) + beside + loadOf (s.engine.tails.map (·.stage)))) ∧
  (∀ s : State,
     let seen := fun st : Stage => (⟨st.kind, st.enable, st.targets⟩ : EditView)
     (s.transition.state = .idle → s.editViews = s.engine.live.stages.map seen) ∧
     (s.transition.state = .fading ∨ s.transition.state = .dipOut ∨ s.transition.state = .dipIn →
       s.editViews = s.engine.other.stages.map seen) ∧
     (∀ x r, s.transition.state = .staging → s.transition.inFlight = some x → s.store.scenes[x.scene]? = some (some r) →
       s.engine.overlay.Pairwise (fun x y => x.key < y.key) →
       s.editViews.length = r.stages.length ∧
       ∀ p e, r.stages[p]? = some e → ∃ v, s.editViews[p]? = some v ∧ v.kind = e.kind ∧
         (let here := fun o : OverlayEntry => o ∈ s.engine.overlay ∧ o.position = p ∧ o.kind = e.kind
          (∀ o, here o → o.index = none → v.enable = (o.value == 1)) ∧
          ((∀ o, here o → o.index ≠ none) → v.enable = e.enable) ∧ v.targets.length = e.params.length ∧
          (∀ o i, here o → o.index = some i → i < e.params.length → v.targets[i]? = some o.value) ∧
          ∀ i, (∀ o, here o → o.index ≠ some i) → v.targets[i]? = e.params[i]?))) ∧
  (∀ (beside : Int) (views : List EditView) (o : OverlayEntry) (rest : List OverlayEntry),
     overlayOn beside [] views = views ∧
     overlayOn beside (o :: rest) views = overlayOn beside rest (overlayEntryOn beside views o) ∧
     (∀ v, views[o.position]? = some v →
       let after := match o.index with
         | none => { v with enable := o.value == 1 }
         | some i => { v with targets := v.targets.set i o.value }
       let tooHeavy := kindLoad v.kind v.targets < kindLoad after.kind after.targets ∧
         1000 < entriesLoad (views.set o.position after) + beside
       (o.kind ≠ v.kind ∨ tooHeavy → overlayEntryOn beside views o = views) ∧
       (o.kind = v.kind → ¬ tooHeavy → overlayEntryOn beside views o = views.set o.position after)))

/-! ## Router -/

/-- SET_ROUTE (R67, 11.4): the refusals, and the clamped route handed to the crossfade of its sink. That a request which
meets both refusals gets RANGE, the first listed, is the model's reading (DEDUCED, log 45). -/
def Obligations.SetRouteHandsRouteToSink : Prop :=
  ∀ (s : State) (n : Nat) (rest : List Nat), s.memoryOk → s.headIs n rest →
    let t := takenAt s.ram n
    let source := fun a : Int => argBits a % 256
    let level := fun a : Int => signedOf 8 (argBits a / 256 % 256)
    let pan := fun a : Int => signedOf 8 (argBits a / 65536 % 256)
    let args := [t.arg1, t.arg2, t.arg3]
    let entry := fun a : Int => (⟨(Source.ofCode (source a)).getD .off, max (-96) (min 24 (level a)),
      max (-64) (min 64 (pan a))⟩ : RouteEntry)
    let clamped := args.any fun a => decide (level a < -96 ∨ 24 < level a ∨ pan a < -64 ∨ 64 < pan a)
    let code : Result := if clamped then .okClamped else .ok
    t.kind = 14 →
    (t.arg0 < 0 ∨ 2 < t.arg0 ∨ (∃ a, a ∈ args ∧ 4 < source a) →
      completes .setRoute s s n rest .range (.given t.arg0)) ∧
    (0 ≤ t.arg0 → t.arg0 ≤ 2 → (∀ a, a ∈ args → source a ≤ 4) →
      (t.arg0 ≠ 2 → (∃ a, a ∈ args ∧ source a = 4) → completes .setRoute s s n rest .invalid (.given t.arg0)) ∧
      (t.arg0 = 2 ∨ (∀ a, a ∈ args → source a ≠ 4) →
        (t.arg0 = 0 → completes .setRoute s
          { s with router := { s.router with main := { s.router.main with waiting := some (args.map entry) } } }
          n rest code (.given 0)) ∧
        (t.arg0 = 1 → completes .setRoute s
          { s with router := { s.router with stage := { s.router.stage with waiting := some (args.map entry) } } }
          n rest code (.given 1)) ∧
        (t.arg0 = 2 → completes .setRoute s
          { s with router := { s.router with phones := { s.router.phones with waiting := some (args.map entry) } } }
          n rest code (.given 2))))

/-- ROUTE_CROSSFADE_START and ROUTE_CROSSFADE_END (R68, R69): a route handed to an IDLE sink starts its crossfade; after the
eighth block the incoming route is the route of the sink. Each sink moves alone. -/
def Obligations.RouteCrossfadesStartAndEnd : Prop :=
  let started := fun (k k' : Sink) =>
    (∀ r, k.fade = none → k.waiting = some r → k' = { k with fade := some ⟨r, 0⟩, waiting := none }) ∧
    ((k.fade ≠ none ∨ k.waiting = none) → k' = k)
  let ended := fun (k k' : Sink) =>
    (∀ f, k.fade = some f → 256 ≤ f.samples → k' = { k with route := f.incoming, fade := none }) ∧
    ((∀ f, k.fade = some f → f.samples < 256) → k' = k)
  (∀ s : State, s.yetTo .routeStart →
    let b := s.before .routeStart
    let r := b.router
    ((r.main.fade = none ∧ r.main.waiting ≠ none) ∨ (r.stage.fade = none ∧ r.stage.waiting ≠ none) ∨
      (r.phones.fade = none ∧ r.phones.waiting ≠ none)) →
    ∃ t, exec .routeCrossfadeStart s = .next t ∧ started r.main t.router.main ∧ started r.stage t.router.stage ∧
      started r.phones t.router.phones ∧
      b.onlyBlocks { b with
        router := { r with main := t.router.main, stage := t.router.stage, phones := t.router.phones }
        grid := t.grid } t) ∧
  (∀ s : State, s.yetTo .routeEnd →
    let b := s.before .routeEnd
    let r := b.router
    (∃ k f, (k = r.main ∨ k = r.stage ∨ k = r.phones) ∧ k.fade = some f ∧ 256 ≤ f.samples) →
    ∃ t, exec .routeCrossfadeEnd s = .next t ∧ ended r.main t.router.main ∧ ended r.stage t.router.stage ∧
      ended r.phones t.router.phones ∧
      b.onlyBlocks { b with
        router := { r with main := t.router.main, stage := t.router.stage, phones := t.router.phones }
        grid := t.grid } t)

/-- The mute gains, the trim current and the start gain move toward their goals by at most their step at a block start (R60,
R72, R139). What a block start does to a stage instance: its ramp state (R12), its currents (R15), the times of a DELAY (R15,
R25; that the target time follows the parameters' targets at this block start is the model's choice, DEDUCED in log 10 against
the order of R9 and R25's 'current time mode'), its clearing as it is switched on (R8, R13; with the currents moved, log 11),
and the sections it no longer uses (R45; in OFF too, log 39). What clearing sets (R8). The engine's work moves every instance
of the banks and of the tail list, and none while RUN is clear (R10); the weights of the block that begins (R126 to R129). -/
def Obligations.GainsMoveByBoundedSteps : Prop :=
  (∀ (r : Router) (t : Tuner), r.mainMute ≤ 256 → r.phonesMute ≤ 256 →
    let muted := t.state ≠ .off ∧ t.mode = .mute
    let r' := r.muteWork t
    r'.mainMutePrev = r.mainMute ∧ r'.phonesMutePrev = r.phonesMute ∧
    (muted → r'.mainMute = r.mainMute - 32) ∧ (¬ muted → r'.mainMute = min 256 (r.mainMute + 32)) ∧
    (muted ∧ t.phonesMute = true → r'.phonesMute = r.phonesMute - 32) ∧
    (¬ (muted ∧ t.phonesMute = true) → r'.phonesMute = min 256 (r.phonesMute + 32))) ∧
  (∀ i : InputSection,
    (i.trimCurrent < i.trimGoal → i.moveTrim.trimCurrent = i.trimCurrent + 1) ∧
    (i.trimGoal < i.trimCurrent → i.moveTrim.trimCurrent = i.trimCurrent - 1) ∧
    (i.trimCurrent = i.trimGoal → i.moveTrim.trimCurrent = i.trimCurrent)) ∧
  (∀ s : State, s.engine.running = true → s.transition.startGain ≤ 256 →
    s.engineWork.transition.startGain = min 256 (s.transition.startGain + 32) ∧
    s.engineWork.transition.startGainPrev = s.transition.startGain ∧ s.engineWork.engine.tempo = s.engine.tempoTarget) ∧
  (∀ (tempo : Nat) (st : Stage), st.kind ≠ .none → st.placeholder = false →
    let st' := st.atBlockStart tempo
    let target := fun i => st.targets.getD i 0
    let current := fun i => st'.currents.getD i 0
    let used := match st.kind with
      | .amp => if current 3 = 255 then 0 else (current 4).toNat
      | .eq => (current 1).toNat
      | _ => 0
    st'.kind = st.kind ∧ st'.enable = st.enable ∧ st'.targets = st.targets ∧ st'.lanes = st.lanes ∧ st'.carry = st.carry ∧
    st'.tailMode = st.tailMode ∧ st'.placeholder = false ∧
    st'.ramp = (match st.ramp, st.enable with
      | .off, true => .rampOn | .off, false => .off | .rampOn, true => .on | .rampOn, false => .rampOff
      | .on, true => .on | .on, false => .rampOff | .rampOff, true => .rampOn | .rampOff, false => .off) ∧
    (∀ i r, paramRule st.kind i = some r →
      let c := st.currents.getD i 0
      (r.cls = .immediate ∨ r.cls = .fixed → current i = target i) ∧
      (r.cls = .level ∨ r.cls = .percent → (c < target i → current i = c + 1) ∧ (target i < c → current i = c - 1) ∧
        (c = target i → current i = c))) ∧
    (st.kind ≠ .delay → st'.delayTarget = st.delayTarget ∧ st'.delayCurrent = st.delayCurrent) ∧
    (st.kind = .delay →
      let last := 49152 * target 3 - 1
      let goal := st'.delayTarget
      (target 0 = 0 → goal = min (target 1 * 48) last) ∧
      (target 0 ≠ 0 → ∀ num den : Int, (target 2, num, den) ∈ [((0 : Int), (1 : Int), (1 : Int)), (1, 3, 4), (2, 1, 2),
          (3, 1, 3), (4, 1, 4)] →
        goal = min ((2 * (28800000 * num) + tempo * den) / (2 * (tempo * den))) last) ∧
      (st.delayCurrent ≤ goal → st'.delayCurrent = min goal (st.delayCurrent + 48)) ∧
      (goal ≤ st.delayCurrent → st'.delayCurrent = max goal (st.delayCurrent - 48))) ∧
    (st.ramp = .off → st.enable = true → st'.state = clearedState st.kind st'.currents ∧
      st'.factors = factorsOf st.kind st'.currents st'.state) ∧
    (st.ramp ≠ .off ∨ st.enable = false → st'.factors = st.factors ∧
      ((∀ hs, st.state ≠ .sections hs) → st'.state = st.state) ∧
      (∀ hs, st.state = .sections hs → ∃ hs', st'.state = .sections hs' ∧ hs'.length = hs.length ∧
        ∀ (i : Nat) (h : History), hs[i]? = some h → hs'[i]? = some (if i < used then h else ⟨0, 0, 0, 0⟩)))) ∧
  (∀ cs : List Int,
    let rest : History := ⟨0, 0, 0, 0⟩
    clearedState .gate cs = .gate .closed (cs.getD 5 0) 0 ∧ clearedState .comp cs = .comp 0 ∧
    clearedState .eq cs = .sections [rest, rest, rest, rest] ∧ clearedState .amp cs = .sections [rest, rest, rest, rest] ∧
    clearedState .cab cs = .cab [] ∧ clearedState .mod cs = .mod [] 0 0 ∧ clearedState .delay cs = .delay [] 0) ∧
  (∀ s : State,
    let t := s.engineWork
    let tr := s.transition
    let moved := fun l : List Stage => if s.engine.running then l.map (Stage.atBlockStart s.engine.tempoTarget) else l
    let part := 256 * tr.count / tr.phaseLength
    t.engine.bankA.stages = moved s.engine.bankA.stages ∧ t.engine.bankB.stages = moved s.engine.bankB.stages ∧
    t.engine.tails.map (·.stage) = moved (s.engine.tails.map (·.stage)) ∧
    (s.engine.running = false → t.transition = tr) ∧
    (s.engine.running = true →
      t.transition.liveWeight = tr.liveWeight ∧ t.transition.nextWeight = tr.nextWeight ∧
      (tr.state = .idle ∨ tr.state = .staging → t.transition.liveNew = 256 ∧ t.transition.nextNew = 0) ∧
      (tr.state = .fading → t.transition.liveNew = 256 - part ∧ t.transition.nextNew = part) ∧
      (tr.state = .dipOut → t.transition.liveNew = 256 - part ∧ t.transition.nextNew = 0) ∧
      (tr.state = .dipIn → t.transition.liveNew = 0 ∧ t.transition.nextNew = part)))

/-! ## Tuner -/

/-- TUNER (R87, R97): the two actions in each state, with their clamps, the result code and the value; a reading of state
LISTEN is handed on at an engage from OFF, and one of state OFF at a disengage (R102), which changes the link, and beside it
only the notices of frames that are dropped (R174). -/
def Obligations.TunerEngagesAndDisengages : Prop :=
  ∀ (s : State) (n : Nat) (rest : List Nat), s.memoryOk → s.headIs n rest →
    let t := takenAt s.ram n
    let tone := if t.arg3 = 0 then 0 else if t.arg3 < 0 then 0 else (max 28 (min 96 t.arg3)).toNat
    let toneClamped := t.arg3 ≠ 0 ∧ (t.arg3 < 28 ∨ 96 < t.arg3)
    let set := { s.tuner with mode := if t.arg1 = 0 then .mute else .live, phonesMute := decide (t.arg2 ≠ 0), toneNote := tone }
    let engaged := { set with state := .listen, engaged := true }
    let off := { s.tuner with
      state := .off, run := [], accepted := [], tunedMark := false, lockedWindows := 0, collecting := false, engaged := false }
    let engageCode : Result := if 1 < t.arg0 ∨ toneClamped then .okClamped else .ok
    let offCode : Result := if t.arg0 < 0 then .okClamped else .ok
    let handed := fun (x : Tuner) (state : Nat) =>
      State.handFrames { s with tuner := x } (readingFrames s.link.units (state, 0, 0))
    t.kind = 15 →
    (1 ≤ t.arg0 → t.arg1 ≠ 0 → t.arg1 ≠ 1 → completes .tunerEngage s s n rest .invalid (.given s.tuner.state.code)) ∧
    (1 ≤ t.arg0 → t.arg1 = 0 ∨ t.arg1 = 1 →
      (s.tuner.state ≠ .off → completes .tunerEngage s { s with tuner := set } n rest engageCode
        (.given s.tuner.state.code)) ∧
      (s.tuner.state = .off → completesFrom .tunerEngage s (handed engaged 1) n rest engageCode (.given 1) ∧
        ((∀ u, u ∈ s.link.units → u.state = .present → u.enabled = true → u.display = false) →
          completes .tunerEngage s { s with tuner := engaged } n rest engageCode (.given 1)))) ∧
    (t.arg0 < 1 →
      (s.tuner.state = .off → completes .tunerDisengage s s n rest offCode (.given 0)) ∧
      (s.tuner.state ≠ .off → completesFrom .tunerDisengage s (handed off 0) n rest offCode (.given 0) ∧
        ((∀ u, u ∈ s.link.units → u.state = .present → u.enabled = true → u.display = false) →
          completes .tunerDisengage s { s with tuner := off } n rest offCode (.given 0))))

/-- TUNER_WINDOW_END (R91, R94, R97, R100): the history is analysed, the count restarts, and the last estimate is the
window's; how the window moves each state (R96 to R98), LISTEN and HOLD on a window without an estimate among them, with the
entry into LOCKED, the readings that LOCKED accepts and the display they form; the TUNED notice (R100), and after it the
reading that is handed on (R102); nothing else changes. That a conclusive window in LISTEN leaves the hold counter 0 is the
model's choice (log 47). TUNER_HOLD_EXPIRY (R98): the 47th window of a hold that is not conclusive ends it. The class of a
window: the signal test (R92), the detector and the crossings sample by sample (R93), and the estimate (R94). -/
def Obligations.TunerWindowEndAnalyses : Prop :=
  (∀ s : State, s.yetTo .window →
     let b := s.before .window
     let w := classify b.tuner.history.reverse
     b.tuner.state ≠ .off → b.tuner.collecting = true → b.grid.opened = true →
     (if b.tuner.windowed then 32 ≤ min 64 (b.tuner.windowCount + 1) else 2048 ≤ b.tuner.history.length) →
     ∃ t, exec .tunerWindowEnd s = .next t ∧ t.tuner.windowCount = 0 ∧ t.tuner.windowed = true ∧
       t.tuner.history = b.tuner.history ∧ t.tuner.reference = b.tuner.reference ∧ t.tuner.mode = b.tuner.mode ∧
       (∀ p, w = .conclusive p → t.tuner.lastEstimate = p) ∧
       (w = .noSignal ∨ w = .inconclusive → t.tuner.lastEstimate = 0) ∧
       (w = .noSignal → b.tuner.state = .locked → t.tuner.state = .hold ∧ t.tuner.shownNote = b.tuner.shownNote ∧
         t.tuner.shownCents = b.tuner.shownCents ∧ t.tuner.accepted = [] ∧ t.tuner.holdCount = 0) ∧
       (w = .inconclusive → b.tuner.state = .locked → t.tuner.state = .locked ∧ t.tuner.accepted = b.tuner.accepted ∧
         t.tuner.shownNote = b.tuner.shownNote ∧ t.tuner.shownCents = b.tuner.shownCents ∧
         t.tuner.lockedWindows = min 65535 (b.tuner.lockedWindows + 1)) ∧
       (w = .noSignal → b.tuner.state = .acquire → t.tuner.state = .listen ∧ t.tuner.run = []) ∧
       (w = .inconclusive → b.tuner.state = .acquire → t.tuner.state = .acquire ∧ t.tuner.run = []) ∧
       (w = .noSignal ∨ w = .inconclusive → b.tuner.state = .listen → t.tuner.state = .listen ∧
         t.tuner.run = b.tuner.run ∧ t.tuner.shownNote = b.tuner.shownNote ∧ t.tuner.shownCents = b.tuner.shownCents) ∧
       (w = .noSignal ∨ w = .inconclusive → b.tuner.state = .hold → b.tuner.holdCount < 46 → t.tuner.state = .hold ∧
         t.tuner.holdCount = b.tuner.holdCount + 1 ∧ t.tuner.shownNote = b.tuner.shownNote ∧
         t.tuner.shownCents = b.tuner.shownCents) ∧
       (∀ p, w = .conclusive p → b.tuner.state = .listen ∨ b.tuner.state = .hold →
         t.tuner.state = .acquire ∧ t.tuner.run = [readingOf (readingT p b.tuner.reference)] ∧ t.tuner.holdCount = 0) ∧
       (∀ p, w = .conclusive p → b.tuner.state = .acquire →
         let r := readingOf (readingT p b.tuner.reference)
         let run := (b.tuner.run ++ [r]).drop (b.tuner.run.length - 2) -- the last three
         let same := ∃ q, b.tuner.run.getLast? = some q ∧ q.note = r.note
         let agree := fun x y z : Reading => max x.t (max y.t z.t) - min x.t (min y.t z.t) ≤ 60
         (¬ same → t.tuner.state = .acquire ∧ t.tuner.run = [r]) ∧
         (same → (∀ x y z, run = [x, y, z] → ¬ agree x y z) → t.tuner.state = .acquire ∧ t.tuner.run = run) ∧
         (same → ∀ x y z, run = [x, y, z] → agree x y z →
           t.tuner.state = .locked ∧ t.tuner.accepted = [x.t, y.t, z.t] ∧ t.tuner.run = [] ∧ t.tuner.holdCount = 0 ∧
           t.tuner.lockedWindows = 1 ∧ t.tuner.shownNote = r.note ∧
           t.tuner.shownCents = (2 * (x.t + y.t + z.t) + 3) / 6 - 1000 * (r.note - 69))) ∧
       (∀ p, w = .conclusive p → b.tuner.state = .locked →
         let r := readingOf (readingT p b.tuner.reference)
         let near := r.note = b.tuner.shownNote ∧
           (r.t - (b.tuner.shownCents + 1000 * (b.tuner.shownNote - 69))).natAbs ≤ 200
         (near → t.tuner.state = .locked ∧ t.tuner.accepted = b.tuner.accepted.drop 1 ++ [r.t] ∧
           t.tuner.lockedWindows = min 65535 (b.tuner.lockedWindows + 1) ∧ t.tuner.shownNote = r.note ∧
           ∀ x y z, t.tuner.accepted = [x, y, z] →
             t.tuner.shownCents = (2 * (x + y + z) + 3) / 6 - 1000 * (r.note - 69)) ∧
         (¬ near → t.tuner.state = .acquire ∧ t.tuner.run = [r] ∧ t.tuner.accepted = [] ∧ t.tuner.lockedWindows = 0 ∧
           t.tuner.tunedMark = false)) ∧
       (let first := t.tuner.state = .locked ∧ t.tuner.shownCents.natAbs ≤ 10 ∧
          (b.tuner.state = .locked → b.tuner.tunedMark = false)
        let tuned : Notice :=
          ⟨7, 5, 0, [t.tuner.shownNote, t.tuner.shownCents, b.tuner.reference, t.tuner.lockedWindows]⟩
        let moved := { b with tuner := t.tuner }
        let frames := readingFrames b.link.units t.tuner.reads
        t.link = (b.handFrames frames).link ∧
        (first → t.tuner.tunedMark = true ∧ t = { State.handFrames (State.notify moved tuned) frames with grid := t.grid }) ∧
        (¬ first → t = { State.handFrames moved frames with grid := t.grid }) ∧
        (s.memoryOk → (∀ u, u ∈ b.link.units → u.state = .present → u.enabled = true → u.display = false) →
          (first → t.report.noticeCount = b.report.noticeCount + 1 ∧ t.port.signal.notice = true ∧
            noticeStands t.ram b.report.noticeCount tuned) ∧
          (¬ first → t.report = b.report ∧ t.ram = b.ram))) ∧
       t.engine = b.engine ∧ t.transition = b.transition ∧ t.input = b.input ∧ t.router = b.router ∧ t.store = b.store) ∧
  (∀ s : State, s.yetTo .window →
     let b := s.before .window
     b.tuner.state = .hold → b.tuner.holdCount = 46 → b.tuner.collecting = true → b.grid.opened = true →
     (if b.tuner.windowed then 32 ≤ min 64 (b.tuner.windowCount + 1) else 2048 ≤ b.tuner.history.length) →
     (∀ p, classify b.tuner.history.reverse ≠ .conclusive p) →
     ∃ t, exec .tunerHoldExpiry s = .next t ∧ t.tuner.state = .listen ∧ t.tuner.holdCount = 0 ∧ t.tuner.shownNote = 0 ∧
       t.tuner.shownCents = 0 ∧ t.tuner.windowCount = 0 ∧ t.engine = b.engine ∧ t.router = b.router ∧ t.store = b.store ∧
       t.link = (b.handFrames (readingFrames b.link.units (1, 0, 0))).link) ∧
  (∀ window : List Int,
     let found := estimate (differences (crossingsOf window))
     (100 < peakCode (blockPeak window) → classify window = .noSignal) ∧
     (peakCode (blockPeak window) ≤ 100 → (∀ p, found = some p → classify window = .conclusive p) ∧
       (found = none → classify window = .inconclusive))) ∧
  ((∀ window : List Int, crossingsOf window = (window.foldl Scan.step ⟨.unset, 0, 0, 0, []⟩).crossings.reverse) ∧
   (∀ (c : Scan) (x : Int),
     let c' := c.step x
     let d := x - c.before
     c'.index = c.index + 1 ∧ c'.before = x ∧
     (x < -32768 → c'.detector = .low) ∧ (32768 < x → c'.detector = .high) ∧
     (-32768 ≤ x → x ≤ 32768 → c'.detector = c.detector) ∧
     (c.before < 0 → 0 ≤ x → c'.rise = 16 * ((c.index : Int) - 1) + (32 * (-c.before) + d) / (2 * d)) ∧
     (0 ≤ c.before ∨ x < 0 → c'.rise = c.rise) ∧
     (c.detector = .low → 32768 < x → c'.crossings = c'.rise :: c.crossings) ∧
     (c.detector ≠ .low ∨ x ≤ 32768 → c'.crossings = c.crossings)) ∧
   differences [] = [] ∧ (∀ x : Int, differences [x] = []) ∧
   (∀ (x y : Int) (rest : List Int), differences (x :: y :: rest) = (y - x) :: differences (y :: rest))) ∧
  (∀ (intervals ordered : List Int), ordered.Perm intervals → ordered.Pairwise (fun x y => x ≤ y) →
     let n := intervals.length
     let median := ordered.getD ((n - 1) / 2) 0
     let cluster := intervals.filter fun i => decide (100 * ((i - median).natAbs : Int) ≤ 3 * median)
     let k := cluster.length
     let p := (2 * cluster.sum + k) / (2 * k)
     (n < 2 → estimate intervals = none) ∧
     (2 ≤ n → 10 * k < 6 * n → estimate intervals = none) ∧
     (2 ≤ n → 6 * n ≤ 10 * k → (p < 512 ∨ 15360 < p → estimate intervals = none) ∧
       (512 ≤ p → p ≤ 15360 → estimate intervals = some p.toNat)))

/-- R95: t is the rounding, halves up, of 12000 × log2(7680000 / (P16 × r)), said by the powers of 2 on either side of its
double; note and cents10 follow from t. -/
def Obligations.TunerReadingRule : Prop :=
  (∀ p16 r : Nat, 512 ≤ p16 → p16 ≤ 15360 → 4000 ≤ r → r ≤ 4800 →
    let t := readingT p16 r
    let above := fun k : Int => -- 2^k ≤ (7680000 / (p16 × r))^24000
      2 ^ k.toNat * (p16 * r) ^ 24000 ≤ 2 ^ (-k).toNat * 7680000 ^ 24000
    above (2 * t - 1) ∧ ¬ above (2 * t + 1)) ∧
  (∀ t : Int,
    let x := readingOf t
    x.t = t ∧ x.note = 69 + (t + 500) / 1000 ∧ x.cents10 = t - 1000 * (x.note - 69) ∧ -500 ≤ x.cents10 ∧ x.cents10 ≤ 499) ∧
  readingOf (-28980) = ⟨-28980, 40, 20⟩ ∧ readingOf (-23981) = ⟨-23981, 45, 19⟩ ∧ readingOf 5 = ⟨5, 69, 5⟩

/-! ## Control Mapper -/

/-- SET_ASSIGN (R147, 11.3): the refusals by the first field at fault, with its code; and the assignment written whole, with
its clamps (min and max are clamped and not rounded, log 34), what marks it as clamped, and every field that its action does
not use at 0; and where the image has its fields. -/
def Obligations.SetAssignWritesAssignment : Prop :=
  (∀ (s : State) (n : Nat) (rest : List Nat), s.memoryOk → s.headIs n rest →
    let t := takenAt s.ram n
    let image := assignImage (readBytes s.ram t.offset 32)
    t.kind = 16 → (BufferNeed.exactly 32).passes t = true →
    (t.arg0 < 0 ∨ 31 < t.arg0 → completes .setAssign s s n rest .range (.given (65535 * 65536))) ∧
    (0 ≤ t.arg0 → t.arg0 ≤ 31 →
      (∀ f, image.fault = some f → completes .setAssign s s n rest f.2 (.given (65535 * 65536 + (f.1 : Int)))) ∧
      (image.fault = none →
        completes .setAssign s
          { s with mapper := { s.mapper with
              assignments := s.mapper.assignments.set t.arg0.toNat image.assignment.1 } } n rest
          (if image.assignment.2 then .okClamped else .ok) (.given t.arg0)))) ∧
  (∀ x : AssignImage,
    let param := x.action = 3
    let rule := paramRule ((Kind.ofCode x.kind).getD .none) x.index
    let bad := fun f : Nat =>
      (f = 1 ∧ 1 < x.scope) ∨ (f = 2 ∧ x.scope = 1 ∧ 127 < x.scopeScene) ∨ (f = 3 ∧ (x.unit < 1 ∨ 15 < x.unit)) ∨
      (f = 4 ∧ 4 < x.trigger) ∨ (f = 5 ∧ (x.trigger = 4 ∧ 3 < x.control ∨ x.trigger < 4 ∧ 13 < x.control)) ∨
      (f = 6 ∧ (7 < x.action ∨ param ∧ x.trigger ≠ 4 ∨ x.trigger = 4 ∧ ¬ param)) ∨
      (f = 7 ∧ (x.action = 0 ∧ (x.argument < 0 ∨ 127 < x.argument) ∨
        (x.action = 2 ∨ x.action = 3) ∧ (x.argument < 0 ∨ 11 < x.argument) ∨
        x.action = 6 ∧ (x.argument < 0 ∨ 7 < x.argument) ∨ x.action = 1 ∧ x.argument = 0)) ∨
      (f = 8 ∧ (1 < x.policy ∨ x.policy = 1 ∧ x.action ≠ 0 ∧ x.action ≠ 1)) ∨ (f = 9 ∧ x.policy = 1 ∧ 1 < x.default) ∨
      (f = 10 ∧ param ∧ (x.kind < 1 ∨ 8 < x.kind)) ∨
      (f = 11 ∧ param ∧ (rule = none ∨ ∃ r, rule = some r ∧ r.cls = .fixed)) ∨
      (f = 12 ∧ param ∧ 2 < x.curve) ∨ (f = 13 ∧ param ∧ 1 < x.takeover)
    let code := fun f : Nat =>
      if f = 2 ∨ f = 3 ∨ f = 5 ∨ (f = 7 ∧ x.action ≠ 1) ∨ (f = 11 ∧ rule = none) then Result.range else .invalid
    let a := x.assignment.1
    (∀ f c, x.fault = some (f, c) ↔ bad f ∧ (∀ g, g < f → ¬ bad g) ∧ c = code f) ∧
    (x.fault = none →
      a.catching = .uncaught ∧ a.unit = x.unit ∧ a.control = x.control ∧ a.trigger.code = x.trigger ∧
      Action.ofCode x.action = some a.action ∧ (a.enabled = true ↔ 0 < x.enabled) ∧
      a.scope = (if x.scope = 1 then some x.scopeScene else none) ∧
      a.refer = (if x.policy = 1 then some (decide (x.default = 0)) else none) ∧
      a.argument = (if x.action = 1 then (if 0 < x.argument then 1 else -1)
        else if x.action = 0 ∨ x.action = 2 ∨ x.action = 3 ∨ x.action = 6 then x.argument else 0) ∧
      (¬ param → a.kind = .none ∧ a.index = 0 ∧ a.min = 0 ∧ a.max = 0 ∧ a.curve = .linear ∧ a.takeover = false) ∧
      (param → a.index = x.index ∧ Kind.ofCode x.kind = some a.kind ∧ (a.takeover = true ↔ x.takeover = 1) ∧
        PedalCurve.ofCode x.curve = some a.curve ∧
        (∀ r, rule = some r →
          let clamp := fun v : Int => if x.kind = 3 ∧ x.index = 3 ∧ 16 ≤ v ∧ v ≤ 254 then 15 else max r.lo (min r.hi v)
          a.min = clamp x.min ∧ a.max = clamp x.max)) ∧
      (x.assignment.2 = true ↔
        x.enabled < 0 ∨ 1 < x.enabled ∨ (x.action = 1 ∧ (x.argument < -1 ∨ 1 < x.argument)) ∨
        (param ∧ (a.min ≠ x.min ∨ a.max ≠ x.max))))) ∧
  (∀ image : List Byte, image.length = 32 →
    let byte := fun i => (image.getD i 0).toNat
    let word := fun i => signedOf 32 (byte i + 256 * byte (i + 1) + 65536 * byte (i + 2) + 16777216 * byte (i + 3))
    assignImage image =
      { enabled := signedOf 8 (byte 0x00), scope := byte 0x01, scopeScene := byte 0x02, unit := byte 0x03,
        control := byte 0x04, trigger := byte 0x05, action := byte 0x06, argument := signedOf 8 (byte 0x07),
        policy := byte 0x08, default := byte 0x09, kind := byte 0x0A, index := byte 0x0B, curve := byte 0x0C,
        takeover := byte 0x0D, min := word 0x10, max := word 0x14 })

/-- R148: CLEAR_ASSIGN disables the assignment with every field at 0 and the catch state UNCAUGHT; a disabled assignment
matches no event; nothing else changes, a pending referral included. -/
def Obligations.ClearAssignDisables : Prop :=
  ∀ (s : State) (n : Nat) (rest : List Nat), s.memoryOk → s.headIs n rest →
    let t := takenAt s.ram n
    let cleared : Assignment :=
      { enabled := false, scope := none, unit := 0, control := 0, trigger := .press, action := .scene, argument := 0,
        refer := none, kind := .none, index := 0, min := 0, max := 0, curve := .linear, takeover := false,
        catching := .uncaught }
    t.kind = 17 →
    (t.arg0 < 0 ∨ 31 < t.arg0 → completes .clearAssign s s n rest .range .unstated) ∧
    (0 ≤ t.arg0 → t.arg0 ≤ 31 → ∀ a, s.mapper.assignments[t.arg0.toNat]? = some a →
      completes .clearAssign s
        { s with mapper := { s.mapper with assignments := s.mapper.assignments.set t.arg0.toNat cleared } } n rest .ok
        (.given (if a.enabled then 1 else 0))) ∧
    (∀ (e : ControlEvent) (live : Nat), cleared.isMatch e live = false)

/-- VERDICT (R157): the checks in their order; REFUSE discards; ACCEPT and SUBSTITUTE end the referral and make the select of
its assignment, which acts on the Transition Unit in every state as R122 and R138 place a select. REFERRAL_EXPIRY (R158): with
default DROP the referral is discarded; with APPLY its scene is selected, and placed in the same way. -/
def Obligations.ReferralsEndByVerdictOrExpiry : Prop :=
  let placed := fun (b u : State) (sel : Select) =>
    let tr := b.transition
    (b.engine.running = false → u.transition = { tr with stopped := some sel } ∧ u.engine = b.engine) ∧
    (b.engine.running = true →
      (tr.state = .idle → u.transition = { tr with inFlight := some sel, state := .staging } ∧ u.engine = b.engine) ∧
      (tr.state = .staging → u.transition = { tr with inFlight := some sel } ∧ u.engine = { b.engine with overlay := [] }) ∧
      (tr.state = .dipOut →
        u.transition = { tr with inFlight := some sel, restageDue := true } ∧ u.engine = b.engine) ∧
      (tr.state = .fading ∨ tr.state = .dipIn →
        u.transition = { tr with pending := some sel } ∧ u.engine = b.engine))
  (∀ (s : State) (n : Nat) (rest : List Nat), s.memoryOk → s.headIs n rest →
     let t := takenAt s.ram n
     let gone := { s.mapper with referral := none }
     t.kind = 18 →
     (t.arg1 < 0 ∨ 2 < t.arg1 → completes .verdict s s n rest .invalid .unstated) ∧
     (0 ≤ t.arg1 → t.arg1 ≤ 2 →
       (s.mapper.referral = none → completes .verdict s s n rest .tooLate (.given t.arg0)) ∧
       (∀ r, s.mapper.referral = some r →
         (t.arg0 ≠ r.id → completes .verdict s s n rest .tooLate (.given t.arg0)) ∧
         (t.arg0 = r.id →
           (t.arg1 = 1 → completes .verdict s { s with mapper := gone } n rest .ok (.given 255)) ∧
           (t.arg1 = 2 → t.arg2 < 0 ∨ 127 < t.arg2 → completes .verdict s s n rest .range .unstated) ∧
           (t.arg1 = 2 → 0 ≤ t.arg2 → t.arg2 ≤ 127 → (s.store.scenes[t.arg2.toNat]?).join = none →
             completes .verdict s s n rest .emptyScene .unstated) ∧
           (∀ (scene : Nat) (x : SceneRecord), s.store.scenes[scene]? = some (some x) →
             (t.arg1 = 0 ∧ scene = r.scene) ∨ (t.arg1 = 2 ∧ t.arg2 = scene ∧ scene ≤ 127) →
             let sel := Select.taken scene (.assignment r.assignment) none none false
             (s.engine.running = true → s.transition.state = .idle →
               completes .verdict s
                 { s with mapper := gone, transition := { s.transition with inFlight := some sel, state := .staging } }
                 n rest .ok (.given scene)) ∧
             (s.engine.running = false → s.transition.stopped = none →
               completes .verdict s { s with mapper := gone, transition := { s.transition with stopped := some sel } }
                 n rest .ok (.given scene)) ∧
             (∃ u, exec .verdict s = .next u ∧ u.mapper = gone ∧ placed s u sel ∧ u.store = s.store ∧ u.input = s.input ∧
               u.tuner = s.tuner ∧ u.router = s.router ∧ u.link = s.link)) ∧
           (t.arg1 = 0 → (s.store.scenes[r.scene]?).join = none →
             ∃ u, exec .verdict s = .next u ∧ u.mapper = gone ∧ u.transition = s.transition ∧ u.engine = s.engine ∧
               u.report.noticeCount = s.report.noticeCount + 1 ∧ u.requests.slots[n]? = some .done ∧
               readLE u.ram (slotAddress n + 0x1C) 2 = 0 ∧ readLE u.ram (slotAddress n + 0x18) 4 = r.scene % 2 ^ 32))))) ∧
  (∀ (s : State) (r : Referral), s.yetTo .referral →
     let b := s.before .referral
     let gone := { b.mapper with referral := none }
     b.mapper.referral = some r → r.expiry ≤ 1 →
     (r.apply = false → ∃ t, exec .referralExpiry s = .next t ∧
       b.onlyBlocks { b with mapper := gone, grid := t.grid } t) ∧
     (r.apply = true → ∃ t, exec .referralExpiry s = .next t ∧ t.mapper = gone ∧
       (∀ x, b.store.scenes[r.scene]? = some (some x) →
         placed b t (.taken r.scene (.assignment r.assignment) none none false) ∧ t.store = b.store ∧ t.input = b.input ∧
         t.tuner = b.tuner ∧ t.router = b.router ∧ t.link = b.link) ∧
       ((b.store.scenes[r.scene]?).join = none →
         t.transition = b.transition ∧ t.report.noticeCount = b.report.noticeCount + 1)))

/-- How an event arrives at the queue, and the bounds of the queue (R142); the notice of a drop (R143). CONTROL_EVENT_TAKE
(R144, R146): one event leaves the head of the queue and is handled whole: the assignments are tested from 0 to 31, each on
the state that the ones before it left, and where none matches nothing else happens; when an event matches (R146). What each
action does: SCENE and SCENE_STEP, LOCAL or REFER (R149, R156), TOGGLE (R23, R150), PARAM (R152 to R154; log 41 for an
overlay value of another recorded kind), TUNER_TOGGLE (R88, with the reading it hands on, R102), TAP (R155), PROFILE and
FORWARD (R150). -/
def Obligations.ControlEventsArriveAndAreTaken : Prop :=
  (∀ (m : Mapper) (e : ControlEvent),
     let same := fun x : ControlEvent => e.trigger = .pedal ∧ x.trigger = .pedal ∧ x.unit = e.unit ∧ x.control = e.control
     let bounded := fun q : List ControlEvent => q.length ≤ 16 ∧
       q.Pairwise fun x y => ¬ (x.trigger = .pedal ∧ y.trigger = .pedal ∧ x.unit = y.unit ∧ x.control = y.control)
     let r := m.arrive e
     ((∃ x, x ∈ m.queue ∧ same x) → r = ({ m with queue := m.queue.map fun x =>
         if x.trigger = .pedal ∧ x.unit = e.unit ∧ x.control = e.control then { x with value := e.value, time := e.time }
         else x }, [])) ∧
     ((∀ x, x ∈ m.queue → ¬ same x) →
       (m.queue.length < 16 → r = ({ m with queue := m.queue ++ [e] }, [])) ∧
       (16 ≤ m.queue.length → e.trigger = .pedal → r = (m, [])) ∧
       (16 ≤ m.queue.length → e.trigger ≠ .pedal →
         (∀ before x after, m.queue = before ++ x :: after → x.trigger = .pedal →
           (∀ y, y ∈ before → y.trigger ≠ .pedal) → r = ({ m with queue := before ++ after ++ [e] }, [])) ∧
         ((∀ x, x ∈ m.queue → x.trigger ≠ .pedal) →
           r = ({ m with drops := min 65535 (m.drops + 1) },
             [⟨9, 4, e.unit, [(e.unit : Int), e.control, e.trigger.code, (min 65535 (m.drops + 1) : Nat)]⟩])))) ∧
     (bounded m.queue → bounded r.1.queue) ∧ Mapper.reset.queue = [] ∧ Mapper.reset.drops = 0) ∧
  (∀ (s : State) (e : ControlEvent) (rest : List ControlEvent), s.yetTo .event →
     let b := s.before .event
     b.mapper.queue = e :: rest →
     (∃ t, exec .controlEventTake s = .next t ∧ t.mapper.queue = rest ∧ t.store = b.store ∧ t.router = b.router) ∧
     ((∀ i, i < 32 → (b.mapper.assignments.getD i .cleared).isMatch e b.engine.live.scene = false) →
       ∃ t, exec .controlEventTake s = .next t ∧
         b.onlyBlocks { b with mapper := { b.mapper with queue := rest }, grid := t.grid } t) ∧
     (let test := fun (x : State × Bool) (i : Nat) =>
        let a := x.1.mapper.assignments.getD i .cleared
        if a.isMatch e x.1.engine.live.scene = true then (x.1.act i a e x.2, x.2 || a.action == .tap) else x
      let u := ((List.range 32).foldl test ({ b with mapper := { b.mapper with queue := rest } }, false)).1
      ∃ t, exec .controlEventTake s = .next t ∧ t = { u with grid := t.grid })) ∧
  (∀ (a : Assignment) (e : ControlEvent) (live : Nat), a.isMatch e live = true ↔
     a.enabled = true ∧ a.unit = e.unit ∧ a.trigger = e.trigger ∧ a.control = e.control ∧
     (a.scope = none ∨ a.scope = some live)) ∧
  (∀ (s : State) (i : Nat) (a : Assignment) (e : ControlEvent) (tapped : Bool),
     let u := s.act i a e tapped
     let tr := s.transition
     let n := a.argument.toNat
     let sel := fun n : Nat => Select.taken n (.assignment i) none none false
     let stored := fun n : Nat => ∃ r, s.store.scenes[n]? = some (some r)
     (a.action = .scene →
       (¬ stored n → u = s.notify ⟨1, 1, i, [n, 2, 255, 255]⟩) ∧
       (stored n → a.refer = none → u = s.takeSelect (sel n) ∧
         (s.engine.running = false → tr.stopped = none → u = { s with transition := { tr with stopped := some (sel n) } }) ∧
         (s.engine.running = true → tr.state = .idle →
           u = { s with transition := { tr with inFlight := some (sel n), state := .staging } }) ∧
         (s.engine.running = true → tr.state = .fading ∨ tr.state = .dipIn → tr.pending = none →
           u = { s with transition := { tr with pending := some (sel n) } })) ∧
       (∀ apply, stored n → a.refer = some apply →
         let id := if 255 ≤ s.mapper.lastId then 1 else s.mapper.lastId + 1
         u = State.notify
           { s with mapper := { s.mapper with referral := some ⟨id, n, i, apply, s.mapper.timeout⟩, lastId := id } }
           ⟨2, 1, i, [id, n, e.unit, e.control]⟩)) ∧
     (a.action = .sceneStep →
       (∀ m, s.stepScene (decide (0 < a.argument)) = some m →
         u = s.act i { a with action := .scene, argument := m } e tapped) ∧
       (s.stepScene (decide (0 < a.argument)) = none → u = s)) ∧
     (a.action = .tunerToggle →
       (s.tuner.state = .off → u.tuner = { s.tuner with state := .listen, engaged := true } ∧
         u = State.handFrames { s with tuner := u.tuner } (readingFrames s.link.units (1, 0, 0))) ∧
       (s.tuner.state ≠ .off → u.tuner = { s.tuner with
           state := .off, run := [], accepted := [], tunedMark := false, lockedWindows := 0, collecting := false,
           engaged := false } ∧
         u = State.handFrames { s with tuner := u.tuner } (readingFrames s.link.units (0, 0, 0))) ∧
       u.engine = s.engine ∧ u.transition = tr ∧ u.store = s.store ∧ u.mapper = s.mapper) ∧
     (a.action = .tap → (tapped = false → u = s.tap e.time) ∧ (tapped = true → u = s)) ∧
     (a.action = .profile → u = { s with input := { s.input with chosen := n } }) ∧
     (a.action = .forward → u = s.notify ⟨3, 1, i, [e.unit, e.control, e.trigger.code, e.value]⟩)) ∧
  (∀ (s : State) (i : Nat) (a : Assignment) (e : ControlEvent) (tapped : Bool), 0 ≤ a.argument → a.argument ≤ 11 →
     let u := s.act i a e tapped
     let p := a.argument.toNat
     let view := s.editViews.getD p ⟨.none, false, List.replicate 8 0⟩
     let flagAt := fun o : OverlayEntry => o ∈ s.engine.overlay ∧ o.position = p ∧ o.index = none
     (a.action = .toggle →
       (view.kind = .none → u = s) ∧
       (view.kind ≠ .none → s.transition.state ≠ .staging ∨ (∀ o, ¬ flagAt o) →
         u = s.putEnable p (!view.enable) view.kind) ∧
       (∀ o, view.kind ≠ .none → s.transition.state = .staging → flagAt o → (∀ x, flagAt x → x = o) →
         u = s.putEnable p (o.value != 1) view.kind)) ∧
     (a.action = .param →
       let m := a.mapped e.value
       let c := if a.takeover = true then a.catching.step m (view.targets.getD a.index 0) else (a.catching, true)
       let caught := { s with mapper := { s.mapper with
         assignments := s.mapper.assignments.modify i fun x => { x with catching := c.1 } } }
       (view.kind ≠ a.kind → u = s) ∧
       (view.kind = a.kind → c.2 = false → u = caught) ∧
       (view.kind = a.kind → c.2 = true →
         (∀ code, caught.editParam a.argument a.index m a.kind.code = .refused code → u = caught) ∧
         (∀ v k w, caught.editParam a.argument a.index m a.kind.code = .wrote v k w →
           u = { w with mapper := { w.mapper with assignments := w.mapper.assignments.mapIdx fun j x =>
             if j ≠ i ∧ x.action = .param ∧ x.takeover = true ∧ x.argument = a.argument ∧ x.index = a.index then
               { x with catching := .uncaught } else x } })))) ∧
  (∀ (s : State) (up : Bool),
     let tr := s.transition
     let base := s.stepBase
     let stored := fun n : Nat => n < 128 ∧ ∃ r, s.store.scenes[n]? = some (some r)
     let away := fun n : Nat => if up then (n + 128 - base) % 128 else (base + 128 - n) % 128
     ((∀ r, s.mapper.referral = some r → base = r.scene) ∧
      (s.mapper.referral = none →
        (∀ x, tr.pending = some x → base = x.scene) ∧
        (∀ x, tr.pending = none → tr.inFlight = some x → base = x.scene) ∧
        (∀ x, tr.pending = none → tr.inFlight = none → tr.stopped = some x → base = x.scene) ∧
        (tr.pending = none → tr.inFlight = none → tr.stopped = none → base = s.engine.live.scene))) ∧
     (base < 128 → ∀ n, s.stepScene up = some n ↔
       stored n ∧ n ≠ base ∧ ∀ m, stored m → m ≠ base → away n ≤ away m) ∧
     (base = 255 → ∀ n, s.stepScene up = some n ↔
       stored n ∧ ∀ m, stored m → if up = true then n ≤ m else m ≤ n))

/-- The mapped value of a pedal position (R151), at both ends of the travel and monotonic between them. That an AMP filter set
mapped to 16..254 becomes 15 is read from R14 with R151 (log 34). -/
def Obligations.PedalMappingRule : Prop :=
  (∀ v : Nat, v ≤ 1023 →
    PedalCurve.linear.apply v = v ∧ PedalCurve.slow.apply v = v * v / 1023 ∧
    PedalCurve.fast.apply v * PedalCurve.fast.apply v ≤ v * 1023 ∧
    v * 1023 < (PedalCurve.fast.apply v + 1) * (PedalCurve.fast.apply v + 1)) ∧
  (∀ c : PedalCurve, c.apply 0 = 0 ∧ c.apply 1023 = 1023 ∧ ∀ v w : Nat, v ≤ w → w ≤ 1023 → c.apply v ≤ c.apply w) ∧
  PedalCurve.slow.apply 512 = 256 ∧ PedalCurve.fast.apply 512 = 723 ∧
  (∀ (a : Assignment) (rule : ParamRule) (v : Nat), paramRule a.kind a.index = some rule →
    let gap := fun m : Int => a.kind = .amp ∧ a.index = 3 ∧ 16 ≤ m ∧ m ≤ 254 -- R14: the AMP filter set
    let m := a.min + ((a.max - a.min) * a.curve.apply v + 511) / 1023
    (gap m → a.mapped v = 15) ∧ (¬ gap m → a.mapped v = max rule.lo (min rule.hi m)) ∧
    (rule.lo ≤ a.min → a.min ≤ rule.hi → ¬ gap a.min → a.mapped 0 = a.min) ∧
    (rule.lo ≤ a.max → a.max ≤ rule.hi → ¬ gap a.max → a.mapped 1023 = a.max) ∧
    (∀ w : Nat, v ≤ w → w ≤ 1023 →
      (a.min ≤ a.max → a.mapped v ≤ a.mapped w) ∧ (a.max ≤ a.min → a.mapped w ≤ a.mapped v)))

/-- R153: the catch state and whether the mapped value is written, for each state and side. -/
def Obligations.CatchStateTable : Prop :=
  ∀ (c : CatchState) (m ref : Int),
    (m = ref → c.step m ref = (.caught, true)) ∧
    (m < ref →
      c.step m ref = (match c with
        | .uncaught => (.below, false) | .below => (.below, false) | .above => (.caught, true) | .caught => (.caught, true))) ∧
    (ref < m →
      c.step m ref = (match c with
        | .uncaught => (.above, false) | .below => (.caught, true) | .above => (.above, false) | .caught => (.caught, true)))

/-- R155: one tap, by the interval since the last one. -/
def Obligations.TapTempoRule : Prop :=
  ∀ (s : State) (time : Word), s.mapper.intervals.length ≤ 3 →
    (s.mapper.lastTap = none → s.tap time = { s with mapper := { s.mapper with lastTap := some time } }) ∧
    (∀ last, s.mapper.lastTap = some last →
      let b := (time - last).toNat
      let kept := if s.mapper.intervals.length = 3 then s.mapper.intervals.drop 1 ++ [b] else s.mapper.intervals ++ [b]
      let total := kept.foldl (· + ·) 0
      (b < 300 ∨ 3000 < b → s.tap time = { s with mapper := { s.mapper with lastTap := some time, intervals := [] } }) ∧
      (300 ≤ b → b ≤ 3000 → s.tap time =
        { s with
          mapper := { s.mapper with lastTap := some time, intervals := kept }
          engine := { s.engine with
            tempoTarget := max 400 (min 3000 ((1800000 * kept.length + total) / (2 * total))) } })) ∧
    Mapper.reset.lastTap = none ∧ Mapper.reset.intervals = []

/-! ## Stage Link -/

/-- LINK_CONFIG (R177, R178): the three values with their defaults and clamps, and what becomes of the line; a cycle that a
disable cuts short keeps its count for the next one (the model's choice, log 42). SET_UNIT (R164): RANGE, DUPLICATE with the
other entry, or the entry written whole. -/
def Obligations.LinkConfigAndUnitEntries : Prop :=
  (∀ (s : State) (n : Nat) (rest : List Nat), s.memoryOk → s.headIs n rest →
     let t := takenAt s.ram n
     let half := fun k => argBits t.arg2 / 65536 ^ k % 65536
     let hold := if half 0 = 0 then 600 else max 200 (min 2000 (half 0))
     let timeout := if half 1 = 0 then 30 else max 5 (min 200 (half 1))
     let dead := if t.arg3 = 0 then 2 else (max 1 (min 16 t.arg3)).toNat
     let clamped := (t.arg0 ≠ 0 ∧ t.arg0 ≠ 1) ∨ (half 0 ≠ 0 ∧ (half 0 < 200 ∨ 2000 < half 0)) ∨
       (half 1 ≠ 0 ∧ (half 1 < 5 ∨ 200 < half 1)) ∨ (t.arg3 ≠ 0 ∧ (t.arg3 < 1 ∨ 16 < t.arg3))
     let set := { s.link with holdMs := hold, deadband := dead }
     let mapper := { s.mapper with timeout := (3 * timeout + 1) / 2 }
     t.kind = 19 →
     ∃ code : Result, (code = .okClamped ↔ clamped) ∧ (code = .ok ∨ code = .okClamped) ∧
       (t.arg0 = 0 → completes .linkConfig s
         { s with mapper := mapper, link := if s.link.enabled then set.disable else set } n rest code (.given 0)) ∧
       (t.arg0 ≠ 0 → t.arg1 = 0 → completes .linkConfig s
         { s with mapper := mapper, link := if s.link.enabled then set else set.resume } n rest code (.given 1)) ∧
       (t.arg0 ≠ 0 → t.arg1 ≠ 0 → completes .linkConfig s { s with mapper := mapper, link := set.restart } n rest code
         (.given 1)) ∧
       (∀ l : Link,
         (l.disable.enabled = false ∧ l.disable.queue = l.queue ∧ l.disable.units = l.units ∧
           l.disable.lampMirrors = l.lampMirrors ∧ l.disable.textMirrors = l.textMirrors) ∧
         ((∀ e d bytes, l.phase = .assembling e d bytes → l.disable.phase = l.phase) ∧
           ((∀ e d bytes, l.phase ≠ .assembling e d bytes) → l.disable.phase = .between) ∧
           ((∀ n, l.phase ≠ .queueStep n) ∨ l.queue ≠ [] → l.disable.cycle = l.cycle) ∧
           (∀ n, l.phase = .queueStep n → l.queue = [] → l.disable.cycle = l.endTurn.cycle)) ∧
         (l.resume.enabled = true ∧ l.resume.position = 0 ∧ l.resume.turnTaken = false ∧ l.resume.cycle = l.cycle ∧
           l.resume.units = l.units ∧ l.resume.queue = l.queue) ∧
         (l.restart.enabled = true ∧ l.restart.queue = [] ∧ l.restart.breakDue = true ∧
           l.restart.lampMirrors = l.lampMirrors ∧ l.restart.textMirrors = l.textMirrors ∧
           l.restart.units = l.units.map fun u =>
             if u.enabled then { u with state := .joining, misses := 0, last := none } else u))) ∧
  (∀ (s : State) (n : Nat) (rest : List Nat), s.memoryOk → s.headIs n rest →
     let t := takenAt s.ram n
     let low := fun a : Int => argBits a % 65536
     let high := fun a : Int => argBits a / 65536
     let other := fun i : Nat => (i : Int) ≠ t.arg0 ∧ ∃ u, s.link.units[i]? = some u ∧ u.enabled = true ∧ (u.number : Int) = t.arg1
     t.kind = 20 →
     (t.arg0 < 0 ∨ 7 < t.arg0 ∨ t.arg1 < 1 ∨ 15 < t.arg1 → completes .setUnit s s n rest .range .unstated) ∧
     (0 ≤ t.arg0 → t.arg0 ≤ 7 → 1 ≤ t.arg1 → t.arg1 ≤ 15 →
       (∀ i, low t.arg2 ≠ 0 → other i → (∀ j, j < i → ¬ other j) →
         completes .setUnit s s n rest .duplicate (.given i)) ∧
       (low t.arg2 = 0 ∨ (∀ i, ¬ other i) →
         completes .setUnit s
           { s with link := { s.link with
               phase := s.link.phase.discardFor t.arg0.toNat
               units := s.link.units.modify t.arg0.toNat fun u =>
                 { number := t.arg1.toNat, enabled := decide (low t.arg2 ≠ 0), display := decide (high t.arg2 ≠ 0),
                   switchCount := min 14 (low t.arg3), pedalCount := min 4 (high t.arg3),
                   state := if low t.arg2 ≠ 0 then .joining else .unused, misses := 0, last := none,
                   losses := u.losses } } }
           n rest
           (if 1 < low t.arg2 ∨ 1 < high t.arg2 ∨ 14 < low t.arg3 ∨ 4 < high t.arg3 then .okClamped else .ok)
           (.given t.arg0))))

/-- LAMP and TEXT (R176, R196): the refusals (that a TEXT which meets both gets RANGE is the model's choice, log 45), the
frame formed, and the placing reported; how a handed frame is placed, the
mirrors, and the bounds of the transmit queue (R174, R175). -/
def Obligations.LampAndTextHandFrames : Prop :=
  (∀ (s : State) (n : Nat) (rest : List Nat), s.memoryOk → s.headIs n rest →
     let t := takenAt s.ram n
     let outside := t.arg0 < 0 ∨ 15 < t.arg0 ∨ t.arg1 < 0 ∨ 15 < t.arg1
     let seven := fun (a : Int) (k : Nat) => argBits a / 128 ^ k % 128
     let char := fun i => if i < 4 then argBits t.arg2 / 256 ^ i % 256 else argBits t.arg3 / 256 ^ (i - 4) % 256
     let text := ((List.range 8).map char).takeWhile (· != 0)
     let handed := fun (c : Instr) (f : MasterFrame) (code : Result) =>
       (s.placing f ≠ .dropped → completes c s (s.handFrame f) n rest code
         (.given (match s.placing f with | .joined => 0 | .replaced => 1 | _ => 2))) ∧
       (s.placing f = .dropped → ∃ u, exec c s = .next u ∧ u.requests.slots[n]? = some .done ∧
         readLE u.ram (slotAddress n + 0x1C) 2 = 7 ∧ u.link = (s.handFrame f).link ∧
         u.report.noticeCount = s.report.noticeCount + 1)
     (t.kind = 21 →
       (outside → completes .lamp s s n rest .range .unstated) ∧
       (¬ outside → handed .lamp
         ⟨.lamp, t.arg0.toNat, t.arg1.toNat, [seven t.arg2 0, seven t.arg2 1, seven t.arg3 0, seven t.arg3 1]⟩ .ok)) ∧
     (t.kind = 22 →
       (outside → completes .text s s n rest .range .unstated) ∧
       (¬ outside → text = [] → completes .text s s n rest .invalid .unstated) ∧
       (¬ outside → text ≠ [] → handed .text
         ⟨.text, t.arg0.toNat, t.arg1.toNat, text.map fun c => if 0x20 ≤ c ∧ c ≤ 0x7E then c else 0x20⟩
         (if text.any fun c => decide (c < 0x20 ∨ 0x7E < c) then .okClamped else .ok)))) ∧
  (∀ (s : State) (f : MasterFrame),
     let l := s.link
     let l' := (s.handFrame f).link
     let same := fun g : MasterFrame => g.kind = f.kind ∧ g.target = f.target ∧ g.mask = f.mask
     let bounded := fun q : List MasterFrame => q.length ≤ 8 ∧
       q.Pairwise fun x y => ¬ (x.kind = y.kind ∧ x.target = y.target ∧ x.mask = y.mask)
     ((∃ g, g ∈ l.queue ∧ same g) → s.placing f = .replaced ∧ l'.queue = l.queue.map fun g =>
       if g.kind = f.kind ∧ g.target = f.target ∧ g.mask = f.mask then { g with payload := f.payload } else g) ∧
     ((∀ g, g ∈ l.queue → ¬ same g) →
       (l.queue.length < 8 → s.placing f = .joined ∧ l'.queue = l.queue ++ [f]) ∧
       (8 ≤ l.queue.length →
         (∀ before g after, l.queue = before ++ g :: after → g.kind = .tune → (∀ x, x ∈ before → x.kind ≠ .tune) →
           s.placing f = .displaced ∧ l'.queue = before ++ after ++ [f]) ∧
         ((∀ x, x ∈ l.queue → x.kind ≠ .tune) →
           s.placing f = .dropped ∧ l'.queue = l.queue ∧ l'.drops = min 65535 (l.drops + 1) ∧
           s.handFrame f = State.notify { s with link := l' }
             ⟨10, 6, 0, [(f.kind.code : Int), f.target, f.mask, (min 65535 (l.drops + 1) : Nat)]⟩))) ∧
     (bounded l.queue → bounded l'.queue) ∧
     l'.lampMirrors = (if f.kind = .lamp ∧ f.mask = 15 ∧ 1 ≤ f.target then l.lampMirrors.set f.target (some f.payload)
       else l.lampMirrors) ∧
     l'.textMirrors = (if f.kind = .text ∧ f.mask = 15 ∧ 1 ≤ f.target then l.textMirrors.set f.target (some f.payload)
       else l.textMirrors) ∧
     Link.reset.queue = [] ∧ Link.reset.drops = 0) ∧
  (∀ (s : State) (fs : List MasterFrame), s.handFrames fs = fs.foldl (fun x f => x.handFrame f) s)

/-- POLL_TURN, QUEUE_FRAME_SEND and LINK_BREAK (R165, R174, R178), where the line is free for each. Step 3 of a turn sends up to
two frames, each leaving the queue as its own sending begins: two of these commands (the model's, log 43), what is on the line
being what the last one sent (log 29). A turn's end, and with it the end of a cycle that polls no later entry: the counter
rises, from 15 to 0. Which entry the next turn polls: JOINING or PRESENT ones in order, LOST ones with the cycle counter at 0;
a cycle that polls none has one turn without a poll. When the next turn is decided, and that POLL_TURN passes over a step 3
with nothing to send, is the model's choice (log 17). -/
def Obligations.LinkSendsInItsTurn : Prop :=
  (∀ s : State, s.port.ready = true →
     let l := s.link
     let up := l.enabled = true ∧ l.breakDue = false
     let item := fun f : MasterFrame =>
       LineItem.frame (withCheck ([128 + f.kind.code, f.target, f.mask, f.payload.length] ++ f.payload))
     (∀ (e : Nat) (u : UnitEntry) (cycle : Nat), up → (l.phase = .between ∨ (∃ n, l.phase = .queueStep n) ∧ l.queue = []) →
       l.upcoming = (cycle, some e) → l.units[e]? = some u →
       ∃ t, exec .pollTurn s = .next t ∧
         s.onlyBlocks { s with link := { l with
           cycle := cycle, position := e + 1, turnTaken := true, phase := .window e false,
           sent := [.frame (withCheck [0x81, u.number, 15, 0])] } } t) ∧
     (∀ n, up → l.phase = .queueStep n →
       (l.queue = [] → ∃ t, exec .queueFrameSend s = .next t ∧
         s.onlyBlocks { s with link := Link.endTurn { l with sent := [] } } t) ∧
       (∀ f rest, l.queue = f :: rest → ∃ t, exec .queueFrameSend s = .next t ∧
         (n = 0 → s.onlyBlocks { s with link := { l with queue := rest, sent := [item f], phase := .queueStep 1 } } t) ∧
         (n ≠ 0 → s.onlyBlocks { s with link := Link.endTurn { l with queue := rest, sent := [item f] } } t))) ∧
     (∀ cycle, up → l.phase = .between → l.upcoming = (cycle, none) →
       let turn := { l with cycle := cycle, position := 8, turnTaken := true }
       (l.queue = [] → ∃ t, exec .queueFrameSend s = .next t ∧
         s.onlyBlocks { s with link := Link.endTurn { turn with sent := [] } } t) ∧
       (∀ f rest, l.queue = f :: rest → ∃ t, exec .queueFrameSend s = .next t ∧
         s.onlyBlocks { s with link := { turn with queue := rest, sent := [item f], phase := .queueStep 1 } } t)) ∧
     (l.breakDue = true → l.phase = .between →
       ∃ t, exec .linkBreak s = .next t ∧
         s.onlyBlocks { s with link := { l with
           breakDue := false, cycle := 0, position := 0, turnTaken := false, sent := [.lineBreak] } } t)) ∧
  (∀ (l : Link) (cycle : Nat),
     let polled := fun (c i : Nat) => ∃ u, l.units[i]? = some u ∧
       (u.state = .joining ∨ u.state = .present ∨ u.state = .lost ∧ c = 0)
     let ended := ∀ i, l.position ≤ i → ¬ polled l.cycle i
     (ended → l.endTurn =
       { l with phase := .between, cycle := (l.cycle + 1) % 16, position := 0, turnTaken := false }) ∧
     (¬ ended → l.endTurn = { l with phase := .between }) ∧
     (∀ e, l.upcoming = (cycle, some e) ↔
       (cycle = l.cycle ∧ l.position ≤ e ∧ polled cycle e ∧ ∀ i, l.position ≤ i → i < e → ¬ polled cycle i) ∨
       (ended ∧ l.turnTaken = true ∧ cycle = (l.cycle + 1) % 16 ∧ polled cycle e ∧ ∀ i, i < e → ¬ polled cycle i)) ∧
     (l.upcoming = (cycle, none) ↔
       ended ∧ (l.turnTaken = false ∧ cycle = l.cycle ∨
         l.turnTaken = true ∧ cycle = (l.cycle + 1) % 16 ∧ ∀ i, ¬ polled cycle i)))

/-- REPLY_WINDOW_EXPIRY and INTER_BYTE_TIMEOUT (R164, R166, R168, R170, R178): a miss; the third in a row of a PRESENT entry
makes it LOST, with a UNIT_DOWN notice; a reply that is to be discarded counts no miss. Step 3 of the turn comes next; with the
link disabled or a break due the line is left idle. That a reply in assembly when the link was disabled still counts its miss,
and may write UNIT_DOWN, is the model's reading of R178 (DEDUCED, log 49). -/
def Obligations.MissesLoseUnits : Prop :=
  ∀ (s : State) (c : Instr) (e : Nat) (d : Bool) (u : UnitEntry), s.memoryOk → s.port.ready = true →
    (c = .replyWindowExpiry ∧ s.link.phase = .window e d) ∨
      (c = .interByteTimeout ∧ ∃ bytes, s.link.phase = .assembling e d bytes) →
    s.link.units[e]? = some u →
    let line := { s.link with phase := if s.link.enabled = true ∧ s.link.breakDue = false then .queueStep 0 else .between }
    let missed := { u with misses := u.misses + 1 }
    let lost := { u with state := .lost, misses := 3, last := none, losses := min 65535 (u.losses + 1) }
    (d = true ∨ u.state ≠ .present → ∃ t, exec c s = .next t ∧ s.onlyBlocks { s with link := line } t) ∧
    (d = false → u.state = .present → u.misses < 2 → ∃ t, exec c s = .next t ∧
      s.onlyBlocks { s with link := { line with units := s.link.units.set e missed } } t) ∧
    (d = false → u.state = .present → u.misses = 2 → ∃ t, exec c s = .next t ∧
      t.link = { line with units := s.link.units.set e lost } ∧
      t.report.noticeCount = s.report.noticeCount + 1 ∧ t.port.signal.notice = true ∧
      (let a := 0x440 + 16 * (s.report.noticeCount.toNat % 32)
       readLE t.ram a 4 = s.report.noticeCount.toNat ∧ readLE t.ram (a + 4) 1 = 5 ∧
       readLE t.ram (a + 8) 2 = e % 65536 ∧ readLE t.ram (a + 10) 2 = u.number % 65536 ∧
       readLE t.ram (a + 14) 2 = min 65535 (u.losses + 1)) ∧
      t.requests = s.requests ∧ t.engine = s.engine ∧ t.mapper = s.mapper)

/-- STATE_RECEIVE (R161, R166, R167, R169, R171): a whole STATE that the unit forms by 11.5 is good; the first one makes the
entry PRESENT with a baseline, a UNIT_UP notice and the frames of its mirrors (R169, R175), and a later one is compared with
the last state. With the link disabled it is handled no less (R178, whose other clause has no events then: DEDUCED, log 49).
One switch against its record (R171, R172). What a baseline records (R169). The events of a comparison, in
order: the switches', then a PEDAL event for each pedal that has moved by the deadband or come to an end of its travel
(R171, R173). They are handed to the event queue one by one, whatever it holds, each as R142 has it arrive, with the notice of
one that is dropped (R143, R171). -/
def Obligations.GoodStateIsReceived : Prop :=
  (∀ (s : State) (e : Nat) (u : UnitEntry) (f : StateFrame), s.port.ready = true → s.link.phase = .window e false →
     s.link.units[e]? = some u → u.number < 128 →
     f.switches < 2 ^ 14 → f.pedals.length ≤ 4 → (∀ v, v ∈ f.pedals → v ≤ 1023) →
     let l := s.link
     let bytes := (stateBytes u.number f).map fun b => (⟨BitVec.ofNat 8 b, false⟩ : RxByte)
     let line := { s.link with phase := if s.link.enabled = true ∧ s.link.breakDue = false then .queueStep 0 else .between }
     ∃ t, exec (.stateReceive bytes) s = .next t ∧ t.pending = s.pending ∧ t.requests = s.requests ∧ t.engine = s.engine ∧
       (u.state = .joining ∨ u.state = .lost →
         t.link.units = s.link.units.set e { u with state := .present, misses := 0, last := some (baseline f u) } ∧
         t.mapper = s.mapper ∧ t.link.phase = line.phase ∧
         (let frames := ((l.lampMirrors.getD u.number none).elim [] fun p => [(⟨.lamp, u.number, 15, p⟩ : MasterFrame)]) ++
            ((l.textMirrors.getD u.number none).elim [] fun p => [(⟨.text, u.number, 15, p⟩ : MasterFrame)])
          t.link = (State.handFrames { s with link := { line with units := t.link.units } } frames).link) ∧
         (s.memoryOk → t.port.signal.notice = true ∧ noticeStands t.ram s.report.noticeCount
           ⟨4, 4, u.number, [e, u.number, if u.state = .lost then 1 else 0, f.pedals.length]⟩)) ∧
       (∀ last, u.state = .present → u.last = some last →
         let r := findEvents s.link u last f
         t.link = { line with units := s.link.units.set e { u with misses := 0, last := some r.1 } } ∧
         t.mapper = r.2.foldl (fun m x => (m.arrive x).1) s.mapper ∧
         t = r.2.foldl (fun x e => State.notifyAll { x with mapper := (x.mapper.arrive e).1 } (x.mapper.arrive e).2)
           { s with link := t.link } ∧
         (r.2 = [] → s.onlyBlocks { s with link := t.link } t) ∧
         (s.mapper.queue = [] → r.2.length ≤ 16 → (∀ x, x ∈ r.2 → x.trigger ≠ .pedal) →
           s.onlyBlocks { s with link := t.link, mapper := { s.mapper with queue := r.2 } } t))) ∧
  (∀ (hold : Nat) (time : Word) (r : SwitchRecord),
     (r.down = false → switchChange hold time true r = (⟨true, true, time, false⟩, [.press]) ∧
       (switchChange hold time false r).2 = [] ∧ (switchChange hold time false r).1.down = false) ∧
     (r.down = true → r.claimed = false →
       switchChange hold time true r = (r, []) ∧ switchChange hold time false r = (⟨false, false, 0, false⟩, [])) ∧
     (r.down = true → r.claimed = true →
       (r.hold = false → hold ≤ (time - r.pressTime).toNat →
         switchChange hold time true r = ({ r with hold := true }, [.hold])) ∧
       (r.hold = true ∨ (time - r.pressTime).toNat < hold → switchChange hold time true r = (r, [])) ∧
       (r.hold = false → switchChange hold time false r = (⟨false, false, 0, false⟩, [.releaseAny, .releaseShort])) ∧
       (r.hold = true → switchChange hold time false r = (⟨false, false, 0, false⟩, [.releaseAny])))) ∧
  (∀ (f : StateFrame) (u : UnitEntry),
     let b := baseline f u
     b.switches.length = 14 ∧ b.pedals.length = 4 ∧
     (∀ i, i < 14 → b.switches[i]? =
       some (if i < u.switchCount ∧ f.switches.testBit i = true then ⟨true, false, 0, false⟩ else ⟨false, false, 0, false⟩)) ∧
     (∀ i, i < 4 → b.pedals[i]? = some (if i < u.pedalCount then f.pedals.getD i 0 else 0))) ∧
  (∀ (l : Link) (u : UnitEntry) (last : LastState) (f : StateFrame),
     let r := findEvents l u last f
     let hold := (3 * l.holdMs + 1) / 2
     let change := fun (i : Nat) (x : SwitchRecord) =>
       switchChange hold l.blockCount (decide (i < u.switchCount ∧ f.switches.testBit i = true)) x
     let moves := fun (i was v : Nat) =>
       i < u.pedalCount ∧ f.pedals[i]? = some v ∧
       (l.deadband ≤ ((v : Int) - was).natAbs ∨ (v = 0 ∨ v = 1023) ∧ v ≠ was)
     r.1.switches = last.switches.mapIdx (fun i x => (change i x).1) ∧ r.1.pedals.length = last.pedals.length ∧
     (∀ i was, last.pedals[i]? = some was →
       (∀ v, moves i was v → r.1.pedals[i]? = some v) ∧ ((∀ v, ¬ moves i was v) → r.1.pedals[i]? = some was)) ∧
     ∃ pedals, r.2 = (last.switches.mapIdx fun i x =>
         (change i x).2.map fun t => (⟨u.number, i, t, 0, l.blockCount⟩ : ControlEvent)).flatten ++ pedals ∧
       pedals.Pairwise (fun x y => x.control < y.control) ∧
       ∀ x : ControlEvent, x ∈ pedals ↔ ∃ i was v, last.pedals[i]? = some was ∧ moves i was v ∧
         x = ⟨u.number, i, .pedal, v, l.blockCount⟩)

/-- R161: the two check bytes of a run, one byte at a time; both lie in 0..126. -/
def Obligations.CheckSumRule : Prop :=
  checkSums [] = (0, 0) ∧
  (∀ (bytes : List Nat) (x : Nat), checkSums (bytes ++ [x]) =
    (((checkSums bytes).1 + x) % 127, ((checkSums bytes).2 + ((checkSums bytes).1 + x) % 127) % 127)) ∧
  (∀ bytes : List Nat, (checkSums bytes).1 ≤ 126 ∧ (checkSums bytes).2 ≤ 126 ∧
    withCheck bytes = bytes ++ [(checkSums bytes).1, (checkSums bytes).2]) ∧
  (∀ f : MasterFrame, f.bytes =
    withCheck ([128 + f.kind.code, f.target, f.mask, f.payload.length] ++ f.payload)) ∧
  (∀ unit : Nat, pollBytes unit = withCheck [129, unit, 15, 0]) ∧
  (∀ (unit : Nat) (bytes : List Nat) (f : StateFrame), judgeReply unit bytes = .good f →
    ∃ body, bytes = withCheck body)

/-! ## Notices, pages and the block start -/

/-- R192, 11.2: a notice is written at entry count mod 32, numbered by the count before it; the count rises, its copy in the
header follows, and SIGNAL.NOTICE is set; every other byte stays. -/
def Obligations.NoticeIsWrittenAtCount : Prop :=
  ∀ (s : State) (x : Notice), s.memoryOk →
    let t := s.notify x
    let c := s.report.noticeCount
    let a := 0x440 + 16 * (c.toNat % 32)
    t.report = { s.report with noticeCount := c + 1 } ∧ t.port = s.port.raise ⟨false, true, false, false⟩ ∧
    readLE t.ram a 4 = c.toNat ∧ readLE t.ram (a + 4) 1 = x.kind % 256 ∧ readLE t.ram (a + 5) 1 = x.originClass % 256 ∧
    readLE t.ram (a + 6) 2 = x.originIndex % 65536 ∧
    (∀ i, i < 4 → readLE t.ram (a + 8 + 2 * i) 2 = (x.args.getD i 0 % 65536).toNat) ∧
    readLE t.ram 0x08 4 = (c + 1).toNat ∧
    (∀ b, (b < a ∨ a + 16 ≤ b) → (b < 0x08 ∨ 0x0C ≤ b) → readByte t.ram b = readByte s.ram b) ∧
    t.requests = s.requests ∧ t.pending = s.pending ∧ s.sameBlocks t

/-- READOUT_PERIOD_CLOSE (R193, R194): the page not named by page select is written with its new serial and every figure of
R194 where 11.2 places it (`pageHolds`), page select flips, the serial rises, SIGNAL.PAGE is set, and the period's counts
return to 0. CHAIN, the tap point k = 2, shows peak code 255 and no clips where RUN is clear once the stop and restart work
of this block start is done (R10, R63, R193), and else the figures of the whole period (that the state at the close decides
for the whole period is DEDUCED, log 38). The tables of profiles and units have the lengths that every step keeps
(`State.tablesOk`). What a period does to a holdoff and its count of unreported periods, and whether a notice is written
(R58, R74). -/
def Obligations.PeriodClosePublishesPage : Prop :=
  (∀ s : State, s.yetTo .page → s.memoryOk → s.tablesOk →
     let b := s.before .page
     let select := !b.report.pageSelect
     let page := if select then 0xC00 else 0x800
     16 ≤ b.report.periodCount →
     ∃ t, exec .readoutPeriodClose s = .next t ∧ t.report.pageSelect = select ∧ t.report.serial = b.report.serial + 1 ∧
       t.report.periodCount = 0 ∧ t.port.signal.page = true ∧ readLE t.ram page 4 = (b.report.serial + 1).toNat ∧
       readLE t.ram 0x0C 2 = (if select then 1 else 0) ∧ readLE t.ram 0x10 4 = (b.report.serial + 1).toNat ∧
       (∀ k, k < 9 → ∀ m, b.meters[k]? = some m → readLE t.ram (page + 4 + k) 1 = (peakCode m.peak).toNat % 256 ∧
         readLE t.ram (page + 0xE + 2 * k) 2 = m.clips % 65536) ∧
       b.meters = metersShown b ∧ pageHolds t.ram page b ∧
       (b.engine.running = false → readLE t.ram (page + 6) 1 = 255 ∧ readLE t.ram (page + 0x12) 2 = 0) ∧
       (b.engine.running = true → readLE t.ram (page + 6) 1 = (peakCode b.router.chain.peak).toNat % 256 ∧
         readLE t.ram (page + 0x12) 2 = b.router.chain.clips % 65536) ∧
       (∀ a, 0x640 ≤ a → a < 0x8000 → a < page ∨ page + 0x400 ≤ a → readByte t.ram a = readByte b.ram a) ∧
       t.input.inputA.crackles = 0 ∧ t.input.inputB.crackles = 0 ∧ t.input.inputA.meter = ⟨0, 0⟩ ∧
       t.router.main.left = ⟨0, 0⟩ ∧ t.router.chain = ⟨0, 0⟩ ∧ t.engine = b.engine ∧ t.transition = b.transition ∧
       t.requests = b.requests) ∧
  (∀ (eventful : Bool) (holdoff unreported : Nat),
     let r := holdoffStep eventful holdoff unreported
     (eventful = false → r = (holdoff - 1, unreported, false)) ∧
     (eventful = true → holdoff ≤ 1 → r = (94, 0, true)) ∧
     (eventful = true → 1 < holdoff → r = (holdoff - 1, min 65535 (unreported + 1), false)) ∧
     (holdoff ≤ 94 → unreported ≤ 65535 → r.1 ≤ 94 ∧ r.2.1 ≤ 65535))

/-- The arithmetic of the stage kinds, clause by clause: the gain reduction of a COMP (R28), a filter section (R29), the CAB
filter (R30), the mix of a wet and a dry part (R32), one sample of a DELAY (R33), the shaper between two points (R39, R40) and
the built-in curves (R42); one sample of a MOD (R31). What a position makes of a block: passed on where the instance is not
processed (R11; one in tail mode is, in OFF too, log 27), crossed in a ramp block (R13), and its previous factors after it
(R16). How each kind goes over a block: its step, sample by sample or once, and its gain factors ramped from the previous ones
(R16, R27 to R34, R36 to R44, R46; a DELAY in tail mode R32, R130). -/
def Obligations.StageArithmeticFollowsItsRules : Prop :=
  (∀ (params : List Int) (c gr : Int), 0 ≤ params.getD 3 0 →
    let o := max 0 (params.getD 0 0 - c)
    let r := o - (20 * o + params.getD 1 0) / (2 * params.getD 1 0)
    (gr < r → compStep params c gr = min r (gr + params.getD 2 0)) ∧
    (r < gr → compStep params c gr = max r (gr - params.getD 3 0)) ∧ (r = gr → compStep params c gr = gr)) ∧
  (∀ (k : Coeffs) (h : History) (x : Int),
    let acc := k.b0 * x + k.b1 * h.x1 + k.b2 * h.x2 - k.a1 * h.y1 - k.a2 * h.y2
    let y := max (-8388608) (min 8388607 ((acc + 134217728) / 268435456))
    sectionStep k h x = (⟨x, h.x1, y, h.y1⟩, y)) ∧
  (∀ (taps history : List Int) (used : Nat) (x : Int),
    let sum := ((List.range used).map fun k => taps.getD k 0 * (x :: history).getD k 0).sum
    cabStep taps used history x =
      ((x :: history).take 1023, max (-8388608) (min 8388607 ((sum + 4194304) / 8388608)))) ∧
  (∀ m x wet : Int, -8388608 ≤ x → x ≤ 8388607 → -8388608 ≤ wet → wet ≤ 8388607 →
    mixed m x wet = max (-8388608) (min 8388607 (x - (x * m + 50) / 100 + (wet * m + 50) / 100)) ∧
    mixed 0 x wet = x ∧ mixed 100 x wet = wet) ∧
  (∀ (params : List Int) (time : Int) (st : LineState) (x : Int), sparseWfFrom (fun _ => 0) 0 st.line = true →
    params.getD 3 0 = 1 ∨ params.getD 3 0 = 2 →
    let length := 49152 * params.getD 3 0
    let wet := lineRead st.line (((st.position : Int) - time) % length).toNat
    let r := delayStep params time st x
    r.2 = wet ∧ (r.1.position : Int) = ((st.position : Int) + 1) % length ∧
    lineRead r.1.line st.position =
      max (-8388608) (min 8388607 (x + scale wet ((2 * (65536 * params.getD 4 0) + 100) / 200))) ∧
    (∀ i, i ≠ st.position → lineRead r.1.line i = lineRead st.line i)) ∧
  (∀ (point : Nat → Int) (y : Int), -8388608 ≤ y → y ≤ 8388607 →
    let k := ((y + 8388608) / 65536).toNat
    shape point y = point k + ((point (k + 1) - point k) * ((y + 8388608) % 65536) + 32768) / 65536 ∧
    min (point k) (point (k + 1)) ≤ shape point y ∧ shape point y ≤ max (point k) (point (k + 1)) ∧
    ((y + 8388608) % 65536 = 0 → shape point y = point k)) ∧
  (∀ n k : Nat, n ≤ 15 → k ≤ 256 → builtInPoint n (256 - k) = -builtInPoint n k ∧
    (k < 256 → builtInPoint n k < builtInPoint n (k + 1)) ∧ builtInPoint n 256 = 8388607) ∧
  (builtInPoint 8 16 = -8155590 ∧ builtInPoint 8 184 = 3670016 ∧ builtInPoint 8 219 = 7142513 ∧
    builtInPoint 8 220 = 7208959 ∧ builtInPoint 8 255 = 8387697) ∧
  (∀ (params : List Int) (st : ModState) (x : Int), sparseWfFrom (fun _ => 0) 0 st.line = true → st.phase < 2 ^ 32 →
    0 ≤ params.getD 1 0 → 0 ≤ params.getD 2 0 → params.getD 2 0 ≤ 100 →
    let r := modStep params st x
    let depth := params.getD 2 0
    let phase : Int := st.phase
    let tri := if phase < 2147483648 then phase / 32768 else (4294967295 - phase) / 32768
    let s := fun j : Int => lineRead st.line (((st.position : Int) - j) % 960).toNat
    r.1.position = (st.position + 1) % 960 ∧
    (r.1.phase : Int) = (phase + (2 * (params.getD 1 0 * 4294967296) + 960000) / 1920000) % 4294967296 ∧
    (∀ base span : Int, (params.getD 0 0, base, span) ∈
        [((0 : Int), (240 : Int), (480 : Int)), (1, 24, 216), (2, 48, 288)] →
      let d := 256 * base + depth * span * tri / 25600
      let wet := s (d / 256) + ((s (d / 256 + 1) - s (d / 256)) * (d % 256) + 128) / 256
      0 ≤ d / 256 ∧ d / 256 + 1 ≤ 721 ∧ r.2 = mixed (params.getD 3 0) x wet ∧
      lineRead r.1.line st.position = (if params.getD 0 0 = 1 then
        max (-8388608) (min 8388607 (x + scale wet ((2 * (65536 * params.getD 4 0) + 100) / 200))) else x) ∧
      ∀ i, i ≠ st.position → lineRead r.1.line i = lineRead st.line i) ∧
    (params.getD 0 0 = 3 →
      r.1.line = st.line ∧ r.2 = mixed (params.getD 3 0) x (scale x (65536 - depth * tri / 100)))) ∧
  (∀ (store : Store) (prev new : Nat) (st : Stage) (xs : List Int),
    let r := st.run store prev new xs
    let p := kindBlock store st prev new xs
    let runs := st.placeholder = false ∧ st.kind ≠ .none ∧ (st.ramp ≠ .off ∨ st.tailMode = true)
    (¬ runs → r = (st, xs, [])) ∧
    (runs → r.1 = { st with state := p.state, factors := factorsOf st.kind st.currents p.state } ∧ r.2.2 = p.wet ∧
      r.2.1.length = xs.length ∧ p.output.length = xs.length ∧
      ∀ (i : Nat) (x y : Int), xs[i]? = some x → p.output[i]? = some y →
        let crossed := fun w : Int => max (-8388608) (min 8388607 (x + ((y - x) * w + 16) / 32))
        r.2.1[i]? = some (match st.ramp with
          | .on => y
          | .off => x
          | .rampOn => crossed (i + 1)
          | .rampOff => crossed (31 - i)))) ∧
  (∀ (store : Store) (prev new : Nat) (st : Stage) (xs : List Int),
    let p := kindBlock store st prev new xs
    let current := fun i => st.currents.getD i 0
    let code := peakCode (blockPeak xs)
    let ramp := fun (j : Nat) (goal : Int) (i : Nat) => -- the ramped factor of R16
      st.factors.getD j 0 + (goal - st.factors.getD j 0) * ((i : Int) + 1) / 32
    let scaled := fun (j : Nat) (goal : Int) (ys : List Int) =>
      p.wet = [] ∧ p.output.length = xs.length ∧
      ∀ (i : Nat) (y : Int), ys[i]? = some y → p.output[i]? = some (scale y (ramp j goal i))
    (∀ g c h, st.kind = .gate → st.state = .gate g c h →
      let n := gateStep st.currents code g c h
      p.state = .gate n.1 n.2.1 n.2.2 ∧ scaled 0 (attenuation n.2.1) xs) ∧
    (∀ gr, st.kind = .comp → st.state = .comp gr →
      let n := compStep st.currents code gr
      p.state = .comp n ∧ scaled 0 (levelGain (current 4 - n)) xs) ∧
    (∀ hs, st.kind = .amp → st.state = .sections hs →
      let used := if current 3 = 255 then 0 else (current 4).toNat
      let sample := fun (hs : List History) (i : Nat) (x : Int) =>
        let y := scale x (ramp 0 (levelGain (current 0)) i)
        runSections used (filterInForce store (current 3)) hs
          (shape (curvePoint store (current 2).toNat) (max (-8388608) (min 8388607 (y + current 1 * 16384))))
      let n := overBlock sample hs 0 xs
      p.state = .sections n.1 ∧ scaled 1 (attenuation (current 5)) n.2) ∧
    (∀ hs, st.kind = .eq → st.state = .sections hs →
      let n := overBlock (fun hs _ x => runSections (current 1).toNat (filterInForce store (current 0)) hs x) hs 0 xs
      p.state = .sections n.1 ∧ scaled 0 (levelGain (current 2)) n.2) ∧
    (∀ history, st.kind = .cab → st.state = .cab history →
      let n := overBlock (fun h _ x => cabStep (tapsInForce store (current 0)) (current 1).toNat h x) history 0 xs
      p.state = .cab n.1 ∧ scaled 0 (levelGain (current 2)) n.2) ∧
    (∀ line position phase, st.kind = .mod → st.state = .mod line position phase →
      let n := overBlock (fun m _ x => modStep st.currents m x) ⟨line, position, phase⟩ 0 xs
      p = ⟨.mod n.1.line n.1.position n.1.phase, n.2, []⟩) ∧
    (∀ line position, st.kind = .delay → st.state = .delay line position →
      let step := delayStep st.currents st.delayCurrent
      let m := current 5
      (st.tailMode = false →
        let n := overBlock (fun l _ x => ((step l x).1, mixed m x (step l x).2)) ⟨line, position⟩ 0 xs
        p = ⟨.delay n.1.line n.1.position, n.2, []⟩) ∧
      (st.tailMode = true →
        let weight := fun i : Nat => 32 * (prev : Int) + ((new : Int) - prev) * ((i : Int) + 1)
        let n := overBlock (fun l i x => step l ((x * weight i + 4096) / 8192)) ⟨line, position⟩ 0 xs
        p = ⟨.delay n.1.line n.1.position, xs.map (fun x => x - (x * m + 50) / 100),
          n.2.map (fun w => (w * m + 50) / 100)⟩)) ∧
    (st.kind = .vol → p.state = st.state ∧ scaled 0 (attenuation (current 0)) xs)) ∧
  (∀ (n : Nat) (c : Coeffs) (cs : List Coeffs) (h : History) (hs : List History) (x : Int),
    let r := sectionStep c h x
    let rest := runSections n cs hs r.2
    runSections 0 cs hs x = (hs, x) ∧ runSections (n + 1) (c :: cs) (h :: hs) x = (r.1 :: rest.1, rest.2)) ∧
  (∀ (f : List History → Nat → Int → List History × Int) (st : List History) (i : Nat) (x : Int) (xs : List Int),
    let r := f st i x
    let rest := overBlock f r.1 (i + 1) xs
    overBlock f st i [] = (st, []) ∧ overBlock f st i (x :: xs) = (rest.1, r.2 :: rest.2))

/-- R26, R27: the gate's states over a block, and its gain code in each of them: limited to the depth first, then moved by the
attack step ceil(d / a) or the release step ceil(d / r), 0 in OPEN and HOLDING, the depth in CLOSED. GATE_HOLD_EXPIRY (R26):
the hold of a GATE of LIVE ends in the block that this block start closes. -/
def Obligations.GateStatesAndHoldExpiry : Prop :=
  (∀ (params : List Int) (c g hold : Int),
     let thr := params.getD 0 0
     let quiet := thr + params.getD 1 0
     let d := params.getD 5 0
     0 ≤ d → 0 ≤ g → 0 < params.getD 2 0 → 0 < params.getD 3 0 → 0 ≤ params.getD 4 0 →
     let st := fun x => (gateStep params c x g hold).1
     let gain := fun x => (gateStep params c x g hold).2.1
     let counter := fun x => (gateStep params c x g hold).2.2
     (c ≤ thr → (st .closed = .opening ∧ st .holding = .opened ∧ st .closing = .opening)) ∧
     (thr < c → st .closed = .closed ∧ gain .closed = d) ∧
     (gain .opening = 0 → st .opening = .opened) ∧ (0 < gain .opening → st .opening = .opening) ∧
     (c ≤ quiet → st .opened = .opened) ∧
     (quiet < c → 0 < params.getD 4 0 → st .opened = .holding ∧ counter .opened = params.getD 4 0) ∧
     (quiet < c → params.getD 4 0 = 0 → st .opened = .closing) ∧
     (thr < c → hold ≤ 1 → st .holding = .closing) ∧
     (thr < c → 1 < hold → st .holding = .holding ∧ counter .holding = hold - 1) ∧
     (thr < c → gain .closing = d → st .closing = .closed) ∧ (thr < c → gain .closing < d → st .closing = .closing) ∧
     (∀ x, 0 ≤ gain x ∧ gain x ≤ d) ∧
     let held := fun x : GateState => if x = .closed then d else min g d
     let attacked := fun x => max 0 (held x - (d + params.getD 2 0 - 1) / params.getD 2 0)
     let released := fun x => min d (held x + (d + params.getD 3 0 - 1) / params.getD 3 0)
     gain .opening = attacked .opening ∧
     (c ≤ thr → gain .closed = attacked .closed ∧ gain .closing = attacked .closing ∧ gain .holding = 0) ∧
     (c ≤ quiet ∨ 0 < params.getD 4 0 → gain .opened = 0) ∧
     (quiet < c → params.getD 4 0 = 0 → gain .opened = released .opened) ∧
     (thr < c → (1 < hold → gain .holding = 0) ∧ (hold ≤ 1 → gain .holding = released .holding) ∧
       gain .closing = released .closing)) ∧
  (∀ (s : State) (p : Nat) (before after : Stage) (g g' : Int) (h h' : Int), s.port.ready = true → s.grid.done = 0 →
     s.engine.live.stages[p]? = some before → before.state = .gate .holding g h →
     s.closeWork.engine.live.stages[p]? = some after → after.state = .gate .closing g' h' →
     ∃ t, exec .gateHoldExpiry s = .next t ∧ t.engine.live.stages[p]? = some after ∧
       t.link.blockCount = s.link.blockCount + 1 ∧ t.report.periodCount = s.report.periodCount + 1 ∧ t.grid.done = 1 ∧
       t.requests = s.requests ∧ t.port = s.port ∧ t.ram = s.ram ∧ t.mapper = s.mapper ∧ t.tuner = s.tuner)

/-- BLOCK_START (R5, R9; the order of its works is the model's, log 4): every work not yet done runs in order, and the next
block takes its samples. Its first work forms the block that has ended, from the samples that came during it (that a block is
processed at the block start that closes it is the model's reading, DEDUCED in log 6, and that what it delivers is kept in
State is the model's choice, log 29): the chain input, each input scaled by the ramped trim factor and then crossed from the
input left, as R59 says (R60 words it the other way: the model's reading, DEDUCED in log 46); the banks that are processed,
both of them in FADING, the bank mix at the ramped weights, the wet parts beside it, and the CHAIN sample at the start gain
(R126, R127, R139), with the weights in force after it; silence while RUN is clear (R10); and every channel of every sink:
the muted and the unmuted sum of its entries' parts (R65, R66), crossed while its route is (R68), at the mute gain (R72),
saturated; the crossfade's sample counter, which 32 samples raise (R68), and what the tap points of the sinks and of CHAIN
gather (R62, R63); a tail's block, on silent input, and its wet part at full weight in the sum (R131); the reference tone:
its ramp, phase and increment at a block start and its samples over a block (R70, R71; the increment of a note 0 is log 44's,
the literals of the sine table are log 20's). -/
def Obligations.BlockStartRunsWorksInOrder : Prop :=
  (∀ s : State, s.port.ready = true →
    ∃ t, exec .blockStart s = .next t ∧ t.grid = ⟨0, true, [], []⟩ ∧ t.pending = s.pending ∧
      t.requests.queue = s.requests.queue ∧ t.port.run = s.port.run ∧ t.port.enables = s.port.enables ∧
      t = State.openBlock ((([.close, .tailQuiet, .tailAge, .learn, .window, .profile, .collect, .tables, .stage, .restage,
        .dipTurn, .fadeEnd, .dipEnd, .stop, .restart, .directCopy, .advance, .impulse, .engine, .trim, .routeEnd,
        .routeStart, .mute, .referral, .event, .page] : List Work).drop s.grid.done).foldl (fun b w => w.run b)
          { s with grid := { s.grid with done := 0 } })) ∧
  (∀ s : State, s.grid.opened = true →
    let t := Work.close.run s
    let chain := s.input.chainInput s.grid.samplesA s.grid.samplesB
    let tr := s.transition
    t.input = { s.input with
      crossFrom := none, trimFactor := levelGain s.input.trimCurrent, trimGoal := s.input.trimTarget } ∧
    t.router.tone = (s.router.tone.block chain.length).1 ∧
    (s.engine.running = true →
      t.engine.live.stages = (chainBlock s.store s.engine tr chain).live ∧
      t.engine.other.stages = (chainBlock s.store s.engine tr chain).next ∧
      t.engine.tails = (chainBlock s.store s.engine tr chain).tails ∧
      t.router.delivered =
        (s.router.block (chainBlock s.store s.engine tr chain).chain s.grid.samplesA s.grid.samplesB).delivered ∧
      t.router = { s.router.block (chainBlock s.store s.engine tr chain).chain s.grid.samplesA s.grid.samplesB with
        chain := t.router.chain } ∧
      t.router.chain.clips = s.router.chain.clips +
        ((chainBlock s.store s.engine tr chain).sums.filter fun v => decide (v < -8388608 ∨ 8388607 < v)).length ∧
      (0 ≤ s.router.chain.peak → t.router.chain.peak =
        max s.router.chain.peak (blockPeak (chainBlock s.store s.engine tr chain).chain)) ∧
      t.transition.liveWeight = tr.liveNew ∧ t.transition.nextWeight = tr.nextNew ∧ t.transition.loadFigure = tr.blockLoad) ∧
    (s.engine.running = false →
      t.engine.live.stages = s.engine.live.stages ∧ t.engine.other.stages = s.engine.other.stages ∧
      t.engine.tails = s.engine.tails ∧
      t.router.delivered = (s.router.block (chain.map fun _ => 0) s.grid.samplesA s.grid.samplesB).delivered ∧
      t.router = { s.router.block (chain.map fun _ => 0) s.grid.samplesA s.grid.samplesB with chain := t.router.chain } ∧
      (0 ≤ s.router.chain.peak → t.router.chain = s.router.chain) ∧
      t.transition.liveWeight = tr.liveWeight ∧ t.transition.nextWeight = tr.nextWeight)) ∧
  (∀ (store : Store) (n : Nat) (t : Tail) (rest : List Tail),
    let r := t.stage.run store 0 0 (List.replicate n 0)
    let others := runTails store n rest
    runTails store n [] = ([], []) ∧
    (runTails store n (t :: rest)).1 = { t with stage := r.1, wetPeak := blockPeak r.2.2 } :: others.1 ∧
    ∀ i, (runTails store n (t :: rest)).2.getD i 0 = r.2.2.getD i 0 + others.2.getD i 0) ∧
  (∀ (store : Store) (e : Engine) (tr : Transition) (xs : List Int),
    let c := chainBlock store e tr xs
    let bankRun := fun (b : Bank) (prev new : Nat) =>
      if tr.state = .fading ∨ 0 < prev ∨ 0 < new then runStages store prev new b.stages xs
      else (b.stages, xs.map (fun _ => 0), [])
    let live := bankRun e.live tr.liveWeight tr.liveNew
    let next := bankRun e.other tr.nextWeight tr.nextNew
    let tails := runTails store xs.length e.tails
    c.live = live.1 ∧ c.next = next.1 ∧ c.tails = tails.1 ∧ c.sums.length = xs.length ∧ c.chain.length = xs.length ∧
    ∀ i, i < xs.length → ∃ l n, live.2.1[i]? = some l ∧ next.2.1[i]? = some n ∧
      let weight := fun prev new : Nat => (32 * prev : Int) + ((new : Int) - prev) * ((i : Int) + 1)
      let sum := (l * weight tr.liveWeight tr.liveNew + n * weight tr.nextWeight tr.nextNew + 4096) / 8192 +
        live.2.2.getD i 0 + next.2.2.getD i 0 + tails.2.getD i 0
      let gain := (tr.startGainPrev : Int) + ((tr.startGain : Int) - tr.startGainPrev) * ((i : Int) + 1) / 32
      c.sums[i]? = some sum ∧ c.chain[i]? = some ((max (-8388608) (min 8388607 sum) * gain + 128) / 256)) ∧
  (∀ (k : Sink) (bypass : Bool) (was mute : Nat) (src : List Sources),
    let part := fun (x : Sources) (e : RouteEntry) (side : Int) =>
      if e.source = .off then 0 else (scale (x.of e.source) (levelGain e.level) * side + 64) / 128
    let mutedSum := fun (x : Sources) (side : RouteEntry → Int) (r : List RouteEntry) =>
      (r.map fun e => if bypass = true ∧ e.source = .tone then 0 else part x e (side e)).sum
    let toneSum := fun (x : Sources) (side : RouteEntry → Int) (r : List RouteEntry) =>
      (r.map fun e => if bypass = true ∧ e.source = .tone then part x e (side e) else 0).sum
    let crossed := fun (i : Nat) (f : List RouteEntry → Int) => match k.fade with
      | none => f k.route
      | some g => (f k.route * (256 - (g.samples + i + 1)) + f g.incoming * (g.samples + i + 1) + 128) / 256
    let gain := fun i : Nat => (was : Int) + ((mute : Int) - was) * ((i : Int) + 1) / 32
    let value := fun (side : RouteEntry → Int) (i : Nat) (x : Sources) =>
      (crossed i (mutedSum x side) * gain i + 128) / 256 + crossed i (toneSum x side)
    let left := fun e : RouteEntry => 64 - e.pan
    let right := fun e : RouteEntry => 64 + e.pan
    let clips := fun side => ((src.mapIdx (value side)).filter fun v => decide (v < -8388608 ∨ 8388607 < v)).length
    let r := k.block bypass was mute src
    r.2.left.length = src.length ∧ r.2.right.length = src.length ∧
    (∀ (i : Nat) (x : Sources), src[i]? = some x →
      r.2.left[i]? = some (max (-8388608) (min 8388607 (value left i x))) ∧
      r.2.right[i]? = some (max (-8388608) (min 8388607 (value right i x)))) ∧
    r.1 = { k with left := r.1.left, right := r.1.right, fade := k.fade.map fun f => { f with samples := f.samples + 32 } } ∧
    r.1.left.clips = k.left.clips + clips left ∧ r.1.right.clips = k.right.clips + clips right ∧
    (0 ≤ k.left.peak → r.1.left.peak = max k.left.peak (blockPeak r.2.left)) ∧
    (0 ≤ k.right.peak → r.1.right.peak = max k.right.peak (blockPeak r.2.right))) ∧
  (∀ (r : Router) (chain a b : List Int),
    let src := blockSources chain a b (r.tone.block chain.length).2
    (r.block chain a b).main = (r.main.block false r.mainMutePrev r.mainMute src).1 ∧
    (r.block chain a b).stage = (r.stage.block false r.mainMutePrev r.mainMute src).1 ∧
    (r.block chain a b).phones = (r.phones.block true r.phonesMutePrev r.phonesMute src).1 ∧
    (r.block chain a b).delivered = [(r.main.block false r.mainMutePrev r.mainMute src).2,
      (r.stage.block false r.mainMutePrev r.mainMute src).2, (r.phones.block true r.phonesMutePrev r.phonesMute src).2]) ∧
  (∀ (i : InputSection) (a b : List Int),
    let side := fun id : InputId => match id with
      | .a => a
      | .b => b
    (i.chainInput a b).length = (side i.selected).length ∧
    ∀ (k : Nat) (x : Int), (side i.selected)[k]? = some x →
      let f := i.trimFactor + (levelGain i.trimCurrent - i.trimFactor) * ((k : Int) + 1) / 32
      (i.crossFrom = none → (i.chainInput a b)[k]? = some (scale x f)) ∧
      (∀ left o, i.crossFrom = some left → (side left)[k]? = some o →
        (i.chainInput a b)[k]? =
          some (max (-8388608) (min 8388607 (scale o f + ((scale x f - scale o f) * ((k : Int) + 1) + 16) / 32))))) ∧
  (∀ (tone : Tone) (t : Tuner),
    let asked := t.state ≠ .off ∧ t.toneNote ≠ 0
    let n := t.toneNote
    let tone' := tone.atBlockStart t
    let g := tone'.increment
    (tone.ramp = .off → (asked → tone'.ramp = .rampOn ∧ tone'.phase = 0) ∧ (¬ asked → tone'.ramp = .off)) ∧
    (tone.ramp = .rampOn → (asked → tone'.ramp = .on) ∧ (¬ asked → tone'.ramp = .rampOff)) ∧
    (tone.ramp = .on → (asked → tone'.ramp = .on) ∧ (¬ asked → tone'.ramp = .rampOff)) ∧
    (tone.ramp = .rampOff → (asked → tone'.ramp = .rampOn) ∧ (¬ asked → tone'.ramp = .off)) ∧
    (tone.ramp ≠ .off → tone'.phase = tone.phase) ∧
    (n = 0 → g = tone.increment) ∧
    (28 ≤ n → n ≤ 96 → 4000 ≤ t.reference → t.reference ≤ 4800 → 1 ≤ g ∧
      -- (2g − 1)/2 ≤ (reference / 10) × 2^((n − 69)/12) × 2^32 / 48000 < (2g + 1)/2
      ((2 * g - 1) * 480000) ^ 12 * 2 ^ (69 - n) ≤ (2 * t.reference * 2 ^ 32) ^ 12 * 2 ^ (n - 69) ∧
      (2 * t.reference * 2 ^ 32) ^ 12 * 2 ^ (n - 69) < ((2 * g + 1) * 480000) ^ 12 * 2 ^ (69 - n))) ∧
  (∀ (tone : Tone) (n : Nat), tone.phase < 2 ^ 32 →
    let r := tone.block n
    r.2.length = n ∧ r.1.ramp = tone.ramp ∧ r.1.increment = tone.increment ∧
    (tone.ramp = .off → r.1.phase = tone.phase ∧ ∀ k, k < n → r.2[k]? = some 0) ∧
    (tone.ramp ≠ .off → r.1.phase = (tone.phase + n * tone.increment) % 2 ^ 32 ∧ ∀ k : Nat, k < n →
      let t := scale (sineAt ((tone.phase + k * tone.increment) % 2 ^ 32)) 6554
      (tone.ramp = .on → r.2[k]? = some t) ∧
      (tone.ramp = .rampOn → r.2[k]? = some ((t * ((k : Int) + 1) + 16) / 32)) ∧
      (tone.ramp = .rampOff → r.2[k]? = some ((t * (31 - (k : Int)) + 16) / 32)))) ∧
  (∀ phase : Nat, phase < 2 ^ 32 →
    let j := phase / 2 ^ 24
    let g : Int := (phase % 2 ^ 24 / 256 : Nat)
    sineAt phase = sineTable j + ((sineTable (if j < 255 then j + 1 else 0) - sineTable j) * g + 32768) / 65536) ∧
  (sineTable 0 = 0 ∧ sineTable 64 = 8388607 ∧ sineTable 128 = 0 ∧ sineTable 192 = -8388607 ∧
    (∀ j, j ≤ 64 → sineTable (128 - j) = sineTable j ∧ sineTable (128 + j) = -sineTable j) ∧
    (∀ j, 1 ≤ j → j < 64 → sineTable (256 - j) = -sineTable j ∧ sineTable (j - 1) < sineTable j) ∧
    toneIncrement 4400 69 = 39370534)

/-- The model's choices (log 3, log 5): a command that names one event of a block start runs the block start up to that event
and the event, where it is due, and otherwise changes nothing; and naming an event and then taking the block start comes to
the same as taking the block start alone. -/
def Obligations.EventRowsArePartOfTheBlockStart : Prop :=
  (∀ (c : Instr) (w : Work) (due : State → Bool), (c, w, due) ∈ eventRows → ∀ s : State,
     (s.yetTo w → due (s.before w) = true →
       ∃ t, exec c s = .next t ∧ t = { w.run (s.before w) with grid := { (w.run (s.before w)).grid with done := w.place + 1 } }) ∧
     (¬ (s.yetTo w ∧ due (s.before w) = true) → exec c s = .next s)) ∧
  (∀ (c : Instr) (w : Work) (due : State → Bool), (c, w, due) ∈ eventRows → ∀ s t : State, exec c s = .next t →
     exec .blockStart t = exec .blockStart s)

/-! ## Arithmetic -/

/-- R2: G(c) = round(65536 × 10^(c/40)), halves up, for the codes the part uses: said by 40th powers. The reference values of
R2; scale; the attenuation codes. R3: the block peak, and the peak code of p: the smallest c in 0..240 with p ≥ Th(c), and
255 where none qualifies. -/
def Obligations.LevelsAndPeakCodes : Prop :=
  ((∀ c : Int, -127 ≤ c → c ≤ 120 →
     let g := (levelGain c).toNat
     0 ≤ levelGain c ∧ 1 ≤ g ∧
     -- (2g − 1)/2 ≤ 65536 × 10^(c/40) < (2g + 1)/2
     (2 * g - 1) ^ 40 * 10 ^ (-c).toNat ≤ 131072 ^ 40 * 10 ^ c.toNat ∧
     131072 ^ 40 * 10 ^ c.toNat < (2 * g + 1) ^ 40 * 10 ^ (-c).toNat) ∧
   levelGain 0 = 65536 ∧ levelGain 40 = 655360 ∧ levelGain 120 = 65536000 ∧ levelGain (-12) = 32846 ∧
   levelGain (-40) = 6554 ∧
   (∀ x g : Int, scale x g = max (-8388608) (min 8388607 ((x * g + 32768) / 65536))) ∧
   (∀ a : Int, a ≠ 127 → attenuation a = levelGain (-a)) ∧ attenuation 127 = 0) ∧
  ((∀ p : Int, 0 ≤ p →
     (∀ c : Nat, c ≤ 240 → (peakCode p = c ↔ (peakThreshold c : Int) ≤ p ∧ ∀ d, d < c → p < peakThreshold d)) ∧
     (peakCode p = 255 ↔ ∀ c, c ≤ 240 → p < peakThreshold c)) ∧
   (∀ c : Nat, c ≤ 240 →
     let g := peakThreshold c
     (2 * g - 1) ^ 40 * 10 ^ c ≤ 16777214 ^ 40 ∧ 16777214 ^ 40 < (2 * g + 1) ^ 40 * 10 ^ c) ∧
   (∀ xs : List Int, (∀ x, x ∈ xs → (x.natAbs : Int) ≤ blockPeak xs) ∧
     (xs ≠ [] → ∃ x, x ∈ xs ∧ blockPeak xs = x.natAbs)))

/-! ## Invariants -/

/-- The invariants of the reset state. -/
def Obligations.ResetStateIsSound : Prop :=
  State.reset.memoryOk ∧ State.reset.intOk ∧ State.reset.requests.exact ∧ State.reset.engine.ok ∧ State.reset.readyOk ∧
  State.reset.store.withinBudget ∧ State.reset.store.scenesLegal ∧ State.reset.tablesOk

/-- Exchange RAM keeps its canonical form at every step, so that equal contents are equal data. -/
def Obligations.StepKeepsMemoryCanonical : Prop :=
  ∀ s t : State, s.memoryOk → step s = .next t → t.memoryOk

/-- At every step the post queue stays exactly the POSTED slots, each once, in a table of 32 (R185); INT stays asserted exactly
while a bit of SIGNAL is set together with its enable (R191); and while READY is 0 the port and the post queue stay cleared
(R182). -/
def Obligations.StepKeepsPortSound : Prop :=
  (∀ s t : State, s.requests.exact → step s = .next t → t.requests.exact) ∧
  (∀ s t : State, s.intOk → s.readyOk → step s = .next t → t.intOk ∧ t.readyOk)

/-- At every step one bank stays LIVE, an IDLE bank stays empty with scene 255 (R6), there are at most two tails (R131), and
every stored scene stays within the budget of load and lanes (R106); every stored scene stays a legal record (R103, R104,
R107); and the profiles' names keep their 8 characters and the unit table its 8 entries (R75, R163). -/
def Obligations.StepKeepsBanksAndBudget : Prop :=
  (∀ s t : State, s.engine.ok → s.store.withinBudget → step s = .next t → t.engine.ok ∧ t.store.withinBudget) ∧
  (∀ s t : State, s.store.scenesLegal → step s = .next t → t.store.scenesLegal) ∧
  (∀ s t : State, s.tablesOk → step s = .next t → t.tablesOk)
end

