-- ==== Sys2Proof/Laws/Figures.lean ====
section
/-! SUPPORT. What the host is shown: each field of an image reads back what was written where no two share a byte, a page
holds the figures of R194 where 11.2 places them, and what a run of samples adds to a meter (R62, R63). -/

namespace Sys2Proof.Machine

/-! ## Fields of an image -/

/-- Two fields of an image share no byte. -/
def Field.apart (f g : Field) : Prop := g.offset + g.size ≤ f.offset ∨ f.offset + f.size ≤ g.offset

/-- Fields, as offset and size, that follow each other. -/
def inOrder : List (Nat × Nat) → Bool
  | a :: b :: l => decide (a.1 + a.2 ≤ b.1) && inOrder (b :: l)
  | _ => true

theorem readLE_writeFields_mem {m : Ram} (w : Memory.wf m = true) {base : Nat} {fs : List Field}
    (hd : fs.Pairwise Field.apart) {f : Field} (hf : f ∈ fs) (hb : base + f.offset + f.size ≤ 0x8000) :
    readLE (writeFields m base fs) (base + f.offset) f.size = (f.value % 256 ^ f.size).toNat := by
  obtain ⟨before, after, rfl⟩ := List.append_of_mem hf
  rw [List.pairwise_append] at hd
  exact readLE_writeFields w before f after (List.pairwise_cons.1 hd.2.1).1 hb

theorem inOrder_tail {a : Nat × Nat} {l : List (Nat × Nat)} (h : inOrder (a :: l) = true) : inOrder l = true := by
  cases l with
  | nil => rfl
  | cons c l => simp only [inOrder, Bool.and_eq_true] at h; exact h.2

theorem inOrder_le {a : Nat × Nat} {l : List (Nat × Nat)} (h : inOrder (a :: l) = true) : ∀ b ∈ l, a.1 + a.2 ≤ b.1 := by
  induction l generalizing a with
  | nil => intro b hb; cases hb
  | cons c l ih =>
    simp only [inOrder, Bool.and_eq_true, decide_eq_true_eq] at h
    intro b hb
    rcases List.mem_cons.1 hb with rfl | hb
    · exact h.1
    · have := ih h.2 b hb
      omega

theorem apart_of_inOrder {fs : List Field} (h : inOrder (fs.map fun f => (f.offset, f.size)) = true) :
    fs.Pairwise Field.apart := by
  induction fs with
  | nil => exact .nil
  | cons f fs ih =>
    exact .cons (fun g hg => .inr (inOrder_le h (g.offset, g.size) (List.mem_map.2 ⟨g, hg, rfl⟩))) (ih (inOrder_tail h))

theorem mem_mapIdx_of {α β : Type} {l : List α} {k : Nat} {x : α} (h : l[k]? = some x) (f : Nat → α → β) :
    f k x ∈ l.mapIdx f := by
  obtain ⟨hk, rfl⟩ := List.getElem?_eq_some_iff.1 h
  exact List.mem_mapIdx.2 ⟨k, hk, rfl⟩

/-- Each byte of a field of four that reads 0 reads 0. -/
theorem readLE_zero4 {m : Ram} {a : Nat} (h : readLE m a 4 = 0) : ∀ k, k < 4 → readLE m (a + k) 1 = 0 := by
  intro k hk
  simp only [readLE] at h ⊢
  have h1 : a + 1 + 1 = a + 2 := rfl
  have h2 : a + 2 + 1 = a + 3 := rfl
  rw [h1, h2] at h
  rcases (by omega : k = 0 ∨ k = 1 ∨ k = 2 ∨ k = 3) with rfl | rfl | rfl | rfl <;>
    first
    | omega
    | (show (readByte m a).toNat + 256 * 0 = 0; omega)

/-! ## The readout page (R194, 11.2) -/

theorem State.meters_eq (s : State) : s.meters = metersShown s := rfl

/-- Fields that end below a place stand apart from fields that begin there or beyond. -/
theorem apart_append {low high : List Field} (place : Nat)
    (hl : inOrder (low.map (fun f => (f.offset, f.size)) ++ [(place, 0)]) = true) (hh : high.Pairwise Field.apart)
    (hb : ∀ f ∈ high, place ≤ f.offset) : (low ++ high).Pairwise Field.apart := by
  induction low with
  | nil => exact hh
  | cons f low ih =>
    refine .cons (fun g hg => .inr ?_) (ih (inOrder_tail hl))
    have hle := inOrder_le hl
    rcases List.mem_append.1 hg with h | h
    · exact hle (g.offset, g.size) (List.mem_append_left _ (List.mem_map.2 ⟨g, h, rfl⟩))
    · have := hle (place, 0) (by simp)
      have := hb g h
      dsimp only at *
      omega

/-- No two fields of a page share a byte. -/
theorem pageFields_apart {s : State} (serial : Word) (hp : (s.store.profiles.getD s.input.active .reset).name.length = 8)
    (hu : s.link.units.length = 8) : (s.pageFields serial).Pairwise Field.apart := by
  generalize hn : (s.store.profiles.getD s.input.active .reset).name = name at hp
  generalize hun : s.link.units = units at hu
  unfold State.pageFields State.periodFields State.engineFields State.otherFields
  rw [hn, hun, ← List.append_assoc, ← List.cons_append]
  refine apart_append 0x68 ?_ ?_ ?_
  · match name, hp, units, hu with
    | [_, _, _, _, _, _, _, _], _, [_, _, _, _, _, _, _, _], _ => rfl
  · rw [List.pairwise_map]
    exact List.pairwise_lt_range.imp fun h => .inr (by dsimp only; omega)
  · intro f hf
    obtain ⟨i, _, rfl⟩ := List.mem_map.1 hf
    dsimp only
    omega

theorem lanesInUse_eq (e : Engine) :
    (e.lanesInUse : Int) = lanesHeld e.live.stages + lanesHeld e.other.stages + lanesHeld (e.tails.map (·.stage)) := by
  have one : ∀ l : List Stage, ((lanesOf l).length : Int) = lanesHeld l := by
    intro l
    unfold lanesOf lanesHeld
    rw [List.length_flatten, List.map_map]
    rfl
  unfold Engine.lanesInUse
  rw [List.length_append, List.length_append]
  push_cast
  rw [one, one, one]
  unfold Engine.live Engine.other tailStages
  cases e.aIsLive <;> simp <;> omega

/-- The bytes of a page in place, the figures of R194 stand where 11.2 places them. -/
theorem pageHolds_of {m : Ram} {page : Nat} {s : State} {serial : Word}
    (hr : ∀ f ∈ s.pageFields serial, readLE m (page + f.offset) f.size = (f.value % 256 ^ f.size).toNat) :
    pageHolds m page s := by
  have at' : ∀ f, f ∈ s.periodFields ∨ f ∈ s.engineFields ∨ f ∈ s.otherFields →
      readLE m (page + f.offset) f.size = (f.value % 256 ^ f.size).toNat := by
    intro f hf
    refine hr f ?_
    unfold State.pageFields
    simp only [List.mem_cons, List.mem_append]
    rcases hf with h | h | h
    · exact .inr (.inl (.inl h))
    · exact .inr (.inl (.inr h))
    · exact .inr (.inr h)
  have P : ∀ (o sz : Nat) (v : Int), (⟨o, sz, v⟩ : Field) ∈ s.periodFields → readLE m (page + o) sz = (v % 256 ^ sz).toNat :=
    fun o sz v h => at' ⟨o, sz, v⟩ (.inl h)
  have E : ∀ (o sz : Nat) (v : Int), (⟨o, sz, v⟩ : Field) ∈ s.engineFields → readLE m (page + o) sz = (v % 256 ^ sz).toNat :=
    fun o sz v h => at' ⟨o, sz, v⟩ (.inr (.inl h))
  have O : ∀ (o sz : Nat) (v : Int), (⟨o, sz, v⟩ : Field) ∈ s.otherFields → readLE m (page + o) sz = (v % 256 ^ sz).toNat :=
    fun o sz v h => at' ⟨o, sz, v⟩ (.inr (.inr h))
  unfold pageHolds
  dsimp only
  have nat1 : ∀ n : Nat, ((n : Int) % 256 ^ 1).toNat = n % 256 := by intro n; omega
  have nat2 : ∀ n : Nat, ((n : Int) % 256 ^ 2).toNat = n % 65536 := by intro n; omega
  have shown : s.tuner.shown = s.tuner.reads.2 ∧ s.tuner.state.code = s.tuner.reads.1 := by
    unfold Tuner.reads Tuner.shown
    cases s.tuner.state <;> cases s.tuner.run.getLast? <;> exact ⟨rfl, rfl⟩
  refine ⟨fun k x hx => ⟨?_, ?_⟩, ?_, ?_, ?_, ?_, ?_, fun x hx => ?_, fun hx => ?_,
    ?_, ?_, ?_, ?_, ?_, ?_, fun p hp => ⟨?_, ?_⟩, ?_, ?_, ?_, ?_, ?_, ?_, ?_, ?_, ?_, ?_, ?_,
    fun i c hc => ?_, fun i u hu => ?_, fun o ho ho' => ?_⟩
  · rw [P (4 + k) 1 (peakCode x.peak)]
    · have : (0 : Int) ≤ peakCode x.peak := by unfold peakCode; split <;> omega
      omega
    · unfold State.periodFields; rw [State.meters_eq]
      simp only [List.mem_append]
      exact .inl (.inl (.inl (mem_mapIdx_of hx _)))
  · rw [P (0xE + 2 * k) 2 x.clips, nat2]
    unfold State.periodFields; rw [State.meters_eq]
    simp only [List.mem_append]
    exact .inl (.inr (mem_mapIdx_of hx _))
  · rw [P 0xD 1 0 (by simp [State.periodFields])]; rfl
  · rw [P 0x20 2 s.input.inputA.crackles (by simp [State.periodFields]), nat2]
  · rw [P 0x22 2 s.input.inputB.crackles (by simp [State.periodFields]), nat2]
  · rw [E 0x24 1 s.sceneNumbers.1 (by simp [State.engineFields]), nat1]; rfl
  · rw [E 0x25 1 s.sceneNumbers.2.1 (by simp [State.engineFields]), nat1]; rfl
  · rw [E 0x26 1 s.sceneNumbers.2.2 (by simp [State.engineFields]), nat1]
    simp [State.sceneNumbers, hx]
  · rw [E 0x26 1 s.sceneNumbers.2.2 (by simp [State.engineFields]), nat1]
    simp [State.sceneNumbers, hx]
  · rw [E 0x27 1 s.transition.state.code (by simp [State.engineFields]), nat1]
    cases s.transition.state <;> rfl
  · rw [E 0x28 2 s.transition.liveWeight (by simp [State.engineFields]), nat2]
  · rw [E 0x2A 2 s.transition.nextWeight (by simp [State.engineFields]), nat2]
  · rw [E 0x2C 2 s.transition.loadFigure (by simp [State.engineFields]), nat2]
  · rw [E 0x2E 1 s.engine.lanesInUse (by simp [State.engineFields]), nat1]
    rw [← lanesInUse_eq]
    exact Int.natCast_emod _ 256
  · rw [E 0x2F 1 s.engine.tails.length (by simp [State.engineFields]), nat1]
  · rw [E (0x30 + p) 1 (s.engine.live.stages.getD p .none).gateFigure]
    · unfold Stage.gateFigure gateShown
      cases (s.engine.live.stages.getD p .none).state <;> try rfl
      rename_i g _ _; cases g <;> rfl
    · unfold State.engineFields
      simp only [List.mem_append, List.mem_map, List.mem_range]
      exact .inl (.inl (.inr ⟨p, hp, rfl⟩))
  · rw [E (0x3C + p) 1 (s.engine.live.stages.getD p .none).compFigure]
    · have : (s.engine.live.stages.getD p .none).compFigure = reductionShown (s.engine.live.stages.getD p .none) := rfl
      rw [this]; omega
    · unfold State.engineFields
      simp only [List.mem_append, List.mem_map, List.mem_range]
      exact .inl (.inr ⟨p, hp, rfl⟩)
  · rw [E 0x48 2 s.engine.tempo (by simp [State.engineFields]), nat2]
  · rw [O 0x4A 1 s.tuner.state.code (by simp [State.otherFields]), nat1, ← shown.2]
    cases s.tuner.state <;> rfl
  · rw [O 0x4B 1 s.tuner.shown.1 (by simp [State.otherFields]), ← shown.1]; omega
  · rw [O 0x4C 2 s.tuner.shown.2 (by simp [State.otherFields]), ← shown.1]; omega
  · rw [O 0x4E 2 s.tuner.lastEstimate (by simp [State.otherFields]), nat2]
  · rw [O 0x50 1 (boolInt s.input.learner.learning) (by simp [State.otherFields])]
    cases s.input.learner.learning <;> rfl
  · rw [O 0x51 1 0 (by simp [State.otherFields])]; rfl
  · rw [O 0x52 2 s.input.learner.signalBlocks (by simp [State.otherFields]), nat2]
  · rw [O 0x54 1 s.input.active (by simp [State.otherFields]), nat1]
  · rw [O 0x55 1 0 (by simp [State.otherFields])]; rfl
  · rw [O 0x56 2 s.input.trimCurrent (by simp [State.otherFields])]; omega
  · rw [O (0x58 + i) 1 c.toNat, nat1]
    · have := c.isLt; omega
    · unfold State.otherFields
      simp only [List.mem_append]
      exact .inl (.inl (.inr (mem_mapIdx_of hc _)))
  · rw [O (0x60 + i) 1 u.state.code, nat1]
    · cases u.state <;> rfl
    · unfold State.otherFields
      simp only [List.mem_append]
      exact .inl (.inr (mem_mapIdx_of hu _))
  · have h4 := O (0x68 + 4 * ((o - 0x68) / 4)) 4 0 (by
      unfold State.otherFields
      simp only [List.mem_append, List.mem_map, List.mem_range]
      exact .inr ⟨(o - 0x68) / 4, by omega, rfl⟩)
    have := readLE_zero4 h4 ((o - 0x68) % 4) (by omega)
    rw [← this]; congr 1; omega

/-! ## Meters (R62, R63) -/

/-- Runs are added sample by sample, what one lacks counting 0. -/
theorem addRuns_getD (a b : List Int) (i : Nat) : (addRuns a b).getD i 0 = a.getD i 0 + b.getD i 0 := by
  induction a generalizing b i with
  | nil => simp [addRuns]
  | cons x xs ih => cases b with
    | nil => simp [addRuns]
    | cons y ys => cases i with
      | zero => simp [addRuns]
      | succ i => simpa [addRuns] using ih ys i

/-- Saturation changes what lies outside the range (R62). -/
theorem saturate_ne (v : Int) : (saturate v != v) = decide (v < -8388608 ∨ 8388607 < v) := by
  rw [Bool.eq_iff_iff]; simp only [saturate, bne_iff_ne, decide_eq_true_eq]; omega

theorem blockPeak_cons (x : Int) (xs : List Int) : blockPeak (x :: xs) = max (x.natAbs : Int) (blockPeak xs) := by
  have : ∀ (l : List Int) (a : Int), 0 ≤ a →
      l.foldl (fun p x => max p (x.natAbs : Int)) a = max a (l.foldl (fun p x => max p (x.natAbs : Int)) 0) := by
    intro l
    induction l with
    | nil => intro a ha; simp; omega
    | cons y ys ih =>
      intro a ha
      rw [List.foldl_cons, List.foldl_cons, ih _ (by omega), ih (max 0 (y.natAbs : Int)) (by omega)]
      omega
  unfold blockPeak
  rw [List.foldl_cons, this _ _ (by omega)]
  omega

/-- What a block adds to the CHAIN tap point: its clips and its peak (R62, R63). -/
theorem meterChain_eq (m : Meter) (cs ss : List Int) (h : cs.length = ss.length) :
    (meterChain m cs ss).clips = m.clips + (ss.filter fun v => decide (v < -8388608 ∨ 8388607 < v)).length ∧
    (0 ≤ m.peak → (meterChain m cs ss).peak = max m.peak (blockPeak cs)) := by
  induction cs generalizing ss m with
  | nil => cases ss with
    | nil => exact ⟨rfl, fun h => by simp [meterChain, blockPeak]; omega⟩
    | cons _ _ => cases h
  | cons c cs ih => cases ss with
    | nil => cases h
    | cons s ss =>
      obtain ⟨h1, h2⟩ := ih (m.add c (saturate s != s)) ss (by simpa using h)
      unfold meterChain
      refine ⟨?_, fun hp => ?_⟩
      · rw [h1, saturate_ne, List.filter_cons]
        unfold Meter.add
        by_cases hv : s < -8388608 ∨ 8388607 < s
        · simp [hv]; omega
        · simp [hv]
      · rw [h2 (by unfold Meter.add; dsimp only; omega), blockPeak_cons]
        unfold Meter.add; dsimp only; omega

/-- What a run of channel values adds to a meter: its clips and its peak (R62, R63). -/
theorem addValues_eq (m : Meter) (vs : List Int) :
    (m.addValues vs).clips = m.clips + (vs.filter fun v => decide (v < -8388608 ∨ 8388607 < v)).length ∧
    (0 ≤ m.peak → (m.addValues vs).peak = max m.peak (blockPeak (vs.map saturate))) := by
  unfold Meter.addValues
  induction vs generalizing m with
  | nil => exact ⟨rfl, fun h => by simp [blockPeak]; omega⟩
  | cons v vs ih =>
    obtain ⟨h1, h2⟩ := ih (m.add (saturate v) (saturate v != v))
    rw [List.foldl_cons]
    refine ⟨?_, fun hp => ?_⟩
    · rw [h1, saturate_ne, List.filter_cons]
      unfold Meter.add
      by_cases hv : v < -8388608 ∨ 8388607 < v
      · simp [hv]; omega
      · simp [hv]
    · rw [h2 (by unfold Meter.add; dsimp only; omega), List.map_cons, blockPeak_cons]
      unfold Meter.add; dsimp only; omega

end Sys2Proof.Machine
end

