-- ==== Sys2Proof/Laws/Frames.lean ====
section
/-! SUPPORT. What a reading hands to the transmit queue (R102), that handing the same frames on from two states that agree
leaves states that agree, and the answer of a request whose owner hands frames on (R87, R102, R188). -/

namespace Sys2Proof.Machine

/-! ## Readings (R101, R102) -/

/-- The TUNE frames of a Tuner are those of the reading it shows (R102). -/
theorem tuneFrames_eq (t : Tuner) (units : List UnitEntry) : tuneFrames t units = readingFrames units t.reads := by
  have hr : ((t.state.code : Nat), t.shown.1, t.shown.2) = t.reads := by
    unfold Tuner.reads Tuner.shown
    cases t.state <;> cases t.run.getLast? <;> rfl
  unfold tuneFrames readingFrames Tuner.payload
  rw [← hr]
  congr 1
  refine List.filter_congr fun u _ => ?_
  rw [Bool.eq_iff_iff]; simp [and_assoc]

/-- What a change of Tuner leaves: the Tuner in place, and where it engages from OFF or disengages its reading handed on
(R87, R102). -/
theorem State.setTuner_reads (s : State) (t : Tuner) : s.setTuner t =
    if s.tuner.isEngaged = t.isEngaged then { s with tuner := t }
    else State.handFrames { s with tuner := t } (readingFrames s.link.units t.reads) := by
  unfold State.setTuner State.handReading
  rw [← tuneFrames_eq]
  by_cases h : s.tuner.isEngaged = t.isEngaged <;> simp [h]

/-! ## CATCH assignments (R154) -/

theorem Mapper.uncatchAll_eq (m : Mapper) : m.uncatchAll = m.allUncaught := rfl

theorem Mapper.allUncaught_twice (m : Mapper) : m.allUncaught.allUncaught = m.allUncaught := by
  unfold Mapper.allUncaught
  simp only [List.map_map]
  congr 1
  refine List.map_congr_left fun a _ => ?_
  dsimp only [Function.comp]
  by_cases h : a.takeover = true <;> simp [h]

/-! ## The same frames handed on from two states -/

/-- A write leaves two memories agreeing wherever they did, its own bytes among them. -/
theorem readByte_writeLE_congr {m m' : Ram} (w : Memory.wf m = true) (w' : Memory.wf m' = true) {a n j : Nat} {v : Int}
    (h : readByte m j = readByte m' j) : readByte (writeLE m a v n) j = readByte (writeLE m' a v n) j := by
  induction n generalizing m m' a v with
  | zero => exact h
  | succ n ih =>
    refine ih (wf_writeByte w _ _) (wf_writeByte w' _ _) ?_
    by_cases hj : j = a
    · subst hj
      by_cases ha : j < 0x8000
      · rw [readByte_writeByte w ha, readByte_writeByte w' ha, if_pos rfl, if_pos rfl]
      · unfold writeByte; rw [if_neg ha, if_neg ha]; exact h
    · rw [readByte_writeByte_other w hj, readByte_writeByte_other w' hj]; exact h

theorem readByte_writeFields_congr {m m' : Ram} (w : Memory.wf m = true) (w' : Memory.wf m' = true) {base j : Nat}
    {fs : List Field} (h : readByte m j = readByte m' j) :
    readByte (writeFields m base fs) j = readByte (writeFields m' base fs) j := by
  unfold writeFields
  induction fs generalizing m m' with
  | nil => exact h
  | cons f fs ih => exact ih (wf_writeLE w _ _ _) (wf_writeLE w' _ _ _) (readByte_writeLE_congr w w' h)

/-- Two states that differ in the request slots, and in the bytes of Exchange RAM for which `free` holds, alone. -/
structure Alike (free : Nat → Prop) (u v : State) : Prop where
  blocks : u.sameBlocks v
  pending : v.pending = u.pending
  port : v.port = u.port
  report : v.report = u.report
  memory : u.memoryOk ∧ v.memoryOk
  bytes : ∀ a, ¬ free a → readByte v.ram a = readByte u.ram a

theorem Alike.notify {free : Nat → Prop} {u v : State} (h : Alike free u v) (n : Notice) :
    Alike free (u.notify n) (v.notify n) := by
  obtain ⟨⟨b1, b2, b3, b4, b5, b6, b7, b8, b9⟩, hp, ho, hr, ⟨wu, wv⟩, hb⟩ := h
  refine ⟨⟨b1, b2, b3, b4, b5, b6, b7, b8, b9⟩, hp, ?_, ?_, ⟨(u.notify_keeps n).memory wu, (v.notify_keeps n).memory wv⟩,
    fun a ha => ?_⟩
  · show v.port.raise _ = u.port.raise _; rw [ho]
  · unfold State.notify State.raise; dsimp only; rw [hr]
  · unfold State.notify State.raise
    dsimp only
    rw [hr]
    exact readByte_writeLE_congr (wf_writeFields wv _ _) (wf_writeFields wu _ _) (readByte_writeFields_congr wv wu (hb a ha))

theorem Alike.handFrame {free : Nat → Prop} {u v : State} (h : Alike free u v) (f : MasterFrame) :
    Alike free (u.handFrame f) (v.handFrame f) := by
  obtain ⟨⟨b1, b2, b3, b4, b5, b6, b7, b8, b9⟩, hp, ho, hr, w, hb⟩ := h
  unfold State.handFrame
  rw [b8]
  dsimp only
  have h' : Alike free { u with link := ((u.link.mirror f).place f).1 } { v with link := ((u.link.mirror f).place f).1 } :=
    ⟨⟨b1, b2, b3, b4, b5, b6, b7, rfl, b9⟩, hp, ho, hr, w, hb⟩
  split
  · exact h'.notify _
  · exact h'

theorem Alike.handFrames {free : Nat → Prop} {u v : State} (h : Alike free u v) (fs : List MasterFrame) :
    Alike free (u.handFrames fs) (v.handFrames fs) := by
  unfold State.handFrames
  induction fs generalizing u v with
  | nil => exact h
  | cons f fs ih => exact ih (h.handFrame f)

/-- A request answered at once by an owner that hands frames on (R102, R174, R186, R188). -/
theorem State.take_answersFrom {s u v : State} {n : Nat} {rest : List Nat} {code : Result} {value : ResultValue}
    {due : Taken → Bool} {need : BufferNeed} {carry : Taken → State → Answer} (h : s.headIs n rest)
    (hdue : due (takenAt s.ram n) = true) (hneed : need.passes (takenAt s.ram n) = true)
    (hc : carry (takenAt s.ram n) (s.takeHead n rest) = v.answer code value) (ha : Alike (inResult n) u v)
    (hu : u.requests = s.requests) (hv : v.requests = (s.takeHead n rest).requests) :
    ∃ t, whenReady s (·.take due need carry) = .next t ∧ u.sameBlocks t ∧ u.answered t u.ram n rest code value := by
  obtain ⟨⟨b1, b2, b3, b4, b5, b6, b7, b8, b9⟩, hp, ho, hrep, ⟨_, wv⟩, hr⟩ := ha
  have ht : v.requests.slots[n]? = some .taken := by
    rw [hv]
    have hlt : n < s.requests.slots.length := by
      rcases Nat.lt_or_ge n s.requests.slots.length with h' | h'
      · exact h'
      · have := h.2.2.2.1; rw [List.getElem?_eq_none h'] at this; cases this
    show (s.requests.slots.set n .taken)[n]? = _
    simp [hlt]
  obtain ⟨c1, ⟨d1, d2, d3, d4, d5, d6, d7, d8, d9⟩, c3, c4, c5, c6, c7, c8, c9⟩ :=
    State.complete_answered (code := code) (value := value) wv ht h.2.2.2.2
  refine ⟨(v.complete n code value).endServing, ?_, ⟨d1.trans b1, d2.trans b2, d3.trans b3, d4.trans b4, d5.trans b5,
    d6.trans b6, d7.trans b7, d8.trans b8, d9.trans b9⟩, c1.trans hp, ?_, c4.trans (by rw [ho]), c3.trans hrep, c6, c7, c8,
    fun a ha => (c9 a ha).trans (hr a ha)⟩
  · rw [whenReady_of_head h, State.take_of_head h hdue, State.serve_of_passes hneed, hc]; rfl
  · show ({ (v.complete n code value).requests with serving := false } : RequestUnit) = _
    rw [c5, hv, hu]
    show ({ slots := (s.requests.slots.set n .taken).set n .done, queue := rest, serving := false } : RequestUnit) = _
    rw [List.set_set]

theorem takeHead_alike {s : State} (w : s.memoryOk) (n : Nat) (rest : List Nat) (t : Tuner) :
    Alike (inResult n) { s with tuner := t } { s.takeHead n rest with tuner := t } :=
  ⟨⟨rfl, rfl, rfl, rfl, rfl, rfl, rfl, rfl, rfl⟩, rfl, rfl, rfl, ⟨w, wf_writeLE w _ _ _⟩,
    fun a ha => takeHead_byte (rest := rest) w (by unfold inResult at ha; omega)⟩

end Sys2Proof.Machine
end

