-- ==== Sys2Proof/Tests/Slice0.lean ====
section
/-! SUPPORT. Tests: the refusals of the well-formedness check, what single commands do on small states, the worked examples
of the manual, and for every statement with hypotheses a state that meets them. -/

namespace Sys2Proof.Tests

-- One proof at a time: proofs that wait for each other each hold a thread and its stack.
set_option Elab.async false

open Sys2Proof Sys2Proof.Machine

/-! ## Helpers -/

/-- Slot 0 posted with these fields, in a given state. -/
def ask (kind : Nat) (args : List Int) (offset length : Nat) (s : State) : State :=
  { s with
    ram := writeFields s.ram (slotAddress 0)
      [⟨0x00, 2, kind⟩, ⟨0x08, 2, offset⟩, ⟨0x0A, 2, length⟩, ⟨0x0C, 4, args.getD 0 0⟩, ⟨0x10, 4, args.getD 1 0⟩,
       ⟨0x14, 4, args.getD 2 0⟩, ⟨0x18, 4, args.getD 3 0⟩]
    requests := { s.requests with slots := s.requests.slots.set 0 .posted, queue := [0] } }

/-- The state after a command; the model never stops. -/
def after (c : Instr) (s : State) : State :=
  match exec c s with
  | .next t => t
  | _ => s

/-- Result code and result value of a slot. -/
def result (n : Nat) (s : State) : Nat × Int :=
  (readLE s.ram (slotAddress n + 0x1C) 2, signedOf 32 (readLE s.ram (slotAddress n + 0x18) 4))

/-- The result of a request asked in slot 0. -/
def resultOf (c : Instr) (s : State) : Nat × Int := result 0 (after c s)

/-- The hypotheses that the statements about requests share. -/
def Meets (kind : Nat) (need : BufferNeed) (s : State) : Prop :=
  s.memoryOk ∧ s.headIs 0 [] ∧ (takenAt s.ram 0).kind = kind ∧ need.passes (takenAt s.ram 0) = true

/-- What a slot asked in slot 0 reads as its arguments. -/
def args (s : State) : List Int :=
  let t := takenAt s.ram 0
  [t.arg0, t.arg1, t.arg2, t.arg3]

/-- A post queue is exact where a finite check says so. -/
theorem exact_of {r : RequestUnit} (hl : r.slots.length = 32) (hn : r.queue.Nodup) (hq : ∀ n ∈ r.queue, n < 32)
    (h : ∀ n, n < 32 → (n ∈ r.queue ↔ r.slots[n]? = some .posted)) : r.exact := by
  refine ⟨hl, hn, fun n => ?_⟩
  by_cases hlt : n < 32
  · exact h n hlt
  · constructor
    · intro hm; exact absurd (hq n hm) hlt
    · intro hp; rw [List.getElem?_eq_none (by omega)] at hp; cases hp

/-- A state with RUN set and taken up. -/
def running : State :=
  { State.reset with
    port := { State.reset.port with run := true }
    engine := { State.reset.engine with running := true, runNext := true } }

def entryNone : StageEntry := ⟨.none, false, List.replicate 8 0⟩

/-- A scene with a VOL in position 0. -/
def scene : SceneRecord :=
  { name := List.replicate 12 0x41, kind := .fade, fade := 4, profile := 255, tempo := 900, lamps := [],
    stages := ⟨.vol, true, [20, 0, 0, 0, 0, 0, 0, 0]⟩ :: List.replicate 11 entryNone }

/-- The scene stored under a number. -/
def stored (n : Nat) (s : State) : State :=
  { s with store := { s.store with scenes := s.store.scenes.set n (some scene) } }

/-- The notice at entry 0: its kind, origin class and index, and arguments. -/
def notice (s : State) : List Nat :=
  [readLE s.ram 0x444 1, readLE s.ram 0x445 1, readLE s.ram 0x446 2] ++ (List.range 4).map fun i => readLE s.ram (0x448 + 2 * i) 2

/-! ## Well-formedness -/

theorem test_illformed_controlWrite : Instr.wellFormed (.controlWrite 2) = false := by decide

theorem test_illformed_stateReceive : Instr.wellFormed (.stateReceive []) = false := by decide

theorem test_wellformed_controlWrite : Instr.wellFormed (.controlWrite 0xFFFD) = true := by decide

/-- No row of the table gives bits, so a word spells no command and placing it changes nothing. -/
theorem test_no_word_spells_a_command (s : State) (n w : Nat) :
    decodeTableWord n w = none ∧ s.withFetchWord n w = s := ⟨rfl, rfl⟩

/-- With no command waiting, a step changes nothing (log 19). -/
theorem test_empty_queue_idles (s : State) (h : s.pending = []) : step s = .next s := by unfold step; rw [h]

theorem test_step_takes_the_front :
    step { State.reset with pending := [.controlWrite 0x11, .post 3] } =
      .next { State.reset with
        pending := [.post 3]
        port := { State.reset.port with run := true, enables := ⟨true, false, false, false⟩ } } := rfl

/-! ## Single commands -/

theorem test_powerOn : (after .powerOn State.reset).port.ready = false ∧
    (after .initialisationComplete (after .powerOn running)) = State.reset := by decide +kernel

theorem test_post_twice_collides :
    let s := after (.post 5) (after (.post 5) State.reset)
    s.requests.queue = [5] ∧ s.port.signal.collide = true ∧ readLE s.ram (slotAddress 5 + 2) 2 = 1 := by decide +kernel

theorem test_softReset_keeps_host_region :
    let s := after (.exchangeRamWrite 0x320 0xBEEF) (after (.exchangeRamWrite 0x20 0x1234) State.reset)
    let t := after .initialisationComplete (after (.controlWrite 2) s)
    s.readWord 0x20 = 0x1234 ∧ t.readWord 0x320 = 0xBEEF ∧ t.readWord 0x20 = 0 ∧ t.port.ready = true := by decide +kernel

/-- Exchange RAM with the image of `scene` at 0x1000. -/
def withScene : State := { State.reset with ram := writeScene [] 0x1000 scene }

theorem test_writeScene_and_readScene :
    let s := after .writeScene (ask 1 [7] 0x1000 256 withScene)
    result 0 s = (0, scene.load) ∧ s.store.scenes[7]? = some (some scene) ∧
    result 0 (after .readScene (ask 2 [7] 0x2000 256 s)) = (0, scene.load) := by decide +kernel

theorem test_clearScene : resultOf .clearScene (ask 3 [7] 0 0 (stored 7 .reset)) = (0, 1) ∧
    resultOf .clearScene (ask 3 [8] 0 0 (stored 7 .reset)) = (0, 0) := by decide +kernel

theorem test_short_requests :
    resultOf .unknownKindRequest (ask 23 [] 0 0 .reset) = (2, 23) ∧
    resultOf .loadFilter (ask 4 [15] 0x1000 80 .reset) = (0, 15) ∧
    resultOf .loadCurve (ask 5 [16] 0x1000 1028 .reset) = (0, 16) ∧
    resultOf .setProfile (ask 7 [3] 0x1000 16 .reset) = (1, 3) ∧
    resultOf .selectProfile (ask 8 [7] 0 0 .reset) = (0, 7) ∧
    resultOf .trimLearnAbort (ask 9 [1] 0 0 .reset) = (0, 0) ∧
    resultOf .setTempo (ask 13 [399] 0 0 .reset) = (1, 400) ∧
    resultOf .setRoute (ask 14 [0, 1, 0, 0] 0 0 .reset) = (0, 0) ∧
    resultOf .tunerEngage (ask 15 [1, 0, 0, 0] 0 0 .reset) = (0, 1) ∧
    resultOf .tunerDisengage (ask 15 [0] 0 0 .reset) = (0, 0) ∧
    resultOf .clearAssign (ask 17 [31] 0 0 .reset) = (0, 0) ∧
    resultOf .verdict (ask 18 [9, 1] 0 0 .reset) = (10, 9) ∧
    resultOf .linkConfig (ask 19 [1, 0, 0, 0] 0 0 .reset) = (0, 1) ∧
    resultOf .setUnit (ask 20 [2, 5, 1, 4] 0 0 .reset) = (0, 2) ∧
    resultOf .lamp (ask 21 [5, 15, 3, 0] 0 0 .reset) = (0, 0) ∧
    resultOf .text (ask 22 [5, 15, 0x41, 0] 0 0 .reset) = (0, 0) := by decide +kernel

/-- A long request stays TAKEN. -/
theorem test_long_requests :
    (after .loadImpulse (ask 6 [0] 0x1000 256 .reset)).requests.slots[0]? = some .taken ∧
    (after .trimLearnStart (ask 9 [0, 0] 0 0 .reset)).requests.slots[0]? = some .taken ∧
    (after .selectScene (ask 10 [7, 255] 0 0 (stored 7 running))).requests.slots[0]? = some .taken := by decide +kernel

/-- A VOL in LIVE. -/
def withVol (s : State) : State :=
  { s with engine := { s.engine with bankA := { s.engine.bankA with
      stages := freshAt .vol true [20, 0, 0, 0, 0, 0, 0, 0] 1200 [] :: List.replicate 11 .none } } }

theorem test_setParam_and_setEnable :
    resultOf .setParam (ask 11 [0, 0, 200, 8] 0 0 (withVol running)) = (1, 127) ∧
    resultOf .setEnable (ask 12 [0, 0, 0] 0 0 (withVol running)) = (0, 0) := by decide +kernel

/-! ## Worked examples of the manual -/

/-- 9.1: the check of a POLL to unit 3, and of the STATE that answers it. -/
theorem test_poll_check : pollBytes 3 = [0x81, 0x03, 0x0F, 0x00, 0x14, 0x2F] := by decide +kernel

theorem test_state_check :
    stateBytes 3 ⟨4, [600]⟩ = [0x90, 0x03, 0x05, 0x04, 0x00, 0x01, 0x04, 0x58, 0x7A, 0x34] ∧
    judgeReply 3 (stateBytes 3 ⟨4, [600]⟩) = .good ⟨4, [600]⟩ := by decide +kernel

/-- An AMP at rest with these currents. -/
def amp (drive curve level : Int) : Stage := freshAt .amp true [drive, 0, curve, 255, 1, level, 0, 0] 1200 []

/-- 2.8, cases 1 and 3. -/
theorem test_amp_cases :
    (scale (ampStep .reset (amp 40 8 12) (levelGain 40) [] 600000).2 (attenuation 12)) = 3598165 ∧
    (ampStep .reset (amp 40 8 12) (levelGain 40) [] 600000).2 = 7179240 ∧
    (ampStep .reset (amp 120 8 0) (levelGain 120) [] 8388607).2 = 8388607 ∧
    (ampStep .reset (amp 120 8 0) (levelGain 120) [] (-8388608)).2 = -8388607 := by decide +kernel

/-- 2.8, case 2. -/
theorem test_section_case :
    sectionStep ⟨2 ^ 27, 2 ^ 27, 0, 0, 0⟩ ⟨7100000, 0, 0, 0⟩ 7179240 = (⟨7179240, 7100000, 7139620, 0⟩, 7139620) ∧
    (sectionStep ⟨2 ^ 29, 0, 0, 0, 0⟩ ⟨0, 0, 0, 0⟩ 7179240).2 = 8388607 := by decide +kernel

/-- 1.9: the compressor on a held chord. -/
theorem test_comp_chord :
    peakCode 2000000 = 25 ∧ compStep [45, 40, 6, 2, 3] 25 0 = 6 ∧ compStep [45, 40, 6, 2, 3] 25 12 = 15 ∧
    compStep [45, 40, 6, 2, 3] 255 1 = 0 ∧ scale 2000000 (levelGain (3 - 15)) = 1002380 := by decide +kernel

/-- 1.8: synchronised delay times. -/
theorem test_sync_times :
    delayTargetOf [1, 0, 0, 1, 0, 0, 0, 0] 1200 = 24000 ∧ delayTargetOf [1, 0, 1, 1, 0, 0, 0, 0] 1250 = 17280 ∧
    delayTargetOf [1, 0, 3, 1, 0, 0, 0, 0] 1200 = 8000 ∧ delayTargetOf [1, 0, 0, 1, 0, 0, 0, 0] 400 = 49151 ∧
    delayTargetOf [1, 0, 0, 2, 0, 0, 0, 0] 400 = 72000 := by decide +kernel

/-- 3.2: one crackle. -/
theorem test_crackle :
    let p : InputPath := ⟨120000, 100000, 16, 0, 0, 0, ⟨0, 0⟩⟩
    let q := (((p.sample 3000000).sample 150000).sample 1400000).sample 175000
    p.delivered 3000000 = 140000 ∧ q.x1 = 175000 ∧ q.x2 = 160000 ∧ q.crackles = 2 := by decide +kernel

/-! ## States that meet the hypotheses of the statements -/

/-- In the middle of a block start, or before it: every work from a given place on is still to come. -/
theorem yetTo_of {s : State} {w : Work} (h : s.port.ready = true) (hd : s.grid.done = 0) : s.yetTo w :=
  ⟨h, by rw [hd]; exact Nat.zero_le _⟩

theorem exact_reset : RequestUnit.reset.exact := exact_of rfl List.nodup_nil (by decide) (by decide +kernel)

/-- O2, O3, O6: READY at 1 and at 0, SOFT_RESET written. -/
theorem test_meets_ready :
    State.reset.port.ready = true ∧ (after .powerOn State.reset).port.ready = false ∧ (2 : Half).getLsbD 1 = true ∧
    (0xFFFD : Half).getLsbD 1 = false ∧ State.reset.memoryOk := by unfold State.memoryOk; decide +kernel

/-- A slot in each of the four states, at both ends of the table. -/
def slotsMixed : RequestUnit :=
  { slots := (List.replicate 32 .free).set 31 .done |>.set 1 .posted |>.set 2 .taken, queue := [1], serving := false }

/-- O5. -/
theorem test_meets_post :
    let s := { State.reset with requests := slotsMixed }
    s.memoryOk ∧ s.requests.exact ∧ s.port.ready = true ∧ s.requests.slots[0]? = some .free ∧
    s.requests.slots[31]? = some .done ∧ s.requests.slots[1]? = some .posted ∧ s.requests.slots[2]? = some .taken ∧
    32 ≤ (32 : Half).toNat := by
  refine ⟨by unfold State.memoryOk; decide +kernel, exact_of rfl (by decide) (by decide) (by decide +kernel), ?_⟩
  decide +kernel

/-- O8: a kind below and one above the codes; every fault of a buffer. -/
theorem test_meets_badKind : ∀ k, k ∈ [0, 23, 65535] → Meets k .none (ask k [] 0 0 .reset) := by
  unfold Meets State.memoryOk State.headIs; decide +kernel

theorem test_meets_badBuffer :
    ∀ x, x ∈ [(0x1002, 256), (0xFFC, 256), (0x7F04, 256), (0x1000, 252)] →
      let s := ask 1 [0] x.1 x.2 .reset
      s.memoryOk ∧ s.headIs 0 [] ∧ (takenAt s.ram 0).kind = 1 ∧ (takenAt s.ram 0).offset = x.1 ∧
      (takenAt s.ram 0).length = x.2 ∧ (BufferNeed.exactly 256).passes (takenAt s.ram 0) = false := by
  unfold State.memoryOk State.headIs; decide +kernel

theorem test_meets_badBuffer_kinds :
    ∀ k, k ∈ [1, 2, 4, 5, 6, 7, 16] → Meets k .none (ask k [] 0x1002 0 .reset) := by
  unfold Meets State.memoryOk State.headIs; decide +kernel

/-- Exchange RAM with one byte of the image of `scene` replaced. -/
def withFault (offset value : Nat) : State := { withScene with ram := writeLE withScene.ram (0x1000 + offset) value 1 }

/-- Twelve DELAYs of two lanes, over the budget of lanes. -/
def twelveDelays : SceneRecord :=
  { scene with stages := List.replicate 12 ⟨.delay, true, [0, 1, 0, 2, 0, 0, 0, 0]⟩ }

def overLanes : State := { State.reset with ram := writeScene [] 0x1000 twelveDelays }

/-- O9: the scene number at and outside both ends; a field fault; a budget fault. -/
theorem test_meets_writeScene :
    (∀ a, a ∈ [(-1 : Int), 128, 0, 127] → Meets 1 (.exactly 256) (ask 1 [a] 0x1000 256 .reset) ∧
      (takenAt (ask 1 [a] 0x1000 256 .reset).ram 0).arg0 = a) ∧
    imageFault (readBytes State.reset.ram 0x1000 256) = none ∧
    (imageScene (readBytes withScene.ram 0x1000 256)) = (scene, false) ∧ scene.load ≤ 1000 ∧ scene.lanes ≤ 4 ∧
    Meets 1 (.exactly 256) (ask 1 [0] 0x1000 256 overLanes) ∧ imageFault (readBytes overLanes.ram 0x1000 256) = none ∧
    4 < (imageScene (readBytes overLanes.ram 0x1000 256)).1.lanes := by
  unfold Meets State.memoryOk State.headIs; decide +kernel

/-- The first and the last stage kind, the transition kind, and a lamp entry. -/
theorem test_meets_sceneFault :
    imageFault (readBytes (withFault 0x24 9).ram 0x1000 256) = some 0 ∧
    imageFault (readBytes (withFault (0x24 + 18 * 11) 9).ram 0x1000 256) = some 11 ∧
    imageFault (readBytes (withFault 0x0C 3).ram 0x1000 256) = some 12 ∧
    imageFault (readBytes (withFault 0x12 1).ram 0x1000 256) = some 13 ∧
    imageFault (readBytes (withFault 0x24 8).ram 0x1000 256) = none := by decide +kernel

/-- O10 to O12: an EMPTY entry, a STORED one, and a record that is legal. -/
theorem test_meets_readScene :
    (∀ a, a ∈ [(-1 : Int), 128, 0, 127] → Meets 2 (.exactly 256) (ask 2 [a] 0x7F00 256 (stored 127 .reset)) ∧
      (takenAt (ask 2 [a] 0x7F00 256 (stored 127 .reset)).ram 0).arg0 = a) ∧
    (stored 127 .reset).store.scenes[127]? = some (some scene) ∧
    ((stored 127 .reset).store.scenes[0]?).join = none := by
  unfold Meets State.memoryOk State.headIs; decide +kernel

theorem test_meets_legal : scene.legal := by unfold SceneRecord.legal StageEntry.legal; decide +kernel

/-- A select of a scene from slot 1. -/
def sel (n : Nat) : Select := .taken n (.slot 1) none none false

/-- O12: held by STAGING, by a restage that is due, by the pending select; and not held. -/
theorem test_meets_clearScene :
    (∀ a, a ∈ [(-1 : Int), 128, 0, 127] → Meets 3 .none (ask 3 [a] 0 0 .reset) ∧
      (takenAt (ask 3 [a] 0 0 .reset).ram 0).arg0 = a) ∧
    (∀ tr, tr ∈ [{ Transition.reset with state := .staging, inFlight := some (sel 7) },
        { Transition.reset with state := .dipOut, restageDue := true, inFlight := some (sel 7) },
        { Transition.reset with state := .fading, pending := some (sel 7) }] →
      Meets 3 .none (ask 3 [7] 0 0 { running with transition := tr })) := by
  unfold Meets State.memoryOk State.headIs; decide +kernel

/-- O13, O14: numbers at and outside both ends of their ranges; each refusal of a load. -/
theorem test_meets_tableLoads :
    (∀ a, a ∈ [(-1 : Int), 16, 0, 15] → Meets 4 (.exactly 80) (ask 4 [a] 0x1000 80 .reset)) ∧
    (∀ a, a ∈ [(15 : Int), 20, 16, 19] → Meets 5 (.exactly 1028) (ask 5 [a] 0x1000 1028 .reset)) := by
  unfold Meets State.memoryOk State.headIs; decide +kernel

/-- O13: what a load has written comes into force at a block start, and stays loaded. -/
theorem test_tables_come_into_force :
    let new : List Coeffs := List.replicate 4 ⟨1, 2, 3, 4, 5⟩
    let st := { State.reset.store with filters := State.reset.store.filters.modify 15 fun f => { f with loaded := new } }
    let t := Work.tables.run { State.reset with store := st }
    (t.store.filters[15]?).map (fun f => (f.inForce, f.loaded)) = some (new, new) ∧
    (t.store.filters[14]?).map (·.inForce) = (State.reset.store.filters[14]?).map (·.inForce) := by decide +kernel

/-- Impulse slot 0 LOADING for slot 1, with one group still to read. -/
def loading : State :=
  { State.reset with
    requests := { State.reset.requests with slots := State.reset.requests.slots.set 1 .taken }
    store := { State.reset.store with impulses := State.reset.store.impulses.modify 0 fun x =>
      { x with load := some ⟨1, 64, 0x1000, [], false⟩ } } }

/-- A CAB of impulse slot 0 in LIVE. -/
def withCab : State :=
  { running with engine := { running.engine with bankA := { running.engine.bankA with
      stages := freshAt .cab true [0, 64, 0, 0, 0, 0, 0, 0] 1200 [] :: List.replicate 11 .none } } }

theorem test_meets_loadImpulse :
    (∀ a, a ∈ [(-1 : Int), 4, 0, 3] → Meets 6 .impulse (ask 6 [a] 0x7000 4096 .reset)) ∧
    Meets 6 .impulse (ask 6 [0] 0x1000 256 loading) ∧ (ask 6 [0] 0x1000 256 loading).store.loading 0 = true ∧
    Meets 6 .impulse (ask 6 [0] 0x1000 256 withCab) ∧ (ask 6 [0] 0x1000 256 withCab).impulseInUse 0 = true ∧
    State.reset.store.loading 3 = false ∧ State.reset.impulseInUse 3 = false := by
  unfold Meets State.memoryOk State.headIs; decide +kernel

theorem test_meets_impulseComplete :
    loading.yetTo .impulse ∧ ((loading.before .impulse).store.impulses[0]?).bind (·.load) = some ⟨1, 64, 0x1000, [], false⟩ ∧
    (loading.before .impulse).requests.slots[1]? = some .taken := by
  refine ⟨yetTo_of rfl rfl, ?_⟩; decide +kernel

/-- O15: a block that takes samples. -/
def taking : State := { running with grid := { State.reset.grid with opened := true } }

theorem test_meets_inputSample :
    taking.port.ready = true ∧ taking.grid.opened = true ∧ taking.grid.done = 0 ∧ taking.grid.samplesA.length < 32 := by
  decide +kernel

/-- A learn of profile 0 in slot 1. -/
def learner : Learner := { Learner.reset with learning := true, slot := 1, counting := true }

def learning : State :=
  { taking with
    requests := { taking.requests with slots := taking.requests.slots.set 1 .taken }
    input := { taking.input with learner := learner } }

/-- O16, O19: profiles at and outside both ends; the learned profile and another one. -/
theorem test_meets_setProfile :
    (∀ a, a ∈ [(-1 : Int), 8, 0, 7] → Meets 7 (.exactly 16) (ask 7 [a] 0x1000 16 .reset)) ∧
    State.reset.input.learner.learning = false ∧ Meets 7 (.exactly 16) (ask 7 [1] 0x1000 16 learning) ∧
    (ask 7 [1] 0x1000 16 learning).input.learner.profile ≠ 1 ∧ Meets 7 (.exactly 16) (ask 7 [0] 0x1000 16 learning) ∧
    (ask 7 [0] 0x1000 16 learning).input.learner = learner ∧
    (ask 7 [0] 0x1000 16 learning).requests.slots[1]? = some .taken := by
  unfold Meets State.memoryOk State.headIs; decide +kernel

/-- O17: both ends of the range of profiles and of tempos. -/
theorem test_meets_selectProfile_setTempo :
    (∀ a, a ∈ [(-1 : Int), 8, 0, 7] → Meets 8 .none (ask 8 [a] 0 0 .reset)) ∧
    (∀ a, a ∈ [(399 : Int), 400, 3000, 3001] → Meets 13 .none (ask 13 [a] 0 0 .reset) ∧
      (takenAt (ask 13 [a] 0 0 .reset).ram 0).arg0 = a) := by
  unfold Meets State.memoryOk State.headIs; decide +kernel

/-- O18: each refusal of a start and a start that passes; O19: an abort, with and without a learn. -/
theorem test_meets_trimLearn :
    (∀ x, x ∈ [([2], State.reset), ([0, 0], learning), ([0, 8], .reset), ([0, -1], .reset), ([0, 7], .reset), ([0, 0], .reset),
        ([0, 0], { State.reset with input := { State.reset.input with chosen := 1 } }), ([1], .reset), ([1], learning)] →
      Meets 9 .none (ask 9 x.1 0 0 x.2) ∧ (takenAt (ask 9 x.1 0 0 x.2).ram 0).arg0 = x.1.getD 0 0 ∧
      (takenAt (ask 9 x.1 0 0 x.2).ram 0).arg1 = x.1.getD 1 0) := by
  unfold Meets State.memoryOk State.headIs; decide +kernel

/-- The learn of `learning` with these settings and counts. -/
def learningWith (min max elapsed signal bin : Nat) : State :=
  { learning with input := { learning.input with learner :=
      { learner with minBlocks := min, maxBlocks := max, elapsed := elapsed, signalBlocks := signal
                     histogram := learner.histogram.set bin signal } } }

/-- O20: a learn that ends without a trim and one that ends with one. -/
theorem test_meets_learnComplete :
    ∀ x, x ∈ [(learningWith 3000 15000 14999 299 30, (⟨.noSignal, 299, none⟩ : LearnEnd)),
        (learningWith 3000 15000 2999 1500 30, ⟨.ok, 6 + 65536 * 1500, some 6⟩),
        (learningWith 3000 15000 14999 300 30, ⟨.partialLearn, 6 + 65536 * 300, some 6⟩),
        (learningWith 3000 15000 2999 1500 26, ⟨.unchanged, 2 + 65536 * 1500, none⟩)] →
      x.1.port.ready = true ∧ x.1.grid.done = 0 ∧ Memory.wf x.1.ram = true ∧
      (x.1.before .learn).input.learner.learning = true ∧ (x.1.before .learn).input.learner.counting = true ∧
      (x.1.before .learn).grid.opened = true ∧ (x.1.before .learn).learnEnd = some x.2 ∧
      (x.1.before .learn).requests.slots[1]? = some .taken := by decide +kernel

/-- O20: a loud block, a silent one and one with RUN clear are counted; a block that began before the start was taken is not. -/
theorem test_learn_counts :
    let counts := fun (s : State) (x : Int) (counting : Bool) =>
      let l := (Work.learn.run { s with
        grid := { s.grid with samplesA := [x] }, input := { s.input with learner := { learner with counting := counting } }
        }).input.learner
      (l.elapsed, l.signalBlocks, l.histogram.getD 40 0, l.counting)
    peakCode 838912 = 40 ∧ counts learning 838912 true = (1, 1, 1, true) ∧ counts learning 0 true = (1, 0, 0, true) ∧
    counts { learning with engine := .reset } 838912 true = (1, 0, 0, true) ∧
    counts learning 838912 false = (0, 0, 0, true) := by decide +kernel

/-- The outcomes of R83: short of the tests, too little signal, and CLIPPED. -/
theorem test_meets_learnOutcome :
    { learner with signalBlocks := 1500, elapsed := 2999 }.finished 0 = none ∧
    { learner with signalBlocks := 1500, elapsed := 3000, histogram := (learner.histogram.set 0 20).set 40 1480 }.finished 0 =
      some ⟨.clipped, 16 + 65536 * 1500, some 16⟩ := by decide +kernel

/-- O21: another profile chosen, and the chosen one rewritten, with the Tuner off and engaged. -/
theorem test_meets_profileChange :
    (let s := { learning with input := { learning.input with chosen := 1 } }
     s.yetTo .profile ∧ (s.before .profile).input.chosen ≠ (s.before .profile).input.active ∧
     (s.before .profile).input.learner.learning = true) ∧
    (let s := { running with
        input := { running.input with rewritten := [0] }
        store := { running.store with profiles := running.store.profiles.set 0 { Profile.reset with input := .b } }
        tuner := { running.tuner with state := .locked } }
     s.yetTo .profile ∧ (s.before .profile).input.chosen ∈ (s.before .profile).input.rewritten ∧
     (s.before .profile).tuner.state ≠ .off ∧
     ((s.before .profile).store.profiles.getD 0 .reset).input ≠ (s.before .profile).input.selected) := by
  refine ⟨⟨yetTo_of rfl rfl, ?_⟩, yetTo_of rfl rfl, ?_⟩ <;> decide +kernel

/-- `running` with the Transition Unit in a state, with these selects. -/
def inState (st : TransState) (x y : Option Select) (s : State) : State :=
  { s with
    requests := { s.requests with slots := s.requests.slots.set 1 .taken }
    transition := { s.transition with state := st, inFlight := x, pending := y } }

/-- NEXT holds a copy of the scene. -/
def withNext (s : State) : State :=
  { s with engine := { s.engine with bankB := ⟨.next, 7,
      freshAt .vol true [20, 0, 0, 0, 0, 0, 0, 0] 1200 [] :: List.replicate 11 .none⟩ } }

/-- O22: the refusals of a select at both ends, and each state of the Transition Unit; a select that is replaced. -/
theorem test_meets_selectScene :
    (∀ x, x ∈ [[(-1 : Int)], [128], [0, 3], [0, 254], [0, 0], [127, 255], [7, 0, 1], [7, 1, 2], [7, 2, 480], [7, 255, 481]] →
      Meets 10 .none (ask 10 x 0 0 (stored 7 running))) ∧
    (∀ s, s ∈ [inState .idle none none running, inState .staging (some (sel 3)) none running,
        inState .dipOut (some (sel 3)) none running, inState .fading (some (sel 3)) none running,
        inState .dipIn (some (sel 3)) (some (sel 4)) running, .reset] →
      Meets 10 .none (ask 10 [7, 255, 0] 0 0 (stored 7 s)) ∧
      (ask 10 [7, 255, 0] 0 0 (stored 7 s)).store.scenes[7]? = some (some scene)) ∧
    (let s := inState .staging (some (sel 3)) none running
     s.memoryOk ∧ s.engine.running = true ∧ s.transition.state = .staging ∧ s.transition.inFlight = some (sel 3) ∧
     (sel 3).origin = .slot 1 ∧ s.requests.slots[1]? = some .taken) := by
  unfold Meets State.memoryOk State.headIs; decide +kernel

/-- A select as a staging has decided it. -/
def decided (n : Nat) (k : DecidedKind) : Select := { sel n with decided := some (k, 4) }

/-- O22: a select of 9 supersedes one of 3 in STAGING, in DIP_OUT, pending in FADING and DIP_IN, and stopped. -/
theorem test_meets_superseded :
    ∀ x, x ∈ [(inState .staging (some (sel 3)) none running, 255), (inState .dipOut (some (decided 3 .dip)) none running, 1),
        (inState .fading (some (decided 5 .fade)) (some (sel 3)) running, 255),
        (inState .dipIn (some (decided 5 .cut)) (some (sel 3)) running, 255),
        ({ inState .idle none none .reset with transition := { Transition.reset with stopped := some (sel 3) } }, 255)] →
      Memory.wf x.1.ram = true ∧ x.1.requests.slots[1]? = some .taken ∧
      result 1 (x.1.takeSelect (sel 9)) = (9, 3) ∧ notice (x.1.takeSelect (sel 9)) = [1, 0, 1, 3, 1, x.2, 9] := by
  decide +kernel

/-- O23: a staging and a restaging of a stored scene, without and with the Tuner engaged in MUTE. -/
theorem test_meets_stage :
    ∀ s, s ∈ [inState .staging (some (sel 7)) none (stored 7 running),
        { inState .staging (some (sel 7)) none (stored 7 running) with
          tuner := { running.tuner with state := .listen, mode := .mute } }] →
      (s.port.ready = true ∧ s.grid.done = 0) ∧ (s.before .stage).mayMove = true ∧
      (s.before .stage).transition.state = .staging ∧ (s.before .stage).transition.inFlight = some (sel 7) ∧
      (s.before .stage).store.scenes[7]? = some (some scene) ∧ (s.before .stage).store.mustWait scene = false := by
  decide +kernel

/-- LIVE over the budget beside any other bank. -/
def heavy (s : State) : State :=
  { s with engine := { s.engine with bankA := { s.engine.bankA with
      stages := List.replicate 12 (freshAt .cab true [0, 1024, 0, 0, 0, 0, 0, 0] 1200 []) } } }

/-- O23: a FADE that is admitted, and one that becomes a DIP; NEXT holds the record's first position. -/
theorem test_stage_fade_and_dip :
    let s := inState .staging (some (sel 7)) none (stored 7 running)
    let t := after .stageSelect s
    let u := after .stageSelect (heavy s)
    t.transition.state = .fading ∧ t.transition.phaseLength = 4 ∧ u.transition.state = .dipOut ∧ u.transition.phaseLength = 2 ∧
    t.engine.other.stages.map (·.kind) = .vol :: List.replicate 11 .none ∧
    (t.engine.other.stages[0]?).map (fun st => (st.enable, st.targets.getD 0 0, st.ramp)) = some (true, 20, .on) ∧
    (u.transition.inFlight.bind (·.decided)) = some (.dip, 4) := by decide +kernel

def restaging (count length : Nat) : State :=
  let s := withNext (inState .dipOut (some (sel 7)) none (stored 7 running))
  { s with transition := { s.transition with restageDue := true, count := count, phaseLength := length } }

theorem test_meets_restage :
    ∀ s, s ∈ [restaging 1 2, restaging 2 2] →
      (s.port.ready = true ∧ s.grid.done = 0) ∧ (s.before .restage).mayMove = true ∧
      (s.before .restage).transition.state = .dipOut ∧ (s.before .restage).transition.restageDue = true ∧
      (s.before .restage).transition.inFlight = some (sel 7) ∧
      (s.before .restage).store.scenes[7]? = some (some scene) ∧
      (s.before .restage).store.mustWait scene = false := by decide +kernel

/-- A transition at the end of its phase. -/
def ending (st : TransState) : State :=
  let s := withNext (inState st (some { sel 7 with decided := some (.fade, 4) }) none (stored 7 running))
  { s with transition := { s.transition with count := 4, phaseLength := 4 } }

/-- O24. -/
theorem test_meets_dipTurn :
    (ending .dipOut).yetTo .dipTurn ∧ ((ending .dipOut).before .dipTurn).mayMove = true ∧
    ((ending .dipOut).before .dipTurn).transition.state = .dipOut ∧
    ((ending .dipOut).before .dipTurn).transition.restageDue = false ∧
    ((ending .dipOut).before .dipTurn).transition.phaseLength ≤ ((ending .dipOut).before .dipTurn).transition.count := by
  refine ⟨yetTo_of rfl rfl, ?_⟩; decide +kernel

/-- A DELAY of one lane, enabled. -/
def delay (lanes : List Nat) : Stage := freshAt .delay true [0, 1, 0, 1, 0, 0, 0, 0] 1200 lanes

/-- O24: a carried DELAY keeps its lane at the turn, and another one is given the next. -/
theorem test_turn_gives_lanes :
    let s := ending .dipOut
    let held := { delay [0] with state := .delay [(5, 9)] 7 }
    let s := { s with engine := { s.engine with
      bankA := { s.engine.bankA with stages := held :: List.replicate 11 .none }
      bankB := { s.engine.bankB with stages := placeholderOf (delay []) :: delay [] :: List.replicate 10 .none } } }
    let t := after .dipTurn s
    (t.engine.other.stages[0]?).map (fun st => (st.lanes, st.state, st.carry)) = some ([0], .delay [(5, 9)] 7, true) ∧
    (t.engine.other.stages[1]?).map (·.lanes) = some [1] := by decide +kernel

/-- O25: the lamp entries of a select that goes LIVE are handed on as LAMP frames. -/
theorem test_live_select_lights_lamps :
    let s := ending .fading
    let x := { decided 7 .fade with lamps := [⟨3, 0x81, 0x2000⟩] }
    let t := after .fadeEnd { s with transition := { s.transition with inFlight := some x } }
    x.lamps.length ≤ 4 ∧ t.link.queue = [⟨.lamp, 3, 15, [1, 1, 0, 64]⟩] ∧ result 1 t = (0, 7) ∧
    notice t = [1, 0, 1, 7, 0, 0, 255] := by decide +kernel

/-- O25: both ends, with and without a pending select. -/
theorem test_meets_transitionEnd :
    ∀ x, x ∈ [(ending .fading, Work.fadeEnd, TransState.fading), (ending .dipIn, .dipEnd, .dipIn),
        ({ ending .fading with transition := { (ending .fading).transition with pending := some (sel 9) } }, .fadeEnd, .fading)] →
      (x.1.port.ready = true ∧ x.1.grid.done = 0) ∧ Memory.wf x.1.ram = true ∧
      (x.1.before x.2.1).engine.running = true ∧ (x.1.before x.2.1).transition.acted = false ∧
      (x.1.before x.2.1).transition.state = x.2.2 ∧
      (x.1.before x.2.1).transition.phaseLength ≤ (x.1.before x.2.1).transition.count ∧
      (x.1.before x.2.1).requests.slots[1]? = some .taken := by decide +kernel

/-- The post queue of `ending` is exact. -/
theorem test_meets_transitionEnd_exact (st : TransState) : (ending st).requests.exact :=
  exact_of rfl List.nodup_nil (by show ∀ n ∈ ([] : List Nat), _; decide) (by
    show ∀ n, n < 32 → (n ∈ ([] : List Nat) ↔ (RequestUnit.reset.slots.set 1 .taken)[n]? = some .posted)
    decide +kernel)

/-- A tail at its quiet limit, and one at its age limit. -/
def tailOf (quiet age : Nat) : Tail :=
  ⟨{ freshAt .delay true [0, 1, 0, 1, 0, 0, 1, 0] 1200 [0] with delayCurrent := 48, tailMode := true }, quiet, age, 0⟩

/-- O26. -/
theorem test_meets_tails :
    (let s := { running with engine := { running.engine with tails := [tailOf 1 0, tailOf 0 0] } }
     s.yetTo .tailQuiet ∧ ((s.before .tailQuiet).engine.tails.any fun t =>
       decide (180 ≤ peakCode t.wetPeak ∧ t.stage.delayCurrent ≤ 32 * ((t.quiet + 1 : Nat) : Int))) = true) ∧
    (let s := { running with engine := { running.engine with tails := [tailOf 0 11999, tailOf 0 0] } }
     s.yetTo .tailAge ∧ ((s.before .tailAge).engine.tails.any fun t => decide (12000 ≤ t.age + 1)) = true) := by
  refine ⟨⟨yetTo_of rfl rfl, ?_⟩, yetTo_of rfl rfl, ?_⟩ <;> decide +kernel

/-- RUN cleared at the port, and still running. -/
def stopping (s : State) : State := { s with port := { s.port with run := false } }

/-- O27: nothing in flight, and a fade in flight; a restart without and with a stopped select. -/
theorem test_meets_stop :
    ∀ s, s ∈ [stopping running, stopping (ending .fading)] →
      (s.port.ready = true ∧ s.grid.done = 0) ∧ (s.before .stop).engine.running = true ∧
      (s.before .stop).engine.runNext = false ∧ (s.before .stop).transition.pending = none := by decide +kernel

/-- O27: stopped with NEXT staged in DIP_OUT, with a restage due, in STAGING of a STORED and of an EMPTY scene, in FADING with
a pending select, and with a pending select alone: what the slot and the first notice say, and the LIVE scene. -/
theorem test_meets_stop_selects :
    let busy := stored 3 (stored 7 running)
    ∀ x, x ∈ [(withNext (inState .dipOut (some (decided 7 .dip)) none busy), (11, (7 : Int)), [1, 0, 1, 7, 3, 1, 255], 7),
        (restaging 1 2, (11, 7), [1, 0, 1, 7, 3, 3, 255], 7),
        (inState .staging (some (sel 7)) none busy, (11, 7), [1, 0, 1, 7, 3, 3, 255], 7),
        (inState .staging (some (sel 8)) none busy, (8, 8), [1, 0, 1, 8, 2, 255, 255], 255),
        (withNext (inState .fading (some (decided 7 .fade)) (some (sel 3)) busy), (11, 7), [1, 0, 1, 7, 3, 0, 255], 3),
        (inState .idle none (some (sel 3)) busy, (0, 3), [1, 0, 1, 3, 0, 3, 255], 3)] →
      let s := stopping { x.1 with transition := { x.1.transition with phaseLength := 4 } }
      (s.before .stop).engine.running = true ∧ (s.before .stop).engine.runNext = false ∧
      (s.before .stop).transition.inFlight = x.1.transition.inFlight ∧
      (s.before .stop).transition.pending = x.1.transition.pending ∧
      result 1 (after .engineStop s) = x.2.1 ∧ notice (after .engineStop s) = x.2.2.1 ∧
      (after .engineStop s).engine.live.scene = x.2.2.2 := by decide +kernel

/-- The notice at an entry, as `notice` gives that of entry 0. -/
def noticeAt (n : Nat) (s : State) : List Nat :=
  let a := 0x440 + 16 * n
  [readLE s.ram (a + 4) 1, readLE s.ram (a + 5) 1, readLE s.ram (a + 6) 2] ++
    (List.range 4).map fun i => readLE s.ram (a + 8 + 2 * i) 2

/-- O27: an in-flight select of slot 1 and a pending one of slot 2 both finish, each in its slot and its notice, and the lamps
of the first are lit. -/
theorem test_stop_finishes_both :
    let x := { decided 7 .fade with lamps := [⟨3, 0x81, 0x2000⟩] }
    let y := { sel 3 with origin := .slot 2 }
    let s := withNext (inState .fading (some x) (some y) (stored 3 (stored 7 running)))
    let s := { s with requests := { s.requests with slots := s.requests.slots.set 2 .taken } }
    let t := after .engineStop (stopping { s with transition := { s.transition with phaseLength := 4 } })
    result 1 t = (11, 7) ∧ result 2 t = (0, 3) ∧ noticeAt 0 t = [1, 0, 1, 7, 3, 0, 255] ∧
    noticeAt 1 t = [1, 0, 2, 3, 0, 3, 7] ∧ t.link.queue = [⟨.lamp, 3, 15, [1, 1, 0, 64]⟩] ∧ t.engine.live.scene = 3 := by
  decide +kernel

/-- O27: the direct copy of a select in STAGING takes the overlay's value; a restart clears the kind state of LIVE. -/
theorem test_stop_overlay_and_restart_clears :
    (let t := after .engineStop (stopping { inState .staging (some (sel 7)) none (stored 7 running) with
        engine := { running.engine with overlay := [⟨0, some 0, 31, .vol⟩] } })
     (t.engine.live.stages[0]?).map (fun st => (st.targets.getD 0 0, st.currents.getD 0 0)) = some (31, 31)) ∧
    (let opened := { freshAt .gate true [100, 0, 1, 1, 5, 40, 0, 0] 1200 [] with state := .gate .opened 0 0, factors := [65536] }
     let e := { State.reset.engine with
       runNext := true, bankA := { State.reset.engine.bankA with stages := opened :: List.replicate 11 .none } }
     let t := after .engineRestart { State.reset with port := { State.reset.port with run := true }, engine := e }
     (t.engine.live.stages[0]?).map (fun st => (st.state, st.factors)) = some (.gate .closed 40 0, [attenuation 40])) := by
  decide +kernel

/-- O27: a copy that must wait makes the select the stopped select. -/
theorem test_stop_waits_on_loading :
    let r : SceneRecord := { scene with stages := ⟨.cab, true, [0, 64, 0, 0, 0, 0, 0, 0]⟩ :: List.replicate 11 entryNone }
    let s := inState .staging (some (sel 7)) none running
    let s := stopping { s with store := { loading.store with scenes := loading.store.scenes.set 7 (some r) } }
    (s.before .stop).store.mustWait r = true ∧
    (after .engineStop s).transition.stopped = some { sel 7 with fromStop := true } := by decide +kernel

def stoppedWith (x : Option Select) (run : Bool) : State :=
  { stored 7 State.reset with
    port := { State.reset.port with run := run }
    transition := { State.reset.transition with stopped := x } }

theorem test_meets_restart :
    ∀ s, s ∈ [stoppedWith none true, stoppedWith (some (sel 7)) true] →
      (s.port.ready = true ∧ s.grid.done = 0) ∧ (s.before .restart).engine.running = false ∧
      (s.before .restart).engine.runNext = true := by decide +kernel

/-- O28: a stopped select of a STORED and of an EMPTY scene. -/
theorem test_meets_directCopy :
    ∀ n, n ∈ [7, 8] →
      ((stoppedWith (some (sel n)) false).port.ready = true ∧ (stoppedWith (some (sel n)) false).grid.done = 0) ∧
      ((stoppedWith (some (sel n)) false).before .directCopy).engine.running = false ∧
      ((stoppedWith (some (sel n)) false).before .directCopy).engine.runNext = false ∧
      ((stoppedWith (some (sel n)) false).before .directCopy).transition.acted = false ∧
      ((stoppedWith (some (sel n)) false).before .directCopy).transition.stopped = some (sel n) := by decide +kernel

theorem test_meets_directCopy_reports (x : Option Select) (run : Bool) :
    (stoppedWith x run).memoryOk ∧ (stoppedWith x run).requests.exact := ⟨by unfold State.memoryOk; rfl, exact_reset⟩

/-- O28: a direct copy finishes LIVE, or CUT_SHORT from a stop; an EMPTY scene finishes EMPTY; a LOADING slot is waited for. -/
theorem test_directCopy_finishes :
    let from7 := fun x : Select =>
      let s := stoppedWith (some x) false
      after .directCopy { s with requests := { s.requests with slots := s.requests.slots.set 1 .taken } }
    let cab : SceneRecord := { scene with stages := ⟨.cab, true, [0, 64, 0, 0, 0, 0, 0, 0]⟩ :: List.replicate 11 entryNone }
    let wait := { stoppedWith (some (sel 7)) false with
      store := { loading.store with scenes := loading.store.scenes.set 7 (some cab) } }
    result 1 (from7 (sel 7)) = (0, 7) ∧ notice (from7 (sel 7)) = [1, 0, 1, 7, 0, 3, 255] ∧
    result 1 (from7 { sel 7 with fromStop := true }) = (11, 7) ∧
    notice (from7 { sel 7 with fromStop := true }) = [1, 0, 1, 7, 3, 3, 255] ∧
    result 1 (from7 (sel 8)) = (8, 8) ∧ notice (from7 (sel 8)) = [1, 0, 1, 8, 2, 255, 255] ∧
    (wait.before .directCopy).store.mustWait cab = true ∧ (after .directCopy wait).transition.stopped = some (sel 7) := by
  decide +kernel

/-- O29, O30: edits refused and written. -/
theorem test_meets_edits :
    (∀ x, x ∈ [[(-1 : Int), 0, 1, 0], [12, 0, 1, 0], [0, 0, 1, 0], [0, 0, 128, 8], [11, 0, 1, 0], [0, 1, 1, 0]] →
      Meets 11 .none (ask 11 x 0 0 (withVol running)) ∧ Meets 12 .none (ask 12 x 0 0 (withVol running))) ∧
    (withVol running).engine.running = true := by
  unfold Meets State.memoryOk State.headIs; decide +kernel

/-- The code of a refused edit. -/
def refusal : EditOutcome → Option Result
  | .refused c => some c
  | .wrote _ _ _ => none

/-- What a written edit wrote, with the flag and the first target that stand in LIVE after it. -/
def written : EditOutcome → Option (Int × Bool × Bool × Int)
  | .refused _ => none
  | .wrote v clamped u =>
    some (v, clamped, (u.engine.live.stages.getD 0 .none).enable, (u.engine.live.stages.getD 0 .none).targets.getD 0 0)

theorem test_meets_edit_refused :
    refusal ((withVol running).editParam (-1) 0 1 0) = some .range ∧ refusal ((withVol running).editParam 12 0 1 0) = some .range ∧
    refusal ((withVol running).editParam 11 0 1 0) = some .invalid ∧ refusal ((withVol running).editParam 0 1 1 0) = some .range ∧
    refusal ((withVol running).editParam 0 0 1 7) = some .invalid ∧
    refusal ({ loading with engine := withCab.engine }.editParam 0 0 0 0) = some .inUse := by decide +kernel

theorem test_meets_edit_written :
    written ((withVol running).editParam 0 0 128 8) = some (127, true, true, 127) ∧
    written ((withVol running).editEnable 0 (-1) 0) = some (0, true, false, 20) := by decide +kernel

/-- The overlay entries of position 0 in this order: the flag, then the indices; an entry for another kind beside them. -/
def overlaidState (entries : List OverlayEntry) : State :=
  let s := inState .staging (some (sel 7)) none (stored 7 running)
  { s with engine := { s.engine with overlay := entries } }

def flagOf (k : Kind) (v : Int) : OverlayEntry := ⟨0, none, v, k⟩

/-- O30: an overlay in its order, an edit in STAGING that replaces an entry, and one that raises the load over the budget. -/
theorem test_meets_overlay :
    let s := overlaidState [flagOf .vol 0, ⟨0, some 0, 30, .vol⟩]
    s.engine.overlay.Pairwise (fun x y => x.key < y.key) ∧
    (s.putTarget 0 0 31 .vol).engine.overlay = [flagOf .vol 0, ⟨0, some 0, 31, .vol⟩] ∧
    (s.editViews[0]?).map (fun v => (v.enable, v.targets.getD 0 0)) = some (false, 30) ∧
    overlayOn 0 [flagOf .vol 0, flagOf .cab 1] [⟨.vol, true, [20]⟩] = [⟨.vol, false, [20]⟩] := by decide +kernel

theorem test_meets_overBudget :
    let s := heavy running
    (s.editViews[0]?).map (·.kind) = some .cab ∧ s.overBudget (s.editView 0) 1 1024 = false ∧
    (let e := { s.engine with bankA := { s.engine.bankA with
        stages := s.engine.bankA.stages.set 0 (freshAt .cab true [0, 64, 0, 0, 0, 0, 0, 0] 1200 []) } }
     let s := { s with engine := e }
     s.overBudget (s.editView 0) 1 128 = true ∧ s.overBudget (s.editView 0) 1 64 = false) := by decide +kernel

/-- O40: TOGGLE in STAGING takes the flag that the overlay holds, of whatever kind it was recorded for (R23). -/
theorem test_toggle_in_staging :
    let a := { Assignment.cleared with action := .toggle, argument := 0 }
    let e : ControlEvent := ⟨1, 0, .press, 0, 0⟩
    ((overlaidState [flagOf .cab 0]).act 0 a e false).engine.overlay = [flagOf .vol 1] ∧
    ((overlaidState [flagOf .cab 1]).act 0 a e false).engine.overlay = [flagOf .vol 0] ∧
    ((overlaidState []).act 0 a e false).engine.overlay = [flagOf .vol 0] := by decide +kernel

/-- O31: the sink and the source at and outside their ends, TONE on MAIN and on PHONES. -/
theorem test_meets_setRoute :
    (∀ x, x ∈ [[(-1 : Int), 0, 0, 0], [3, 0, 0, 0], [0, 5, 0, 0], [1, 0, 0, 4], [2, 4, 0, 0], [0, 0x407F01, 0, 0], [1, 3, 2, 1]] →
      Meets 14 .none (ask 14 x 0 0 .reset) ∧ args (ask 14 x 0 0 .reset) = [x.getD 0 0, x.getD 1 0, x.getD 2 0, x.getD 3 0]) := by
  unfold Meets State.memoryOk State.headIs; decide +kernel

/-- A sink with a route handed to it, and one whose crossfade has run its eight blocks. -/
def routed (fade : Option RouteFade) (waiting : Option (List RouteEntry)) : State :=
  { running with router := { running.router with phones := { running.router.phones with fade := fade, waiting := waiting } } }

/-- O32. -/
theorem test_meets_routes :
    (let s := routed none (some routeReset)
     s.yetTo .routeStart ∧ (s.before .routeStart).router.phones.fade = none ∧
     (s.before .routeStart).router.phones.waiting ≠ none) ∧
    (let s := routed (some ⟨routeReset, 256⟩) none
     s.yetTo .routeEnd ∧ ((s.before .routeEnd).router.phones.fade.map (·.samples)) = some 256) := by
  refine ⟨⟨yetTo_of rfl rfl, ?_⟩, yetTo_of rfl rfl, ?_⟩ <;> decide +kernel

/-- O33: gains at both ends, and a step of each. -/
theorem test_meets_gains :
    Router.reset.mainMute ≤ 256 ∧ Router.reset.phonesMute ≤ 256 ∧ running.engine.running = true ∧
    running.transition.startGain ≤ 256 ∧
    (Router.reset.muteWork { Tuner.reset with state := .listen }).mainMute = 224 ∧
    ({ InputSection.reset with trimGoal := 48 }.moveTrim).trimCurrent = 1 ∧
    (running.engineWork).transition.startGain = 32 := by decide +kernel

/-- O34: engaging with each mode and a bad one, from OFF and engaged; disengaging. -/
theorem test_meets_tuner :
    (∀ x, x ∈ [([(1 : Int), 2, 0, 0], State.reset), ([1, -1, 0, 0], .reset), ([1, 0, 0, 27], .reset), ([2, 1, 1, 96], .reset),
        ([1, 0, 0, -1], { State.reset with tuner := { State.reset.tuner with state := .hold } }), ([0], .reset), ([-1], .reset),
        ([0], { State.reset with tuner := { State.reset.tuner with state := .locked } })] →
      Meets 15 .none (ask 15 x.1 0 0 x.2) ∧ (takenAt (ask 15 x.1 0 0 x.2).ram 0).arg0 = x.1.getD 0 0 ∧
      (takenAt (ask 15 x.1 0 0 x.2).ram 0).arg3 = x.1.getD 3 0) := by
  unfold Meets State.memoryOk State.headIs; decide +kernel

/-- An engaged Tuner whose window ends at this block start, over these samples (newest first). -/
def window (st : TunerState) (history : List Int) : State :=
  { taking with tuner := { taking.tuner with
      state := st, collecting := true, windowed := true, windowCount := 31, history := history, holdCount := 46 } }

/-- A square wave of 48 samples' period, 1000 Hz. -/
def square : List Int := (List.range 240).map fun i => if i % 48 < 24 then -4000000 else 4000000

/-- O35: a window of each class, and a hold that expires. -/
theorem test_meets_window :
    classify [] = .noSignal ∧ classify (List.replicate 64 4000000) = .inconclusive ∧ classify square.reverse = .conclusive 768 := by
  decide +kernel

theorem test_meets_windowEnd :
    ∀ x, x ∈ [(TunerState.locked, ([] : List Int)), (.locked, List.replicate 64 4000000), (.acquire, []), (.listen, []),
        (.hold, [])] →
      ((window x.1 x.2).port.ready = true ∧ (window x.1 x.2).grid.done = 0) ∧
      ((window x.1 x.2).before .window).tuner.state = x.1 ∧ ((window x.1 x.2).before .window).tuner.collecting = true ∧
      ((window x.1 x.2).before .window).grid.opened = true ∧ ((window x.1 x.2).before .window).tuner.windowed = true ∧
      32 ≤ min 64 (((window x.1 x.2).before .window).tuner.windowCount + 1) ∧
      ((window x.1 x.2).before .window).tuner.holdCount = 46 ∧
      ((window x.1 x.2).before .window).tuner.history = x.2 := by decide +kernel

/-- The reading of `square` at the reference 445.5. -/
def squareReading : Reading := ⟨13998, 83, -2⟩

theorem test_squareReading : readingOf (readingT 768 4455) = squareReading := by decide +kernel

/-- O35: LISTEN and HOLD on a window of silence before the 47th. -/
theorem test_quiet_windows :
    let held := window .hold []
    let t := after .tunerWindowEnd { held with tuner := { held.tuner with holdCount := 45, shownNote := 69, shownCents := 3 } }
    t.tuner.state = .hold ∧ t.tuner.holdCount = 46 ∧ t.tuner.shownNote = 69 ∧ t.tuner.shownCents = 3 ∧
    (after .tunerWindowEnd (window .listen [])).tuner.state = .listen := by decide +kernel

/-- A window over `square` at that reference in a state, with a run of readings and the accepted ones. -/
def reading (st : TunerState) (run : List Reading) (accepted : List Int) : State :=
  let s := window st square
  { s with tuner := { s.tuner with
      reference := 4455, run := run, accepted := accepted, shownNote := 83, shownCents := -2, lockedWindows := 4 } }

/-- O35: the third agreeing reading locks, in tune. -/
theorem test_lock :
    let t := after .tunerWindowEnd (reading .acquire [squareReading, squareReading] [])
    t.tuner.state = .locked ∧ t.tuner.accepted = [13998, 13998, 13998] ∧ t.tuner.lockedWindows = 1 ∧
    notice t = [7, 5, 0, 83, 65534, 4455, 1] := by decide +kernel

/-- O35: LOCKED accepts a near reading. -/
theorem test_locked_accepts :
    let t := after .tunerWindowEnd (reading .locked [] [13990, 13998, 13999])
    t.tuner.state = .locked ∧ t.tuner.accepted = [13998, 13999, 13998] ∧ t.tuner.lockedWindows = 5 := by decide +kernel

/-- O36: a period and a reference in their ranges; 5.4, the low string. -/
theorem test_meets_reading : 512 ≤ 9309 ∧ 9309 ≤ 15360 ∧ 4000 ≤ 4400 ∧ 4400 ≤ 4800 ∧
    readingOf (readingT 9309 4400) = ⟨-28980, 40, 20⟩ := by decide +kernel

/-- O37: an image without a fault, and the index at and outside both ends. -/
def withAssign : State :=
  { State.reset with ram := writeFields [] 0x1000 [⟨0, 1, 1⟩, ⟨3, 1, 15⟩, ⟨5, 1, 4⟩, ⟨6, 1, 3⟩, ⟨0xA, 1, 8⟩, ⟨0x14, 4, 127⟩] }

theorem test_meets_setAssign :
    (∀ a, a ∈ [(-1 : Int), 32, 0, 31] → Meets 16 (.exactly 32) (ask 16 [a] 0x1000 32 withAssign) ∧
      (takenAt (ask 16 [a] 0x1000 32 withAssign).ram 0).arg0 = a) ∧
    (assignImage (readBytes withAssign.ram 0x1000 32)).fault = none ∧
    (assignImage (readBytes State.reset.ram 0x1000 32)).fault = some (3, .range) := by
  unfold Meets State.memoryOk State.headIs; decide +kernel

/-- A PARAM image of the AMP filter set, with these ends. -/
def filterSetImage (min max : Int) : AssignImage :=
  { enabled := 1, scope := 0, scopeScene := 0, unit := 15, control := 3, trigger := 4, action := 3, argument := 11,
    policy := 0, default := 0, kind := 3, index := 3, curve := 2, takeover := 1, min := min, max := max }

/-- O37: both ends of the range and of the gap of an AMP filter set; the enabled byte alone makes the mark. -/
theorem test_meets_assign_clamps :
    (∀ x, x ∈ [((0 : Int), (255 : Int), (0 : Int), (255 : Int), false), (15, 16, 15, 15, true), (254, 255, 15, 255, true),
        (-1, 256, 0, 255, true)] →
      (filterSetImage x.1 x.2.1).fault = none ∧ (filterSetImage x.1 x.2.1).assignment.1.min = x.2.2.1 ∧
      (filterSetImage x.1 x.2.1).assignment.1.max = x.2.2.2.1 ∧ (filterSetImage x.1 x.2.1).assignment.2 = x.2.2.2.2) ∧
    { filterSetImage 0 255 with enabled := 2 }.assignment.2 = true := by decide +kernel

/-- O37: faults at the first and the last field that can be at fault. -/
theorem test_meets_assign_faults :
    { filterSetImage 0 255 with scope := 2 }.fault = some (1, .invalid) ∧
    { filterSetImage 0 255 with scope := 1, scopeScene := 128 }.fault = some (2, .range) ∧
    { filterSetImage 0 255 with unit := 16 }.fault = some (3, .range) ∧
    { filterSetImage 0 255 with control := 4 }.fault = some (5, .range) ∧
    { filterSetImage 0 255 with trigger := 0 }.fault = some (6, .invalid) ∧
    { filterSetImage 0 255 with argument := 12 }.fault = some (7, .range) ∧
    { filterSetImage 0 255 with kind := 0 }.fault = some (10, .invalid) ∧
    { filterSetImage 0 255 with index := 6 }.fault = some (11, .range) ∧
    { filterSetImage 0 255 with kind := 7, index := 3 }.fault = some (11, .invalid) ∧
    { filterSetImage 0 255 with takeover := 2 }.fault = some (13, .invalid) := by decide +kernel

/-- A referral of scene 7. -/
def referring (scene : Nat) (apply : Bool) (s : State) : State :=
  { s with mapper := { s.mapper with referral := some ⟨3, scene, 5, apply, 1⟩, lastId := 3 } }

/-- O38, O39: indices at both ends; each check of a verdict, and an expiry with each default. -/
theorem test_meets_clearAssign :
    ∀ a, a ∈ [(-1 : Int), 32, 0, 31] → Meets 17 .none (ask 17 [a] 0 0 .reset) := by
  unfold Meets State.memoryOk State.headIs; decide +kernel

theorem test_meets_verdict :
    (∀ x, x ∈ [([(3 : Int), -1], running), ([3, 3], running), ([3, 0], running), ([4, 0], referring 7 true running),
        ([3, 1], referring 7 true running), ([3, 2, -1], referring 7 true running), ([3, 2, 128], referring 7 true running),
        ([3, 2, 8], referring 7 true (stored 7 running)), ([3, 2, 7], referring 8 true (stored 7 running)),
        ([3, 0], referring 7 true (stored 7 running)), ([3, 0], referring 7 true (stored 7 .reset)),
        ([3, 0], referring 7 true (inState .fading (some (sel 7)) none (stored 7 running))), ([3, 0], referring 8 true running)] →
      Meets 18 .none (ask 18 x.1 0 0 x.2)) := by
  unfold Meets State.memoryOk State.headIs; decide +kernel

theorem test_meets_expiry :
    ∀ s, s ∈ [referring 7 false running, referring 7 true (stored 7 running), referring 7 true running] →
      (s.port.ready = true ∧ s.grid.done = 0) ∧
      ((s.before .referral).mapper.referral.map (·.expiry)) = some 1 ∧ (s.before .referral).engine.running = true ∧
      (s.before .referral).transition.state = .idle := by decide +kernel

/-- O39: the select of a verdict, and that of an expiry, in every state of the Transition Unit: where it stands, and whether a
restage is due. -/
theorem test_referral_selects :
    let where_ := fun s : State =>
      let tr := s.transition
      ([tr.inFlight, tr.pending, tr.stopped].map fun x => decide (x.map (·.origin) = some (.assignment 5)), tr.restageDue)
    ∀ x, x ∈ [(inState .idle none none running, ([true, false, false], false)),
        (inState .staging (some (sel 3)) none running, ([true, false, false], false)),
        (inState .dipOut (some (decided 3 .dip)) none running, ([true, false, false], true)),
        (inState .dipIn (some (decided 3 .dip)) none running, ([false, true, false], false)),
        (inState .fading (some (decided 3 .fade)) (some (sel 4)) running, ([false, true, false], false)),
        (inState .idle none none .reset, ([false, false, true], false))] →
      let s := referring 7 true (stored 7 x.1)
      where_ (after .verdict (ask 18 [3, 0] 0 0 s)) = x.2 ∧ where_ (Work.referral.run s) = x.2 := by decide +kernel

/-- An event of switch 0 of unit 1, and of its pedal 0. -/
def event (t : Trigger) : ControlEvent := ⟨1, 0, t, 5, 0⟩

/-- O40: an event that nothing matches; queues that are short, full with a PEDAL entry, and full without. -/
theorem test_meets_events :
    (let s := { running with mapper := { running.mapper with queue := [event .press] } }
     s.yetTo .event ∧ (s.before .event).mapper.queue = [event .press] ∧
     (∀ i, i < 32 → ((s.before .event).mapper.assignments.getD i .cleared).isMatch (event .press) 255 = false)) := by
  refine ⟨yetTo_of rfl rfl, ?_⟩; decide +kernel

/-- O40: what the actions do on one state. -/
theorem test_actions :
    let s := stored 7 running
    let act := fun a s => State.act s 0 { Assignment.cleared with action := a, argument := 7 } (event .press) false
    (act .scene s).transition.inFlight = some (.taken 7 (.assignment 0) none none false) ∧
    notice (act .scene running) = [1, 1, 0, 7, 2, 255, 255] ∧
    (act .sceneStep s).transition.inFlight = some (.taken 7 (.assignment 0) none none false) ∧
    (act .tunerToggle s).tuner.state = .listen ∧ (act .profile s).input.chosen = 7 ∧
    notice (act .forward s) = [3, 1, 0, 1, 0, 0, 5] ∧
    (let t := State.act s 0 { Assignment.cleared with action := .scene, argument := 7, refer := some true } (event .press) false
     t.mapper.referral = some ⟨1, 7, 0, true, 45⟩ ∧ notice t = [2, 1, 0, 1, 7, 1, 0]) := by decide +kernel

/-- O40: SCENE_STEP over the stored scenes 3 and 127, from LIVE's scene, up and down. -/
theorem test_step_scene :
    ∀ x, x ∈ [(3, true, some 127), (127, true, some 3), (3, false, some 127), (0, true, some 3), (255, false, some 127),
        (255, true, some 3)] →
      (State.stepScene { stored 127 (stored 3 running) with
        engine := { running.engine with bankA := { running.engine.bankA with scene := x.1 } } } x.2.1) = x.2.2 := by
  decide +kernel

theorem test_meets_arrivals :
    (Mapper.reset.arrive (event .pedal)).1.queue = [event .pedal] ∧
    (({ Mapper.reset with queue := [event .pedal] }).arrive { event .pedal with value := 9 }).1.queue =
      [{ event .pedal with value := 9 }] ∧
    (({ Mapper.reset with queue := List.replicate 16 (event .press) }).arrive (event .pedal)).1.queue.length = 16 ∧
    (({ Mapper.reset with queue := event .pedal :: List.replicate 15 (event .press) }).arrive (event .press)).1.queue =
      List.replicate 16 (event .press) ∧
    (({ Mapper.reset with queue := List.replicate 16 (event .press) }).arrive (event .press)).1.drops = 1 := by
  decide +kernel

/-- O41: a pedal assignment whose ends lie in the range of its parameter; O43: a tap. -/
theorem test_meets_pedal :
    let a := { Assignment.cleared with kind := .vol, index := 0, min := 127, max := 0 }
    paramRule a.kind a.index = some ⟨0, 127, .level⟩ ∧ a.mapped 0 = 127 ∧ a.mapped 1023 = 0 ∧ a.mapped 512 = 63 := by
  decide +kernel

theorem test_meets_pedal_filter_set :
    let a := { Assignment.cleared with kind := .amp, index := 3, min := 0, max := 255 }
    a.mapped 60 = 15 ∧ a.mapped 512 = 15 ∧ a.mapped 1019 = 15 ∧ a.mapped 1023 = 255 := by decide +kernel

theorem test_meets_tap :
    let s := { State.reset with mapper := { State.reset.mapper with lastTap := some 0, intervals := [750, 750, 750] } }
    s.mapper.intervals.length ≤ 3 ∧ (s.tap 750).engine.tempoTarget = 1200 ∧ (s.tap 299).mapper.intervals = [] ∧
    (s.tap 300).mapper.intervals = [750, 750, 300] ∧ (s.tap 3000).mapper.intervals = [750, 750, 3000] ∧
    (s.tap 3001).mapper.intervals = [] := by decide +kernel

/-- Unit 5 in entry 0, as it was last seen. -/
def unit (st : UnitState) (misses : Nat) : UnitEntry :=
  { UnitEntry.reset with
    number := 5, enabled := true, switchCount := 14, pedalCount := 4, state := st, misses := misses
    last := if st = .present then some ⟨List.replicate 14 .up, [0, 0, 0, 0]⟩ else none }

/-- The link enabled, with unit 5 in entry 0 and the line in a phase. -/
def linked (st : UnitState) (misses : Nat) (phase : LinePhase) : State :=
  { State.reset with link := { State.reset.link with
      enabled := true, phase := phase, units := State.reset.link.units.set 0 (unit st misses) } }

/-- O44: a line enabled and disabled, resumed and restarted; entries and unit numbers at and outside their ends, and a
duplicate. -/
theorem test_meets_linkConfig :
    ∀ x, x ∈ [([(0 : Int)], State.reset), ([0], linked .present 0 .between), ([1, 0, 0xC7, 17], .reset),
        ([2, 0, 0, 0], linked .present 0 .between), ([1, 1, 0, -1], .reset)] → Meets 19 .none (ask 19 x.1 0 0 x.2) := by
  unfold Meets State.memoryOk State.headIs; decide +kernel

theorem test_meets_setUnit :
    ∀ x, x ∈ [[(-1 : Int), 1], [8, 1], [0, 0], [0, 16], [0, 1, 1, 0], [7, 15, 1, 0x5000F], [7, 5, 1, 0], [7, 5, 0, 0]] →
      Meets 20 .none (ask 20 x 0 0 (linked .present 0 .between)) := by
  unfold Meets State.memoryOk State.headIs; decide +kernel

/-- A full transmit queue, without and with a TUNE frame. -/
def fullQueue (first : FrameKind) : List MasterFrame :=
  ⟨first, 1, 1, [0]⟩ :: (List.range 7).map fun i => ⟨.lamp, i + 2, 1, [0, 0, 0, 0]⟩

/-- O45: addresses at and outside their ends, a text of no characters, and each placing. -/
theorem test_meets_lampAndText :
    (∀ x, x ∈ [[(-1 : Int), 0], [16, 0], [0, -1], [0, 16], [0, 0], [15, 15, 0x3FFF, 1]] →
      Meets 21 .none (ask 21 x 0 0 .reset) ∧ Meets 22 .none (ask 22 x 0 0 .reset)) ∧
    State.reset.placing ⟨.lamp, 1, 15, []⟩ = .joined ∧
    { State.reset with link := { Link.reset with queue := fullQueue .lamp } }.placing ⟨.lamp, 1, 1, []⟩ = .replaced ∧
    { State.reset with link := { Link.reset with queue := fullQueue .tune } }.placing ⟨.lamp, 1, 1, []⟩ = .displaced ∧
    { State.reset with link := { Link.reset with queue := fullQueue .lamp } }.placing ⟨.text, 1, 1, []⟩ = .dropped := by
  unfold Meets State.memoryOk State.headIs; decide +kernel

/-- O46: the line free for a poll, in step 3 of a turn, in a turn without a poll, and with a break due. -/
theorem test_meets_sends :
    (let l := (linked .present 0 .between).link
     l.turnFree = true ∧ l.upcoming = (0, some 0) ∧ l.units[0]? = some (unit .present 0)) ∧
    (∀ n, n ∈ [0, 1] → (let l := (linked .present 0 (.queueStep n)).link
      l.enabled = true ∧ l.breakDue = false ∧ l.phase = .queueStep n)) ∧
    (let l := (linked .unused 0 .between).link
     l.enabled = true ∧ l.breakDue = false ∧ l.phase = .between ∧ l.upcoming = (0, none)) ∧
    (let l := (linked .present 0 .between).link.restart
     l.breakDue = true ∧ l.phase = .between) ∧
    (let l := { (linked .lost 0 .between).link with cycle := 15, position := 1, turnTaken := true }
     l.upcoming = (0, some 0)) := by decide +kernel

/-- Each frame of a step 3 leaves the queue as its own sending begins, and the turn ends after the second. -/
theorem test_two_sends :
    let s := linked .present 0 (.queueStep 0)
    let s := { s with link := { s.link with queue := fullQueue .tune, position := 1, turnTaken := true } }
    let t := after .queueFrameSend s
    let u := after .queueFrameSend t
    t.link.queue = (fullQueue .tune).drop 1 ∧ t.link.sent = [.frame (MasterFrame.bytes ⟨.tune, 1, 1, [0]⟩)] ∧
    t.link.phase = .queueStep 1 ∧ u.link.queue = (fullQueue .tune).drop 2 ∧ u.link.phase = .between ∧
    t.link.cycle = 0 ∧ u.link.cycle = 1 ∧ u.link.position = 0 := by decide +kernel

/-- A cycle that has ended raises the counter, whatever the host does with the link then (R165, R178). -/
theorem test_ended_cycle_is_counted :
    let s := linked .lost 0 (.queueStep 0)
    let l := { s.link with position := 1, turnTaken := true }
    l.disable.resume.cycle = 1 ∧ l.disable.resume.upcoming = (1, none) ∧ l.endTurn.resume.cycle = 1 := by decide +kernel

/-- O47: a window and a reply that end, a miss of a JOINING unit, a second and a third in a row, and a discarded reply. -/
theorem test_meets_misses :
    ∀ s, s ∈ [linked .joining 0 (.window 0 false), linked .present 1 (.window 0 false), linked .present 2 (.assembling 0 false [144]),
        linked .present 2 (.window 0 true)] →
      Memory.wf s.ram = true ∧ s.port.ready = true ∧ (s.link.units[0]?).isSome = true := by decide +kernel

theorem test_third_miss :
    let t := after .interByteTimeout (linked .present 2 (.assembling 0 false [144]))
    (t.link.units[0]?).map (fun u => (u.state, u.losses)) = some (.lost, 1) ∧ t.report.noticeCount = 1 ∧
    readLE t.ram 0x444 1 = 5 := by decide +kernel

/-- O48: a first STATE and a later one, with and without changes. -/
theorem test_meets_goodState :
    (linked .joining 0 (.window 0 false)).port.ready = true ∧ (unit .joining 0).number < 128 ∧ 5 < 2 ^ 14 ∧
    (findEvents (linked .present 0 .between).link (unit .present 0) ⟨List.replicate 14 .up, [0, 0, 0, 0]⟩ ⟨0, [0, 0, 0, 0]⟩).2 = [] ∧
    (findEvents (linked .present 0 .between).link (unit .present 0) ⟨List.replicate 14 .up, [0, 0, 0, 0]⟩ ⟨0x2001, []⟩).2 =
      [⟨5, 0, .press, 0, 0⟩, ⟨5, 13, .press, 0, 0⟩] := by decide +kernel

/-- O48: a pedal moves by the deadband, by less, and by less to the end of its travel; one that is not watched is not. -/
theorem test_meets_pedals :
    let find := fun was now => findEvents (linked .present 0 .between).link (unit .present 0)
      ⟨List.replicate 14 .up, [was, 0, 0, 0]⟩ ⟨0, [now]⟩
    (find 10 12).2 = [⟨5, 0, .pedal, 12, 0⟩] ∧ (find 10 12).1.pedals = [12, 0, 0, 0] ∧ (find 10 11).2 = [] ∧
    (find 10 11).1.pedals = [10, 0, 0, 0] ∧ (find 1 0).2 = [⟨5, 0, .pedal, 0, 0⟩] ∧
    (find 1022 1023).2 = [⟨5, 0, .pedal, 1023, 0⟩] := by decide +kernel

/-- O48: a unit that comes up is told of, and sent what its mirrors hold. -/
theorem test_unit_up :
    let bytes := (stateBytes 5 ⟨1, [1023]⟩).map fun b => (⟨BitVec.ofNat 8 b, false⟩ : RxByte)
    let s := linked .lost 0 (.window 0 false)
    let t := after (.stateReceive bytes)
      { s with link := { s.link with lampMirrors := s.link.lampMirrors.set 5 (some [1, 0, 0, 0]) } }
    notice t = [4, 4, 5, 0, 5, 1, 1] ∧ t.link.queue = [⟨.lamp, 5, 15, [1, 0, 0, 0]⟩] ∧
    (t.link.units[0]?).bind (fun u => u.last.map (·.pedals)) = some [1023, 0, 0, 0] := by decide +kernel

theorem test_stateReceive :
    let bytes := (stateBytes 5 ⟨1, [1023]⟩).map fun b => (⟨BitVec.ofNat 8 b, false⟩ : RxByte)
    (after (.stateReceive bytes) (linked .present 0 (.window 0 false))).mapper.queue =
      [⟨5, 0, .press, 0, 0⟩, ⟨5, 0, .pedal, 1023, 0⟩] ∧
    ((after (.stateReceive bytes) (linked .joining 0 (.window 0 false))).link.units[0]?).map (·.state) = some .present := by
  decide +kernel

/-- O50 and O51: canonical memory, and a period that closes at this block start. -/
def closing (select : Bool) : State :=
  { running with report := { running.report with periodCount := 15, pageSelect := select } }

theorem test_meets_page :
    ∀ b, b ∈ [true, false] →
      ((closing b).port.ready = true ∧ (closing b).grid.done = 0) ∧ Memory.wf (closing b).ram = true ∧
      16 ≤ ((closing b).before .page).report.periodCount ∧ (closing b).link.units.length = 8 ∧
      (∀ p, p ∈ (closing b).store.profiles → p.name.length = 8) := by decide +kernel

/-- A period whose CHAIN clipped closes at a block start, with CONTROL.RUN as given. -/
def closingChain (run : Bool) : State :=
  { closing true with
    port := { (closing true).port with run := run }
    engine := { (closing true).engine with running := true }
    router := { (closing true).router with chain := ⟨8388608, 7⟩ } }

/-- O51, CHAIN's clauses: the page of the period whose close is a stop shows CHAIN silent, and with RUN set its figures. -/
theorem test_page_chain :
    ∀ run, run ∈ [true, false] →
      ((closingChain run).before .page).engine.running = run ∧
      (readLE (after .readoutPeriodClose (closingChain run)).ram 0x806 1,
        readLE (after .readoutPeriodClose (closingChain run)).ram 0x812 2) = (if run then (0, 7) else (255, 0)) := by
  decide +kernel

/-- O52: an empty line, and one with a sample in it. -/
theorem test_meets_line : sparseWfFrom (fun _ => (0 : Int)) 0 [] = true ∧ sparseWfFrom (fun _ => (0 : Int)) 0 [(3, 5)] = true := by
  decide

/-- A GATE of LIVE in the last block of its hold. -/
def gate : Stage := { freshAt .gate true [100, 0, 1, 1, 5, 40, 0, 0] 1200 [] with state := .gate .holding 0 1 }

def holding : State :=
  { taking with
    grid := { taking.grid with samplesA := List.replicate 32 0, samplesB := List.replicate 32 0 }
    engine := { taking.engine with bankA := { taking.engine.bankA with stages := gate :: List.replicate 11 .none } } }

/-- O53. -/
theorem test_meets_gateHold :
    holding.port.ready = true ∧ holding.grid.done = 0 ∧ (holding.engine.live.stages[0]?).map (·.state) = some (.gate .holding 0 1) ∧
    (holding.closeWork.engine.live.stages[0]?).map (·.state) = some (.gate .closing 40 0) := by decide +kernel

theorem test_meets_gateParams :
    let p : List Int := [100, 0, 1, 1, 5, 40, 0, 0]
    0 ≤ p.getD 5 0 ∧ 0 < p.getD 2 0 ∧ 0 < p.getD 3 0 ∧ 0 ≤ p.getD 4 0 := by decide

/-- O53: attack and release steps of a depth of 40 in 3 blocks, rounded up, and a depth that has glided below the gain code. -/
theorem test_gate_steps :
    let p : List Int := [100, 6, 3, 3, 5, 40, 0, 0]
    gateStep p 90 .closed 0 0 = (.opening, 26, 0) ∧ gateStep p 90 .opening 12 0 = (.opened, 0, 0) ∧
    gateStep p 101 .closing 60 0 = (.closed, 40, 0) ∧ gateStep p 101 .closing 10 0 = (.closing, 24, 0) ∧
    gateStep p 101 .holding 0 1 = (.closing, 14, 0) := by decide +kernel

/-- O52: 1.0 Hz moves the phase of a MOD by 89478 (R31); depth 0 holds the delay at the base and the tremolo at full gain; a
MOD being switched on crosses from its input. -/
theorem test_mod :
    let line : List (Nat × Int) := [(0, 3200), (720, 640000)]
    modStep [0, 20, 0, 100, 0, 0, 0, 0] ⟨line, 0, 0⟩ 32 = (⟨[(0, 32), (720, 640000)], 1, 89478⟩, 640000) ∧
    modStep [3, 20, 0, 100, 0, 0, 0, 0] ⟨line, 959, 0⟩ 32 = (⟨line, 0, 89478⟩, 32) ∧
    (modStep [1, 20, 0, 50, 50, 0, 0, 0] ⟨[(936, 1000)], 0, 0⟩ 32) = (⟨[(0, 532), (936, 1000)], 1, 89478⟩, 516) ∧
    (let st := { freshAt .mod true [0, 20, 0, 100, 0, 0, 0, 0] 1200 [] with ramp := .rampOn }
     (st.run .reset 256 256 [3200, 3200]).2.1 = [3100, 3000]) := by decide +kernel

/-- O54: the chain input crosses from the input left and its trim factor ramps; the tone starts at phase 0, rises over a block,
stops over a block, and keeps its increment where the note has become 0 (log 44). -/
theorem test_chain_input_and_tone :
    (let i := { InputSection.reset with selected := .b, crossFrom := some .a }
     i.chainInput [0, 0] [3200, 3200] = [100, 200] ∧ i.chainInput [3200, 3200] [3200, 3200] = [3200, 3200]) ∧
    ({ InputSection.reset with trimCurrent := 40 }.chainInput [3200] []) = [4100] ∧
    (let t := { Tuner.reset with state := .listen, toneNote := 69 }
     let start := ({ Router.reset.tone with phase := 7 }).atBlockStart t
     start = ⟨.rampOn, 0, 39370534⟩ ∧
     (start.atBlockStart { t with toneNote := 0, reference := 4480 }) = ⟨.rampOff, 0, 39370534⟩ ∧
     (start.block 2).1 = ⟨.rampOn, 78741068, 39370534⟩ ∧
     (({ start with ramp := .on, phase := 2 ^ 30 }).block 1).2 = [838912] ∧
     (({ start with ramp := .rampOff, phase := 2 ^ 30 }).block 1).2 = [(838912 * 31 + 16) / 32]) := by decide +kernel

/-- O54, O55: an event of a block start that is due, and one that is not. -/
theorem test_meets_eventRows :
    (Instr.engineStop, Work.stop, State.stopDue) ∈ eventRows ∧ (stopping running).yetTo .stop ∧
    State.stopDue ((stopping running).before .stop) = true ∧ State.stopDue (running.before .stop) = false := by
  refine ⟨by simp [eventRows], yetTo_of rfl rfl, ?_⟩; decide +kernel

/-- O54: both banks run in every block of a FADE, in its first one too, where NEXT's weight is 0 at both ends (R127). -/
theorem test_fade_runs_both_banks :
    let s := inState .fading (some (decided 7 .fade)) none running
    let e := { s.engine with
      bankA := { s.engine.bankA with stages := [delay [0]] }
      bankB := ⟨.next, 7, [{ delay [1] with state := .delay [] 5 }]⟩ }
    let tr := { s.transition with
      count := 1, phaseLength := 480, liveWeight := 256, liveNew := 256, nextWeight := 0, nextNew := 0 }
    let c := chainBlock s.store e tr [3, 4]
    tr.weights = (256, 0) ∧ c.next.map (·.state) = [.delay [(5, 3), (6, 4)] 7] ∧ c.live.map (·.state) = [.delay [(0, 3), (1, 4)] 2] ∧
    c.chain.length = 2 := by decide +kernel

theorem test_blockStart : (after .blockStart .reset).grid = ⟨0, true, [], []⟩ ∧ (after .blockStart .reset).link.blockCount = 1 := by
  decide +kernel

/-! ## What the outside is shown -/

/-- The last sample of a 128-tap load is two groups away. -/
def longLoad : State :=
  { loading with store := { loading.store with impulses := loading.store.impulses.modify 0 fun x =>
      { x with load := some ⟨1, 128, 0x1000, [], false⟩ } } }

/-- O14: a group that is not the last is read, and the slot stays LOADING with its request TAKEN. -/
theorem test_group_read :
    let t := Work.impulse.run longLoad
    (t.store.impulses[0]?).map (fun x => (x.taps.length, x.load.map fun l => (l.copied.length, l.slot, l.length))) =
      some ((longLoad.store.impulses.getD 0 .reset).taps.length, some (64, 1, 128)) ∧
    t.requests.slots[1]? = some .taken ∧ (0 : Nat) + 64 < 128 := by decide +kernel

/-- O22: a SELECT_SCENE supersedes the select in STAGING, in its slot and its notice, and stays TAKEN itself. -/
theorem test_selectScene_supersedes :
    let s := ask 10 [7, 255, 0] 0 0 (stored 7 (inState .staging (some (sel 3)) none running))
    let t := after .selectScene s
    s.requests.slots[1]? = some .taken ∧ result 1 t = (9, 3) ∧ notice t = [1, 0, 1, 3, 1, 255, 7] ∧
    t.requests.slots[0]? = some .taken ∧ t.requests.slots[1]? = some .done := by decide +kernel

/-- The post queue of `ask` is exact over a state whose queue is empty and has no slot POSTED. -/
theorem test_meets_selectScene_exact :
    (ask 10 [7, 255, 0] 0 0 (stored 7 (inState .staging (some (sel 3)) none running))).requests.exact :=
  exact_of rfl (by decide) (by show ∀ n ∈ [0], _; decide) (by
    show ∀ n, n < 32 → (n ∈ [0] ↔ ((RequestUnit.reset.slots.set 1 .taken).set 0 .posted)[n]? = some .posted)
    decide +kernel)

/-- A CATCH assignment that has caught, and one without takeover. -/
def caught (s : State) : State :=
  let with0 := s.mapper.assignments.set 0 { Assignment.cleared with takeover := true, catching := .caught }
  { s with mapper := { s.mapper with assignments := with0.set 1 { Assignment.cleared with catching := .caught } } }

/-- O23, O25, O27, O28: the CATCH assignment is uncaught at a staging, a restaging, a transition end, a stop that copies or
completes, and a direct copy; not at a stop with nothing in flight. -/
theorem test_uncaught :
    let shown := fun s : State => (s.mapper.assignments.take 2).map (·.catching)
    (∀ x, x ∈ [(Instr.stageSelect, inState .staging (some (sel 7)) none (stored 7 running)), (.restage, restaging 1 2),
        (.fadeEnd, ending .fading), (.dipEnd, ending .dipIn), (.engineStop, stopping (ending .fading)),
        (.engineStop, stopping (inState .staging (some (sel 7)) none (stored 7 running))),
        (.directCopy, stoppedWith (some (sel 7)) false)] →
      shown (after x.1 (caught x.2)) = [.uncaught, .caught]) ∧
    shown (after .engineStop (caught (stopping running))) = [.caught, .caught] := by decide +kernel

/-- A PRESENT unit 5 with a display. -/
def display (s : State) : State :=
  { s with link := { s.link with units := s.link.units.set 0 { unit .present 0 with display := true } } }

/-- O34: an engage from OFF and a disengage in HOLD, before a display unit: code, value and the reading handed on. -/
theorem test_tuner_answers :
    let s := display running
    let t := after .tunerEngage (ask 15 [2, 1, 1, 96] 0 0 s)
    let u := after .tunerDisengage (ask 15 [-1] 0 0 { s with tuner := { s.tuner with state := .hold } })
    result 0 t = (1, 1) ∧ t.link.queue = [⟨.tune, 5, 15, [1, 0, 3, 116]⟩] ∧ t.tuner.state = .listen ∧
    result 0 u = (1, 0) ∧ u.link.queue = [⟨.tune, 5, 15, [0, 0, 3, 116]⟩] ∧ u.tuner.state = .off := by decide +kernel

/-- O21, O35, O40: the reading of a restart, of a lock, of a hold that expires and of a toggle is handed on. -/
theorem test_readings :
    (let s := { running with
        input := { running.input with rewritten := [0] }
        store := { running.store with profiles := running.store.profiles.set 0 { Profile.reset with input := .b } }
        tuner := { running.tuner with state := .locked } }
     (after .profileChangeTakeup (display s)).link.queue = [⟨.tune, 5, 15, [1, 0, 3, 116]⟩]) ∧
    (after .tunerWindowEnd (display (reading .acquire [squareReading, squareReading] []))).link.queue =
      [⟨.tune, 5, 15, [3, 83, 3, 114]⟩] ∧
    (after .tunerHoldExpiry (display (window .hold []))).link.queue = [⟨.tune, 5, 15, [1, 0, 3, 116]⟩] ∧
    (State.act (display running) 0 { Assignment.cleared with action := .tunerToggle } (event .press) false).link.queue =
      [⟨.tune, 5, 15, [1, 0, 3, 116]⟩] := by decide +kernel

/-- O48: events join a queue that is not empty; a pedal's replaces the one that waits. -/
theorem test_events_join :
    let bytes := (stateBytes 5 ⟨1, [1023]⟩).map fun b => (⟨BitVec.ofNat 8 b, false⟩ : RxByte)
    let s := linked .present 0 (.window 0 false)
    (after (.stateReceive bytes) { s with mapper := { s.mapper with queue := [⟨5, 0, .pedal, 7, 0⟩] } }).mapper.queue =
      [⟨5, 0, .pedal, 1023, 0⟩, ⟨5, 0, .press, 0, 0⟩] := by decide +kernel

/-- O51: figures of a page of a FADE with a tail, a GATE and a display unit. -/
theorem test_page_figures :
    let s := inState .fading (some (decided 7 .fade)) (some (sel 9)) (display (closing true))
    let s := { s with
      engine := { s.engine with
        tails := [tailOf 0 0], bankA := { s.engine.bankA with scene := 3, stages := gate :: List.replicate 11 .none }
        bankB := ⟨.next, 7, List.replicate 12 .none⟩ } }
    let t := after .readoutPeriodClose s
    let byte := fun o => readLE t.ram (0x800 + o) 1
    [0x24, 0x25, 0x26, 0x27, 0x2E, 0x2F, 0x30, 0x31, 0x3C, 0x4A, 0x60, 0x61, 0x3FF].map byte =
      [3, 7, 9, 2, 1, 1, 3, 255, 255, 0, 2, 0, 0] ∧
    readLE t.ram 0x848 2 = 1200 := by decide +kernel

/-- O54: what a sink delivers and its meter gathers, with the samples a crossfade has done; what CHAIN gathers; a tail's block. -/
theorem test_figures_of_a_block :
    (let k : Sink := { Router.reset.main with
        route := [⟨.chain, 0, 0⟩], fade := some ⟨[], 32⟩ }
     let r := k.block false 256 256 [⟨8388607, 0, 0, 0⟩, ⟨-8388608, 0, 0, 0⟩]
     (r.1.fade.map (·.samples)) = some 64 ∧ r.1.left.peak = blockPeak r.2.left ∧ r.2.left.length = 2) ∧
    meterChain ⟨5, 1⟩ [8388607, -3] [9000000, -3] = ⟨8388607, 2⟩ ∧
    (runTails .reset 2 [tailOf 3 4]).1.map (fun t => (t.quiet, t.age, t.wetPeak)) = [(3, 4, 0)] := by decide +kernel

/-- O57 to O60: a step from a state with every invariant. -/
theorem test_meets_invariants :
    State.reset.memoryOk ∧ State.reset.requests.exact ∧ State.reset.intOk ∧ State.reset.readyOk ∧ State.reset.engine.ok ∧
    (stored 7 .reset).store.withinBudget ∧ (stored 7 .reset).store.scenesLegal ∧ (stored 7 .reset).tablesOk ∧
    (∃ t, step State.reset = .next t) ∧ (∃ t, step (stored 7 .reset) = .next t) := by
  have hs : ∀ r, some r ∈ (stored 7 .reset).store.scenes → r = scene := fun r hr => by
    rcases List.mem_or_eq_of_mem_set hr with h | h
    · have : some r = none := List.eq_of_mem_replicate h
      cases this
    · exact Option.some.inj h
  refine ⟨by unfold State.memoryOk; decide, exact_reset, rfl, ?_, ?_, ?_, ?_, ?_, ⟨_, rfl⟩, _, rfl⟩
  · unfold State.readyOk; decide +kernel
  · unfold Engine.ok Engine.oneLive Bank.idleOk; decide +kernel
  · intro r hr; rw [hs r hr]; decide +kernel
  · intro r hr; rw [hs r hr]; exact test_meets_legal
  · unfold State.tablesOk; decide +kernel

end Sys2Proof.Tests
end

section
/-! SUPPORT. Level codes and peak codes (R2, R3). A rounded power is the greatest number that passes a test, so a number is
at most G(c) or Th(c) exactly where it passes; the bounds of R2 and the order of magnitudes and thresholds follow. -/

namespace Sys2Proof.Machine

/-! ## Rounded powers -/

/-- Settling one bit at a time finds the last number that passes a test which is true up to some point. -/
theorem le_greatest_iff {test : Nat → Bool} (down : ∀ m n, m ≤ n → test n = true → test m = true) (b acc n : Nat)
    (pass : test acc = true) (fail : test (acc + 2 ^ b) = false) : n ≤ greatest test b acc ↔ test n = true := by
  induction b generalizing acc with
  | zero =>
    refine ⟨fun h => down n acc h pass, fun h => Nat.le_of_not_lt fun beyond => ?_⟩
    rw [down (acc + 2 ^ 0) n beyond h] at fail
    cases fail
  | succ b ih =>
    unfold greatest
    split
    next high => exact ih _ high (by rwa [Nat.add_assoc, ← Nat.two_mul, ← Nat.pow_succ'])
    next low => exact ih _ pass (by simpa using low)

theorem withinPower_iff (k : Nat) (c : Int) (g : Nat) : withinPower k c g = true ↔
    (2 * g - 1) ^ 40 * 10 ^ (-c).toNat ≤ (2 * k) ^ 40 * 10 ^ c.toNat := decide_eq_true_iff

theorem withinPower_zero (k : Nat) (c : Int) : withinPower k c 0 = true := by simp [withinPower_iff]

theorem withinPower_of_le (k : Nat) (c : Int) (m n : Nat) (h : m ≤ n) (hn : withinPower k c n = true) :
    withinPower k c m = true := by
  rw [withinPower_iff] at hn ⊢
  have smaller : (2 * m - 1) ^ 40 ≤ (2 * n - 1) ^ 40 := Nat.pow_le_pow_left (by omega) 40
  exact Nat.le_trans (Nat.mul_le_mul_right _ smaller) hn

/-- A number is at most the rounded power exactly where it passes the test, for a power below the 27 bits searched. -/
theorem le_roundedPower_iff {k : Nat} {c : Int} (small : withinPower k c (2 ^ 27) = false) (n : Nat) :
    n ≤ roundedPower k c ↔ withinPower k c n = true :=
  le_greatest_iff (withinPower_of_le k c) 27 0 n (withinPower_zero k c) (by rwa [Nat.zero_add])

/-- (2g − 1)/2 ≤ k × 10^(c/40) < (2g + 1)/2 for the rounded power g, in 40th powers. -/
theorem roundedPower_bounds {k : Nat} {c : Int} (small : withinPower k c (2 ^ 27) = false) :
    (2 * roundedPower k c - 1) ^ 40 * 10 ^ (-c).toNat ≤ (2 * k) ^ 40 * 10 ^ c.toNat ∧
    (2 * k) ^ 40 * 10 ^ c.toNat < (2 * roundedPower k c + 1) ^ 40 * 10 ^ (-c).toNat := by
  have passes := (le_roundedPower_iff small (roundedPower k c)).mp (Nat.le_refl _)
  have next_fails := mt (le_roundedPower_iff small (roundedPower k c + 1)).mpr (by omega)
  rw [withinPower_iff] at passes next_fails
  exact ⟨passes, Nat.lt_of_not_le next_fails⟩

/-! ## Gain factors (R2) -/

/-- G(120) = 65536 × 1000 lies below 2^27, and with it every smaller code's factor. -/
theorem gain_below_search (c : Int) (hc : c ≤ 120) : withinPower 65536 c (2 ^ 27) = false := by
  rw [Bool.eq_false_iff, ne_eq, withinPower_iff, Nat.not_le]
  calc (2 * 65536) ^ 40 * 10 ^ c.toNat
      ≤ (2 * 65536) ^ 40 * 10 ^ 120 := Nat.mul_le_mul_left _ (Nat.pow_le_pow_right (by decide) (by omega))
    _ < (2 * 2 ^ 27 - 1) ^ 40 := by decide
    _ ≤ (2 * 2 ^ 27 - 1) ^ 40 * 10 ^ (-c).toNat := Nat.le_mul_of_pos_right _ (Nat.pow_pos (by decide))

theorem one_le_gain (c : Int) (low : -127 ≤ c) (high : c ≤ 120) : 1 ≤ roundedPower 65536 c := by
  rw [le_roundedPower_iff (gain_below_search c high), withinPower_iff]
  calc (2 * 1 - 1) ^ 40 * 10 ^ (-c).toNat
      ≤ 10 ^ 127 := by simpa using Nat.pow_le_pow_right (n := 10) (by decide) (show (-c).toNat ≤ 127 by omega)
    _ ≤ (2 * 65536) ^ 40 := by decide
    _ ≤ (2 * 65536) ^ 40 * 10 ^ c.toNat := Nat.le_mul_of_pos_right _ (Nat.pow_pos (by decide))

/-- The reference values of R2. -/
theorem levelGain_reference : levelGain 0 = 65536 ∧ levelGain 40 = 655360 ∧ levelGain 120 = 65536000 ∧
    levelGain (-12) = 32846 ∧ levelGain (-40) = 6554 := by decide +kernel

/-! ## Peak codes (R3) -/

/-- Th(c) is at most full scale, which lies below 2^27. -/
theorem threshold_below_search (c : Nat) : withinPower 8388607 (-(c : Int)) (2 ^ 27) = false := by
  rw [Bool.eq_false_iff, ne_eq, withinPower_iff, Nat.not_le]
  calc (2 * 8388607) ^ 40 * 10 ^ (-(c : Int)).toNat
      = (2 * 8388607) ^ 40 := by simp
    _ < (2 * 2 ^ 27 - 1) ^ 40 := by decide
    _ ≤ (2 * 2 ^ 27 - 1) ^ 40 * 10 ^ (- -(c : Int)).toNat := Nat.le_mul_of_pos_right _ (Nat.pow_pos (by decide))

theorem peakThreshold_bounds (c : Nat) :
    (2 * peakThreshold c - 1) ^ 40 * 10 ^ c ≤ 16777214 ^ 40 ∧ 16777214 ^ 40 < (2 * peakThreshold c + 1) ^ 40 * 10 ^ c := by
  simpa [peakThreshold] using roundedPower_bounds (threshold_below_search c)

/-- The test that the peak code uses is p ≥ Th(c). -/
theorem reachesThreshold_iff (p : Int) (hp : 0 ≤ p) (c : Nat) :
    reachesThreshold p.toNat c = true ↔ (peakThreshold c : Int) ≤ p := by
  have above : p.toNat + 1 ≤ peakThreshold c ↔ withinPower 8388607 (-(c : Int)) (p.toNat + 1) = true :=
    le_roundedPower_iff (threshold_below_search c) _
  rw [reachesThreshold, Bool.not_eq_true', Bool.eq_false_iff, ne_eq, ← above]
  omega

theorem not_reachesThreshold_iff (p : Int) (hp : 0 ≤ p) (c : Nat) :
    (!reachesThreshold p.toNat c) = true ↔ p < peakThreshold c := by
  rw [Bool.not_eq_true', Bool.eq_false_iff, ne_eq, reachesThreshold_iff p hp, Int.not_le]

/-- A code in 0..240 is the peak code where the search finds it; 255, which lies outside, is that of a search that fails. -/
theorem peakCode_eq_iff_find (p : Int) (c : Nat) (hc : c ≤ 240) :
    peakCode p = c ↔ (List.range 241).find? (reachesThreshold p.toNat) = some c := by
  unfold peakCode
  split
  next d found => rw [found, Option.some.injEq, Int.natCast_inj]
  next none_found => rw [none_found]; exact iff_of_false (by omega) (by simp)

theorem peakCode_eq_silence_iff_find (p : Int) :
    peakCode p = 255 ↔ (List.range 241).find? (reachesThreshold p.toNat) = none := by
  unfold peakCode
  split
  next d found =>
    have := List.mem_range.mp (List.mem_of_find?_eq_some found)
    rw [found]; exact iff_of_false (by omega) (by simp)
  next none_found => simp [none_found]

/-- The peak code is the smallest c in 0..240 with p ≥ Th(c). -/
theorem peakCode_eq_iff (p : Int) (hp : 0 ≤ p) (c : Nat) (hc : c ≤ 240) :
    peakCode p = c ↔ (peakThreshold c : Int) ≤ p ∧ ∀ d, d < c → p < peakThreshold d := by
  have : c ∈ List.range 241 := List.mem_range.mpr (by omega)
  simp only [peakCode_eq_iff_find p c hc, List.find?_range_eq_some, reachesThreshold_iff p hp,
    not_reachesThreshold_iff p hp, this, true_and]

/-- Silence: no c in 0..240 has p ≥ Th(c). -/
theorem peakCode_eq_silence_iff (p : Int) (hp : 0 ≤ p) : peakCode p = 255 ↔ ∀ c, c ≤ 240 → p < peakThreshold c := by
  simp only [peakCode_eq_silence_iff_find, List.find?_range_eq_none, not_reachesThreshold_iff p hp, Nat.lt_succ_iff]

/-! ## The block peak (R3) -/

theorem natAbs_le_blockPeak (xs : List Int) (x : Int) (hx : x ∈ xs) : (x.natAbs : Int) ≤ blockPeak xs := by
  induction xs with
  | nil => cases hx
  | cons y ys ih =>
    rw [blockPeak_cons]
    obtain rfl | later := List.mem_cons.mp hx
    · exact Int.le_max_left _ _
    · exact Int.le_trans (ih later) (Int.le_max_right _ _)

theorem blockPeak_attained (xs : List Int) (nonempty : xs ≠ []) : ∃ x, x ∈ xs ∧ blockPeak xs = x.natAbs := by
  induction xs with
  | nil => exact absurd rfl nonempty
  | cons y ys ih =>
    rw [blockPeak_cons]
    by_cases last : ys = []
    · exact ⟨y, List.mem_cons_self, by subst last; exact Int.max_eq_left (Int.natCast_nonneg _)⟩
    · obtain ⟨x, hx, peak⟩ := ih last
      obtain first | rest := Int.le_total (blockPeak ys) (y.natAbs : Int)
      · exact ⟨y, List.mem_cons_self, Int.max_eq_left first⟩
      · exact ⟨x, List.mem_cons_of_mem y hx, (Int.max_eq_right rest).trans peak⟩

end Sys2Proof.Machine

namespace Sys2Proof.Proofs
open Sys2Proof.Machine

/-- Settles O56: the bounds of rounded powers, read at the gain factors and at the thresholds; the peak code as the first
success of a search; the block peak by induction on the run. -/
theorem levelsAndPeakCodes : Obligations.LevelsAndPeakCodes := by
  obtain ⟨unity, plus10, plus30, minus3, minus10⟩ := levelGain_reference
  refine ⟨⟨fun c low high => ?_, unity, plus10, plus30, minus3, minus10, fun _ _ => rfl, fun _ ha => if_neg ha, rfl⟩,
    fun p hp => ⟨peakCode_eq_iff p hp, peakCode_eq_silence_iff p hp⟩, fun c _ => peakThreshold_bounds c,
    fun xs => ⟨natAbs_le_blockPeak xs, blockPeak_attained xs⟩⟩
  exact ⟨Int.natCast_nonneg _, one_le_gain c low high, roundedPower_bounds (gain_below_search c high)⟩

end Sys2Proof.Proofs
end

section
/-! SUPPORT. Requests of the Scene Store: a take whose owner refuses the request, and CLEAR_SCENE (R109). -/

namespace Sys2Proof.Machine

/-! ## Refusals -/

/-- A request whose owner hands back the state as the take left it changes nothing but its slot (R186, R188). -/
theorem State.take_refuses {s : State} {n : Nat} {rest : List Nat} {code : Result} {value : ResultValue}
    {due : Taken → Bool} {need : BufferNeed} {carry : Taken → State → Answer} (head : s.headIs n rest)
    (hdue : due (takenAt s.ram n) = true) (hneed : need.passes (takenAt s.ram n) = true) (keeps : CarryKeeps carry)
    (mem : s.memoryOk)
    (refused : carry (takenAt s.ram n) (s.takeHead n rest) = (s.takeHead n rest).answer code value) :
    ∃ t, whenReady s (·.take due need carry) = .next t ∧ s.sameBlocks t ∧ s.answered t s.ram n rest code value :=
  State.take_answers_blocks head hdue hneed keeps mem refused (.refl _)
    ⟨rfl, rfl, rfl, rfl, rfl, rfl, rfl, rfl, rfl⟩ rfl rfl

/-! ## The selects that name a scene (R109) -/

theorem Select.names_iff (sel : Option Select) (a : Int) :
    Select.names sel a = true ↔ ∃ x, sel = some x ∧ (x.scene : Int) = a := by
  cases sel with
  | none => simp [Select.names]
  | some x => simp [Select.names]

theorem Transition.awaitsCopy_iff (tr : Transition) :
    tr.awaitsCopy = true ↔ tr.state = .staging ∨ tr.state = .dipOut ∧ tr.restageDue = true := by
  simp [Transition.awaitsCopy]

theorem Transition.holds_iff (tr : Transition) (a : Int) :
    tr.holds a = true ↔
      ((tr.state = .staging ∨ tr.state = .dipOut ∧ tr.restageDue = true) ∧
        ∃ x, tr.inFlight = some x ∧ (x.scene : Int) = a) ∨
      ∃ x, tr.pending = some x ∧ (x.scene : Int) = a := by
  rw [Transition.holds, Bool.or_eq_true, Bool.and_eq_true, tr.awaitsCopy_iff, Select.names_iff, Select.names_iff]

/-! ## The entry of a scene -/

theorem Store.scene_of_nonneg (st : Store) {a : Int} (low : 0 ≤ a) : st.scene a = (st.scenes[a.toNat]?).join := if_pos low

/-- The Scene Store with one entry EMPTY. -/
def State.clearEntry (s : State) (i : Nat) : State :=
  { s with store := { s.store with scenes := s.store.scenes.set i none } }

/-! ## CLEAR_SCENE (R109) -/

theorem carryClearScene_range {t : Taken} (s : State) (outside : t.arg0 < 0 ∨ 127 < t.arg0) :
    carryClearScene t s = s.answer .range .unstated := if_pos outside

theorem carryClearScene_inUse {t : Taken} {s : State} (low : 0 ≤ t.arg0) (high : t.arg0 ≤ 127)
    (held : s.transition.holds t.arg0 = true) : carryClearScene t s = s.answer .inUse .unstated := by
  rw [carryClearScene, if_neg (by omega), if_pos held]

theorem carryClearScene_clears {t : Taken} {s : State} (low : 0 ≤ t.arg0) (high : t.arg0 ≤ 127)
    (free : ¬ s.transition.holds t.arg0 = true) :
    carryClearScene t s = (s.clearEntry t.arg0.toNat).answer .ok
      (.given (if ((s.store.scenes[t.arg0.toNat]?).join).isSome then 1 else 0)) := by
  rw [carryClearScene, if_neg (by omega), if_neg free, s.store.scene_of_nonneg low]
  rfl

/-- The arm of exec for CLEAR_SCENE. -/
theorem exec_clearScene (s : State) :
    exec .clearScene s = whenReady s (·.take (isKind 3) .none carryClearScene) := rfl

theorem isKind_of_kind {t : Taken} {code : Nat} (h : t.kind = code) : isKind code t = true := beq_iff_eq.mpr h

/-- A refused CLEAR_SCENE changes nothing but its slot. -/
theorem clearScene_refused {s : State} {n : Nat} {rest : List Nat} {code : Result} (mem : s.memoryOk)
    (head : s.headIs n rest) (kind : (takenAt s.ram n).kind = 3)
    (refused : carryClearScene (takenAt s.ram n) (s.takeHead n rest) = (s.takeHead n rest).answer code .unstated) :
    completes .clearScene s s n rest code .unstated := by
  unfold completes
  rw [exec_clearScene]
  exact State.take_refuses head (isKind_of_kind kind) (BufferNeed.none_passes _) carryClearScene_keeps mem refused

/-- A CLEAR_SCENE that is carried out makes one entry EMPTY and changes nothing else but its slot. -/
theorem clearScene_cleared {s : State} {n i : Nat} {rest : List Nat} {value : ResultValue} (mem : s.memoryOk)
    (head : s.headIs n rest) (kind : (takenAt s.ram n).kind = 3)
    (cleared : carryClearScene (takenAt s.ram n) (s.takeHead n rest) =
      ((s.takeHead n rest).clearEntry i).answer .ok value) :
    completes .clearScene s (s.clearEntry i) n rest .ok value := by
  unfold completes
  rw [exec_clearScene]
  exact State.take_answers_blocks head (isKind_of_kind kind) (BufferNeed.none_passes _) carryClearScene_keeps mem cleared
    ⟨rfl, rfl, rfl, rfl⟩ ⟨rfl, rfl, rfl, rfl, rfl, rfl, rfl, rfl, rfl⟩ rfl rfl

end Sys2Proof.Machine

namespace Sys2Proof.Proofs
open Sys2Proof.Machine

/-- Settles O12: the three answers of the Scene Store to CLEAR_SCENE, each carried through the take of its slot. The take
leaves the Transition Unit and the Scene Store, so the checks find them as they stand in `s`. -/
theorem clearSceneEmptiesEntry : Obligations.ClearSceneEmptiesEntry := by
  intro s n rest mem head t tr held kind
  have held_iff : (s.takeHead n rest).transition.holds t.arg0 = true ↔ held := tr.holds_iff t.arg0
  refine ⟨fun outside => ?range, fun low high => ⟨fun isHeld => ?inUse, fun notHeld => ?clears⟩⟩
  case range => exact clearScene_refused mem head kind (carryClearScene_range _ outside)
  case inUse => exact clearScene_refused mem head kind (carryClearScene_inUse low high (held_iff.mpr isHeld))
  case clears => exact clearScene_cleared mem head kind (carryClearScene_clears low high (mt held_iff.mp notHeld))

end Sys2Proof.Proofs
end

section
/-! SUPPORT. CLEAR_ASSIGN of the Control Mapper (R148): its two answers, and that a disabled assignment matches no event. -/

namespace Sys2Proof.Machine

/-- R146 asks for an enabled assignment first. -/
theorem Assignment.isMatch_of_disabled {a : Assignment} (disabled : a.enabled = false) (e : ControlEvent) (live : Nat) :
    a.isMatch e live = false := by
  simp [Assignment.isMatch, disabled]

/-- The Control Mapper with one assignment cleared. -/
def State.clearAssignment (s : State) (i : Nat) : State :=
  { s with mapper := { s.mapper with assignments := s.mapper.assignments.set i .cleared } }

theorem carryClearAssign_range {t : Taken} (s : State) (outside : t.arg0 < 0 ∨ 31 < t.arg0) :
    carryClearAssign t s = s.answer .range .unstated := if_pos outside

theorem carryClearAssign_clears {t : Taken} {s : State} {a : Assignment} (low : 0 ≤ t.arg0) (high : t.arg0 ≤ 31)
    (entry : s.mapper.assignments[t.arg0.toNat]? = some a) :
    carryClearAssign t s = (s.clearAssignment t.arg0.toNat).answer .ok (.given (if a.enabled then 1 else 0)) := by
  rw [carryClearAssign, if_neg (by omega), List.getD_eq_getElem?_getD, entry]
  rfl

/-- The arm of exec for CLEAR_ASSIGN. -/
theorem exec_clearAssign (s : State) :
    exec .clearAssign s = whenReady s (·.take (isKind 17) .none carryClearAssign) := rfl

end Sys2Proof.Machine

namespace Sys2Proof.Proofs
open Sys2Proof.Machine

/-- Settles O38: the two answers of the Control Mapper to CLEAR_ASSIGN, each carried through the take of its slot. The take
leaves the Control Mapper, so the entry read is that of `s`. -/
theorem clearAssignDisables : Obligations.ClearAssignDisables := by
  intro s n rest mem head t cleared kind
  simp only [completes, exec_clearAssign]
  refine ⟨fun outside => ?range, fun low high a entry => ?clears, ?noMatch⟩
  case range =>
    exact State.take_refuses head (isKind_of_kind kind) (BufferNeed.none_passes _) carryClearAssign_keeps mem
      (carryClearAssign_range _ outside)
  case clears =>
    exact State.take_answers_blocks (u := s.clearAssignment t.arg0.toNat) head (isKind_of_kind kind)
      (BufferNeed.none_passes _) carryClearAssign_keeps mem (carryClearAssign_clears low high entry) (.refl _)
      ⟨rfl, rfl, rfl, rfl, rfl, rfl, rfl, rfl, rfl⟩ rfl rfl
  case noMatch => exact Assignment.isMatch_of_disabled rfl

end Sys2Proof.Proofs
end

section
/-! SUPPORT. The check of a frame (R161): its two sums one byte at a time, their bounds, and the tests that a good reply
has passed (R166). -/

namespace Sys2Proof.Machine

/-! ## The two sums (R161) -/

theorem checkSums_append_byte (bytes : List Nat) (x : Nat) : checkSums (bytes ++ [x]) =
    (((checkSums bytes).1 + x) % 127, ((checkSums bytes).2 + ((checkSums bytes).1 + x) % 127) % 127) :=
  List.foldl_append

/-- Both sums are remainders by 127 after the last byte, and 0 where there is none. -/
theorem checkSums_le (bytes : List Nat) : (checkSums bytes).1 ≤ 126 ∧ (checkSums bytes).2 ≤ 126 := by
  obtain rfl | ⟨before, x, rfl⟩ := bytes.eq_nil_or_concat
  · decide
  · rw [List.concat_eq_append, checkSums_append_byte]
    exact ⟨Nat.le_of_lt_succ (Nat.mod_lt _ (by decide)), Nat.le_of_lt_succ (Nat.mod_lt _ (by decide))⟩

/-! ## The tests of a reply (R166) -/

/-- A test of a reply, whose failure gives another verdict, stands between the bytes and the verdict good. -/
theorem ReplyVerdict.ite_eq_good {c : Prop} [Decidable c] {failed v : ReplyVerdict} {f : StateFrame}
    (other : failed ≠ .good f) : (if c then failed else v) = .good f ↔ ¬ c ∧ v = .good f := by
  by_cases fails : c
  · simp only [fails, if_true, other, not_true_eq_false, false_and]
  · simp only [fails, if_false, not_false_eq_true, true_and]

/-- A reply is good exactly where it passes every test of R166: the HEAD alone has bit 7 set and is that of a STATE, the
unit answers for itself, LEN and the pedal count agree, the frame is whole, its check is that of its own bytes, and its
payload is a STATE. -/
theorem judgeReply_good_iff (unit : Nat) (bytes : List Nat) (f : StateFrame) :
    let len := bytes.getD 2 0
    let frame := bytes.take (3 + len)
    judgeReply unit bytes = .good f ↔
      ¬ bytes.tail.any (fun b => decide (128 ≤ b)) = true ∧ bytes.head? = some (128 + 16) ∧
      ¬ (2 ≤ bytes.length ∧ bytes.getD 1 0 ≠ unit) ∧ ¬ malformedSoFar bytes = true ∧
      ¬ (bytes.length < 3 ∨ bytes.length < 5 + len) ∧ bytes = withCheck frame ∧
      stateFrame (frame.drop 3) = some f := by
  intro len frame
  have bad : ReplyVerdict.bad ≠ .good f := nofun
  have incomplete : ReplyVerdict.incomplete ≠ .good f := nofun
  unfold judgeReply
  simp only [ReplyVerdict.ite_eq_good bad, ReplyVerdict.ite_eq_good incomplete, ne_eq, Decidable.not_not]
  cases stateFrame (frame.drop 3) with
  | none => simp only [reduceCtorEq, and_false]
  | some g => simp only [ReplyVerdict.good.injEq, Option.some.injEq, frame, len]

end Sys2Proof.Machine

namespace Sys2Proof.Proofs
open Sys2Proof.Machine

/-- Settles O49: the sums by the last byte of the run; the master frame and POLL by the form of R160; the good reply by the
test of its check. -/
theorem checkSumRule : Obligations.CheckSumRule := by
  refine ⟨rfl, checkSums_append_byte, fun bytes => ?bounds, fun _ => rfl, fun _ => rfl, fun unit bytes f good => ?reply⟩
  case bounds =>
    obtain ⟨first, second⟩ := checkSums_le bytes
    exact ⟨first, second, rfl⟩
  case reply =>
    obtain ⟨_, _, _, _, _, check, _⟩ := (judgeReply_good_iff unit bytes f).mp good
    exact ⟨_, check⟩

end Sys2Proof.Proofs
end

section
/-! SUPPORT. POST of the Exchange Port (R185): a slot state and its mirror, the bound of an exact post queue, and the two
things a write to POST can do. -/

namespace Sys2Proof.Machine

/-! ## A slot and its mirror (R184) -/

theorem SlotState.code_lt (x : SlotState) : x.code < 4 := by
  cases x <;> decide

/-- The mirror of a slot that changes state reads as its new state. -/
theorem State.setSlot_mirror {s : State} (mem : s.memoryOk) {n : Nat} (hn : n < 32) (x : SlotState) :
    readLE (s.setSlot n x).ram (slotAddress n + 2) 2 = x.code := by
  have inside := slotAddress_lt hn
  have small := x.code_lt
  rw [State.setSlot_ram, readLE_writeLE_same mem _ (by omega)]
  omega

/-- A slot that changes state writes its mirror and nothing else of Exchange RAM. -/
theorem State.setSlot_readByte_outside {s : State} (mem : s.memoryOk) {n a : Nat} {x : SlotState}
    (outside : ¬ (slotAddress n + 2 ≤ a ∧ a < slotAddress n + 4)) :
    readByte (s.setSlot n x).ram a = readByte s.ram a :=
  readByte_writeLE_outside mem (by omega)

/-! ## The table of slots and the post queue -/

theorem RequestUnit.lt_of_slot {r : RequestUnit} (isExact : r.exact) {n : Nat} {x : SlotState}
    (slot : r.slots[n]? = some x) : n < 32 := by
  obtain ⟨length, _, _⟩ := isExact
  rw [← length]
  exact (List.getElem?_eq_some_iff.mp slot).1

/-- Each slot is POSTED at most once, and there are 32 of them: in another order, the queue is the queued ones of 0..31. -/
theorem RequestUnit.queue_length_le {r : RequestUnit} (isExact : r.exact) : r.queue.length ≤ 32 := by
  have ⟨_, nodup, queued_iff⟩ := isExact
  have queuedSlots : ((List.range 32).filter r.queue.contains).Perm r.queue := by
    rw [List.perm_ext_iff_of_nodup (List.filter_sublist.nodup List.nodup_range) nodup]
    intro n
    rw [List.mem_filter, List.contains_iff_mem, List.mem_range]
    exact ⟨fun inTable => inTable.2, fun queued => ⟨r.lt_of_slot isExact ((queued_iff n).mp queued), queued⟩⟩
  calc r.queue.length
    _ = ((List.range 32).filter r.queue.contains).length := queuedSlots.length_eq.symm
    _ ≤ (List.range 32).length := List.length_filter_le _ _
    _ = 32 := List.length_range

theorem State.lt_of_postable {s : State} (isExact : s.requests.exact) {n : Nat} (postable : s.postable n = true) :
    n < 32 := by
  obtain free | done := State.postable_iff.mp postable
  · exact s.requests.lt_of_slot isExact free
  · exact s.requests.lt_of_slot isExact done

theorem State.not_posted_of_postable {s : State} {n : Nat} (postable : s.postable n = true) :
    s.requests.slots[n]? ≠ some .posted := by
  obtain free | done := State.postable_iff.mp postable
  · simp [free]
  · simp [done]

/-- A slot of 32 or more, or one POSTED or TAKEN, is neither FREE nor DONE. -/
theorem State.not_postable {s : State} (isExact : s.requests.exact) {n : Nat}
    (busy : 32 ≤ n ∨ s.requests.slots[n]? = some .posted ∨ s.requests.slots[n]? = some .taken) :
    ¬ s.postable n = true := by
  obtain beyond | posted | taken := busy
  · exact fun postable => absurd (s.lt_of_postable isExact postable) (Nat.not_lt.mpr beyond)
  · exact fun postable => s.not_posted_of_postable postable posted
  · simp [State.postable_iff, taken]

/-! ## A write to POST -/

/-- Slot n joins the tail of the post queue and becomes POSTED. -/
def State.enqueue (s : State) (n : Nat) : State :=
  State.setSlot { s with requests := { s.requests with queue := s.requests.queue ++ [n] } } n .posted

theorem State.enqueue_requests (s : State) (n : Nat) :
    (s.enqueue n).requests = { slots := s.requests.slots.set n .posted, queue := s.requests.queue ++ [n],
                               serving := s.requests.serving } := rfl

theorem State.enqueue_exact {s : State} (isExact : s.requests.exact) {n : Nat} (postable : s.postable n = true) :
    (s.enqueue n).requests.exact :=
  RequestUnit.exact_post isExact (s.lt_of_postable isExact postable) (s.not_posted_of_postable postable)

/-- The arm of exec for POST, where the part is ready. -/
theorem exec_post_of_ready {s : State} (ready : s.port.ready = true) (v : Half) :
    exec (.post v) s = .next (s.writePost v) := by
  show whenReady s (·.writePost v) = _
  rw [whenReady, if_pos ready]

theorem State.writePost_of_postable {s : State} {v : Half} (postable : s.postable v.toNat = true) :
    s.writePost v = s.enqueue v.toNat := if_pos postable

theorem State.writePost_of_not_postable {s : State} {v : Half} (refused : ¬ s.postable v.toNat = true) :
    s.writePost v = s.raise .causeCollide := if_neg refused

theorem Port.raise_collide (p : Port) : (p.raise .causeCollide).signal.collide = true := Bool.or_true _

end Sys2Proof.Machine

namespace Sys2Proof.Proofs
open Sys2Proof.Machine

/-- Settles O5: a write to POST queues the slot where it is postable and raises COLLIDE where it is not; the bound of the
read is that of an exact queue. -/
theorem postQueuesOrCollides : Obligations.PostQueuesOrCollides := by
  intro s v mem isExact ready
  simp only [exec_post_of_ready ready]
  refine ⟨fun waiting => ?queues, fun busy => ?collides, rfl, s.requests.queue_length_le isExact⟩
  case queues =>
    have postable : s.postable v.toNat = true := State.postable_iff.mpr waiting
    rw [State.writePost_of_postable postable]
    exact ⟨_, rfl, ⟨rfl, rfl, rfl, rfl, rfl, rfl, rfl, rfl, rfl⟩, rfl, rfl, rfl, s.enqueue_requests _,
      State.setSlot_mirror mem (s.lt_of_postable isExact postable) .posted,
      fun _ => State.setSlot_readByte_outside mem, State.enqueue_exact isExact postable⟩
  case collides =>
    rw [State.writePost_of_not_postable (s.not_postable isExact busy)]
    exact ⟨_, rfl, ⟨⟨rfl, rfl, rfl, rfl, rfl, rfl, rfl, rfl, rfl⟩, rfl, rfl, rfl, rfl, rfl⟩, rfl, s.port.raise_collide⟩

end Sys2Proof.Proofs
end

section
/-! SUPPORT. The arms of exec, one for each command of the part: which operation over the state it is, while READY is 1. -/

namespace Sys2Proof.Machine

theorem exec_softReset (s : State) : exec .softReset s = whenReady s State.startSoftReset := rfl
theorem exec_controlWrite (v : Half) (s : State) : exec (.controlWrite v) s = whenReady s (·.writeControl v) := rfl
theorem exec_signalClear (v : Half) (s : State) : exec (.signalClear v) s = whenReady s (·.writeSignal v) := rfl
theorem exec_post (v : Half) (s : State) : exec (.post v) s = whenReady s (·.writePost v) := rfl
theorem exec_registerWriteIgnored (r : BitVec 2) (v : Half) (s : State) :
    exec (.registerWriteIgnored r v) s = whenReady s (·.writeRegister r v) := rfl
theorem exec_exchangeRamWrite (w : BitVec 14) (v : Half) (s : State) :
    exec (.exchangeRamWrite w v) s = whenReady s (·.writeWord w v) := rfl
theorem exec_unknownKindRequest (s : State) :
    exec .unknownKindRequest s = whenReady s (·.take (fun t => decide (t.kind < 1 ∨ 22 < t.kind)) .none carryUnknownKind) := rfl
theorem exec_writeScene (s : State) :
    exec .writeScene s = whenReady s (·.take (isKind 1) (.exactly 256) carryWriteScene) := rfl
theorem exec_readScene (s : State) :
    exec .readScene s = whenReady s (·.take (isKind 2) (.exactly 256) carryReadScene) := rfl
theorem exec_loadFilter (s : State) :
    exec .loadFilter s = whenReady s (·.take (isKind 4) (.exactly 80) carryLoadFilter) := rfl
theorem exec_loadCurve (s : State) :
    exec .loadCurve s = whenReady s (·.take (isKind 5) (.exactly 1028) carryLoadCurve) := rfl
theorem exec_loadImpulse (s : State) :
    exec .loadImpulse s = whenReady s (·.take (isKind 6) .impulse carryLoadImpulse) := rfl
theorem exec_impulseLoadComplete (s : State) :
    exec .impulseLoadComplete s = whenReady s (·.upTo .impulse State.impulseDue) := rfl
theorem exec_setProfile (s : State) :
    exec .setProfile s = whenReady s (·.take (isKind 7) (.exactly 16) carrySetProfile) := rfl
theorem exec_selectProfile (s : State) :
    exec .selectProfile s = whenReady s (·.take (isKind 8) .none carrySelectProfile) := rfl
theorem exec_trimLearnStart (s : State) :
    exec .trimLearnStart s = whenReady s (·.take (fun t => isKind 9 t && decide (t.arg0 ≠ 1)) .none carryTrimLearnStart) := rfl
theorem exec_trimLearnAbort (s : State) :
    exec .trimLearnAbort s = whenReady s (·.take (fun t => isKind 9 t && decide (t.arg0 = 1)) .none carryTrimLearnAbort) := rfl
theorem exec_learnComplete (s : State) : exec .learnComplete s = whenReady s (·.upTo .learn State.learnDue) := rfl
theorem exec_selectScene (s : State) :
    exec .selectScene s = whenReady s (·.take (isKind 10) .none carrySelectScene) := rfl
theorem exec_setParam (s : State) : exec .setParam s = whenReady s (·.take (isKind 11) .none carrySetParam) := rfl
theorem exec_setEnable (s : State) : exec .setEnable s = whenReady s (·.take (isKind 12) .none carrySetEnable) := rfl
theorem exec_setTempo (s : State) : exec .setTempo s = whenReady s (·.take (isKind 13) .none carrySetTempo) := rfl
theorem exec_setRoute (s : State) : exec .setRoute s = whenReady s (·.take (isKind 14) .none carrySetRoute) := rfl
theorem exec_tunerEngage (s : State) :
    exec .tunerEngage s = whenReady s (·.take (fun t => isKind 15 t && decide (1 ≤ t.arg0)) .none carryTunerEngage) := rfl
theorem exec_tunerDisengage (s : State) :
    exec .tunerDisengage s = whenReady s (·.take (fun t => isKind 15 t && decide (t.arg0 < 1)) .none carryTunerDisengage) := rfl
theorem exec_setAssign (s : State) :
    exec .setAssign s = whenReady s (·.take (isKind 16) (.exactly 32) carrySetAssign) := rfl
theorem exec_verdict (s : State) : exec .verdict s = whenReady s (·.take (isKind 18) .none carryVerdict) := rfl
theorem exec_linkConfig (s : State) :
    exec .linkConfig s = whenReady s (·.take (isKind 19) .none carryLinkConfig) := rfl
theorem exec_setUnit (s : State) : exec .setUnit s = whenReady s (·.take (isKind 20) .none carrySetUnit) := rfl
theorem exec_lamp (s : State) : exec .lamp s = whenReady s (·.take (isKind 21) .none carryLamp) := rfl
theorem exec_text (s : State) : exec .text s = whenReady s (·.take (isKind 22) .none carryText) := rfl
theorem exec_inputSample (a b : BitVec 24) (s : State) :
    exec (.inputSample a b) s = whenReady s (·.inputSample a.toInt b.toInt) := rfl
theorem exec_blockStart (s : State) : exec .blockStart s = whenReady s State.blockStart := rfl
theorem exec_gateHoldExpiry (s : State) :
    exec .gateHoldExpiry s = whenReady s (·.upTo .close State.gateHoldDue) := rfl
theorem exec_profileChangeTakeup (s : State) :
    exec .profileChangeTakeup s = whenReady s (·.upTo .profile (fun b => b.input.changeDue)) := rfl
theorem exec_stageSelect (s : State) : exec .stageSelect s = whenReady s (·.upTo .stage State.stageDue) := rfl
theorem exec_restage (s : State) : exec .restage s = whenReady s (·.upTo .restage State.restageDue) := rfl
theorem exec_fadeEnd (s : State) : exec .fadeEnd s = whenReady s (·.upTo .fadeEnd State.fadeEndDue) := rfl
theorem exec_dipTurn (s : State) : exec .dipTurn s = whenReady s (·.upTo .dipTurn State.turnDue) := rfl
theorem exec_dipEnd (s : State) : exec .dipEnd s = whenReady s (·.upTo .dipEnd State.dipEndDue) := rfl
theorem exec_tailQuietEnd (s : State) :
    exec .tailQuietEnd s = whenReady s (·.upTo .tailQuiet State.tailQuietDue) := rfl
theorem exec_tailAgeEnd (s : State) : exec .tailAgeEnd s = whenReady s (·.upTo .tailAge State.tailAgeDue) := rfl
theorem exec_engineStop (s : State) : exec .engineStop s = whenReady s (·.upTo .stop State.stopDue) := rfl
theorem exec_directCopy (s : State) : exec .directCopy s = whenReady s (·.upTo .directCopy State.directDue) := rfl
theorem exec_engineRestart (s : State) : exec .engineRestart s = whenReady s (·.upTo .restart State.restartDue) := rfl
theorem exec_routeCrossfadeStart (s : State) :
    exec .routeCrossfadeStart s = whenReady s (·.upTo .routeStart (fun b => b.router.anySink Sink.startDue)) := rfl
theorem exec_routeCrossfadeEnd (s : State) :
    exec .routeCrossfadeEnd s = whenReady s (·.upTo .routeEnd (fun b => b.router.anySink Sink.fadeOver)) := rfl
theorem exec_tunerWindowEnd (s : State) :
    exec .tunerWindowEnd s = whenReady s (·.upTo .window (fun b => b.windowDue b.grid.opened)) := rfl
theorem exec_tunerHoldExpiry (s : State) :
    exec .tunerHoldExpiry s = whenReady s (·.upTo .window (fun b => b.holdExpiryDue b.grid.opened)) := rfl
theorem exec_readoutPeriodClose (s : State) :
    exec .readoutPeriodClose s = whenReady s (·.upTo .page State.pageDue) := rfl
theorem exec_referralExpiry (s : State) :
    exec .referralExpiry s = whenReady s (·.upTo .referral State.expiryDue) := rfl
theorem exec_controlEventTake (s : State) :
    exec .controlEventTake s = whenReady s (·.upTo .event (fun b => !b.mapper.queue.isEmpty)) := rfl
theorem exec_pollTurn (s : State) : exec .pollTurn s = whenReady s (fun s => { s with link := s.link.poll }) := rfl
theorem exec_stateReceive (bytes : List RxByte) (s : State) :
    exec (.stateReceive bytes) s = whenReady s (·.receive bytes) := rfl
theorem exec_replyWindowExpiry (s : State) : exec .replyWindowExpiry s = whenReady s State.windowExpiry := rfl
theorem exec_interByteTimeout (s : State) : exec .interByteTimeout s = whenReady s State.interByteTimeout := rfl
theorem exec_queueFrameSend (s : State) :
    exec .queueFrameSend s = whenReady s (fun s => { s with link := s.link.queueSend }) := rfl
theorem exec_linkBreak (s : State) :
    exec .linkBreak s = whenReady s (fun s => { s with link := s.link.sendBreak }) := rfl

end Sys2Proof.Machine
end

section
/-! SUPPORT. What a command can do to the state, said once (R182, R183): nothing, a step of a part that is ready, or one of
the three changes of the port that a reset makes. The invariants of every step follow from it. -/

namespace Sys2Proof.Machine

/-! ## A command's next state -/

/-- The part after initialisation (R182, R183). -/
def State.initialised (s : State) : State :=
  { State.reset with pending := s.pending, ram := ramKept s.ram, unstated := s.unstated }

theorem execInitialisationComplete_eq (s : State) :
    execInitialisationComplete s = .next (if s.port.ready then s else s.initialised) := rfl

/-- `t` is the next state of a command in `s`. -/
inductive Leaves (s t : State) : Prop where
  | idle (same : t = s)
  | steps (ready : s.port.ready = true) (kept : Steps s t)
  | poweredOn (initialising : t = s.initialising [] false)
  | softReset (initialising : t = s.startSoftReset)
  | initialised (complete : t = s.initialised)

/-- A command of the part does nothing, or what it does while READY is 1. -/
theorem Leaves.of_whenReady {s t : State} {f : State → State} (next : whenReady s f = .next t)
    (leaves : s.port.ready = true → Leaves s (f s)) : Leaves s t := by
  unfold whenReady at next
  cases next
  split
  next ready => exact leaves ready
  next => exact .idle rfl

/-- The same for a command that is no reset. -/
theorem Leaves.of_steps {s t : State} {f : State → State} (next : whenReady s f = .next t) (kept : ∀ s, Steps s (f s)) :
    Leaves s t := .of_whenReady next fun ready => .steps ready (kept s)

theorem State.writeControl_leaves {s : State} (ready : s.port.ready = true) (v : Half) : Leaves s (s.writeControl v) := by
  unfold State.writeControl
  split
  · exact .softReset rfl
  · exact .steps ready (s.control_steps _)

theorem State.writeRegister_leaves {s : State} (ready : s.port.ready = true) (r : BitVec 2) (v : Half) :
    Leaves s (s.writeRegister r v) := by
  unfold State.writeRegister
  split
  · exact s.writeControl_leaves ready v
  · exact .steps ready (s.writeSignal_steps v)
  · exact .steps ready (s.writePost_steps v)
  · exact .idle rfl

/-- A change of the Stage Link Controller that leaves the number of its entries. -/
theorem Steps.link (s : State) {l : Link} (h : l.units.length = s.link.units.length) : Steps s { s with link := l } :=
  (Keeps.link s l h).steps

theorem Link.poll_units (l : Link) : l.poll.units = l.units := by
  unfold Link.poll
  split
  · split <;> rfl
  · rfl

theorem Link.sendHead_units (l : Link) (count : Nat) : (l.sendHead count).units = l.units := by
  unfold Link.sendHead
  split
  · exact Link.endTurn_units _
  · dsimp only
    split
    · rfl
    · exact Link.endTurn_units _

theorem Link.queueSend_units (l : Link) : l.queueSend.units = l.units := by
  unfold Link.queueSend
  split
  · split
    · exact l.sendHead_units _
    · split
      · exact Link.sendHead_units _ _
      · rfl
    · rfl
  · rfl

theorem Link.sendBreak_units (l : Link) : l.sendBreak.units = l.units := by
  unfold Link.sendBreak
  split <;> rfl

/-- Every command comes to one of these. -/
theorem exec_leaves {c : Instr} {s t : State} (next : exec c s = .next t) : Leaves s t := by
  cases c with
  | powerOn => cases next; exact .poweredOn rfl
  | initialisationComplete =>
    rw [show exec .initialisationComplete s = _ from execInitialisationComplete_eq s] at next
    cases next
    split
    · exact .idle rfl
    · exact .initialised rfl
  | softReset => rw [exec_softReset] at next; exact .of_whenReady next fun _ => .softReset rfl
  | controlWrite v => rw [exec_controlWrite] at next; exact .of_whenReady next fun ready => s.writeControl_leaves ready v
  | signalClear v => rw [exec_signalClear] at next; exact .of_steps next (·.writeSignal_steps v)
  | post v => rw [exec_post] at next; exact .of_steps next (·.writePost_steps v)
  | registerWriteIgnored r v => rw [exec_registerWriteIgnored] at next; exact .of_whenReady next fun ready => s.writeRegister_leaves ready r v
  | exchangeRamWrite w v => rw [exec_exchangeRamWrite] at next; exact .of_steps next (·.writeWord_steps w v)
  | unknownKindRequest => rw [exec_unknownKindRequest] at next; exact .of_steps next fun s => s.take_steps carryUnknownKind_keeps _ _
  | writeScene => rw [exec_writeScene] at next; exact .of_steps next fun s => s.take_steps carryWriteScene_keeps _ _
  | readScene => rw [exec_readScene] at next; exact .of_steps next fun s => s.take_steps carryReadScene_keeps _ _
  | clearScene => rw [exec_clearScene] at next; exact .of_steps next fun s => s.take_steps carryClearScene_keeps _ _
  | loadFilter => rw [exec_loadFilter] at next; exact .of_steps next fun s => s.take_steps carryLoadFilter_keeps _ _
  | loadCurve => rw [exec_loadCurve] at next; exact .of_steps next fun s => s.take_steps carryLoadCurve_keeps _ _
  | loadImpulse => rw [exec_loadImpulse] at next; exact .of_steps next fun s => s.take_steps carryLoadImpulse_keeps _ _
  | setProfile => rw [exec_setProfile] at next; exact .of_steps next fun s => s.take_steps carrySetProfile_keeps _ _
  | selectProfile => rw [exec_selectProfile] at next; exact .of_steps next fun s => s.take_steps carrySelectProfile_keeps _ _
  | trimLearnStart => rw [exec_trimLearnStart] at next; exact .of_steps next fun s => s.take_steps carryTrimLearnStart_keeps _ _
  | trimLearnAbort => rw [exec_trimLearnAbort] at next; exact .of_steps next fun s => s.take_steps carryTrimLearnAbort_keeps _ _
  | selectScene => rw [exec_selectScene] at next; exact .of_steps next fun s => s.take_steps carrySelectScene_keeps _ _
  | setParam => rw [exec_setParam] at next; exact .of_steps next fun s => s.take_steps carrySetParam_keeps _ _
  | setEnable => rw [exec_setEnable] at next; exact .of_steps next fun s => s.take_steps carrySetEnable_keeps _ _
  | setTempo => rw [exec_setTempo] at next; exact .of_steps next fun s => s.take_steps carrySetTempo_keeps _ _
  | setRoute => rw [exec_setRoute] at next; exact .of_steps next fun s => s.take_steps carrySetRoute_keeps _ _
  | tunerEngage => rw [exec_tunerEngage] at next; exact .of_steps next fun s => s.take_steps carryTunerEngage_keeps _ _
  | tunerDisengage => rw [exec_tunerDisengage] at next; exact .of_steps next fun s => s.take_steps carryTunerDisengage_keeps _ _
  | setAssign => rw [exec_setAssign] at next; exact .of_steps next fun s => s.take_steps carrySetAssign_keeps _ _
  | clearAssign => rw [exec_clearAssign] at next; exact .of_steps next fun s => s.take_steps carryClearAssign_keeps _ _
  | verdict => rw [exec_verdict] at next; exact .of_steps next fun s => s.take_steps carryVerdict_keeps _ _
  | linkConfig => rw [exec_linkConfig] at next; exact .of_steps next fun s => s.take_steps carryLinkConfig_keeps _ _
  | setUnit => rw [exec_setUnit] at next; exact .of_steps next fun s => s.take_steps carrySetUnit_keeps _ _
  | lamp => rw [exec_lamp] at next; exact .of_steps next fun s => s.take_steps carryLamp_keeps _ _
  | text => rw [exec_text] at next; exact .of_steps next fun s => s.take_steps carryText_keeps _ _
  | inputSample a b => rw [exec_inputSample] at next; exact .of_steps next fun s => s.inputSample_steps _ _
  | blockStart => rw [exec_blockStart] at next; exact .of_steps next State.blockStart_steps
  | impulseLoadComplete => rw [exec_impulseLoadComplete] at next; exact .of_steps next fun s => s.upTo_steps _ _
  | learnComplete => rw [exec_learnComplete] at next; exact .of_steps next fun s => s.upTo_steps _ _
  | gateHoldExpiry => rw [exec_gateHoldExpiry] at next; exact .of_steps next fun s => s.upTo_steps _ _
  | profileChangeTakeup => rw [exec_profileChangeTakeup] at next; exact .of_steps next fun s => s.upTo_steps _ _
  | stageSelect => rw [exec_stageSelect] at next; exact .of_steps next fun s => s.upTo_steps _ _
  | restage => rw [exec_restage] at next; exact .of_steps next fun s => s.upTo_steps _ _
  | fadeEnd => rw [exec_fadeEnd] at next; exact .of_steps next fun s => s.upTo_steps _ _
  | dipTurn => rw [exec_dipTurn] at next; exact .of_steps next fun s => s.upTo_steps _ _
  | dipEnd => rw [exec_dipEnd] at next; exact .of_steps next fun s => s.upTo_steps _ _
  | tailQuietEnd => rw [exec_tailQuietEnd] at next; exact .of_steps next fun s => s.upTo_steps _ _
  | tailAgeEnd => rw [exec_tailAgeEnd] at next; exact .of_steps next fun s => s.upTo_steps _ _
  | engineStop => rw [exec_engineStop] at next; exact .of_steps next fun s => s.upTo_steps _ _
  | directCopy => rw [exec_directCopy] at next; exact .of_steps next fun s => s.upTo_steps _ _
  | engineRestart => rw [exec_engineRestart] at next; exact .of_steps next fun s => s.upTo_steps _ _
  | routeCrossfadeStart => rw [exec_routeCrossfadeStart] at next; exact .of_steps next fun s => s.upTo_steps _ _
  | routeCrossfadeEnd => rw [exec_routeCrossfadeEnd] at next; exact .of_steps next fun s => s.upTo_steps _ _
  | tunerWindowEnd => rw [exec_tunerWindowEnd] at next; exact .of_steps next fun s => s.upTo_steps _ _
  | tunerHoldExpiry => rw [exec_tunerHoldExpiry] at next; exact .of_steps next fun s => s.upTo_steps _ _
  | readoutPeriodClose => rw [exec_readoutPeriodClose] at next; exact .of_steps next fun s => s.upTo_steps _ _
  | referralExpiry => rw [exec_referralExpiry] at next; exact .of_steps next fun s => s.upTo_steps _ _
  | controlEventTake => rw [exec_controlEventTake] at next; exact .of_steps next fun s => s.upTo_steps _ _
  | pollTurn => rw [exec_pollTurn] at next; exact .of_steps next fun s => .link s (by rw [Link.poll_units])
  | stateReceive bytes => rw [exec_stateReceive] at next; exact .of_steps next fun s => (s.receive_keeps bytes).steps
  | replyWindowExpiry => rw [exec_replyWindowExpiry] at next; exact .of_steps next fun s => s.windowExpiry_keeps.steps
  | interByteTimeout => rw [exec_interByteTimeout] at next; exact .of_steps next fun s => s.interByteTimeout_keeps.steps
  | queueFrameSend => rw [exec_queueFrameSend] at next; exact .of_steps next fun s => .link s (by rw [Link.queueSend_units])
  | linkBreak => rw [exec_linkBreak] at next; exact .of_steps next fun s => .link s (by rw [Link.sendBreak_units])

/-- An invariant that does not look at the waiting commands, and that every command keeps, is kept by every step. -/
theorem step_keeps {P : State → Prop} (blind : ∀ (s : State) (rest : List Instr), P s → P { s with pending := rest })
    (kept : ∀ s t : State, P s → Leaves s t → P t) {s t : State} (holds : P s) (next : step s = .next t) : P t := by
  unfold step at next
  split at next
  · cases next; exact holds
  · exact kept _ _ (blind s _ holds) (exec_leaves next)

/-! ## The invariants after a reset -/

theorem wf_ramKept {m : Ram} (w : Memory.wf m = true) : Memory.wf (ramKept m) = true := wf_filter w _

theorem RequestUnit.reset_exact : RequestUnit.reset.exact := by
  refine ⟨rfl, List.nodup_nil, fun n => ?_⟩
  show n ∈ [] ↔ (List.replicate 32 SlotState.free)[n]? = some .posted
  rw [List.getElem?_replicate]
  split <;> simp

theorem Bank.idle_idleOk : Bank.idle.idleOk := fun _ => ⟨rfl, rfl⟩

theorem Engine.reset_ok : Engine.reset.ok := ⟨.inl ⟨rfl, nofun⟩, nofun, Bank.idle_idleOk, Nat.zero_le _⟩

theorem Store.reset_empty (r : SceneRecord) : some r ∉ Store.reset.scenes := by simp [Store.reset]

theorem Store.reset_withinBudget : Store.reset.withinBudget := fun r stored => absurd stored (Store.reset_empty r)

theorem Store.reset_scenesLegal : Store.reset.scenesLegal := fun r stored => absurd stored (Store.reset_empty r)

theorem State.reset_tablesOk : State.reset.tablesOk := by
  refine ⟨fun p hp => ?_, rfl⟩
  rw [List.eq_of_mem_replicate (show p ∈ List.replicate 8 Profile.reset from hp)]
  rfl

/-- An invariant of blocks that a reset puts back, and that the steps of a part that is ready keep. -/
theorem step_keeps_ofReset {P : State → Prop} (blind : ∀ (s : State) (rest : List Instr), P s → P { s with pending := rest })
    (kept : ∀ s t : State, Steps s t → P s → P t)
    (reset : ∀ t : State, State.reset.sameBlocks t → t.requests = .reset → P t) {s t : State}
    (holds : P s) (next : step s = .next t) : P t := by
  refine step_keeps blind (fun s t holds leaves => ?_) holds next
  cases leaves with
  | idle same => exact same ▸ holds
  | steps _ steps => exact kept s t steps holds
  | poweredOn e => subst e; exact reset _ ⟨rfl, rfl, rfl, rfl, rfl, rfl, rfl, rfl, rfl⟩ rfl
  | softReset e => subst e; exact reset _ ⟨rfl, rfl, rfl, rfl, rfl, rfl, rfl, rfl, rfl⟩ rfl
  | initialised e => subst e; exact reset _ ⟨rfl, rfl, rfl, rfl, rfl, rfl, rfl, rfl, rfl⟩ rfl

theorem step_keeps_memory {s t : State} (mem : s.memoryOk) (next : step s = .next t) : t.memoryOk := by
  refine step_keeps (P := State.memoryOk) (fun _ _ h => h) (fun s t mem leaves => ?_) mem next
  cases leaves with
  | idle same => exact same ▸ mem
  | steps _ kept => exact kept.memory mem
  | poweredOn e => subst e; exact (rfl : Memory.wf [] = true)
  | softReset e => subst e; exact wf_ramKept mem
  | initialised e => subst e; exact wf_ramKept mem

/-- INT and the port before READY are sound together: after a reset both are as the port is made, and a step of a part that
is ready leaves it ready with no reset in progress. -/
theorem step_keeps_port {s t : State} (sound : s.intOk ∧ s.readyOk) (next : step s = .next t) : t.intOk ∧ t.readyOk := by
  refine step_keeps (P := fun s => s.intOk ∧ s.readyOk) (fun _ _ h => h) (fun s t sound leaves => ?_) sound next
  have ⟨int, _, noReset⟩ := sound
  cases leaves with
  | idle same => exact same ▸ sound
  | steps ready kept =>
    exact ⟨kept.int int, fun notReady => by simp [kept.ready, ready] at notReady,
      fun _ => kept.softReset.trans (noReset ready)⟩
  | poweredOn e => subst e; exact ⟨rfl, fun _ => ⟨rfl, rfl, rfl, rfl⟩, nofun⟩
  | softReset e => subst e; exact ⟨rfl, fun _ => ⟨rfl, rfl, rfl, rfl⟩, nofun⟩
  | initialised e => subst e; exact ⟨rfl, nofun, fun _ => rfl⟩

end Sys2Proof.Machine

namespace Sys2Proof.Proofs
open Sys2Proof.Machine

/-- Settles O58: the writes of every command keep the canonical form, and a reset keeps a part of an Exchange RAM that has it. -/
theorem stepKeepsMemoryCanonical : Obligations.StepKeepsMemoryCanonical := fun _ _ mem next => step_keeps_memory mem next

/-- Settles O59: by what a command can do to the slots and the port. -/
theorem stepKeepsPortSound : Obligations.StepKeepsPortSound := by
  refine ⟨fun s t isExact next => ?_, fun s t int ready next => step_keeps_port ⟨int, ready⟩ next⟩
  exact step_keeps_ofReset (P := fun s => s.requests.exact) (fun _ _ h => h) (fun _ _ kept => kept.exact)
    (fun t _ requests => requests ▸ RequestUnit.reset_exact) isExact next

/-- Settles O60: each invariant holds of the blocks after reset, and the steps of a part that is ready keep it. -/
theorem stepKeepsBanksAndBudget : Obligations.StepKeepsBanksAndBudget := by
  refine ⟨fun s t banks budget next => ⟨?banks, ?budget⟩, fun s t legal next => ?legal, fun s t tables next => ?tables⟩
  case banks =>
    exact step_keeps_ofReset (P := fun s => s.engine.ok) (fun _ _ h => h) (fun _ _ kept => kept.engine)
      (fun t ⟨_, _, engine, _⟩ _ => engine ▸ Engine.reset_ok) banks next
  case budget =>
    exact step_keeps_ofReset (P := fun s => s.store.withinBudget) (fun _ _ h => h) (fun _ _ kept => kept.scenes)
      (fun t ⟨_, store, _⟩ _ => store ▸ Store.reset_withinBudget) budget next
  case legal =>
    exact step_keeps_ofReset (P := fun s => s.store.scenesLegal) (fun _ _ h => h) (fun _ _ kept => kept.legal)
      (fun t ⟨_, store, _⟩ _ => store ▸ Store.reset_scenesLegal) legal next
  case tables =>
    refine step_keeps_ofReset (P := State.tablesOk) (fun _ _ h => h) (fun _ _ kept => kept.tables) (fun t blocks _ => ?_)
      tables next
    obtain ⟨_, store, _, _, _, _, _, link, _⟩ := blocks
    obtain ⟨names, units⟩ := State.reset_tablesOk
    exact ⟨by rw [store]; exact names, by rw [link]; exact units⟩

/-- Settles O57: each invariant by what its block holds after reset. -/
theorem resetStateIsSound : Obligations.ResetStateIsSound :=
  ⟨rfl, rfl, RequestUnit.reset_exact, Engine.reset_ok, ⟨nofun, fun _ => rfl⟩, Store.reset_withinBudget,
    Store.reset_scenesLegal, State.reset_tablesOk⟩

end Sys2Proof.Proofs
end

section
/-! SUPPORT. A command that takes a request, and its answer: what a proof about a request has to show of its owner. -/

namespace Sys2Proof.Machine

section Requests
variable {c : Instr} {s u v : State} {n : Nat} {rest : List Nat} {code : Result} {value : ResultValue}
  {due : Taken → Bool} {need : BufferNeed} {carry : Taken → State → Answer}

/-- A request answered at once by an owner that changes blocks alone: `v` as the take left the state, `u` as the statement
has it. -/
theorem completes_blocks (arm : ∀ s, exec c s = whenReady s (·.take due need carry)) (mem : s.memoryOk)
    (head : s.headIs n rest) (hdue : due (takenAt s.ram n) = true) (hneed : need.passes (takenAt s.ram n) = true)
    (keeps : CarryKeeps carry) (carried : carry (takenAt s.ram n) (s.takeHead n rest) = v.answer code value)
    (quiet : Quiet (s.takeHead n rest) v := by exact ⟨rfl, rfl, rfl, rfl⟩)
    (blocks : u.sameBlocks v := by exact ⟨rfl, rfl, rfl, rfl, rfl, rfl, rfl, rfl, rfl⟩)
    (hv : v.ram = (s.takeHead n rest).ram := by rfl) (hu : u.ram = s.ram := by rfl) :
    completes c s u n rest code value := by
  unfold completes
  rw [arm]
  exact State.take_answers_blocks head hdue hneed keeps mem carried quiet blocks hv hu

/-- A request that its owner refuses. -/
theorem completes_refused (arm : ∀ s, exec c s = whenReady s (·.take due need carry)) (mem : s.memoryOk)
    (head : s.headIs n rest) (hdue : due (takenAt s.ram n) = true) (hneed : need.passes (takenAt s.ram n) = true)
    (keeps : CarryKeeps carry)
    (refused : carry (takenAt s.ram n) (s.takeHead n rest) = (s.takeHead n rest).answer code value) :
    completes c s s n rest code value :=
  completes_blocks arm mem head hdue hneed keeps refused

/-- A request whose buffer fails the check. -/
theorem completes_badBuffer (arm : ∀ s, exec c s = whenReady s (·.take due need carry)) (mem : s.memoryOk)
    (head : s.headIs n rest) (hdue : due (takenAt s.ram n) = true) (hneed : need.passes (takenAt s.ram n) = false) :
    completes c s s n rest .badBuffer (.given need.needed) := by
  unfold completes
  rw [arm]
  exact State.take_badBuffer head hdue hneed mem

/-- A long request that its owner keeps. -/
theorem keepsSlot_of_kept (arm : ∀ s, exec c s = whenReady s (·.take due need carry)) (mem : s.memoryOk)
    (head : s.headIs n rest) (hdue : due (takenAt s.ram n) = true) (hneed : need.passes (takenAt s.ram n) = true)
    (carried : carry (takenAt s.ram n) (s.takeHead n rest) = ⟨v, none⟩)
    (quiet : Quiet (s.takeHead n rest) v := by exact ⟨rfl, rfl, rfl, rfl⟩)
    (blocks : u.sameBlocks v := by exact ⟨rfl, rfl, rfl, rfl, rfl, rfl, rfl, rfl, rfl⟩)
    (hv : v.ram = (s.takeHead n rest).ram := by rfl) : keepsSlot c s u n rest := by
  unfold keepsSlot
  rw [arm]
  exact State.take_keepsSlot head hdue hneed mem carried quiet blocks hv

end Requests

/-! ## The buffer check (R186) -/

theorem BufferNeed.passes_exactly_iff (length : Nat) (t : Taken) : BufferNeed.passes (.exactly length) t = true ↔
    (t.offset % 4 = 0 ∧ 0x1000 ≤ t.offset ∧ t.offset + t.length ≤ 0x8000) ∧ t.length = length := by
  simp [BufferNeed.passes, BufferNeed.accepts]

theorem BufferNeed.passes_impulse_iff (t : Taken) : BufferNeed.passes .impulse t = true ↔
    (t.offset % 4 = 0 ∧ 0x1000 ≤ t.offset ∧ t.offset + t.length ≤ 0x8000) ∧
    256 ≤ t.length ∧ t.length ≤ 4096 ∧ t.length % 256 = 0 := by
  simp [BufferNeed.passes, BufferNeed.accepts]

theorem BufferNeed.not_passes_exactly {length : Nat} {t : Taken}
    (bad : t.offset % 4 ≠ 0 ∨ t.offset < 0x1000 ∨ 0x8000 < t.offset + t.length ∨ t.length ≠ length) :
    BufferNeed.passes (.exactly length) t = false := by
  rw [Bool.eq_false_iff, ne_eq, BufferNeed.passes_exactly_iff]
  omega

theorem BufferNeed.not_passes_impulse {t : Taken}
    (bad : t.offset % 4 ≠ 0 ∨ t.offset < 0x1000 ∨ 0x8000 < t.offset + t.length ∨ t.length % 256 ≠ 0 ∨ t.length < 256 ∨
      4096 < t.length) : BufferNeed.passes .impulse t = false := by
  rw [Bool.eq_false_iff, ne_eq, BufferNeed.passes_impulse_iff]
  omega

/-- The commands that take a request with a buffer of one length (R187). -/
theorem exec_buffered {c : Instr} {code length : Nat}
    (row : (c, code, length) ∈ [(.writeScene, 1, 256), (.readScene, 2, 256), (.loadFilter, 4, 80), (.loadCurve, 5, 1028),
      (.setProfile, 7, 16), ((.setAssign : Instr), (16 : Nat), (32 : Nat))]) :
    ∃ carry, ∀ s, exec c s = whenReady s (·.take (isKind code) (.exactly length) carry) := by
  simp only [List.mem_cons, Prod.mk.injEq, List.not_mem_nil, or_false] at row
  obtain ⟨rfl, rfl, rfl⟩ | ⟨rfl, rfl, rfl⟩ | ⟨rfl, rfl, rfl⟩ | ⟨rfl, rfl, rfl⟩ | ⟨rfl, rfl, rfl⟩ | ⟨rfl, rfl, rfl⟩ := row
  · exact ⟨_, exec_writeScene⟩
  · exact ⟨_, exec_readScene⟩
  · exact ⟨_, exec_loadFilter⟩
  · exact ⟨_, exec_loadCurve⟩
  · exact ⟨_, exec_setProfile⟩
  · exact ⟨_, exec_setAssign⟩

/-! ## Clamped values -/

theorem clampInt_inside {lo hi v : Int} (low : lo ≤ v) (high : v ≤ hi) : clampInt lo hi v = v := by unfold clampInt; omega

theorem clampInt_below {lo hi v : Int} (below : v < lo) : clampInt lo hi v = lo := by unfold clampInt; omega

theorem clampInt_above {lo hi v : Int} (above : hi < v) (range : lo ≤ hi) : clampInt lo hi v = hi := by
  unfold clampInt; omega

/-! ## SELECT_PROFILE and SET_TEMPO (R24, R77) -/

theorem carrySelectProfile_range {t : Taken} (s : State) (outside : t.arg0 < 0 ∨ 7 < t.arg0) :
    carrySelectProfile t s = s.answer .range .unstated := if_pos outside

theorem carrySelectProfile_chooses {t : Taken} (s : State) (low : 0 ≤ t.arg0) (high : t.arg0 ≤ 7) :
    carrySelectProfile t s = (s.choose t.arg0.toNat).answer .ok (.given t.arg0) := if_neg (by omega)

/-- The part with this tempo target. -/
def State.withTempoTarget (s : State) (tempo : Nat) : State := { s with engine := { s.engine with tempoTarget := tempo } }

theorem carrySetTempo_inside {t : Taken} (s : State) (low : 400 ≤ t.arg0) (high : t.arg0 ≤ 3000) :
    carrySetTempo t s = (s.withTempoTarget t.arg0.toNat).answer .ok (.given t.arg0) := by
  have clamped := clampInt_inside low high
  have unmarked : ¬ (t.arg0 < 400 ∨ 3000 < t.arg0) := by omega
  simp [carrySetTempo, clampMark, clamped, unmarked, okCode, State.writeTempo, State.withTempoTarget]

/-- A tempo outside 400..3000 is taken as the end `tempo` that lies nearer. -/
theorem carrySetTempo_outside {t : Taken} (s : State) {tempo : Nat} (outside : t.arg0 < 400 ∨ 3000 < t.arg0)
    (clamped : clampInt 400 3000 t.arg0 = tempo) :
    carrySetTempo t s = (s.withTempoTarget tempo).answer .okClamped (.given tempo) := by
  simp [carrySetTempo, clampMark, clamped, outside, okCode, State.writeTempo, State.withTempoTarget]

/-- A SET_TEMPO answered with this tempo target. -/
theorem setTempo_completes {s : State} {n tempo : Nat} {rest : List Nat} {code : Result} {value : Int} (mem : s.memoryOk)
    (head : s.headIs n rest) (kind : (takenAt s.ram n).kind = 13)
    (carried : carrySetTempo (takenAt s.ram n) (s.takeHead n rest) =
      ((s.takeHead n rest).withTempoTarget tempo).answer code (.given value)) :
    completes .setTempo s (s.withTempoTarget tempo) n rest code (.given value) :=
  completes_blocks exec_setTempo mem head (isKind_of_kind kind) (BufferNeed.none_passes _) carrySetTempo_keeps carried

/-! ## Catch states (R153) -/

theorem CatchState.step_of_eq (c : CatchState) (m : Int) : c.step m m = (.caught, true) := by
  cases c <;> simp [CatchState.step]

end Sys2Proof.Machine

namespace Sys2Proof.Proofs
open Sys2Proof.Machine

/-- Settles O1: the queue shows the command at its front. -/
theorem stepRunsTheFrontCommand : Obligations.StepRunsTheFrontCommand := fun _ _ _ => rfl

/-- Settles O7: the reset values, field by field. -/
theorem resetLeavesStatedValues : Obligations.ResetLeavesStatedValues := by
  unfold Obligations.ResetLeavesStatedValues
  refine ⟨rfl, rfl, rfl, rfl, rfl, rfl, rfl, rfl, rfl, rfl, rfl, rfl, rfl, rfl, rfl, rfl, rfl, rfl, rfl, rfl, rfl, rfl, rfl,
    rfl, rfl, rfl, rfl, rfl, rfl, rfl, rfl, rfl, rfl, rfl⟩

/-- Settles O8: a kind without a code is answered by the owner of unknown kinds; a bad buffer before its owner sees it. -/
theorem takesRefuseBadKindsAndBuffers : Obligations.TakesRefuseBadKindsAndBuffers := by
  refine ⟨fun s n rest mem head kind => ?kind, fun c code length row s n rest mem head kind bad => ?exactly,
    fun s n rest mem head kind bad => ?impulse⟩
  case kind =>
    exact completes_refused exec_unknownKindRequest mem head (decide_eq_true (by omega)) (BufferNeed.none_passes _)
      carryUnknownKind_keeps rfl
  case exactly =>
    obtain ⟨carry, arm⟩ := exec_buffered row
    exact completes_badBuffer arm mem head (isKind_of_kind kind) (BufferNeed.not_passes_exactly bad)
  case impulse =>
    exact completes_badBuffer exec_loadImpulse mem head (isKind_of_kind kind) (BufferNeed.not_passes_impulse bad)

/-- Settles O17: the two answers to SELECT_PROFILE, and SET_TEMPO below, within and above its range. -/
theorem selectProfileAndSetTempo : Obligations.SelectProfileAndSetTempo := by
  intro s n rest mem head t
  refine ⟨fun kind => ⟨fun outside => ?range, fun low high => ?chosen⟩,
    fun kind => ⟨fun below => ?below, fun low high => ?inside, fun above => ?above⟩⟩
  case range =>
    exact completes_refused exec_selectProfile mem head (isKind_of_kind kind) (BufferNeed.none_passes _)
      carrySelectProfile_keeps (carrySelectProfile_range _ outside)
  case chosen =>
    exact completes_blocks exec_selectProfile mem head (isKind_of_kind kind) (BufferNeed.none_passes _)
      carrySelectProfile_keeps (carrySelectProfile_chooses _ low high)
  case below =>
    exact setTempo_completes mem head kind (carrySetTempo_outside _ (.inl below) (clampInt_below below))
  case inside => exact setTempo_completes mem head kind (carrySetTempo_inside _ low high)
  case above =>
    exact setTempo_completes mem head kind (carrySetTempo_outside _ (.inr above) (clampInt_above above (by decide)))

/-- Settles O42: the table, by the catch state and the side on which the mapped value lies. -/
theorem catchStateTable : Obligations.CatchStateTable := by
  intro c m ref
  refine ⟨fun equal => equal ▸ c.step_of_eq m, fun below => ?below, fun above => ?above⟩
  case below =>
    have : m ≠ ref ∧ ¬ ref < m := by omega
    cases c <;> simp [CatchState.step, below, this]
  case above =>
    have : m ≠ ref ∧ ¬ m < ref := by omega
    cases c <;> simp [CatchState.step, this]

end Sys2Proof.Proofs
end

section
/-! SUPPORT. The Exchange Port: what it reads and ignores while READY is 0 (R182), what a soft reset keeps (R183), what CONTROL
and SIGNAL hold after a write (R181, R191), and a word of Exchange RAM (R179). -/

namespace Sys2Proof.Machine

/-! ## READY (R182) -/

theorem whenReady_of_ready {s : State} (ready : s.port.ready = true) (f : State → State) : whenReady s f = .next (f s) := by
  rw [whenReady, if_pos ready]

theorem whenReady_of_not_ready {s : State} (notReady : s.port.ready = false) (f : State → State) :
    whenReady s f = .next s := by
  simp [whenReady, notReady]

theorem exec_of_ready {c : Instr} {s : State} {f : State → State} (arm : exec c s = whenReady s f)
    (ready : s.port.ready = true) : exec c s = .next (f s) := arm.trans (whenReady_of_ready ready f)

theorem exec_of_not_ready {c : Instr} {s : State} {f : State → State} (arm : exec c s = whenReady s f)
    (notReady : s.port.ready = false) : exec c s = .next s := arm.trans (whenReady_of_not_ready notReady f)

/-- While READY is 0 the port takes no access (R182). -/
theorem exec_ignored {s : State} (notReady : s.port.ready = false) :
    (∀ (w : BitVec 14) (v : Half), exec (.exchangeRamWrite w v) s = .next s) ∧
    ∀ v : Half, exec (.controlWrite v) s = .next s ∧ exec (.signalClear v) s = .next s ∧ exec (.post v) s = .next s :=
  ⟨fun w v => exec_of_not_ready (exec_exchangeRamWrite w v s) notReady,
    fun v => ⟨exec_of_not_ready (exec_controlWrite v s) notReady, exec_of_not_ready (exec_signalClear v s) notReady,
      exec_of_not_ready (exec_post v s) notReady⟩⟩

theorem State.readWord_of_not_ready {s : State} (notReady : s.port.ready = false) (w : BitVec 14) : s.readWord w = 0 := by
  simp [State.readWord, notReady]

theorem State.initialising_readRegister (s : State) (ram : Ram) :
    (s.initialising ram false).readRegister 1 = 0 ∧ (s.initialising ram true).readRegister 1 = 2 := ⟨rfl, rfl⟩

theorem exec_initialisationComplete_of_not_ready {s : State} (notReady : s.port.ready = false) :
    exec .initialisationComplete s = .next s.initialised := by
  show execInitialisationComplete s = _
  simp [execInitialisationComplete_eq, notReady]

theorem exec_initialisationComplete_of_ready {s : State} (ready : s.port.ready = true) :
    exec .initialisationComplete s = .next s := by
  show execInitialisationComplete s = _
  simp [execInitialisationComplete_eq, ready]

/-! ## Exchange RAM after initialisation and after a soft reset (R180, R182, R183) -/

/-- Beyond the header's fixed fields every byte is 0 after initialisation. -/
theorem ramReset_of_ge {a : Nat} (beyond : 0x18 ≤ a) : ramReset a = 0 := by
  unfold ramReset
  split <;> first | omega | rfl

/-- The fixed fields of the header after initialisation (11.2). -/
theorem header_of_initialised : readLE [] 0x00 2 = 1 ∧ readLE [] 0x02 2 = 32 ∧ readLE [] 0x04 2 = 32 ∧ readLE [] 0x08 4 = 0 ∧
    readLE [] 0x0C 2 = 0 ∧ readLE [] 0x10 4 = 0 ∧ readLE [] 0x14 2 = 0x1000 ∧ readLE [] 0x16 2 = 0x8000 := by decide

theorem readByte_ramKept {m : Ram} (w : Memory.wf m = true) (a : Nat) :
    readByte (ramKept m) a = if keptByReset a then readByte m a else ramReset a :=
  sparseRead_filter keptByReset ((Memory.wf_iff m).mp w).1

theorem keptByReset_iff (a : Nat) : keptByReset a = true ↔ (0x640 ≤ a ∧ a < 0x800) ∨ 0x1000 ≤ a := by simp [keptByReset]

theorem ramKept_ramKept (m : Ram) : ramKept (ramKept m) = ramKept m := by simp [ramKept]

/-- A write of CONTROL with SOFT_RESET at 1 starts the reset that SOFT_RESET starts. -/
theorem State.writeControl_of_softReset (s : State) {v : Half} (set : v.getLsbD 1 = true) :
    s.writeControl v = s.startSoftReset := if_pos set

/-! ## CONTROL and SIGNAL (R181, R191) -/

theorem Signals.anyEnabled_iff (x y : Signals) : x.anyEnabled y = true ↔
    x.done = true ∧ y.done = true ∨ x.notice = true ∧ y.notice = true ∨ x.collide = true ∧ y.collide = true ∨
    x.page = true ∧ y.page = true := by
  simp [Signals.anyEnabled, or_assoc]

/-- The enables lie in bits 4 to 7 of CONTROL. -/
theorem enablesOf_eq (v : Half) : Signals.ofBits (v.toNat / 16) = ⟨v.getLsbD 4, v.getLsbD 5, v.getLsbD 6, v.getLsbD 7⟩ := by
  simp only [Signals.ofBits, bitOf, BitVec.getLsbD, show (16 : Nat) = 2 ^ 4 from rfl, Nat.testBit_div_two_pow]

theorem State.writeControl_of_running (s : State) {v : Half} (clear : v.getLsbD 1 = false) :
    s.writeControl v = { s with port := s.port.control v.toNat } := by
  unfold State.writeControl
  rw [if_neg]
  rw [show bitOf v.toNat 1 = false from clear]
  decide

theorem Port.control_int (p : Port) (v : Half) : (p.control v.toNat).int = true ↔
    p.signal.done = true ∧ v.getLsbD 4 = true ∨ p.signal.notice = true ∧ v.getLsbD 5 = true ∨
    p.signal.collide = true ∧ v.getLsbD 6 = true ∨ p.signal.page = true ∧ v.getLsbD 7 = true := by
  show p.signal.anyEnabled (Signals.ofBits (v.toNat / 16)) = true ↔ _
  rw [Signals.anyEnabled_iff, enablesOf_eq]

/-! ## A word of Exchange RAM (R179) -/

/-- A word of Exchange RAM that is written reads as it was written. -/
theorem State.readWord_writeWord {s : State} (mem : s.memoryOk) (ready : s.port.ready = true) (w : BitVec 14) (v : Half) :
    (s.writeWord w v).readWord w = v := by
  have inside : 2 * w.toNat + 2 ≤ 0x8000 := by omega
  have small : ((v.toNat : Int) % 256 ^ 2).toNat = v.toNat := by omega
  simp only [State.readWord, State.writeWord, ready, if_true]
  rw [readLE_writeLE_same mem _ inside, small, BitVec.ofNat_toNat, BitVec.setWidth_eq]

end Sys2Proof.Machine

namespace Sys2Proof.Proofs
open Sys2Proof.Machine

/-- Settles O2: the part that initialises reads 0 and takes nothing; what completes the initialisation is the reset state. -/
theorem powerOnThenInitialisation : Obligations.PowerOnThenInitialisation := by
  refine ⟨fun s => ⟨s.initialising [] false, (s.initialising [] false).initialised, ?power⟩,
    fun s => ⟨exec_initialisationComplete_of_ready, fun notReady => ?completes⟩⟩
  case power =>
    have notReady : (s.initialising [] false).port.ready = false := rfl
    obtain ⟨ramIgnored, registersIgnored⟩ := exec_ignored notReady
    obtain ⟨h1, h2, h3, h4, h5, h6, h7, h8⟩ := header_of_initialised
    refine ⟨rfl, rfl, State.readWord_of_not_ready notReady, rfl, (s.initialising_readRegister []).1, rfl, rfl, ramIgnored,
      registersIgnored, exec_initialisationComplete_of_not_ready notReady, rfl, h1, h2, h3, h4, h5, h6, h7, h8,
      fun a low _ => ramReset_of_ge (by omega), fun a low _ => ramReset_of_ge (by omega), rfl, rfl, rfl, rfl, rfl, rfl, rfl,
      rfl, rfl, rfl, rfl, rfl, rfl, rfl, rfl, rfl, rfl, rfl, rfl, rfl⟩
  case completes =>
    exact ⟨_, exec_initialisationComplete_of_not_ready notReady, rfl, rfl, rfl, rfl, rfl, rfl,
      rfl, rfl, rfl, rfl, rfl, rfl, rfl, rfl, rfl⟩

/-- Settles O3: both commands start the same reset; its completion puts back every block and every byte but those of the host
region and the buffer area. -/
theorem softResetAndItsCompletion : Obligations.SoftResetAndItsCompletion := by
  intro s v set
  refine ⟨fun notReady => ⟨exec_of_not_ready (exec_softReset s) notReady,
    exec_of_not_ready (exec_controlWrite v s) notReady⟩, fun mem ready => ?_⟩
  have notReady : s.startSoftReset.port.ready = false := rfl
  obtain ⟨ramIgnored, registersIgnored⟩ := exec_ignored notReady
  have byControl : exec (.controlWrite v) s = .next s.startSoftReset := by
    rw [exec_of_ready (exec_controlWrite v s) ready, s.writeControl_of_softReset set]
  have bytes (a : Nat) : readByte s.startSoftReset.initialised.ram a = if keptByReset a then readByte s.ram a else ramReset a := by
    show readByte (ramKept (ramKept s.ram)) a = _
    rw [ramKept_ramKept, readByte_ramKept mem]
  have resets {a : Nat} (outside : ¬ ((0x640 ≤ a ∧ a < 0x800) ∨ 0x1000 ≤ a)) :
      readByte s.startSoftReset.initialised.ram a = ramReset a := by rw [bytes, if_neg (mt (keptByReset_iff a).mp outside)]
  refine ⟨s.startSoftReset, s.startSoftReset.initialised, exec_of_ready (exec_softReset s) ready, byControl, rfl, rfl,
    (s.initialising_readRegister (ramKept s.ram)).2, rfl, rfl, State.readWord_of_not_ready notReady, ramIgnored, registersIgnored,
    exec_initialisationComplete_of_not_ready notReady, rfl, rfl, rfl, fun a kept => ?kept, fun a => resets, fun n hn => ?slots,
    fun a low high => ?zero, rfl, rfl, rfl, rfl, rfl, rfl, rfl, rfl, rfl, rfl, rfl, rfl, rfl, rfl, rfl, rfl⟩
  case kept => rw [bytes, if_pos ((keptByReset_iff a).mpr kept)]
  case slots =>
    show (List.replicate 32 SlotState.free)[n]? = _
    rw [List.getElem?_replicate, if_pos hn]
  case zero => rw [resets (by omega), ramReset_of_ge (by omega)]

/-- Settles O4: the port after each write, and INT as its refresh leaves it. -/
theorem portWritesSetControlAndSignal : Obligations.PortWritesSetControlAndSignal := by
  refine ⟨fun s v ready clear => ⟨{ s with port := s.port.control v.toNat }, ?_, ?blocks, rfl, rfl, rfl, rfl, rfl,
      enablesOf_eq v, ready, rfl, rfl, s.port.control_int v⟩,
    fun s v ready => ⟨s.writeSignal v, exec_of_ready (exec_signalClear v s) ready, ?blocks', rfl, rfl, rfl, rfl, rfl, rfl, ready, rfl, rfl,
      rfl⟩⟩
  case blocks | blocks' => exact ⟨rfl, rfl, rfl, rfl, rfl, rfl, rfl, rfl, rfl⟩
  rw [exec_of_ready (exec_controlWrite v s) ready, s.writeControl_of_running clear]

/-- Settles O6: each register's write is its own command's; a word written reads back, and the bytes beside it stay. -/
theorem ramWritesAndIgnoredRegisterWrites : Obligations.RamWritesAndIgnoredRegisterWrites := by
  refine ⟨fun s r v => ⟨exec_of_not_ready (exec_registerWriteIgnored r v s), ?portId, rfl, rfl, rfl⟩,
    fun s w v mem ready => ⟨s.writeWord w v, exec_of_ready (exec_exchangeRamWrite w v s) ready, State.readWord_writeWord mem ready w v,
      fun a outside => readByte_writeLE_outside mem outside, ?frame⟩⟩
  case portId =>
    show whenReady s (fun s => s) = _
    simp [whenReady]
  case frame => exact ⟨⟨rfl, rfl, rfl, rfl, rfl, rfl, rfl, rfl, rfl⟩, rfl, rfl, rfl, rfl, rfl⟩

end Sys2Proof.Proofs
end

section
/-! SUPPORT. Fields of an image, byte by byte and as Exchange RAM holds them (11.3); READ_SCENE (R108), LOAD_FILTER and
LOAD_CURVE (R111 to R113), and SET_PROFILE (R76). -/

namespace Sys2Proof.Machine

/-! ## Fields of an image -/

/-- A field is its first byte and 256 times the field of the bytes behind; a byte beyond the image counts as 0. -/
theorem imageNat_succ (image : List Byte) (o n : Nat) :
    imageNat image o (n + 1) = (image.getD o 0).toNat + 256 * imageNat image (o + 1) n := by
  unfold imageNat
  by_cases inside : o < image.length
  · rw [List.drop_eq_getElem_cons inside, List.getD_eq_getElem?_getD, List.getElem?_eq_getElem inside]
    rfl
  · rw [List.drop_eq_nil_of_le (Nat.le_of_not_lt inside), List.drop_eq_nil_of_le (by omega),
      List.getD_eq_getElem?_getD, List.getElem?_eq_none (Nat.le_of_not_lt inside)]
    simp only [List.take_nil, List.foldr_nil, Option.getD_none, BitVec.ofNat_eq_ofNat, BitVec.toNat_ofNat, Nat.zero_mod]

theorem imageNat_byte (image : List Byte) (o : Nat) : imageNat image o 1 = (image.getD o 0).toNat := imageNat_succ image o 0

theorem imageNat_half (image : List Byte) (o : Nat) :
    imageNat image o 2 = (image.getD o 0).toNat + 256 * (image.getD (o + 1) 0).toNat := by
  rw [imageNat_succ, imageNat_byte]

theorem imageNat_word (image : List Byte) (o : Nat) : imageNat image o 4 =
    (image.getD o 0).toNat + 256 * (image.getD (o + 1) 0).toNat +
      65536 * ((image.getD (o + 2) 0).toNat + 256 * (image.getD (o + 2 + 1) 0).toNat) := by
  rw [imageNat_succ, imageNat_succ, imageNat_half, show o + 1 + 1 = o + 2 from rfl]
  omega

theorem getD_readBytes (m : Ram) (a : Nat) {len o : Nat} (inside : o < len) :
    (readBytes m a len).getD o 0 = readByte m (a + o) := by
  induction len generalizing a o with
  | zero => cases inside
  | succ len ih =>
    cases o with
    | zero => rfl
    | succ o =>
      rw [readBytes, List.getD_cons_succ, ih (a + 1) (by omega), Nat.add_right_comm, Nat.add_assoc]

/-- A field of an image read from Exchange RAM is what stands there. -/
theorem imageNat_readBytes (m : Ram) (a : Nat) {len o n : Nat} (inside : o + n ≤ len) :
    imageNat (readBytes m a len) o n = readLE m (a + o) n := by
  induction n generalizing o with
  | zero => rfl
  | succ n ih => rw [imageNat_succ, getD_readBytes m a (by omega), ih (by omega), readLE, Nat.add_assoc]

theorem imageInt_readBytes (m : Ram) (a : Nat) {len o n : Nat} (inside : o + n ≤ len) :
    imageInt (readBytes m a len) o n = signedOf (8 * n) (readLE m (a + o) n) := by
  rw [imageInt, imageNat_readBytes m a inside]

theorem State.takeHead_memory {s : State} (mem : s.memoryOk) {n : Nat} {rest : List Nat} : (s.takeHead n rest).memoryOk :=
  wf_writeLE mem _ _ _

/-- The buffer reads after the take as before it. -/
theorem takeHead_readLE {s : State} (mem : s.memoryOk) {n : Nat} {rest : List Nat} (hn : n < 32) {a : Nat}
    (inBuffer : 0x1000 ≤ a) (k : Nat) : readLE (s.takeHead n rest).ram a k = readLE s.ram a k :=
  readLE_congr fun _ _ _ => takeHead_buffer mem hn (by omega)

theorem BufferNeed.offset_of_exactly {length : Nat} {t : Taken} (buffer : BufferNeed.passes (.exactly length) t = true) :
    0x1000 ≤ t.offset := ((BufferNeed.passes_exactly_iff length t).mp buffer).1.2.1

theorem takeHead_readSamples {s : State} (mem : s.memoryOk) {n : Nat} {rest : List Nat} (hn : n < 32) {a : Nat}
    (inBuffer : 0x1000 ≤ a) (k : Nat) : readSamples (s.takeHead n rest).ram a k = readSamples s.ram a k :=
  List.map_congr_left fun i _ => by rw [takeHead_readLE mem hn (by omega)]

theorem State.headIs.lt {s : State} {n : Nat} {rest : List Nat} (head : s.headIs n rest) : n < 32 := by
  obtain ⟨_, _, _, _, hn⟩ := head
  exact hn

/-! ## READ_SCENE (R108) -/

theorem readByte_writeBytes_congr {m m' : Ram} (w : Memory.wf m = true) (w' : Memory.wf m' = true) {a j : Nat}
    {bs : List Byte} (h : readByte m j = readByte m' j) :
    readByte (writeBytes m a bs) j = readByte (writeBytes m' a bs) j := by
  induction bs generalizing m m' a with
  | nil => exact h
  | cons b bs ih => exact ih (wf_writeByte w _ _) (wf_writeByte w' _ _) (readByte_writeLE_byte w w' h)
where
  readByte_writeLE_byte {m m' : Ram} (w : Memory.wf m = true) (w' : Memory.wf m' = true) {a j : Nat} {b : Byte}
      (h : readByte m j = readByte m' j) : readByte (writeByte m a b) j = readByte (writeByte m' a b) j := by
    by_cases inside : a < 0x8000
    · rw [readByte_writeByte w inside, readByte_writeByte w' inside, h]
    · unfold writeByte; rwa [if_neg inside, if_neg inside]

/-- Where a field lies: its offset and its size. -/
def Field.span (f : Field) : Nat × Nat := (f.offset, f.size)

/-- Where the fields of stage entry p lie (11.3). -/
def stageSpans (p : Nat) : List (Nat × Nat) :=
  [(stageEntryOffset p, 1), (stageEntryOffset p + 1, 1)] ++ (List.range 8).map fun i => (stageEntryOffset p + 2 + 2 * i, 2)

/-- Where the fields of a scene image lie, behind the name (11.3). -/
def sceneSpans : List (Nat × Nat) :=
  [(0x0C, 1), (0x0D, 1), (0x0E, 2), (0x10, 2), (0x12, 1), (0x13, 1)] ++ ((List.range 4).map fun i => (0x14 + 4 * i, 4)) ++
  ((List.range 12).map stageSpans).flatten ++ [(0xFC, 4)]

theorem lampFields_spans (lamps : List LampEntry) :
    (lampFields lamps).map Field.span = (List.range 4).map fun i => (0x14 + 4 * i, 4) := by
  rw [lampFields, List.map_map]
  refine List.map_congr_left fun i _ => ?_
  dsimp only [Function.comp]
  split <;> rfl

theorem stageFields_spans (p : Nat) (e : StageEntry) : (stageFields p e).map Field.span = stageSpans p := by
  simp [stageFields, stageSpans, Field.span]

theorem map_mapIdx {α β γ : Type} (l : List α) (f : Nat → α → β) (g : β → γ) :
    (l.mapIdx f).map g = l.mapIdx fun p x => g (f p x) :=
  List.ext_getElem (by simp) (by simp)

theorem mapIdx_index {α β : Type} (l : List α) (f : Nat → β) :
    l.mapIdx (fun p _ => f p) = (List.range l.length).map f :=
  List.ext_getElem (by simp) (by simp)

/-- The fields of a scene image lie where 11.3 has them, whatever the record. -/
theorem sceneFields_spans {r : SceneRecord} (stages : r.stages.length = 12) :
    (sceneFields r).map Field.span = sceneSpans := by
  have entries : (r.stages.mapIdx stageFields).flatten.map Field.span = ((List.range 12).map stageSpans).flatten := by
    rw [List.map_flatten, map_mapIdx, ← stages, ← mapIdx_index]
    simp only [stageFields_spans]
  simp only [sceneFields, sceneSpans, List.map_append, lampFields_spans, entries]
  rfl

/-- Every field of a scene image lies in its 256 bytes (11.3). -/
theorem sceneFields_inside {r : SceneRecord} (stages : r.stages.length = 12) {f : Field} (field : f ∈ sceneFields r) :
    12 ≤ f.offset ∧ f.offset + f.size ≤ 256 := by
  have inside : ∀ a ∈ sceneSpans, 12 ≤ a.1 ∧ a.1 + a.2 ≤ 256 := by decide +kernel
  refine inside f.span ?_
  rw [← sceneFields_spans stages]
  exact List.mem_map_of_mem field

theorem writeScene_outside {m : Ram} (w : Memory.wf m = true) {base a : Nat} {r : SceneRecord} (legal : r.legal)
    (outside : a < base ∨ base + 256 ≤ a) : readByte (writeScene m base r) a = readByte m a := by
  obtain ⟨name, _, _, _, _, _, _, _, _, stages, _⟩ := legal
  unfold writeScene
  rw [readByte_writeFields_outside (wf_writeBytes w _ _), readByte_writeBytes_outside w (by omega)]
  intro f field
  have := sceneFields_inside stages field
  omega

theorem readByte_writeScene_congr {m m' : Ram} (w : Memory.wf m = true) (w' : Memory.wf m' = true) {base j : Nat}
    {r : SceneRecord} (h : readByte m j = readByte m' j) :
    readByte (writeScene m base r) j = readByte (writeScene m' base r) j :=
  readByte_writeFields_congr (wf_writeBytes w _ _) (wf_writeBytes w' _ _) (readByte_writeBytes_congr w w' h)

theorem carryReadScene_range {t : Taken} (s : State) (outside : t.arg0 < 0 ∨ 127 < t.arg0) :
    carryReadScene t s = s.answer .range .unstated := if_pos outside

theorem carryReadScene_empty {t : Taken} {s : State} (low : 0 ≤ t.arg0) (high : t.arg0 ≤ 127)
    (empty : (s.store.scenes[t.arg0.toNat]?).join = none) : carryReadScene t s = s.answer .emptyScene .unstated := by
  rw [carryReadScene, if_neg (by omega), s.store.scene_of_nonneg low, empty]

theorem carryReadScene_stored {t : Taken} {s : State} {r : SceneRecord} (low : 0 ≤ t.arg0) (high : t.arg0 ≤ 127)
    (stored : s.store.scenes[t.arg0.toNat]? = some (some r)) :
    carryReadScene t s = State.answer { s with ram := writeScene s.ram t.offset r } .ok (.given r.figures) := by
  rw [carryReadScene, if_neg (by omega), s.store.scene_of_nonneg low, stored]
  rfl

/-- The part with the image of a record written at an offset. -/
def State.withImage (s : State) (offset : Nat) (r : SceneRecord) : State := { s with ram := writeScene s.ram offset r }

@[simp] theorem State.withImage_ram (s : State) (offset : Nat) (r : SceneRecord) :
    (s.withImage offset r).ram = writeScene s.ram offset r := rfl

/-- A READ_SCENE that finds a record writes its image over Exchange RAM, whatever the take has changed there. -/
theorem readScene_writes {s : State} {n : Nat} {rest : List Nat} {r : SceneRecord} (mem : s.memoryOk)
    (head : s.headIs n rest) (kind : (takenAt s.ram n).kind = 2)
    (buffer : (BufferNeed.exactly 256).passes (takenAt s.ram n) = true) (low : 0 ≤ (takenAt s.ram n).arg0)
    (high : (takenAt s.ram n).arg0 ≤ 127)
    (stored : s.store.scenes[(takenAt s.ram n).arg0.toNat]? = some (some r)) :
    completes .readScene s (s.withImage (takenAt s.ram n).offset r) n rest .ok (.given r.figures) := by
  unfold completes
  rw [exec_readScene]
  refine State.take_answers (u := s.withImage (takenAt s.ram n).offset r)
    (v := (s.takeHead n rest).withImage (takenAt s.ram n).offset r) head (isKind_of_kind kind) buffer carryReadScene_keeps mem
    (carryReadScene_stored low high stored) ⟨rfl, rfl, rfl, rfl⟩ ⟨rfl, rfl, rfl, rfl, rfl, rfl, rfl, rfl, rfl⟩
    fun a outside => ?_
  rw [State.withImage_ram, State.withImage_ram]
  refine readByte_writeScene_congr (State.takeHead_memory mem) mem (takeHead_byte mem ?_)
  unfold inResult at outside
  omega

/-! ## LOAD_FILTER and LOAD_CURVE (R112, R113) -/

theorem carryLoadFilter_range {t : Taken} (s : State) (outside : t.arg0 < 0 ∨ 15 < t.arg0) :
    carryLoadFilter t s = s.answer .range .unstated := if_pos outside

/-- The part with these loaded contents of one filter set. -/
def State.loadFilter (s : State) (n : Nat) (loaded : List Coeffs) : State :=
  { s with store := { s.store with filters := s.store.filters.modify n fun f => { f with loaded := loaded } } }

/-- The coefficients of a section as a buffer holds them (11.3). -/
def bufferCoeffs (m : Ram) (offset i : Nat) : Coeffs :=
  let at4 := fun k => signedOf 32 (readLE m (offset + 20 * i + 4 * k) 4)
  ⟨at4 0, at4 1, at4 2, at4 3, at4 4⟩

theorem imageCoeffs_readBytes (m : Ram) (offset : Nat) {i : Nat} (hi : i < 4) :
    imageCoeffs (readBytes m offset 80) i = bufferCoeffs m offset i := by
  have field {k : Nat} (hk : k < 5) : imageInt (readBytes m offset 80) (20 * i + 4 * k) 4 =
      signedOf 32 (readLE m (offset + 20 * i + 4 * k) 4) := by
    rw [imageInt_readBytes m offset (by omega), Nat.add_assoc]
  simp only [imageCoeffs, bufferCoeffs, field (show 0 < 5 by decide), field (show 1 < 5 by decide),
    field (show 2 < 5 by decide), field (show 3 < 5 by decide), field (show 4 < 5 by decide)]

theorem carryLoadFilter_loads {t : Taken} {s : State} {m : Ram} (low : 0 ≤ t.arg0) (high : t.arg0 ≤ 15)
    (buffer : readBytes s.ram t.offset 80 = readBytes m t.offset 80) :
    carryLoadFilter t s =
      (s.loadFilter t.arg0.toNat ((List.range 4).map (bufferCoeffs m t.offset))).answer .ok (.given t.arg0) := by
  have loaded : (List.range 4).map (imageCoeffs (readBytes m t.offset 80)) =
      (List.range 4).map (bufferCoeffs m t.offset) :=
    List.map_congr_left fun i hi => imageCoeffs_readBytes m t.offset (List.mem_range.mp hi)
  rw [carryLoadFilter, if_neg (by omega)]
  dsimp only
  rw [buffer, loaded]
  rfl

theorem carryLoadCurve_range {t : Taken} (s : State) (outside : t.arg0 < 16 ∨ 19 < t.arg0) :
    carryLoadCurve t s = s.answer .range (.given t.arg0) := if_pos outside

/-- The part with these loaded contents of one user curve. -/
def State.loadCurve (s : State) (n : Nat) (loaded : List Int) : State :=
  { s with store := { s.store with curves := s.store.curves.modify n fun c => { c with loaded := loaded } } }

theorem carryLoadCurve_loads {t : Taken} {s : State} {m : Ram} (low : 16 ≤ t.arg0) (high : t.arg0 ≤ 19)
    (buffer : readSamples s.ram t.offset 257 = readSamples m t.offset 257) :
    carryLoadCurve t s =
      (s.loadCurve (t.arg0.toNat - 16) ((readSamples m t.offset 257).map (·.1))).answer
        (okCode ((readSamples m t.offset 257).any (·.2))) (.given t.arg0) := by
  rw [carryLoadCurve, if_neg (by omega)]
  dsimp only
  rw [buffer]
  rfl

theorem readSamples_values (m : Ram) (a n : Nat) : (readSamples m a n).map (·.1) =
    (List.range n).map fun k => max (-8388608) (min 8388607 (signedOf 32 (readLE m (a + 4 * k) 4))) := by
  rw [readSamples, List.map_map]
  rfl

theorem readSamples_marks (m : Ram) (a n : Nat) : (readSamples m a n).any (·.2) = (List.range n).any fun k =>
    decide (signedOf 32 (readLE m (a + 4 * k) 4) < -8388608 ∨ 8388607 < signedOf 32 (readLE m (a + 4 * k) 4)) := by
  rw [readSamples, List.any_map]
  rfl

/-! ## SET_PROFILE (R76) -/

theorem carrySetProfile_range {t : Taken} (s : State) (outside : t.arg0 < 0 ∨ 7 < t.arg0) :
    carrySetProfile t s = s.answer .range (.given t.arg0) := if_pos outside

/-- The part with a profile written (R76, R78). -/
def State.writeProfile (s : State) (n : Nat) (p : Profile) : State :=
  { s with
    store := { s.store with profiles := s.store.profiles.set n p }
    input := { s.input with rewritten := n :: s.input.rewritten } }

theorem carrySetProfile_inside {t : Taken} {s : State} (low : 0 ≤ t.arg0) (high : t.arg0 ≤ 7) :
    carrySetProfile t s =
      (State.writeProfile (if s.learns t.arg0.toNat then s.abortLearn else s) t.arg0.toNat
        (imageProfile (readBytes s.ram t.offset 16)).1).answer
        (okCode (imageProfile (readBytes s.ram t.offset 16)).2) (.given t.arg0) := if_neg (by omega)

theorem State.learns_iff (s : State) (p : Nat) :
    s.learns p = true ↔ s.input.learner.learning = true ∧ s.input.learner.profile = p := by simp [State.learns]

/-- A name as it is stored, and what makes its mark (R76, R107). -/
theorem nameWritten_eq (bs : List Byte) :
    (nameWritten bs).1 = (bs.map fun b => if 0x20 ≤ b.toNat ∧ b.toNat ≤ 0x7E then b else 0x20) ∧
    ((nameWritten bs).2 = true ↔ ∃ b, b ∈ bs ∧ (b.toNat < 0x20 ∨ 0x7E < b.toNat)) := by
  constructor
  · refine List.map_congr_left fun b _ => ?_
    by_cases printable : 0x20 ≤ b.toNat ∧ b.toNat ≤ 0x7E <;> simp [nameByte, printable]
  · simp only [nameWritten, List.any_eq_true, nameByte]
    refine exists_congr fun b => and_congr_right fun _ => ?_
    split
    next printable => simp only [decide_eq_true_eq] at printable; simp; omega
    next unprintable => simp only [decide_eq_true_eq] at unprintable; simp; omega

theorem clampMark_marked (lo hi v : Int) : (clampMark lo hi v).2 = true ↔ v < lo ∨ hi < v := decide_eq_true_iff

theorem clampedNat_marked (lo hi v : Nat) : (clampedNat lo hi v).2 = true ↔ v < lo ∨ hi < v := decide_eq_true_iff

end Sys2Proof.Machine

namespace Sys2Proof.Proofs
open Sys2Proof.Machine

/-- Settles O10: the two refusals, and the image written over the buffer as it stands. -/
theorem readSceneWritesImage : Obligations.ReadSceneWritesImage := by
  intro s n rest mem head t kind buffer
  have due := isKind_of_kind kind
  refine ⟨fun outside => ?range, fun low high => ⟨fun empty => ?empty, fun r stored legal => ⟨fun a outside => ?frame, ?image⟩⟩⟩
  case range =>
    exact completes_refused exec_readScene mem head due buffer carryReadScene_keeps (carryReadScene_range _ outside)
  case empty =>
    exact completes_refused exec_readScene mem head due buffer carryReadScene_keeps (carryReadScene_empty low high empty)
  case frame => exact writeScene_outside mem legal outside
  case image =>
    exact readScene_writes mem head kind buffer low high stored

/-- Settles O13: the two loads read the buffer as it stands before the take; the tables' work maps each set and curve. -/
theorem tableLoadsWriteLoadedContents : Obligations.TableLoadsWriteLoadedContents := by
  refine ⟨fun s n rest mem head => ⟨fun kind buffer => ⟨fun outside => ?filterRange, fun low high => ?filter⟩,
      fun kind buffer => ⟨fun outside => ?curveRange, fun low high => ?curve⟩⟩, fun s => ?tables⟩
  case filterRange =>
    exact completes_refused exec_loadFilter mem head (isKind_of_kind kind) buffer carryLoadFilter_keeps
      (carryLoadFilter_range _ outside)
  case filter =>
    have inBuffer := BufferNeed.offset_of_exactly buffer
    exact completes_blocks exec_loadFilter mem head (isKind_of_kind kind) buffer carryLoadFilter_keeps
      (carryLoadFilter_loads low high (takeHead_readBytes mem head.lt inBuffer 80))
  case curveRange =>
    exact completes_refused exec_loadCurve mem head (isKind_of_kind kind) buffer carryLoadCurve_keeps
      (carryLoadCurve_range _ outside)
  case curve =>
    intro point loaded
    have inBuffer := BufferNeed.offset_of_exactly buffer
    have carried := carryLoadCurve_loads low high (takeHead_readSamples (rest := rest) mem head.lt inBuffer 257)
    rw [readSamples_values, readSamples_marks] at carried
    exact completes_blocks exec_loadCurve mem head (isKind_of_kind kind) buffer carryLoadCurve_keeps carried
  case tables =>
    refine ⟨rfl, List.length_map _, List.length_map _, fun i f at_i => ?_, fun i c at_i => ?_⟩
    · show (s.store.filters.map _)[i]? = _
      rw [List.getElem?_map, at_i]; rfl
    · show (s.store.curves.map _)[i]? = _
      rw [List.getElem?_map, at_i]; rfl

/-- Settles O16: the two answers where no learn measures the profile; and each field of the image with its clamp. -/
theorem setProfileWritesClampedRecord : Obligations.SetProfileWritesClampedRecord := by
  refine ⟨fun s n rest mem head kind buffer => ⟨fun outside => ?range, fun low high free => ?written⟩,
    fun image length => ?fields⟩
  case range =>
    exact completes_refused exec_setProfile mem head (isKind_of_kind kind) buffer carrySetProfile_keeps
      (carrySetProfile_range _ outside)
  case written =>
    have inBuffer := BufferNeed.offset_of_exactly buffer
    have unmeasured : ¬ (s.takeHead n rest).learns (takenAt s.ram n).arg0.toNat = true := by
      rw [State.learns_iff]
      rintro ⟨learning, measured⟩
      obtain idle | other := free
      · rw [State.takeHead_input, idle] at learning; cases learning
      · exact other measured
    have carried := carrySetProfile_inside (s := s.takeHead n rest) low high
    rw [if_neg unmeasured, takeHead_readBytes mem head.lt inBuffer] at carried
    exact completes_blocks exec_setProfile mem head (isKind_of_kind kind) buffer carrySetProfile_keeps carried
  case fields =>
    intro byte trim reference p
    have named := nameWritten_eq (image.drop 8)
    have whole : (image.drop 8).take 8 = image.drop 8 := List.take_of_length_le (by simp [length])
    have trim_eq : imageInt image 0x02 2 = trim := by rw [imageInt, imageNat_half]
    have reference_eq : imageNat image 0x04 2 = reference := imageNat_half image 4
    have small (i : Nat) : byte i < 256 := (image.getD i 0).isLt
    refine ⟨?input, ?trim, ?threshold, ?reference, ?name, ?marks⟩
    case input =>
      show (if imageNat image 0 1 = 0 then InputId.a else .b) = .a ↔ _
      rw [imageNat_byte]
      split <;> simp_all [byte]
    case trim => show clampInt (-24) 48 (imageInt image 0x02 2) = _; rw [trim_eq]; rfl
    case threshold =>
      show min 127 (max 0 (imageNat image 0x01 1)) = _
      rw [imageNat_byte, Nat.zero_max]
    case reference =>
      show min 4800 (max 4000 (imageNat image 0x04 2)) = _
      rw [reference_eq]; omega
    case name => show (nameWritten ((image.drop 8).take 8)).1 = _; rw [whole, named.1]
    case marks =>
      simp only [imageProfile, Bool.or_eq_true, clampMark_marked, clampedNat_marked, whole, named.2, trim_eq, reference_eq,
        imageNat_byte, decide_eq_true_eq, Nat.not_lt_zero, false_or, or_assoc]
      rfl

end Sys2Proof.Proofs
end

section
/-! SUPPORT. The image of a scene (11.3): what reads back of a record that was written, the first field at fault (R106), the
record and the mark of an image (R104, R107), the table of R14, and WRITE_SCENE (R106). -/

namespace Sys2Proof.Machine

/-! ## Codes -/

theorem Kind.ofCode_code (k : Kind) : Kind.ofCode k.code = some k := by cases k <;> rfl

theorem Kind.code_le (k : Kind) : k.code ≤ 8 := by cases k <;> decide

theorem Kind.ofCode_beyond {c : Nat} (beyond : 8 < c) : Kind.ofCode c = Option.none := by
  unfold Kind.ofCode
  split <;> first | omega | rfl

theorem Kind.ofCode_isNone_iff (c : Nat) : (Kind.ofCode c).isNone = true ↔ 8 < c := by
  refine ⟨fun none => ?_, fun beyond => by rw [Kind.ofCode_beyond beyond]; rfl⟩
  refine Nat.lt_of_not_le fun within => ?_
  obtain rfl | rfl | rfl | rfl | rfl | rfl | rfl | rfl | rfl :
    c = 0 ∨ c = 1 ∨ c = 2 ∨ c = 3 ∨ c = 4 ∨ c = 5 ∨ c = 6 ∨ c = 7 ∨ c = 8 := by omega
  all_goals cases none

theorem Kind.code_of_ofCode {c : Nat} {k : Kind} (h : Kind.ofCode c = some k) : k.code = c := by
  unfold Kind.ofCode at h
  split at h <;> cases h <;> simp only [Kind.code] <;> omega

theorem TransKind.ofCode_code (k : TransKind) : TransKind.ofCode k.code = some k := by cases k <;> rfl

theorem TransKind.code_le (k : TransKind) : k.code ≤ 2 := by cases k <;> decide

theorem TransKind.ofCode_beyond {c : Nat} (beyond : 2 < c) : TransKind.ofCode c = Option.none := by
  unfold TransKind.ofCode
  split <;> first | omega | rfl

theorem TransKind.ofCode_isNone_iff (c : Nat) : (TransKind.ofCode c).isNone = true ↔ 2 < c := by
  refine ⟨fun none => ?_, fun beyond => by rw [TransKind.ofCode_beyond beyond]; rfl⟩
  refine Nat.lt_of_not_le fun within => ?_
  obtain rfl | rfl | rfl : c = 0 ∨ c = 1 ∨ c = 2 := by omega
  all_goals cases none

theorem TransKind.code_of_ofCode {c : Nat} (within : ¬ 2 < c) : ((TransKind.ofCode c).getD .fade).code = c := by
  obtain rfl | rfl | rfl : c = 0 ∨ c = 1 ∨ c = 2 := by omega
  all_goals rfl

/-! ## What reads back of a record (R108, 11.3) -/

/-- The 256 bytes at an offset after the image of a record has been written there. -/
def writtenImage (m : Ram) (base : Nat) (r : SceneRecord) : List Byte := readBytes (writeScene m base r) base 256

theorem sceneFields_apart {r : SceneRecord} (stages : r.stages.length = 12) : (sceneFields r).Pairwise Field.apart := by
  refine apart_of_inOrder ?_
  show inOrder ((sceneFields r).map Field.span) = true
  rw [sceneFields_spans stages]
  decide +kernel

theorem writtenImage_field {m : Ram} (w : Memory.wf m = true) {base : Nat} (fits : base + 256 ≤ 0x8000) {r : SceneRecord}
    (stages : r.stages.length = 12) {f : Field} (field : f ∈ sceneFields r) :
    imageNat (writtenImage m base r) f.offset f.size = (f.value % 256 ^ f.size).toNat := by
  have inside := sceneFields_inside stages field
  rw [writtenImage, imageNat_readBytes _ _ inside.2, writeScene,
    readLE_writeFields_mem (wf_writeBytes w _ _) (sceneFields_apart stages) field (by omega)]

theorem readBytes_take (m : Ram) (a : Nat) {k n : Nat} (h : k ≤ n) : (readBytes m a n).take k = readBytes m a k := by
  induction k generalizing a n with
  | zero => rfl
  | succ k ih =>
    obtain ⟨n, rfl⟩ : ∃ j, n = j + 1 := ⟨n - 1, by omega⟩
    rw [readBytes, List.take_succ_cons, ih (a + 1) (by omega), readBytes]

/-- A run of bytes reads back as it was written. -/
theorem readBytes_writeBytes {m : Ram} (w : Memory.wf m = true) {a : Nat} {bs : List Byte} (fits : a + bs.length ≤ 0x8000) :
    readBytes (writeBytes m a bs) a bs.length = bs := by
  induction bs generalizing m a with
  | nil => rfl
  | cons b bs ih =>
    rw [List.length_cons] at fits
    have w' := wf_writeByte w a b
    rw [List.length_cons, readBytes, writeBytes, ih w' (by omega), readByte_writeBytes_outside w' (.inl (by omega)),
      readByte_writeByte w (by omega), if_pos rfl]

theorem writtenImage_name {m : Ram} (w : Memory.wf m = true) {base : Nat} (fits : base + 256 ≤ 0x8000) {r : SceneRecord}
    (stages : r.stages.length = 12) (name : r.name.length = 12) : (writtenImage m base r).take 12 = r.name := by
  rw [writtenImage, readBytes_take _ _ (by decide), writeScene,
    readBytes_congr (m' := writeBytes m base r.name) 12 fun i hi => ?_, ← name, readBytes_writeBytes w (by omega)]
  refine readByte_writeFields_outside (wf_writeBytes w _ _) fun f field => ?_
  have := sceneFields_inside stages field
  omega

/-! ## Values in two's complement -/

theorem signedOf_half {v : Int} (low : -32768 ≤ v) (high : v ≤ 32767) : signedOf 16 (v % 256 ^ 2).toNat = v := by
  unfold signedOf
  omega

theorem toNat_emod {v k : Nat} (small : v < k) : ((v : Int) % k).toNat = v := by
  rw [Int.emod_eq_of_lt (by omega) (by omega), Int.toNat_natCast]

/-! ## The entries of a record that reads back -/

section Written
variable {m : Ram} {base : Nat} {r : SceneRecord}

/-- A field of one byte, two bytes or four bytes with a value that fits it. -/
theorem writtenImage_nat (w : Memory.wf m = true) (fits : base + 256 ≤ 0x8000) (stages : r.stages.length = 12)
    {offset size value : Nat} (field : ⟨offset, size, value⟩ ∈ sceneFields r) (small : value < 256 ^ size) :
    imageNat (writtenImage m base r) offset size = value := by
  have read := writtenImage_field w fits stages field
  dsimp only at read
  rw [read]
  have reduced := toNat_emod small
  rwa [Int.natCast_pow] at reduced

theorem mem_sceneFields_lamp {i : Nat} {l : LampEntry} (hi : i < 4) (entry : r.lamps[i]? = some l) :
    ⟨0x14 + 4 * i, 4, (l.lamps.toNat + 2 ^ 14 * l.blink.toNat + 2 ^ 28 * l.unit : Nat)⟩ ∈ sceneFields r := by
  have : ⟨0x14 + 4 * i, 4, (l.lamps.toNat + 2 ^ 14 * l.blink.toNat + 2 ^ 28 * l.unit : Nat)⟩ ∈ lampFields r.lamps := by
    refine List.mem_map.mpr ⟨i, List.mem_range.mpr hi, ?_⟩
    rw [entry]
  exact List.mem_append_left _ (List.mem_append_left _ (List.mem_append_right _ this))

theorem mem_sceneFields_stage {p : Nat} {e : StageEntry} (entry : r.stages[p]? = some e) {f : Field}
    (field : f ∈ stageFields p e) : f ∈ sceneFields r := by
  have : f ∈ (r.stages.mapIdx stageFields).flatten := List.mem_flatten.mpr ⟨_, mem_mapIdx_of entry stageFields, field⟩
  exact List.mem_append_left _ (List.mem_append_right _ this)

theorem imageLamp_written (w : Memory.wf m = true) (fits : base + 256 ≤ 0x8000) (stages : r.stages.length = 12) {i : Nat}
    {l : LampEntry} (hi : i < 4) (entry : r.lamps[i]? = some l) (unit : l.unit ≤ 15) :
    imageLamp (writtenImage m base r) i = l := by
  have lamps := l.lamps.isLt
  have blink := l.blink.isLt
  have read := writtenImage_nat w fits stages (mem_sceneFields_lamp hi entry) (by omega)
  rw [imageLamp, read]
  obtain ⟨u, a, b⟩ := l
  dsimp only at *
  congr
  · omega
  · rw [← BitVec.toNat_inj, BitVec.toNat_ofNat]; omega
  · rw [← BitVec.toNat_inj, BitVec.toNat_ofNat]; omega

theorem enableWritten_boolInt (b : Bool) : enableWritten (boolInt b) = (b, false) := by cases b <;> rfl

theorem signedOf_boolInt (b : Bool) : signedOf 8 (boolInt b % 256 ^ 1).toNat = boolInt b := by cases b <;> rfl

theorem imageStage_written (w : Memory.wf m = true) (fits : base + 256 ≤ 0x8000) (stages : r.stages.length = 12) {p : Nat}
    {e : StageEntry} (entry : r.stages[p]? = some e) (legal : e.legal) :
    imageKind (writtenImage m base r) p = some e.kind ∧ imageStage (writtenImage m base r) p = (e, false) := by
  obtain ⟨length, values⟩ := legal
  have field {f : Field} (hf : f ∈ stageFields p e) := writtenImage_field w fits stages (mem_sceneFields_stage entry hf)
  have kind : imageKind (writtenImage m base r) p = some e.kind := by
    have := e.kind.code_le
    rw [imageKind, writtenImage_nat w fits stages (value := e.kind.code)
      (mem_sceneFields_stage entry (by simp [stageFields])) (by omega), Kind.ofCode_code]
  refine ⟨kind, ?_⟩
  have enable : imageInt (writtenImage m base r) (stageEntryOffset p + 1) 1 = boolInt e.enable := by
    have read := field (f := ⟨stageEntryOffset p + 1, 1, boolInt e.enable⟩) (by simp [stageFields])
    rw [imageInt, read, Nat.mul_one, signedOf_boolInt]
  split at values
  next isNone =>
    obtain ⟨off, zeros⟩ := values
    rw [imageStage, kind, isNone]
    obtain ⟨k, on, params⟩ := e
    dsimp only at *
    rw [isNone, off, zeros]
  next notNone =>
    have param (i : Nat) (hi : i < 8) : paramWritten e.kind i
        (imageInt (writtenImage m base r) (stageEntryOffset p + 2 + 2 * i) 2) = (e.params.getD i 0, false) := by
      obtain ⟨stored, low, high⟩ := values i hi
      have read := field (f := ⟨stageEntryOffset p + 2 + 2 * i, 2, e.params.getD i 0⟩)
        (List.mem_append_right _ (List.mem_map_of_mem (List.mem_range.2 hi)))
      rw [imageInt, read, signedOf_half low high, stored]
    have params : imageParams (writtenImage m base r) p e.kind = e.params.map fun v => (v, false) := by
      refine List.ext_getElem (by simp [imageParams, length]) fun i hi _ => ?_
      have hi : i < 8 := by simpa [imageParams] using hi
      simp [imageParams, param i hi, List.getElem?_eq_getElem (length ▸ hi : i < e.params.length)]
    rw [imageStage, kind]
    obtain ⟨k, on, ps⟩ := e
    dsimp only at *
    split
    next h => cases h
    next h => cases h; exact absurd rfl notNone
    next h =>
      cases h
      simp [enable, enableWritten_boolInt, params, Function.comp_def]

end Written

/-- A name without a character outside 0x20..0x7E is stored as it is. -/
theorem nameWritten_of_printable {bs : List Byte} (printable : ∀ b, b ∈ bs → 0x20 ≤ b.toNat ∧ b.toNat ≤ 0x7E) :
    nameWritten bs = (bs, false) := by
  obtain ⟨stored, mark⟩ := nameWritten_eq bs
  refine Prod.ext ?_ (Bool.eq_false_iff.mpr (mt mark.mp ?_))
  · rw [stored]
    calc bs.map _ = bs.map id := List.map_congr_left fun b hb => if_pos (printable b hb)
      _ = bs := List.map_id bs
  · rintro ⟨b, hb, outside⟩
    have := printable b hb
    omega

/-- The fields of a legal record other than its name, lamps and stages are stored as they are. -/
theorem storedFields_of_legal {fade profile tempo : Nat} (low : 2 ≤ fade) (high : fade ≤ 480) (even : fade % 2 = 0)
    (profiles : profile ≤ 7 ∨ profile = 255) (tempos : tempo = 0 ∨ 400 ≤ tempo ∧ tempo ≤ 3000) :
    clampMark 2 480 (fade : Int) = ((fade : Int), false) ∧ (evenUp (fade : Int)).toNat = fade ∧
    sceneProfileWritten profile = (profile, false) ∧ sceneTempoWritten tempo = (tempo, false) := by
  refine ⟨Prod.ext (clampInt_inside (by omega) (by omega)) (decide_eq_false (by omega)), by unfold evenUp; omega,
    if_neg (by omega), ?_⟩
  unfold sceneTempoWritten
  split
  next zero => rw [zero]
  next nonzero =>
    have inside : 400 ≤ tempo ∧ tempo ≤ 3000 := by omega
    rw [clampInt_inside (by omega) (by omega)]
    exact Prod.ext rfl (decide_eq_false (by omega))

section Written
variable {m : Ram} {base : Nat} {r : SceneRecord}

/-- The image of a legal record has no field at fault. -/
theorem imageFault_written (w : Memory.wf m = true) (fits : base + 256 ≤ 0x8000) (legal : r.legal) :
    imageFault (writtenImage m base r) = none := by
  obtain ⟨_, _, _, _, _, _, _, fewLamps, units, stages, entries⟩ := legal
  rw [imageFault, List.find?_eq_none]
  intro n hn
  have hn : n < 17 := List.mem_range.mp hn
  have count : imageNat (writtenImage m base r) 0x12 1 = r.lamps.length :=
    writtenImage_nat w fits stages (by simp [sceneFields]) (by omega)
  split
  next stage =>
    obtain ⟨e, entry⟩ : ∃ e, r.stages[n]? = some e := ⟨_, List.getElem?_eq_getElem (by omega)⟩
    rw [(imageStage_written w fits stages entry (entries e (List.mem_of_getElem? entry))).1]
    simp
  next =>
    split
    next =>
      have := r.kind.code_le
      rw [writtenImage_nat w fits stages (value := r.kind.code) (by simp [sceneFields]) (by omega), TransKind.ofCode_code]
      simp
    next =>
      simp only [Bool.and_eq_true, decide_eq_true_eq, beq_iff_eq, not_and, imageLampCount, count]
      intro counted
      obtain ⟨l, entry⟩ : ∃ l, r.lamps[n - 13]? = some l := ⟨_, List.getElem?_eq_getElem (by omega)⟩
      have unit := units l (List.mem_of_getElem? entry)
      rw [imageLamp_written w fits stages (by omega) entry unit.2]
      omega

/-- The image of a legal record is stored as that record, with nothing clamped. -/
theorem imageScene_written (w : Memory.wf m = true) (fits : base + 256 ≤ 0x8000) (legal : r.legal) :
    imageScene (writtenImage m base r) = (r, false) := by
  obtain ⟨nameLength, printable, low, high, even, profiles, tempos, fewLamps, units, stages, entries⟩ := legal
  have name : nameWritten ((writtenImage m base r).take 12) = (r.name, false) := by
    rw [writtenImage_name w fits stages nameLength, nameWritten_of_printable printable]
  have kindCode := r.kind.code_le
  have kind : imageNat (writtenImage m base r) 0x0C 1 = r.kind.code :=
    writtenImage_nat w fits stages (by simp [sceneFields]) (by omega)
  have profile : imageNat (writtenImage m base r) 0x0D 1 = r.profile :=
    writtenImage_nat w fits stages (by simp [sceneFields]) (by omega)
  have fade : imageInt (writtenImage m base r) 0x0E 2 = r.fade := by
    rw [imageInt, writtenImage_nat w fits stages (value := r.fade) (by simp [sceneFields]) (by omega)]
    unfold signedOf; omega
  have tempo : imageNat (writtenImage m base r) 0x10 2 = r.tempo :=
    writtenImage_nat w fits stages (by simp [sceneFields]) (by omega)
  have count : imageNat (writtenImage m base r) 0x12 1 = r.lamps.length :=
    writtenImage_nat w fits stages (by simp [sceneFields]) (by omega)
  have lamps : (List.range (imageLampCount (writtenImage m base r))).map (imageLamp (writtenImage m base r)) = r.lamps := by
    rw [imageLampCount, count, Nat.min_eq_right fewLamps]
    refine List.ext_getElem (by simp) fun i _ hi => ?_
    rw [List.getElem_map, List.getElem_range]
    exact imageLamp_written w fits stages (by omega) (List.getElem?_eq_getElem hi) (units _ (List.getElem_mem hi)).2
  have entry : (List.range 12).map (imageStage (writtenImage m base r)) = r.stages.map fun e => (e, false) := by
    refine List.ext_getElem (by simp [stages]) fun p _ hp => ?_
    have hp : p < r.stages.length := by simpa using hp
    rw [List.getElem_map, List.getElem_range, List.getElem_map]
    exact (imageStage_written w fits stages (List.getElem?_eq_getElem hp) (entries _ (List.getElem_mem hp))).2
  obtain ⟨fadeStored, fadeEven, profileStored, tempoStored⟩ := storedFields_of_legal low high even profiles tempos
  unfold imageScene
  rw [name, kind, TransKind.ofCode_code, fade, fadeStored, profile, profileStored, tempo, tempoStored, lamps, entry, count]
  simp [fadeEven, fewLamps, Function.comp_def]

end Written

end Sys2Proof.Machine

namespace Sys2Proof.Proofs
open Sys2Proof.Machine

/-- Settles O11: each field of the image reads back, and a legal record is stored as it is. -/
theorem sceneImageRoundTrip : Obligations.SceneImageRoundTrip := fun _ _ _ w fits legal =>
  ⟨imageFault_written w fits legal, imageScene_written w fits legal⟩

end Sys2Proof.Proofs
end

section
/-! SUPPORT. WRITE_SCENE (R106): the first field at fault, the record and the mark of an image (R104, R107), the table of
R14, and the owner's answers. -/

namespace Sys2Proof.Machine

/-! ## The first field at fault (R106, 11.3) -/

/-- Field f of an image cannot be carried out: a stage kind, the transition kind, the unit of a lamp entry counted. -/
def badField (image : List Byte) (f : Nat) : Prop :=
  (f < 12 ∧ 8 < (image.getD (0x24 + 18 * f) 0).toNat) ∨ (f = 12 ∧ 2 < (image.getD 0x0C 0).toNat) ∨
  (13 ≤ f ∧ f < 17 ∧ f - 13 < min 4 (image.getD 0x12 0).toNat ∧ (image.getD (0x17 + 4 * (f - 13)) 0).toNat / 16 = 0)

theorem badField_lt {image : List Byte} {f : Nat} (bad : badField image f) : f < 17 := by
  unfold badField at bad
  omega

theorem imageKind_isNone_iff (image : List Byte) (p : Nat) :
    (imageKind image p).isNone = true ↔ 8 < (image.getD (0x24 + 18 * p) 0).toNat := by
  rw [imageKind, Kind.ofCode_isNone_iff, imageNat_byte]
  rfl

/-- The unit of a lamp entry lies in the high four bits of its last byte. -/
theorem imageLamp_unit_iff (image : List Byte) (i : Nat) :
    (imageLamp image i).unit = 0 ↔ (image.getD (0x17 + 4 * i) 0).toNat / 16 = 0 := by
  have b0 := (image.getD (0x14 + 4 * i) 0).isLt
  have b1 := (image.getD (0x14 + 4 * i + 1) 0).isLt
  have b2 := (image.getD (0x14 + 4 * i + 2) 0).isLt
  rw [imageLamp, imageNat_word, show 0x14 + 4 * i + 2 + 1 = 0x17 + 4 * i by omega]
  dsimp only
  omega

/-- The test that the search for a field at fault uses. -/
theorem faultTest_iff (image : List Byte) {n : Nat} (hn : n < 17) :
    (if n < 12 then (imageKind image n).isNone
     else if n = 12 then (TransKind.ofCode (imageNat image 0x0C 1)).isNone
     else decide (n - 13 < imageLampCount image) && (imageLamp image (n - 13)).unit == 0) = true ↔ badField image n := by
  unfold badField
  split
  next stage => rw [imageKind_isNone_iff]; omega
  next =>
    split
    next => rw [TransKind.ofCode_isNone_iff, imageNat_byte]; omega
    next =>
      rw [Bool.and_eq_true, decide_eq_true_eq, beq_iff_eq, imageLamp_unit_iff, imageLampCount, imageNat_byte]
      omega

theorem imageFault_eq_some_iff (image : List Byte) (f : Nat) :
    imageFault image = some f ↔ badField image f ∧ ∀ g, g < f → ¬ badField image g := by
  rw [imageFault, List.find?_range_eq_some, List.mem_range]
  constructor
  · rintro ⟨fails, hf, before⟩
    refine ⟨(faultTest_iff image hf).mp fails, fun g hg bad => ?_⟩
    have passes := before g hg
    rw [(faultTest_iff image (by omega)).mpr bad] at passes
    cases passes
  · rintro ⟨bad, before⟩
    have hf := badField_lt bad
    refine ⟨(faultTest_iff image hf).mpr bad, hf, fun g hg => ?_⟩
    rw [Bool.not_eq_true', Bool.eq_false_iff, ne_eq, faultTest_iff image (by omega)]
    exact before g hg

theorem imageFault_eq_none_iff (image : List Byte) : imageFault image = none ↔ ∀ f, ¬ badField image f := by
  rw [imageFault, List.find?_range_eq_none]
  refine ⟨fun all f bad => ?_, fun all f hf => ?_⟩
  · have hf := badField_lt bad
    have passes := all f hf
    rw [(faultTest_iff image hf).mpr bad] at passes
    cases passes
  · rw [Bool.not_eq_true', Bool.eq_false_iff, ne_eq, faultTest_iff image hf]
    exact all f

/-! ## A stage entry of an image (R104) -/

theorem imageEnable_eq (image : List Byte) (p : Nat) :
    imageInt image (stageEntryOffset p + 1) 1 = signedOf 8 (image.getD (0x25 + 18 * p) 0).toNat := by
  rw [imageInt, imageNat_byte, show stageEntryOffset p + 1 = 0x25 + 18 * p by unfold stageEntryOffset; omega]

theorem imageParam_eq (image : List Byte) (p i : Nat) : imageInt image (stageEntryOffset p + 2 + 2 * i) 2 =
    signedOf 16 ((image.getD (0x26 + 18 * p + 2 * i) 0).toNat + 256 * (image.getD (0x26 + 18 * p + 2 * i + 1) 0).toNat) := by
  rw [imageInt, imageNat_half, show stageEntryOffset p + 2 + 2 * i = 0x26 + 18 * p + 2 * i by unfold stageEntryOffset; omega]

theorem imageStage_none {image : List Byte} {p : Nat} (kind : imageKind image p = some .none) :
    imageStage image p = (⟨.none, false, List.replicate 8 0⟩, false) := by
  rw [imageStage, kind]

theorem imageStage_some {image : List Byte} {p : Nat} {k : Kind} (kind : imageKind image p = some k) (real : k ≠ .none) :
    imageStage image p =
      (⟨k, (enableWritten (imageInt image (stageEntryOffset p + 1) 1)).1, (imageParams image p k).map (·.1)⟩,
        (enableWritten (imageInt image (stageEntryOffset p + 1) 1)).2 || (imageParams image p k).any (·.2)) := by
  rw [imageStage, kind]
  cases k <;> first | rfl | exact absurd rfl real

/-- A stage entry of an image without a fault, as it is stored, and its mark. -/
theorem imageStage_stored {image : List Byte} (clean : imageFault image = none) {p : Nat} (hp : p < 12) :
    let e := (imageStage image p).1
    let value := fun i => signedOf 16
      ((image.getD (0x26 + 18 * p + 2 * i) 0).toNat + 256 * (image.getD (0x26 + 18 * p + 2 * i + 1) 0).toNat)
    let on := signedOf 8 (image.getD (0x25 + 18 * p) 0).toNat
    e.kind.code = (image.getD (0x24 + 18 * p) 0).toNat ∧
    (e.kind = .none → e.enable = false ∧ e.params = List.replicate 8 0) ∧
    (e.kind ≠ .none → (e.enable = true ↔ 0 < on) ∧ e.params.length = 8 ∧
      ∀ i, i < 8 → e.params[i]? = some (paramWritten e.kind i (value i)).1) ∧
    ((imageStage image p).2 = true ↔
      e.kind ≠ .none ∧ (on < 0 ∨ 1 < on ∨ ∃ i, i < 8 ∧ (paramWritten e.kind i (value i)).2 = true)) := by
  have within := mt (imageKind_isNone_iff image p).mp fun beyond =>
    (imageFault_eq_none_iff image).mp clean p (.inl ⟨hp, beyond⟩)
  obtain ⟨k, kind⟩ : ∃ k, imageKind image p = some k := Option.ne_none_iff_exists'.mp (by simpa using within)
  have code : k.code = (image.getD (0x24 + 18 * p) 0).toNat := by
    rw [imageKind, imageNat_byte] at kind
    exact Kind.code_of_ofCode kind
  by_cases real : k = .none
  · subst real
    rw [imageStage_none kind]
    exact ⟨code, fun _ => ⟨rfl, rfl⟩, fun h => absurd rfl h, iff_of_false Bool.false_ne_true fun h => h.1 rfl⟩
  · rw [imageStage_some kind real, imageEnable_eq]
    refine ⟨code, fun h => absurd h real, fun _ => ⟨decide_eq_true_iff, by simp [imageParams], fun i hi => ?_⟩, ?_⟩
    · simp [imageParams, hi, imageParam_eq]
    · simp [enableWritten, imageParams, imageParam_eq, real, or_assoc]

theorem imageScene_stage {image : List Byte} {p : Nat} (hp : p < 12) :
    (imageScene image).1.stages[p]? = some (imageStage image p).1 := by
  simp [imageScene, hp]

/-! ## The other fields (R107) -/

theorem sceneTempoWritten_eq (v : Nat) : (sceneTempoWritten v).1 = (if v = 0 then 0 else max 400 (min 3000 v)) ∧
    ((sceneTempoWritten v).2 = true ↔ (1 ≤ v ∧ v ≤ 399) ∨ 3000 < v) := by
  unfold sceneTempoWritten
  split
  next zero => subst zero; simp
  next nonzero =>
    refine ⟨?_, decide_eq_true_iff.trans (by omega)⟩
    dsimp only [clampInt]
    omega

theorem sceneProfileWritten_eq (v : Nat) : (sceneProfileWritten v).1 = (if 8 ≤ v ∧ v ≤ 254 then 7 else v) ∧
    ((sceneProfileWritten v).2 = true ↔ 8 ≤ v ∧ v ≤ 254) := by
  unfold sceneProfileWritten
  split <;> simp_all

theorem fadeStored_eq (v : Int) :
    ((evenUp (clampInt 2 480 v)).toNat : Int) = max 2 (min 480 v) + max 2 (min 480 v) % 2 := by
  unfold clampInt evenUp
  omega

/-- The mark of an image: each field with its clamp (R106, R107). -/
theorem imageScene_mark (image : List Byte) : (imageScene image).2 = true ↔
    (nameWritten (image.take 12)).2 = true ∨ (clampMark 2 480 (imageInt image 0x0E 2)).2 = true ∨
    (sceneProfileWritten (imageNat image 0x0D 1)).2 = true ∨ (sceneTempoWritten (imageNat image 0x10 2)).2 = true ∨
    4 < imageNat image 0x12 1 ∨ ∃ p, p < 12 ∧ (imageStage image p).2 = true := by
  simp [imageScene, or_assoc]

/-! ## The table of R14 -/

theorem paramRule_iff (k : Kind) (i : Nat) (lo hi : Int) (cls : ParamClass) :
    paramRule k i = some ⟨lo, hi, cls⟩ ↔ (k, i, lo, hi, cls) ∈ parameterTable := by
  constructor
  · intro rule
    unfold paramRule at rule
    split at rule <;> cases rule <;> decide
  · have rows : ∀ row ∈ parameterTable, paramRule row.1 row.2.1 = some ⟨row.2.2.1, row.2.2.2.1, row.2.2.2.2⟩ := by decide
    exact fun row => rows _ row

theorem paramWritten_of_undefined {k : Kind} {i : Nat} (undefined : paramRule k i = none) (v : Int) :
    paramWritten k i v = (0, false) := by
  simp [paramWritten, paramClamped, undefined]

theorem paramClamped_of_rule {k : Kind} {i : Nat} {r : ParamRule} (rule : paramRule k i = some r) (v : Int) :
    let c := if k = .amp ∧ i = 3 ∧ 16 ≤ v ∧ v ≤ 254 then 15 else max r.lo (min r.hi v)
    paramClamped k i v = (c, decide (c ≠ v)) := by
  have bounds := paramRule_bounds rule
  rw [paramClamped, rule]
  dsimp only
  split
  next gap => exact Prod.ext rfl (decide_eq_true (by omega)).symm
  next => exact Prod.ext rfl (decide_eq_decide.mpr (by omega))

theorem paramWritten_of_rule {k : Kind} {i : Nat} {r : ParamRule} (rule : paramRule k i = some r) (v : Int) :
    let c := if k = .amp ∧ i = 3 ∧ 16 ≤ v ∧ v ≤ 254 then 15 else max r.lo (min r.hi v)
    paramWritten k i v = (if k = .cab ∧ i = 1 then c / 64 * 64 else c, decide (c ≠ v)) := by
  intro c
  rw [paramWritten, paramClamped_of_rule rule]
  dsimp only
  split <;> rfl

/-! ## WRITE_SCENE -/

theorem carryWriteScene_range {t : Taken} (s : State) (outside : t.arg0 < 0 ∨ 127 < t.arg0) :
    carryWriteScene t s = s.answer .range .unstated := if_pos outside

section WriteScene
variable {t : Taken} {s : State} {image : List Byte} (low : 0 ≤ t.arg0) (high : t.arg0 ≤ 127)
  (buffer : readBytes s.ram t.offset 256 = image)
include low high buffer

theorem carryWriteScene_fault {f : Nat} (fault : imageFault image = some f) :
    carryWriteScene t s = s.answer .invalid (.given (fieldRefusal f)) := by
  rw [carryWriteScene, if_neg (by omega)]
  dsimp only
  rw [buffer, fault]

theorem carryWriteScene_overBudget (clean : imageFault image = none)
    (excess : 1000 < (imageScene image).1.load ∨ 4 < (imageScene image).1.lanes) :
    carryWriteScene t s = s.answer .invalid (.given (imageScene image).1.figures) := by
  rw [carryWriteScene, if_neg (by omega)]
  dsimp only
  rw [buffer, clean]
  exact if_pos excess

/-- The Scene Store with one entry STORED. -/
def State.storeEntry (s : State) (i : Nat) (r : SceneRecord) : State :=
  { s with store := { s.store with scenes := s.store.scenes.set i (some r) } }

theorem carryWriteScene_stores (clean : imageFault image = none) (load : (imageScene image).1.load ≤ 1000)
    (lanes : (imageScene image).1.lanes ≤ 4) : carryWriteScene t s =
      (s.storeEntry t.arg0.toNat (imageScene image).1).answer (okCode (imageScene image).2)
        (.given (imageScene image).1.figures) := by
  rw [carryWriteScene, if_neg (by omega)]
  dsimp only
  rw [buffer, clean]
  exact if_neg (by omega)

end WriteScene

end Sys2Proof.Machine

namespace Sys2Proof.Proofs
open Sys2Proof.Machine

/-- Settles O9: the owner's four answers; the search for a field at fault; the record and its mark, field by field; the table
of R14 row by row; and a parameter as it is written. -/
theorem writeSceneChecksThenStores : Obligations.WriteSceneChecksThenStores := by
  refine ⟨fun s n rest mem head kind buffer => ⟨fun outside => ?range, fun low high =>
      ⟨fun f fault => ?fault, fun clean => ⟨fun excess => ?excess, fun load lanes => ?stores⟩⟩⟩,
    fun image _ f => imageFault_eq_some_iff image f, fun image length clean => ?record, paramRule_iff,
    fun k i v => ⟨fun undefined => paramWritten_of_undefined undefined v, fun r rule => paramWritten_of_rule rule v⟩⟩
  case range =>
    exact completes_refused exec_writeScene mem head (isKind_of_kind kind) buffer carryWriteScene_keeps
      (carryWriteScene_range _ outside)
  case fault =>
    have image := takeHead_readBytes (rest := rest) mem head.lt (BufferNeed.offset_of_exactly buffer) 256
    exact completes_refused exec_writeScene mem head (isKind_of_kind kind) buffer carryWriteScene_keeps
      (carryWriteScene_fault low high image fault)
  case excess =>
    have image := takeHead_readBytes (rest := rest) mem head.lt (BufferNeed.offset_of_exactly buffer) 256
    exact completes_refused exec_writeScene mem head (isKind_of_kind kind) buffer carryWriteScene_keeps
      (carryWriteScene_overBudget low high image clean excess)
  case stores =>
    have image := takeHead_readBytes (rest := rest) mem head.lt (BufferNeed.offset_of_exactly buffer) 256
    exact completes_blocks exec_writeScene mem head (isKind_of_kind kind) buffer carryWriteScene_keeps
      (carryWriteScene_stores low high image clean load lanes)
  case record =>
    have notBad := (imageFault_eq_none_iff image).mp clean
    obtain ⟨name, nameMark⟩ := nameWritten_eq (image.take 12)
    obtain ⟨tempo, tempoMark⟩ := sceneTempoWritten_eq (imageNat image 0x10 2)
    obtain ⟨profile, profileMark⟩ := sceneProfileWritten_eq (imageNat image 0x0D 1)
    rw [imageNat_half] at tempo tempoMark
    rw [imageNat_byte] at profile profileMark
    have fade : imageInt image 0x0E 2 = signedOf 16 ((image.getD 0x0E 0).toNat + 256 * (image.getD 0x0F 0).toNat) := by
      rw [imageInt, imageNat_half]
    have count : imageNat image 0x12 1 = (image.getD 0x12 0).toNat := imageNat_byte image 0x12
    refine ⟨name, ?kind, ?fade, ?profile, ?tempo, ?lampCount, ?lamps, ?stageCount, ?stages, ?mark⟩
    case kind =>
      show ((TransKind.ofCode (imageNat image 0x0C 1)).getD .fade).code = _
      rw [imageNat_byte]
      exact TransKind.code_of_ofCode fun beyond => notBad 12 (.inr (.inl ⟨rfl, beyond⟩))
    case fade =>
      show (((evenUp (clampInt 2 480 (imageInt image 0x0E 2))).toNat : Nat) : Int) = _
      rw [fade]
      exact fadeStored_eq _
    case profile => show (sceneProfileWritten (imageNat image 0x0D 1)).1 = _; rw [imageNat_byte]; exact profile
    case tempo => show (sceneTempoWritten (imageNat image 0x10 2)).1 = _; rw [imageNat_half]; exact tempo
    case lampCount => simp [imageScene, imageLampCount, count]
    case lamps =>
      intro i e entry
      simp only [imageScene, List.getElem?_map, Option.map_eq_some_iff] at entry
      obtain ⟨j, found, rfl⟩ := entry
      obtain ⟨_, rfl⟩ := List.getElem?_eq_some_iff.mp found
      rw [List.getElem_range, imageLamp, imageNat_word]
      exact ⟨rfl, BitVec.toNat_ofNat _ _, BitVec.toNat_ofNat _ _⟩
    case stageCount => simp [imageScene]
    case stages =>
      intro p hp
      obtain ⟨code, isNone, isReal, _⟩ := imageStage_stored clean hp
      exact ⟨_, imageScene_stage hp, code, isNone, isReal⟩
    case mark =>
      rw [imageScene_mark, nameMark, fade, clampMark_marked, imageNat_byte image 0x0D, profileMark, imageNat_half,
        tempoMark, count, or_assoc, or_assoc]
      refine or_congr_right <| or_congr_right <| or_congr_right <| or_congr_right <| or_congr_right <| or_congr_right <|
        or_congr_right ?_
      constructor
      · rintro ⟨p, hp, marked⟩
        obtain ⟨_, _, _, mark⟩ := imageStage_stored clean hp
        exact ⟨p, _, hp, imageScene_stage hp, mark.mp marked⟩
      · rintro ⟨p, e, hp, entry, marked⟩
        obtain ⟨_, _, _, mark⟩ := imageStage_stored clean hp
        rw [imageScene_stage hp, Option.some.injEq] at entry
        subst entry
        exact ⟨p, hp, mark.mpr marked⟩

end Sys2Proof.Proofs
end

section
/-! SUPPORT. Completions of several requests at one block start (R116, R188), LOAD_IMPULSE (R115), and the impulse work of a
block start (R116). -/

namespace Sys2Proof.Machine

/-! ## Completions, one after another (R188) -/

/-- The result of a request stands in its slot: DONE, SIGNAL.DONE, the code and the value. -/
structure resultStands (t : State) (n : Nat) (code : Result) (value : ResultValue) : Prop where
  done : t.requests.slots[n]? = some .done
  signal : t.port.signal.done = true
  code : readLE t.ram (slotAddress n + 0x1C) 2 = code.code
  value : valueReads t.ram n value

theorem Port.raise_done (p : Port) : (p.raise .causeDone).signal.done = true := Bool.or_true _

/-- The completion of a TAKEN slot makes it DONE and sets SIGNAL.DONE. -/
theorem State.complete_slot {s : State} {n : Nat} (taken : s.requests.slots[n]? = some .taken) (code : Result)
    (value : ResultValue) : (s.complete n code value).requests.slots[n]? = some .done ∧
    (s.complete n code value).port.signal.done = true := by
  obtain ⟨inside, _⟩ := List.getElem?_eq_some_iff.mp taken
  rw [State.complete_of_taken taken]
  refine ⟨?_, Port.raise_done _⟩
  show (s.requests.slots.set n .done)[n]? = _
  rw [List.getElem?_set_self inside]

/-- A completion leaves the state of every other slot. -/
theorem State.complete_otherSlot (s : State) {k n : Nat} (other : k ≠ n) (code : Result) (value : ResultValue) :
    (s.complete k code value).requests.slots[n]? = s.requests.slots[n]? := by
  unfold State.complete
  split
  · exact List.getElem?_set_ne other
  · rfl

theorem State.complete_length (s : State) (k : Nat) (code : Result) (value : ResultValue) :
    (s.complete k code value).requests.slots.length = s.requests.slots.length := by
  unfold State.complete
  split
  · exact List.length_set
  · rfl

theorem State.complete_signal {s : State} (set : s.port.signal.done = true) (k : Nat) (code : Result) (value : ResultValue) :
    (s.complete k code value).port.signal.done = true := by
  unfold State.complete
  split
  · exact Port.raise_done _
  · exact set

/-- A completion writes no byte outside its own result. -/
theorem State.complete_readByte {s : State} (mem : s.memoryOk) {k a : Nat}
    (inside : s.requests.slots[k]? = some .taken → k < 32) (outside : ¬ inResult k a) (code : Result) (value : ResultValue) :
    readByte (s.complete k code value).ram a = readByte s.ram a := by
  by_cases taken : s.requests.slots[k]? = some .taken
  · obtain ⟨_, _, _, _, _, _, _, _, bytes⟩ :=
      State.complete_answered (code := code) (value := value) mem taken (inside taken)
    exact bytes a outside
  · rw [State.complete_of_not_taken taken]

/-- The results of two slots share no byte. -/
theorem inResult_other {k n a : Nat} (other : k ≠ n) (inside : inResult n a) : ¬ inResult k a := by
  unfold inResult slotAddress at *
  omega

/-- A result that stands is read in the bytes of its slot alone. -/
theorem resultStands.congr {t u : State} {n : Nat} {code : Result} {value : ResultValue} (stands : resultStands t n code value)
    (slot : u.requests.slots[n]? = t.requests.slots[n]?) (signal : t.port.signal.done = true → u.port.signal.done = true)
    (bytes : ∀ a, inResult n a → readByte u.ram a = readByte t.ram a) : resultStands u n code value := by
  obtain ⟨done, set, codeReads, reads⟩ := stands
  have field {o k : Nat} (inside : ∀ a, slotAddress n + o ≤ a → a < slotAddress n + o + k → inResult n a) :
      readLE u.ram (slotAddress n + o) k = readLE t.ram (slotAddress n + o) k :=
    readLE_congr fun a low high => bytes a (inside a low high)
  refine ⟨slot.trans done, signal set, (field fun a low high => ?_).trans codeReads, ?_⟩
  · unfold inResult; omega
  · cases value with
    | unstated => trivial
    | given v => exact (field (o := 0x18) (k := 4) fun a low high => by unfold inResult; omega).trans reads

/-- The completion of a TAKEN slot of the table. -/
theorem State.complete_stands {s : State} (mem : s.memoryOk) {n : Nat} (hn : n < 32)
    (taken : s.requests.slots[n]? = some .taken) (code : Result) (value : ResultValue) :
    resultStands (s.complete n code value) n code value := by
  obtain ⟨_, _, _, _, _, _, codeReads, reads, _⟩ := State.complete_answered (code := code) (value := value) mem taken hn
  obtain ⟨done, signal⟩ := State.complete_slot taken code value
  exact ⟨done, signal, codeReads, reads⟩

theorem State.complete_keepsStanding {s : State} (mem : s.memoryOk) {k n : Nat}
    (inside : s.requests.slots[k]? = some .taken → k < 32) {code : Result} {value : ResultValue}
    (stands : resultStands s n code value) (other : k ≠ n) (c : Result) (v : ResultValue) :
    resultStands (s.complete k c v) n code value :=
  stands.congr (s.complete_otherSlot other c v) (fun set => State.complete_signal set k c v)
    fun _ inResult => State.complete_readByte mem inside (inResult_other other inResult) c v

theorem State.completeAll_nil (s : State) : s.completeAll [] = s := rfl

theorem State.completeAll_cons (s : State) (c : Completion) (cs : List Completion) :
    s.completeAll (c :: cs) = (s.complete c.slot c.code c.value).completeAll cs := rfl

theorem State.completeAll_append (s : State) (before after : List Completion) :
    s.completeAll (before ++ after) = (s.completeAll before).completeAll after := List.foldl_append

theorem State.completeAll_length (s : State) (cs : List Completion) :
    (s.completeAll cs).requests.slots.length = s.requests.slots.length := by
  induction cs generalizing s with
  | nil => rfl
  | cons c cs ih => rw [State.completeAll_cons, ih, State.complete_length]

/-- Completions of other slots leave a slot's state. -/
theorem State.completeAll_otherSlot (s : State) {n : Nat} {cs : List Completion} (others : ∀ c ∈ cs, c.slot ≠ n) :
    (s.completeAll cs).requests.slots[n]? = s.requests.slots[n]? := by
  induction cs generalizing s with
  | nil => rfl
  | cons c cs ih =>
    obtain ⟨other, others⟩ := List.forall_mem_cons.mp others
    rw [State.completeAll_cons, ih _ others, s.complete_otherSlot other]

theorem State.completeAll_keepsStanding {s : State} (mem : s.memoryOk) (length : s.requests.slots.length = 32) {n : Nat}
    {code : Result} {value : ResultValue} (stands : resultStands s n code value) {cs : List Completion}
    (others : ∀ c ∈ cs, c.slot ≠ n) : resultStands (s.completeAll cs) n code value := by
  induction cs generalizing s with
  | nil => exact stands
  | cons c cs ih =>
    obtain ⟨other, others⟩ := List.forall_mem_cons.mp others
    exact ih ((s.complete_keeps _ _ _).memory mem) ((s.complete_length _ _ _).trans length)
      (State.complete_keepsStanding mem (fun taken => length ▸ (List.getElem?_eq_some_iff.mp taken).1) stands other _ _)
      others

/-- Of several completions, the only one of its slot stands. -/
theorem State.completeAll_stands {s : State} (mem : s.memoryOk) (length : s.requests.slots.length = 32) {c : Completion}
    {before after : List Completion} (taken : s.requests.slots[c.slot]? = some .taken)
    (others : ∀ d ∈ before ++ after, d.slot ≠ c.slot) :
    resultStands (s.completeAll (before ++ c :: after)) c.slot c.code c.value := by
  have earlier : ∀ d ∈ before, d.slot ≠ c.slot := fun d hd => others d (List.mem_append_left _ hd)
  have later : ∀ d ∈ after, d.slot ≠ c.slot := fun d hd => others d (List.mem_append_right _ hd)
  have mem' := (s.completeAll_keeps before).memory mem
  have length' := (s.completeAll_length before).trans length
  have taken' : (s.completeAll before).requests.slots[c.slot]? = some .taken :=
    (s.completeAll_otherSlot earlier).trans taken
  have inside : c.slot < 32 := length ▸ (List.getElem?_eq_some_iff.mp taken).1
  rw [State.completeAll_append, State.completeAll_cons]
  exact State.completeAll_keepsStanding ((State.complete_keeps _ _ _ _).memory mem')
    ((State.complete_length _ _ _ _).trans length') (State.complete_stands mem' inside taken' _ _) later

/-- A slot that is DONE stays so through completions. -/
theorem State.completeAll_done {s : State} {n : Nat} (cs : List Completion)
    (done : s.requests.slots[n]? = some .done ∧ s.port.signal.done = true) :
    (s.completeAll cs).requests.slots[n]? = some .done ∧ (s.completeAll cs).port.signal.done = true := by
  induction cs generalizing s with
  | nil => exact done
  | cons c cs ih =>
    obtain ⟨slot, signal⟩ := done
    rw [State.completeAll_cons]
    refine ih ⟨?_, State.complete_signal signal _ _ _⟩
    by_cases same : c.slot = n
    · rw [State.complete_of_not_taken (by simp [same, slot]), slot]
    · rw [s.complete_otherSlot same, slot]

/-- A TAKEN slot that is among those completed is DONE after. -/
theorem State.completeAll_completes {s : State} {n : Nat} {cs : List Completion} (taken : s.requests.slots[n]? = some .taken)
    (completed : ∃ c ∈ cs, c.slot = n) :
    (s.completeAll cs).requests.slots[n]? = some .done ∧ (s.completeAll cs).port.signal.done = true := by
  induction cs generalizing s with
  | nil => obtain ⟨_, nowhere, _⟩ := completed; cases nowhere
  | cons c cs ih =>
    rw [State.completeAll_cons]
    by_cases same : c.slot = n
    · subst same
      exact State.completeAll_done cs (State.complete_slot taken _ _)
    · refine ih ((s.complete_otherSlot same _ _).trans taken) ?_
      obtain ⟨d, first | later, slot⟩ := (by simpa using completed : ∃ d, (d = c ∨ d ∈ cs) ∧ d.slot = n)
      · exact absurd (first ▸ slot) same
      · exact ⟨d, later, slot⟩

theorem State.completeAll_store (s : State) (cs : List Completion) : (s.completeAll cs).store = s.store := by
  induction cs generalizing s with
  | nil => rfl
  | cons c cs ih => rw [State.completeAll_cons, ih, State.complete_store]

theorem State.completeAll_engine (s : State) (cs : List Completion) : (s.completeAll cs).engine = s.engine := by
  induction cs generalizing s with
  | nil => rfl
  | cons c cs ih => rw [State.completeAll_cons, ih, State.complete_engine]

theorem State.completeAll_transition (s : State) (cs : List Completion) :
    (s.completeAll cs).transition = s.transition := by
  induction cs generalizing s with
  | nil => rfl
  | cons c cs ih => rw [State.completeAll_cons, ih, State.complete_transition]

theorem State.completeAll_input (s : State) (cs : List Completion) : (s.completeAll cs).input = s.input := by
  induction cs generalizing s with
  | nil => rfl
  | cons c cs ih => rw [State.completeAll_cons, ih, State.complete_input]

theorem okCode_code (clamped : Bool) : (okCode clamped).code = if clamped then 1 else 0 := by cases clamped <;> rfl

theorem argBits_natCast (n : Nat) : argBits n = n % 2 ^ 32 := by
  unfold argBits
  omega

/-! ## An event of a block start that is due -/

/-- The command of an event that is due runs the block start up to it, and it. -/
theorem exec_event_of_due {c : Instr} {s : State} {w : Work} {due : State → Bool}
    (arm : exec c s = whenReady s (·.upTo w due)) (yet : s.yetTo w) (isDue : due (s.before w) = true) :
    exec c s = .next ((w.run (s.before w)).mark (w.place + 1)) := by
  obtain ⟨ready, notDone⟩ := yet
  rw [exec_of_ready arm ready, State.upTo_of_due notDone isDue]

/-! ## LOAD_IMPULSE (R115) -/

theorem carryLoadImpulse_range {t : Taken} (s : State) (outside : t.arg0 < 0 ∨ 3 < t.arg0) :
    carryLoadImpulse t s = s.answer .range .unstated := if_pos outside

section LoadImpulse
variable {t : Taken} {s : State} (low : 0 ≤ t.arg0) (high : t.arg0 ≤ 3)
include low high

theorem carryLoadImpulse_busy (loading : s.store.loading t.arg0 = true) :
    carryLoadImpulse t s = s.answer .busy .unstated := by
  rw [carryLoadImpulse, if_neg (by omega), if_pos loading]

theorem carryLoadImpulse_inUse (loading : s.store.loading t.arg0 = false) (inUse : s.impulseInUse t.arg0 = true) :
    carryLoadImpulse t s = s.answer .inUse .unstated := by
  rw [carryLoadImpulse, if_neg (by omega), if_neg (by simp [loading]), if_pos inUse]

/-- The part with a load of one impulse slot begun. -/
def State.beginLoad (s : State) (n : Nat) (load : ImpulseLoad) : State :=
  { s with store := { s.store with impulses := s.store.impulses.modify n fun x => { x with load := some load } } }

theorem carryLoadImpulse_keeps_slot (loading : s.store.loading t.arg0 = false) (free : s.impulseInUse t.arg0 = false) :
    carryLoadImpulse t s = ⟨s.beginLoad t.arg0.toNat ⟨t.slot, t.length / 4, t.offset, [], false⟩, none⟩ := by
  rw [carryLoadImpulse, if_neg (by omega), if_neg (by simp [loading]), if_neg (by simp [free])]
  rfl

end LoadImpulse

/-! ## IN_USE of an impulse slot (R115) -/

theorem Stage.namesImpulse_iff (n : Int) (st : Stage) : st.namesImpulse n = true ↔
    st.kind = .cab ∧ (st.targets.getD 0 0 = n ∨ st.currents.getD 0 0 = n) := by
  simp [Stage.namesImpulse, Stage.target, Stage.current]

theorem SceneRecord.namesImpulse_iff (r : SceneRecord) (n : Int) :
    r.namesImpulse n = true ↔ ∃ e, e ∈ r.stages ∧ e.kind = .cab ∧ e.params.getD 0 0 = n := by
  simp [SceneRecord.namesImpulse]

/-- The record that the in-flight select stages is the one stored under its scene. -/
theorem Transition.inFlightScene_iff (t : Transition) (store : Store) (r : SceneRecord) :
    t.inFlightScene store = some r ↔ ∃ x, t.inFlight = some x ∧ store.scenes[x.scene]? = some (some r) := by
  unfold Transition.inFlightScene
  split
  next x inFlight =>
    rw [store.scene_of_nonneg (Int.natCast_nonneg _), Int.toNat_natCast, Option.join_eq_some_iff]
    refine ⟨fun stored => ⟨x, inFlight, stored⟩, fun ⟨y, inFlight', stored⟩ => ?_⟩
    rw [inFlight, Option.some.injEq] at inFlight'
    exact inFlight' ▸ stored
  next inFlight => exact iff_of_false nofun fun ⟨_, inFlight', _⟩ => by rw [inFlight] at inFlight'; cases inFlight'

theorem State.impulseInUse_eq (s : State) (n : Int) : s.impulseInUse n =
    ((s.engine.bankA.stages ++ s.engine.bankB.stages).any (·.namesImpulse n) ||
      (s.transition.awaitsCopy && (s.transition.inFlightScene s.store).any (·.namesImpulse n)) ||
      (s.transition.state == .staging &&
        s.engine.overlay.any (fun e => e.kind == .cab && e.index == some 0 && e.value == n))) := by
  unfold State.impulseInUse
  cases s.transition.inFlightScene s.store <;> rfl

theorem State.impulseInUse_iff (s : State) (n : Int) : s.impulseInUse n = true ↔
    (∃ st, (st ∈ s.engine.bankA.stages ∨ st ∈ s.engine.bankB.stages) ∧
      st.kind = .cab ∧ (st.targets.getD 0 0 = n ∨ st.currents.getD 0 0 = n)) ∨
    ((s.transition.state = .staging ∨ s.transition.state = .dipOut ∧ s.transition.restageDue = true) ∧
      ∃ x r e, s.transition.inFlight = some x ∧ s.store.scenes[x.scene]? = some (some r) ∧ e ∈ r.stages ∧ e.kind = .cab ∧
        e.params.getD 0 0 = n) ∨
    (s.transition.state = .staging ∧
      ∃ o, o ∈ s.engine.overlay ∧ o.kind = .cab ∧ o.index = some 0 ∧ o.value = n) := by
  have copied : (s.transition.inFlightScene s.store).any (·.namesImpulse n) = true ↔
      ∃ x r e, s.transition.inFlight = some x ∧ s.store.scenes[x.scene]? = some (some r) ∧ e ∈ r.stages ∧ e.kind = .cab ∧
        e.params.getD 0 0 = n := by
    rw [Option.any_eq_true]
    simp only [Transition.inFlightScene_iff, SceneRecord.namesImpulse_iff]
    constructor
    · rintro ⟨r, ⟨x, inFlight, stored⟩, e, entry, names⟩
      exact ⟨x, r, e, inFlight, stored, entry, names⟩
    · rintro ⟨x, r, e, inFlight, stored, entry, names⟩
      exact ⟨r, ⟨x, inFlight, stored⟩, e, entry, names⟩
  rw [State.impulseInUse_eq, Bool.or_eq_true, Bool.or_eq_true, Bool.and_eq_true, Bool.and_eq_true, Transition.awaitsCopy_iff,
    copied, or_assoc]
  simp only [List.any_eq_true, List.mem_append, Stage.namesImpulse_iff, beq_iff_eq, Bool.and_eq_true, and_assoc]

/-! ## The impulse work of a block start (R116) -/

theorem ImpulseSlot.advance_of_ready {x : ImpulseSlot} (ready : x.load = none) (m : Ram) : x.advance m = (x, none) := by
  rw [ImpulseSlot.advance, ready]

/-- A LOADING slot with more than one group left reads its next group. -/
theorem ImpulseSlot.advance_of_unfinished {x : ImpulseSlot} {l : ImpulseLoad} (loading : x.load = some l)
    (unfinished : l.copied.length + 64 < l.length) (m : Ram) :
    let group := readSamples m (l.offset + 4 * l.copied.length) 64
    x.advance m = ({ x with load := some { l with
      copied := l.copied ++ group.map (·.1), clamped := l.clamped || group.any (·.2) } }, none) := by
  rw [ImpulseSlot.advance, loading]
  exact if_neg (by simp [readSamples]; omega)

/-- A LOADING slot that reads its last group takes the new contents, and its load completes. -/
theorem ImpulseSlot.advance_of_last {x : ImpulseSlot} {l : ImpulseLoad} (loading : x.load = some l)
    (last : l.length ≤ l.copied.length + 64) (m : Ram) :
    let group := readSamples m (l.offset + 4 * l.copied.length) 64
    x.advance m = (⟨l.copied ++ group.map (·.1), none⟩,
      some ⟨l.slot, okCode (l.clamped || group.any (·.2)), .given l.length⟩) := by
  rw [ImpulseSlot.advance, loading]
  exact if_pos (by simp [readSamples]; omega)

/-- A slot that completes was LOADING for the request that it answers. -/
theorem ImpulseSlot.advance_completes {x : ImpulseSlot} {m : Ram} {c : Completion} (completes : (x.advance m).2 = some c) :
    ∃ l, x.load = some l ∧ c.slot = l.slot := by
  unfold ImpulseSlot.advance at completes
  split at completes
  · cases completes
  next l loading =>
    dsimp only at completes
    split at completes
    · cases completes; exact ⟨l, loading, rfl⟩
    · cases completes

/-- The impulse slots after the work. -/
theorem State.impulseWork_impulses (s : State) (i : Nat) :
    s.impulseWork.store.impulses[i]? = (s.store.impulses[i]?).map fun x => (x.advance s.ram).1 := by
  rw [State.impulseWork, State.completeAll_store]
  simp [Function.comp_def]

/-- The completions of the work, in slot order. -/
def State.impulseCompletions (s : State) : List Completion :=
  (s.store.impulses.map (ImpulseSlot.advance s.ram)).filterMap (·.2)

/-- The impulse slots read their groups; no request is answered yet. -/
def State.impulsesAdvanced (s : State) : State :=
  { s with store := { s.store with impulses := (s.store.impulses.map (ImpulseSlot.advance s.ram)).map (·.1) } }

theorem State.impulseWork_eq (s : State) : s.impulseWork = s.impulsesAdvanced.completeAll s.impulseCompletions := rfl

theorem State.impulseWork_scenes (s : State) : s.impulseWork.store.scenes = s.store.scenes := by
  rw [State.impulseWork_eq, State.completeAll_store]
  rfl

/-- The completion of one impulse slot among those of the others, which are of slots LOADING too. -/
theorem State.impulseCompletions_split {s : State} {i : Nat} {x : ImpulseSlot} {c : Completion}
    (entry : s.store.impulses[i]? = some x) (completes : (x.advance s.ram).2 = some c) :
    ∃ before after, s.impulseCompletions = before ++ c :: after ∧
      ∀ d ∈ before ++ after, ∃ j y l, j ≠ i ∧ s.store.impulses[j]? = some y ∧ y.load = some l ∧ d.slot = l.slot := by
  obtain ⟨inside, rfl⟩ := List.getElem?_eq_some_iff.mp entry
  have split : s.store.impulses = s.store.impulses.take i ++ s.store.impulses[i] :: s.store.impulses.drop (i + 1) := by
    rw [← List.drop_eq_getElem_cons inside, List.take_append_drop]
  refine ⟨((s.store.impulses.take i).map (ImpulseSlot.advance s.ram)).filterMap (·.2),
    ((s.store.impulses.drop (i + 1)).map (ImpulseSlot.advance s.ram)).filterMap (·.2), ?_, fun d hd => ?_⟩
  · rw [State.impulseCompletions]
    conv => lhs; rw [split]
    rw [List.map_append, List.map_cons, List.filterMap_append, List.filterMap_cons, completes]
  · have ofOther {l : List ImpulseSlot} (others : ∀ y ∈ l, ∃ j, j ≠ i ∧ s.store.impulses[j]? = some y)
        (hd : d ∈ (l.map (ImpulseSlot.advance s.ram)).filterMap (·.2)) :
        ∃ j y l, j ≠ i ∧ s.store.impulses[j]? = some y ∧ y.load = some l ∧ d.slot = l.slot := by
      simp only [List.mem_filterMap, List.mem_map] at hd
      obtain ⟨_, ⟨y, hy, rfl⟩, answers⟩ := hd
      obtain ⟨j, other, entry⟩ := others y hy
      obtain ⟨l, loading, slot⟩ := ImpulseSlot.advance_completes answers
      exact ⟨j, y, l, other, entry, loading, slot⟩
    obtain hd | hd := List.mem_append.mp hd
    · refine ofOther (fun y hy => ?_) hd
      obtain ⟨j, hj, rfl⟩ := List.getElem_of_mem hy
      have hj' : j < i := by rw [List.length_take] at hj; omega
      exact ⟨j, by omega, by rw [List.getElem_take]; exact List.getElem?_eq_getElem _⟩
    · refine ofOther (fun y hy => ?_) hd
      obtain ⟨j, hj, rfl⟩ := List.getElem_of_mem hy
      exact ⟨i + 1 + j, by omega, by rw [List.getElem_drop]; exact List.getElem?_eq_getElem _⟩

theorem State.impulseWork_done {s : State} {i : Nat} {x : ImpulseSlot} {c : Completion}
    (entry : s.store.impulses[i]? = some x) (completes : (x.advance s.ram).2 = some c)
    (taken : s.requests.slots[c.slot]? = some .taken) :
    s.impulseWork.requests.slots[c.slot]? = some .done ∧ s.impulseWork.port.signal.done = true := by
  obtain ⟨before, after, split, _⟩ := State.impulseCompletions_split entry completes
  rw [State.impulseWork_eq, split]
  exact State.completeAll_completes taken ⟨c, List.mem_append_right _ List.mem_cons_self, rfl⟩

/-- The result of a load whose request no other LOADING slot answers. -/
theorem State.impulseWork_stands {s : State} (mem : s.memoryOk) (length : s.requests.slots.length = 32) {i : Nat}
    {x : ImpulseSlot} {c : Completion} (entry : s.store.impulses[i]? = some x)
    (completes : (x.advance s.ram).2 = some c) (taken : s.requests.slots[c.slot]? = some .taken)
    (alone : ∀ j y m, j ≠ i → s.store.impulses[j]? = some y → y.load = some m → m.slot ≠ c.slot) :
    resultStands s.impulseWork c.slot c.code c.value := by
  obtain ⟨before, after, split, others⟩ := State.impulseCompletions_split entry completes
  rw [State.impulseWork_eq, split]
  refine State.completeAll_stands (s := s.impulsesAdvanced) mem length taken fun d hd => ?_
  obtain ⟨j, y, m, other, stored, loading, slot⟩ := others d hd
  exact slot ▸ alone j y m other stored loading

/-- Where no slot reads its last group, the work changes the impulse slots alone. -/
theorem State.impulseWork_of_unfinished {s : State}
    (unfinished : ∀ x l, x ∈ s.store.impulses → x.load = some l → l.copied.length + 64 < l.length) :
    s.impulseWork = s.impulsesAdvanced := by
  have none_completes : s.impulseCompletions = [] := by
    rw [State.impulseCompletions, List.filterMap_eq_nil_iff]
    intro a ha
    obtain ⟨x, hx, rfl⟩ := List.mem_map.mp ha
    cases loading : x.load with
    | none => rw [ImpulseSlot.advance_of_ready loading]
    | some l => rw [ImpulseSlot.advance_of_unfinished loading (unfinished x l hx loading)]
  rw [State.impulseWork_eq, none_completes, State.completeAll_nil]

end Sys2Proof.Machine

namespace Sys2Proof.Proofs
open Sys2Proof.Machine

/-- Settles O14: the owner's answers; the completion of the load among those of the other slots; the three ways in which a
slot is in use; and what the impulse work makes of each slot. -/
theorem impulseLoadsAreKeptThenComplete : Obligations.ImpulseLoadsAreKeptThenComplete := by
  refine ⟨fun s n rest mem head kind buffer => ⟨fun outside => ?range, fun low high => ⟨fun loading => ?busy,
      fun idle => ⟨fun inUse => ?inUse, fun free => ?kept⟩⟩⟩,
    fun s i x l yet entry loading last => ?completes, fun s n => s.impulseInUse_iff n,
    fun s => ⟨fun i x entry => ⟨fun ready => ?ready, fun l loading unfinished => ?unfinished⟩, fun all => ?frame⟩,
    fun _ _ _ => rfl⟩
  case range =>
    exact completes_refused exec_loadImpulse mem head (isKind_of_kind kind) buffer carryLoadImpulse_keeps
      (carryLoadImpulse_range _ outside)
  case busy =>
    exact completes_refused exec_loadImpulse mem head (isKind_of_kind kind) buffer carryLoadImpulse_keeps
      (carryLoadImpulse_busy low high loading)
  case inUse =>
    exact completes_refused exec_loadImpulse mem head (isKind_of_kind kind) buffer carryLoadImpulse_keeps
      (carryLoadImpulse_inUse low high idle inUse)
  case kept =>
    exact keepsSlot_of_kept exec_loadImpulse mem head (isKind_of_kind kind) buffer
      (carryLoadImpulse_keeps_slot low high idle free)
  case completes =>
    have advanced := ImpulseSlot.advance_of_last loading last (s.before .impulse).ram
    have answers : ((x.advance (s.before .impulse).ram).2) = some _ := congrArg Prod.snd advanced
    have isDue : State.impulseDue (s.before .impulse) = true :=
      List.any_eq_true.mpr ⟨x, List.mem_of_getElem? entry, by rw [answers]; rfl⟩
    refine ⟨_, exec_event_of_due (exec_impulseLoadComplete s) yet isDue, ?_⟩
    refine ⟨?contents, State.impulseWork_done entry answers, fun mem exact taken alone => ?result, ?scenes, ?engine,
      ?transition, ?input⟩
    case contents =>
      show (s.before .impulse).impulseWork.store.impulses[i]? = _
      rw [State.impulseWork_impulses, entry, Option.map_some, advanced]
    case result =>
      obtain ⟨length, _⟩ := (s.before_keeps .impulse).exact exact
      have stands := State.impulseWork_stands ((s.before_keeps .impulse).memory mem) length entry answers taken alone
      exact ⟨stands.code.trans (okCode_code _), stands.value.trans (argBits_natCast _)⟩
    case scenes => exact State.impulseWork_scenes (s.before .impulse)
    case engine => exact State.completeAll_engine (s.before .impulse).impulsesAdvanced _
    case transition => exact State.completeAll_transition (s.before .impulse).impulsesAdvanced _
    case input => exact State.completeAll_input (s.before .impulse).impulsesAdvanced _
  case ready =>
    show s.impulseWork.store.impulses[i]? = _
    rw [State.impulseWork_impulses, entry, Option.map_some, ImpulseSlot.advance_of_ready ready]
  case unfinished =>
    show s.impulseWork.store.impulses[i]? = _
    rw [State.impulseWork_impulses, entry, Option.map_some, ImpulseSlot.advance_of_unfinished loading unfinished]
  case frame =>
    show s.impulseWork = { s with store := { s.store with impulses := s.impulseWork.store.impulses } }
    rw [State.impulseWork_of_unfinished all]
    rfl

end Sys2Proof.Proofs
end

section
/-! SUPPORT. The Input Section: the suppressor and the meters (R54 to R63), the trim learner (R79 to R85), and the profile
changes of a block start (R78). -/

namespace Sys2Proof.Machine

/-! ## One sample (R54, R56) -/

theorem Grid.takesSamples_of {g : Grid} (opened : g.opened = true) (between : g.done = 0) (room : g.samplesA.length < 32) :
    g.takesSamples = true := by simp [Grid.takesSamples, opened, between, room]

theorem Tuner.isEngaged_iff (t : Tuner) : t.isEngaged = true ↔ t.state ≠ .off := by simp [Tuner.isEngaged]

/-- A sample that reaches the Tuner joins a collection and changes nothing else. -/
theorem Tuner.sample_eq (t : Tuner) (x : Int) : t.sample x = { t with history :=
    if t.state ≠ .off ∧ t.collecting = true then (x :: t.history).take 2048 else t.history } := by
  simp only [Tuner.sample, Bool.and_eq_true, Tuner.isEngaged_iff]
  split <;> rfl

theorem InputPath.isCrackle_iff (p : InputPath) (x : Int) : p.isCrackle x = true ↔
    p.threshold ≠ 0 ∧ (p.threshold : Int) * 65536 < (x - p.predicted).natAbs ∧
      (p.threshold : Int) * 65536 < (x - p.x1).natAbs := by
  simp [InputPath.isCrackle, and_assoc]

/-- A crackle is replaced by the prediction and counted. -/
theorem InputPath.sample_of_crackle {p : InputPath} {x : Int} (crackle : p.isCrackle x = true) :
    p.delivered x = p.predicted ∧ (p.sample x).crackles = p.crackles + 1 := ⟨if_pos crackle, if_pos crackle⟩

theorem InputPath.sample_of_clean {p : InputPath} {x : Int} (clean : ¬ p.isCrackle x = true) :
    p.delivered x = x ∧ (p.sample x).crackles = p.crackles := ⟨if_neg clean, if_neg clean⟩

/-- A sample at the limit of the range counts as a clip (R62). -/
theorem Meter.add_clips (m : Meter) (x : Int) :
    (m.add x (atLimit x)).clips = m.clips + (if x = -8388608 ∨ x = 8388607 then 1 else 0) := by
  have limit : atLimit x = true ↔ x = -8388608 ∨ x = 8388607 := by simp [atLimit]
  simp only [Meter.add, limit]
  split <;> rfl

/-! ## TRIM_LEARN start (R80) -/

theorem argBits_lt (a : Int) : argBits a < 4294967296 := by unfold argBits; omega

theorem argLow_eq (a : Int) : argLow a = argBits a / 65536 ^ 0 % 65536 := by rw [argLow, Nat.pow_zero, Nat.div_one]

theorem argHigh_eq (a : Int) : argHigh a = argBits a / 65536 ^ 1 % 65536 := by
  have := argBits_lt a
  rw [argHigh, Nat.pow_one]
  omega

theorem learnBound_eq (lo hi standard v : Nat) (inside : lo ≤ standard) (below : standard ≤ hi) :
    (learnBound lo hi standard v).1 = max lo (min hi (if v = 0 then standard else v)) ∧
    ((learnBound lo hi standard v).2 = true ↔ v ≠ 0 ∧ (v < lo ∨ hi < v)) := by
  unfold learnBound
  rw [clampedNat_marked]
  simp only [clampedNat]
  split <;> omega

theorem Learner.with_bounds {l : Learner} {target : Int} {low high : Nat} (targetIs : l.target = target)
    (lowIs : l.minBlocks = low) (highIs : l.maxBlocks = high) :
    l = { l with target := target, minBlocks := low, maxBlocks := high } := by
  subst targetIs lowIs highIs
  rfl

/-- The settings of a started learner, each bound with its default and its clamp. -/
theorem startedLearner_bounds (t : Taken) :
    let half := fun k => argBits t.arg3 / 65536 ^ k % 65536
    let low := max 1500 (min 15000 (if half 0 = 0 then 3000 else half 0))
    (startedLearner t).target = max 1 (min 120 (if t.arg2 = 0 then 24 else t.arg2)) ∧ (startedLearner t).minBlocks = low ∧
    (startedLearner t).maxBlocks = max low (min 30000 (if half 1 = 0 then 15000 else half 1)) ∧
    ((startedLearner t).clamped = true ↔
      (t.arg2 ≠ 0 ∧ (t.arg2 < 1 ∨ 120 < t.arg2)) ∨ (half 0 ≠ 0 ∧ (half 0 < 1500 ∨ 15000 < half 0)) ∨
      (half 1 ≠ 0 ∧ (half 1 < low ∨ 30000 < half 1))) := by
  intro half low
  obtain ⟨lowBound, lowMark⟩ := learnBound_eq 1500 15000 3000 (argLow t.arg3) (by omega) (by omega)
  rw [argLow_eq] at lowBound lowMark
  obtain ⟨highBound, highMark⟩ := learnBound_eq low 30000 15000 (argHigh t.arg3) (by omega) (by omega)
  rw [argHigh_eq] at highBound highMark
  have bound : (learnBound 1500 15000 3000 (argLow t.arg3)).1 = low := by rw [argLow_eq, lowBound]
  refine ⟨rfl, bound, ?_, ?_⟩
  · show (learnBound (learnBound 1500 15000 3000 (argLow t.arg3)).1 30000 15000 (argHigh t.arg3)).1 = _
    rw [bound, argHigh_eq, highBound]
  · show (_ || _ || (learnBound (learnBound 1500 15000 3000 (argLow t.arg3)).1 30000 15000 (argHigh t.arg3)).2) = true ↔ _
    rw [bound, argLow_eq, argHigh_eq, Bool.or_eq_true, Bool.or_eq_true, lowMark, highMark, clampMark_marked, or_assoc]
    refine or_congr ?_ Iff.rfl
    split <;> omega

section TrimLearn
variable {t : Taken} {s : State}

theorem carryTrimLearnStart_action (action : t.arg0 ≠ 0) : carryTrimLearnStart t s = s.answer .invalid .unstated :=
  if_pos action

variable (start : t.arg0 = 0)
include start

theorem carryTrimLearnStart_busy (learning : s.input.learner.learning = true) :
    carryTrimLearnStart t s = s.answer .busy .unstated := by
  rw [carryTrimLearnStart, if_neg (not_not_intro start), if_pos learning]

variable (idle : s.input.learner.learning = false)
include idle

theorem carryTrimLearnStart_range (outside : t.arg1 < 0 ∨ 7 < t.arg1) :
    carryTrimLearnStart t s = s.answer .range .unstated := by
  rw [carryTrimLearnStart, if_neg (not_not_intro start), if_neg (by simp [idle]), if_pos outside]

variable (low : 0 ≤ t.arg1) (high : t.arg1 ≤ 7)
include low high

theorem carryTrimLearnStart_inactive (inactive : t.arg1 ≠ s.input.active ∨ s.input.chosen ≠ s.input.active) :
    carryTrimLearnStart t s = s.answer .invalid .unstated := by
  rw [carryTrimLearnStart, if_neg (not_not_intro start), if_neg (by simp [idle]), if_neg (by omega), if_pos inactive]

theorem carryTrimLearnStart_learns (active : t.arg1 = s.input.active) (chosen : s.input.chosen = s.input.active) :
    carryTrimLearnStart t s = ⟨{ s with input := { s.input with learner := startedLearner t } }, none⟩ := by
  rw [carryTrimLearnStart, if_neg (not_not_intro start), if_neg (by simp [idle]), if_neg (by omega),
    if_neg (by simp [active, chosen])]

end TrimLearn

end Sys2Proof.Machine

namespace Sys2Proof.Proofs
open Sys2Proof.Machine

/-- Settles O15: the block takes the sample; and the suppressor's two cases. -/
theorem inputSampleIsSuppressed : Obligations.InputSampleIsSuppressed := by
  refine ⟨fun s a b ready opened between room => ?taken, fun p x => ?path⟩
  case taken =>
    refine ⟨_, exec_of_ready (exec_inputSample a b s) ready, ?_⟩
    rw [State.inputSample, if_pos (Grid.takesSamples_of opened between room), ← Tuner.sample_eq]
    exact ⟨⟨rfl, rfl, rfl, rfl, by cases s.input.selected <;> rfl, rfl, rfl, rfl, rfl⟩, rfl, rfl, rfl, rfl, rfl⟩
  case path =>
    have crackle := p.isCrackle_iff x
    exact ⟨fun h => InputPath.sample_of_crackle (crackle.mpr h), fun h => InputPath.sample_of_clean fun c => h (crackle.mp c),
      rfl, rfl, rfl, rfl, rfl, rfl, Meter.add_clips _ _, rfl, rfl⟩

/-- Settles O18: the refusals in their order; and the started learner, each bound with its default and its clamp. -/
theorem trimLearnStartChecksThenLearns : Obligations.TrimLearnStartChecksThenLearns := by
  intro s n rest mem head t half target low high kind
  have due (other : (takenAt s.ram n).arg0 ≠ 1) :
      (isKind 9 (takenAt s.ram n) && decide ((takenAt s.ram n).arg0 ≠ 1)) = true := by
    rw [isKind_of_kind kind, decide_eq_true other]; rfl
  have refused {code : Result} {value : ResultValue} (other : (takenAt s.ram n).arg0 ≠ 1)
      (answer : carryTrimLearnStart t (s.takeHead n rest) = (s.takeHead n rest).answer code value) :
      completes .trimLearnStart s s n rest code value :=
    completes_refused exec_trimLearnStart mem head (due other) (BufferNeed.none_passes _) carryTrimLearnStart_keeps answer
  refine ⟨fun notStart notAbort => refused notAbort (carryTrimLearnStart_action notStart), fun start => ?_⟩
  have other : t.arg0 ≠ 1 := by omega
  obtain ⟨targetIs, lowIs, highIs, marked⟩ := startedLearner_bounds t
  refine ⟨fun learning => refused other (carryTrimLearnStart_busy start learning), fun idle =>
    ⟨fun outside => refused other (carryTrimLearnStart_range start idle outside), fun low' high' =>
      ⟨fun inactive => refused other (carryTrimLearnStart_inactive start idle low' high' inactive),
        fun active chosen => ⟨(startedLearner t).clamped, ?kept, marked⟩⟩⟩⟩
  have started : startedLearner t = { startedLearner t with target := target, minBlocks := low, maxBlocks := high } :=
    Learner.with_bounds targetIs lowIs highIs
  have carried := carryTrimLearnStart_learns (s := s.takeHead n rest) start idle low' high' active chosen
  rw [started] at carried
  exact keepsSlot_of_kept exec_trimLearnStart mem head (due other) (BufferNeed.none_passes _) carried

end Sys2Proof.Proofs
end

section
/-! SUPPORT. A learn that a request ends (R85): its answer, and the request's own after it (R76, R188). -/

namespace Sys2Proof.Machine

section Requests
variable {c : Instr} {s v : State} {n : Nat} {rest : List Nat} {code : Result} {value : ResultValue}
  {due : Taken → Bool} {need : BufferNeed} {carry : Taken → State → Answer}

/-- A request answered at once: the state that its owner hands back, with the slot completed. -/
theorem exec_answers (arm : ∀ s, exec c s = whenReady s (·.take due need carry)) (head : s.headIs n rest)
    (hdue : due (takenAt s.ram n) = true) (hneed : need.passes (takenAt s.ram n) = true)
    (carried : carry (takenAt s.ram n) (s.takeHead n rest) = v.answer code value) :
    exec c s = .next (v.complete n code value).endServing := by
  rw [arm, whenReady_of_head head, State.take_of_head head hdue, State.serve_of_passes hneed, carried]
  rfl

end Requests

theorem State.takeHead_slot {s : State} {n : Nat} {rest : List Nat} (head : s.headIs n rest) :
    (s.takeHead n rest).requests.slots[n]? = some .taken := by
  obtain ⟨_, _, _, posted, _⟩ := head
  obtain ⟨inside, _⟩ := List.getElem?_eq_some_iff.mp posted
  rw [State.takeHead_requests, List.getElem?_set_self inside]

theorem State.takeHead_otherSlot (s : State) {k n : Nat} (other : k ≠ n) (rest : List Nat) :
    (s.takeHead n rest).requests.slots[k]? = s.requests.slots[k]? := by
  rw [State.takeHead_requests, List.getElem?_set_ne (Ne.symm other)]

/-- The end of serving leaves a result as it stands. -/
theorem resultStands.endServing {t : State} {n : Nat} {code : Result} {value : ResultValue}
    (stands : resultStands t n code value) : resultStands t.endServing n code value :=
  ⟨stands.done, stands.signal, stands.code, stands.value⟩

theorem State.writeProfile_profiles (s : State) (n : Nat) (p : Profile) :
    (s.writeProfile n p).store.profiles = s.store.profiles.set n p := rfl

/-! ## The abort of a learn (R85) -/

/-- The part with its learner IDLE. -/
def State.idleLearner (s : State) : State := { s with input := { s.input with learner := s.input.learner.idle } }

theorem State.abortLearn_of_idle {s : State} (idle : s.input.learner.learning = false) : s.abortLearn = s := by
  rw [State.abortLearn, if_neg (by simp [idle])]

theorem State.abortLearn_of_learning {s : State} (learning : s.input.learner.learning = true) :
    s.abortLearn = s.idleLearner.complete s.input.learner.slot .aborted (.given s.input.learner.signalBlocks) := by
  rw [State.abortLearn, if_pos learning]
  rfl

theorem State.abortLearn_store (s : State) : s.abortLearn.store = s.store := by
  unfold State.abortLearn
  split
  · exact State.complete_store ..
  · rfl

theorem State.abortLearn_pending (s : State) : s.abortLearn.pending = s.pending := s.abortLearn_keeps.pending

theorem State.abortLearn_engine (s : State) : s.abortLearn.engine = s.engine := by
  unfold State.abortLearn
  split
  · exact State.complete_engine ..
  · rfl

theorem State.abortLearn_transition (s : State) : s.abortLearn.transition = s.transition := by
  unfold State.abortLearn
  split
  · exact State.complete_transition ..
  · rfl

theorem State.abortLearn_tuner (s : State) : s.abortLearn.tuner = s.tuner := by
  unfold State.abortLearn
  split
  · exact State.complete_tuner ..
  · rfl

theorem State.abortLearn_link (s : State) : s.abortLearn.link = s.link := by
  unfold State.abortLearn
  split
  · exact State.complete_link ..
  · rfl

theorem State.abortLearn_input {s : State} (learning : s.input.learner.learning = true) :
    s.abortLearn.input = { s.input with learner := s.input.learner.idle } := by
  rw [State.abortLearn_of_learning learning, State.complete_input]
  rfl

section Abort
variable {s : State} {n : Nat} {rest : List Nat} (mem : s.memoryOk) (head : s.headIs n rest)
  (learning : s.input.learner.learning = true) (inside : s.input.learner.slot < 32) (other : s.input.learner.slot ≠ n)
  (taken : s.requests.slots[s.input.learner.slot]? = some .taken)
include learning

theorem State.abortLearn_slot (head : s.headIs n rest) (other : s.input.learner.slot ≠ n) :
    (s.takeHead n rest).abortLearn.requests.slots[n]? = some .taken := by
  rw [State.abortLearn_of_learning (s := s.takeHead n rest) learning]
  refine (State.complete_otherSlot _ other _ _).trans ?_
  exact State.takeHead_slot head

include mem inside other taken

/-- The start slot of a learn that the request in slot n ends. -/
theorem State.abortLearn_stands : resultStands (s.takeHead n rest).abortLearn s.input.learner.slot .aborted
    (.given s.input.learner.signalBlocks) := by
  rw [State.abortLearn_of_learning (s := s.takeHead n rest) learning]
  exact State.complete_stands (s := (s.takeHead n rest).idleLearner) (State.takeHead_memory mem) inside
    ((s.takeHead_otherSlot other rest).trans taken) _ _

end Abort

end Sys2Proof.Machine

namespace Sys2Proof.Proofs
open Sys2Proof.Machine

/-- Settles O19: the abort request where no learn runs and where one does; and SET_PROFILE of the learned profile. -/
theorem abortedLearnsWriteNoTrim : Obligations.AbortedLearnsWriteNoTrim := by
  refine ⟨fun s n rest mem head kind abort => ?abort,
    fun s n rest mem head kind buffer low high learning measured inside other taken => ?written⟩
  case abort =>
    have due : (isKind 9 (takenAt s.ram n) && decide ((takenAt s.ram n).arg0 = 1)) = true := by
      rw [isKind_of_kind kind, decide_eq_true abort]; rfl
    refine ⟨fun idle => ?idle, fun learning inside other taken => ?learning⟩
    case idle =>
      refine completes_refused exec_trimLearnAbort mem head due (BufferNeed.none_passes _) carryTrimLearnAbort_keeps ?_
      rw [carryTrimLearnAbort, State.abortLearn_of_idle (s := s.takeHead n rest) idle, State.takeHead_input, idle]
      rfl
    case learning =>
      have carried : carryTrimLearnAbort (takenAt s.ram n) (s.takeHead n rest) =
          (s.takeHead n rest).abortLearn.answer .ok (.given 1) := by
        rw [carryTrimLearnAbort, State.takeHead_input, learning]; rfl
      have aborted := State.abortLearn_stands (rest := rest) mem learning inside other taken
      have mem' : (s.takeHead n rest).abortLearn.memoryOk := (State.abortLearn_keeps _).memory (State.takeHead_memory mem)
      have still := (State.complete_keepsStanding mem' (fun _ => head.lt) aborted (Ne.symm other) .ok (.given 1)).endServing
      have answered := (State.complete_stands mem' head.lt (State.abortLearn_slot learning head other) .ok
        (.given 1)).endServing
      refine ⟨_, exec_answers exec_trimLearnAbort head due (BufferNeed.none_passes _) carried, ?input, still.done, still.code,
        still.value.trans (argBits_natCast _), answered.done, answered.code, answered.value, ?store, ?pending⟩
      case input => exact (State.complete_input ..).trans (State.abortLearn_input learning)
      case store => exact (State.complete_store ..).trans (State.abortLearn_store _)
      case pending => exact (State.complete_pending ..).trans (State.abortLearn_pending _)
  case written =>
    have learns : (s.takeHead n rest).learns (takenAt s.ram n).arg0.toNat = true :=
      (State.learns_iff _ _).mpr ⟨learning, measured⟩
    have carried := carrySetProfile_inside (s := s.takeHead n rest) low high
    rw [if_pos learns, takeHead_readBytes mem head.lt (BufferNeed.offset_of_exactly buffer)] at carried
    generalize imageProfile (readBytes s.ram (takenAt s.ram n).offset 16) = r at *
    have aborted := State.abortLearn_stands (rest := rest) mem learning inside other taken
    have mem' : (s.takeHead n rest).abortLearn.memoryOk := (State.abortLearn_keeps _).memory (State.takeHead_memory mem)
    have written : resultStands ((s.takeHead n rest).abortLearn.writeProfile (takenAt s.ram n).arg0.toNat r.1)
        s.input.learner.slot .aborted (.given s.input.learner.signalBlocks) :=
      ⟨aborted.done, aborted.signal, aborted.code, aborted.value⟩
    have still := (State.complete_keepsStanding (s := State.writeProfile _ _ _) mem' (fun _ => head.lt) written
      (Ne.symm other) (okCode r.2) (.given (takenAt s.ram n).arg0)).endServing
    obtain ⟨done, _⟩ := State.complete_slot (s := (s.takeHead n rest).abortLearn.writeProfile (takenAt s.ram n).arg0.toNat r.1)
      (State.abortLearn_slot learning head other) (okCode r.2) (.given (takenAt s.ram n).arg0)
    refine ⟨_, exec_answers exec_setProfile head (isKind_of_kind kind) buffer carried, ?learner, still.done, still.code,
      still.value.trans (argBits_natCast _), done, ?profiles, ?pending, ?engine, ?transition⟩
    case learner =>
      refine (congrArg (·.learner.learning) (State.complete_input ..)).trans ?_
      exact congrArg (·.learner.learning) (State.abortLearn_input (s := s.takeHead n rest) learning)
    case profiles =>
      refine (congrArg (·.profiles) (State.complete_store ..)).trans ?_
      rw [State.writeProfile_profiles, State.abortLearn_store, State.takeHead_store]
    case pending => exact (State.complete_pending ..).trans (State.abortLearn_pending _)
    case engine => exact (State.complete_engine ..).trans (State.abortLearn_engine _)
    case transition => exact (State.complete_transition ..).trans (State.abortLearn_transition _)

end Sys2Proof.Proofs
end

section
/-! SUPPORT. The learn work of a block start (R81 to R84): how a block is counted, and how a learn ends. -/

namespace Sys2Proof.Machine

/-! ## How a block is counted (R81) -/

theorem peakCode_nonneg (p : Int) : 0 ≤ peakCode p := by
  unfold peakCode
  split <;> omega

theorem State.rawPeakCode_nonneg (s : State) : 0 ≤ s.rawPeakCode := by
  unfold State.rawPeakCode
  split
  · exact peakCode_nonneg _
  · omega

theorem State.rawPeakCode_eq (s : State) {samples : List Int}
    (selected : InputId.samples s.grid.samplesA s.grid.samplesB s.input.selected = samples) :
    s.rawPeakCode = if s.engine.running then peakCode (blockPeak samples) else 255 := by rw [State.rawPeakCode, selected]

theorem Learner.count_eq (l : Learner) {code : Int} (nonneg : 0 ≤ code) : l.count code =
    if code ≤ 120 then
      { l with
        elapsed := l.elapsed + 1, signalBlocks := l.signalBlocks + 1
        histogram := l.histogram.modify code.toNat (· + 1) }
    else { l with elapsed := l.elapsed + 1 } := by
  simp only [Learner.count, nonneg, true_and]
  rfl

/-! ## The completion tests (R82, R83) -/

theorem loudBin_eq {histogram : List Nat} {total p : Nat} (inside : p < 241)
    (reached : total ≤ 20 * (histogram.take (p + 1)).foldl (· + ·) 0)
    (first : ∀ q, q < p → 20 * (histogram.take (q + 1)).foldl (· + ·) 0 < total) : loudBin histogram total = p := by
  have found : (List.range 241).find? (fun n => decide (total ≤ 20 * (histogram.take (n + 1)).foldl (· + ·) 0)) = some p := by
    rw [List.find?_range_eq_some]
    refine ⟨decide_eq_true reached, List.mem_range.mpr inside, fun q hq => ?_⟩
    have := first q hq
    simpa using this
  rw [loudBin, found]
  rfl

section Outcome
variable {l : Learner} {old : Int}

theorem Learner.measured_of_near (near : (l.newTrim - old).natAbs ≤ 2) (full : Bool) :
    l.measured full old = ⟨.unchanged, l.newTrim % 65536 + 65536 * l.signalBlocks, none⟩ := if_pos near

variable (far : 2 < (l.newTrim - old).natAbs)
include far

theorem Learner.measured_of_partial :
    l.measured false old = ⟨.partialLearn, l.newTrim % 65536 + 65536 * l.signalBlocks, some l.newTrim⟩ := by
  rw [Learner.measured, if_neg (by omega), if_pos (by decide)]

theorem Learner.measured_of_clipped (clipped : l.signalBlocks < 100 * l.histogram.getD 0 0) :
    l.measured true old = ⟨.clipped, l.newTrim % 65536 + 65536 * l.signalBlocks, some l.newTrim⟩ := by
  rw [Learner.measured, if_neg (by omega), if_neg (by simp), if_pos clipped]

theorem Learner.measured_of_clean (clean : 100 * l.histogram.getD 0 0 ≤ l.signalBlocks) :
    l.measured true old =
      ⟨if l.clamped then .okClamped else .ok, l.newTrim % 65536 + 65536 * l.signalBlocks, some l.newTrim⟩ := by
  rw [Learner.measured, if_neg (by omega), if_neg (by simp), if_neg (by omega)]
  rfl

end Outcome

section Finished
variable {l : Learner} (old : Int)

theorem Learner.finished_of_full (full : 1500 ≤ l.signalBlocks ∧ l.minBlocks ≤ l.elapsed) :
    l.finished old = some (l.measured true old) := if_pos full

variable (short : ¬ (1500 ≤ l.signalBlocks ∧ l.minBlocks ≤ l.elapsed))
include short

theorem Learner.finished_of_more (more : l.elapsed < l.maxBlocks) : l.finished old = none := by
  rw [Learner.finished, if_neg short, if_neg (by omega)]

variable (ended : l.maxBlocks ≤ l.elapsed)
include ended

theorem Learner.finished_of_partial (signal : 300 ≤ l.signalBlocks) : l.finished old = some (l.measured false old) := by
  rw [Learner.finished, if_neg short, if_pos ended, if_pos signal]

theorem Learner.finished_of_noSignal (quiet : l.signalBlocks < 300) :
    l.finished old = some ⟨.noSignal, l.signalBlocks, none⟩ := by
  rw [Learner.finished, if_neg short, if_pos ended, if_neg (by omega)]

end Finished

/-! ## The learn work of a block start (R81 to R84) -/

/-- The part with its learner as this. -/
def State.withLearner (s : State) (l : Learner) : State := { s with input := { s.input with learner := l } }

/-- The trim is written where a learn ends with one, and the learner is IDLE: all but the answer of the start slot. -/
def State.learnEnded (s : State) (e : LearnEnd) : State :=
  let counted := s.withLearner s.learnCounted
  let written := match e.trim with
    | some t => counted.writeLearnedTrim t
    | none => counted
  written.withLearner written.input.learner.idle

theorem State.learnEnded_requests (s : State) (e : LearnEnd) : (s.learnEnded e).requests = s.requests := by
  unfold State.learnEnded
  cases e.trim <;> rfl

theorem State.learnEnded_ram (s : State) (e : LearnEnd) : (s.learnEnded e).ram = s.ram := by
  unfold State.learnEnded
  cases e.trim <;> rfl

theorem State.learnEnded_others (s : State) (e : LearnEnd) :
    (s.learnEnded e).pending = s.pending ∧ (s.learnEnded e).engine = s.engine ∧ (s.learnEnded e).router = s.router ∧
    (s.learnEnded e).tuner = s.tuner ∧ (s.learnEnded e).link = s.link := by
  unfold State.learnEnded
  cases e.trim <;> exact ⟨rfl, rfl, rfl, rfl, rfl⟩

theorem Learner.count_profile (l : Learner) (code : Int) : (l.count code).profile = l.profile := by
  unfold Learner.count
  split <;> rfl

theorem State.writeLearnedTrim_learner (s : State) (v : Int) : (s.writeLearnedTrim v).input.learner = s.input.learner := by
  unfold State.writeLearnedTrim
  dsimp only
  split <;> rfl

theorem State.learnEnded_learner (s : State) (e : LearnEnd) : (s.learnEnded e).input.learner = s.learnCounted.idle := by
  unfold State.learnEnded
  cases e.trim with
  | none => rfl
  | some v => exact congrArg Learner.idle (State.writeLearnedTrim_learner _ v)

/-- A learn that ends without a trim writes none. -/
theorem State.learnEnded_of_none (s : State) {e : LearnEnd} (trim : e.trim = none) :
    (s.learnEnded e).store = s.store ∧ (s.learnEnded e).input.trimTarget = s.input.trimTarget := by
  unfold State.learnEnded
  rw [trim]
  exact ⟨rfl, rfl⟩

theorem State.learnEnded_of_some (s : State) {e : LearnEnd} {v : Int} (trim : e.trim = some v) :
    (s.learnEnded e).store =
      { s.store with profiles := s.store.profiles.modify s.input.learner.profile fun p => { p with trim := v } } ∧
    (s.learnEnded e).input.trimTarget = if s.input.active = s.input.learner.profile then v else s.input.trimTarget := by
  have profile : s.learnCounted.profile = s.input.learner.profile := Learner.count_profile _ _
  unfold State.learnEnded
  rw [trim, ← profile]
  refine ⟨rfl, ?_⟩
  show (if s.input.active = s.learnCounted.profile then _ else _ : InputSection).trimTarget = _
  split <;> rfl

section Work
variable {s : State}

theorem State.learnCounts_iff : s.learnCounts = true ↔
    s.input.learner.learning = true ∧ s.input.learner.counting = true ∧ s.grid.opened = true := by
  simp [State.learnCounts, and_assoc]

theorem State.learnWork_of_idle (idle : s.input.learner.learning = false) : s.learnWork = s := by
  rw [State.learnWork, if_neg (by simp [State.learnCounts_iff, idle]), if_neg (by simp [idle])]

/-- The first block that begins after the start was taken is the first that counts. -/
theorem State.learnWork_of_uncounted (learning : s.input.learner.learning = true)
    (uncounted : s.input.learner.counting = false ∨ s.grid.opened = false) :
    s.learnWork = s.withLearner { s.input.learner with counting := true } := by
  rw [State.learnWork, if_neg (by rw [State.learnCounts_iff]; grind), if_pos learning]
  rfl

theorem State.learnWork_of_more (counts : s.learnCounts = true) (more : s.learnEnd = none) :
    s.learnWork = s.withLearner s.learnCounted := by
  rw [State.learnWork, if_pos counts, more]
  rfl

theorem State.learnWork_of_end (counts : s.learnCounts = true) {e : LearnEnd} (ends : s.learnEnd = some e) :
    s.learnWork = (s.learnEnded e).complete s.input.learner.slot e.code (.given e.value) := by
  rw [State.learnWork, if_pos counts, ends]
  rfl

end Work

end Sys2Proof.Machine

namespace Sys2Proof.Proofs
open Sys2Proof.Machine

/-- Settles O20: the end of a learn at its block start; the three ways in which the learn work leaves a learn running; and
the outcome, by the bin that 5 % of the signal blocks reach. -/
theorem learnCompletionWritesTrim : Obligations.LearnCompletionWritesTrim := by
  refine ⟨fun s e yet => ?ends, fun s => ?work, fun l old => ?outcome⟩
  case ends =>
    intro b l mem learning counting opened ends
    have counts : b.learnCounts = true := State.learnCounts_iff.mpr ⟨learning, counting, opened⟩
    have isDue : State.learnDue b = true := by rw [State.learnDue, counts, ends]; rfl
    refine ⟨_, exec_event_of_due (exec_learnComplete s) yet isDue, ?_⟩
    have mem' : (b.learnEnded e).memoryOk := by
      unfold State.memoryOk
      rw [State.learnEnded_ram]
      exact (s.before_keeps .learn).memory mem
    have worked : Work.learn.run b = (b.learnEnded e).complete l.slot e.code (.given e.value) :=
      State.learnWork_of_end counts ends
    have inputIs : (Work.learn.run b).input = (b.learnEnded e).input := by rw [worked, State.complete_input]
    have storeIs : (Work.learn.run b).store = (b.learnEnded e).store := by rw [worked, State.complete_store]
    obtain ⟨pending, engine, router, tuner, link⟩ := b.learnEnded_others e
    show (Work.learn.run b).input.learner.learning = false ∧
      (e.trim = none → (Work.learn.run b).store = b.store ∧ (Work.learn.run b).input.trimTarget = b.input.trimTarget) ∧
      (∀ v, e.trim = some v → (Work.learn.run b).store = _ ∧ (Work.learn.run b).input.trimTarget = _) ∧
      (l.slot < 32 → b.requests.slots[l.slot]? = some .taken → (Work.learn.run b).requests.slots[l.slot]? = some .done ∧
        readLE (Work.learn.run b).ram _ 2 = e.code.code ∧ readLE (Work.learn.run b).ram _ 4 = argBits e.value) ∧
      (Work.learn.run b).pending = b.pending ∧ (Work.learn.run b).engine = b.engine ∧
      (Work.learn.run b).router = b.router ∧ (Work.learn.run b).tuner = b.tuner ∧ (Work.learn.run b).link = b.link
    rw [inputIs, storeIs]
    refine ⟨?_, b.learnEnded_of_none, fun v => b.learnEnded_of_some, fun inside taken => ?_, ?_⟩
    · rw [State.learnEnded_learner]; rfl
    · rw [worked]
      have stands := State.complete_stands mem' inside ((congrArg (·.slots[l.slot]?) (b.learnEnded_requests e)).trans taken)
        e.code (.given e.value)
      exact ⟨stands.done, stands.code, stands.value⟩
    · rw [worked]
      exact ⟨(State.complete_pending ..).trans pending, (State.complete_engine ..).trans engine,
        (State.complete_router ..).trans router, (State.complete_tuner ..).trans tuner, (State.complete_link ..).trans link⟩
  case work =>
    intro l samples code counted t
    have countedIs : s.learnCounted = counted := by
      have code_eq : s.rawPeakCode = code := s.rawPeakCode_eq rfl
      rw [State.learnCounted, Learner.count_eq _ s.rawPeakCode_nonneg, code_eq]
    refine ⟨State.learnWork_of_idle, State.learnWork_of_uncounted, fun learning counting opened => ?_⟩
    have counts : s.learnCounts = true := State.learnCounts_iff.mpr ⟨learning, counting, opened⟩
    refine ⟨by rw [State.learnEnd, countedIs], fun more => ?_, fun e ends => ?_⟩
    · rw [← countedIs]
      exact State.learnWork_of_more counts more
    · show s.learnWork.input.learner = _
      rw [State.learnWork_of_end counts ends, State.complete_input, State.learnEnded_learner, countedIs]
      rfl
  case outcome =>
    intro total new value full
    refine ⟨fun short => Learner.finished_of_more old short, fun short => Learner.finished_of_noSignal old short,
      fun p inside reached first => ?_⟩
    have trim : l.newTrim = new p := by rw [Learner.newTrim, loudBin_eq inside reached first]; rfl
    have valueIs : l.newTrim % 65536 + 65536 * (l.signalBlocks : Int) = value p := by rw [trim]
    rw [← valueIs, ← trim]
    refine ⟨fun isFull => ?_, fun short ended signal => ?_⟩
    · rw [Learner.finished_of_full old isFull]
      exact ⟨fun near => congrArg some (Learner.measured_of_near near true),
        fun far clipped => congrArg some (Learner.measured_of_clipped far clipped),
        fun far clean => congrArg some (Learner.measured_of_clean far clean)⟩
    · rw [Learner.finished_of_partial old short ended signal]
      exact ⟨fun near => congrArg some (Learner.measured_of_near near false),
        fun far => congrArg some (Learner.measured_of_partial far)⟩

end Sys2Proof.Proofs
end

section
/-! SUPPORT. Frames handed on (R174), and the profile work of a block start (R55, R59, R60, R78, R85, R99). -/

namespace Sys2Proof.Machine

/-! ## Frames handed on change the link alone, and the notices -/

theorem State.sameBlocks.refl (s : State) : s.sameBlocks s := ⟨rfl, rfl, rfl, rfl, rfl, rfl, rfl, rfl, rfl⟩

theorem State.sameBlocks.trans {s t u : State} (first : s.sameBlocks t) (second : t.sameBlocks u) : s.sameBlocks u := by
  obtain ⟨a1, a2, a3, a4, a5, a6, a7, a8, a9⟩ := first
  obtain ⟨b1, b2, b3, b4, b5, b6, b7, b8, b9⟩ := second
  exact ⟨b1.trans a1, b2.trans a2, b3.trans a3, b4.trans a4, b5.trans a5, b6.trans a6, b7.trans a7, b8.trans a8,
    b9.trans a9⟩

/-- The part with its link as this. -/
def State.withLink (s : State) (l : Link) : State := { s with link := l }

theorem State.handFrame_blocks (s : State) (f : MasterFrame) (l : Link) :
    (s.withLink l).sameBlocks ((s.handFrame f).withLink l) := by
  unfold State.handFrame
  dsimp only
  split <;> exact ⟨rfl, rfl, rfl, rfl, rfl, rfl, rfl, rfl, rfl⟩

theorem State.handFrames_blocks (s : State) (fs : List MasterFrame) :
    (s.withLink (s.handFrames fs).link).sameBlocks (s.handFrames fs) := by
  induction fs generalizing s with
  | nil => exact .refl s
  | cons f fs ih => exact (s.handFrame_blocks f _).trans (ih (s.handFrame f))

/-! ## The Tuner at a profile change (R99) -/

theorem Tuner.restart_reads (t : Tuner) (reference : Nat) : (t.restart reference).reads = (1, 0, 0) := rfl

section TunerProfile
variable {s : State} {p : Profile}

/-- A restart hands its reading on (R102). -/
theorem State.tunerProfile_of_restart (engaged : s.tuner.state ≠ .off)
    (changed : p.input ≠ s.input.selected ∨ p.reference ≠ s.tuner.reference) :
    s.tunerProfile p =
      State.handFrames { s with tuner := s.tuner.restart p.reference } (readingFrames s.link.units (1, 0, 0)) := by
  rw [State.tunerProfile, if_pos (by simpa [Tuner.isEngaged_iff, engaged] using changed), State.handReading, tuneFrames_eq,
    Tuner.restart_reads]

theorem State.tunerProfile_of_same (same : s.tuner.state = .off ∨ p.input = s.input.selected ∧ p.reference = s.tuner.reference) :
    s.tunerProfile p = { s with tuner := { s.tuner with reference := p.reference } } := by
  rw [State.tunerProfile, if_neg]
  rw [Bool.and_eq_true, Tuner.isEngaged_iff, Bool.or_eq_true, bne_iff_ne, bne_iff_ne]
  rintro ⟨engaged, moved⟩
  rcases same with off | ⟨input, reference⟩
  · exact engaged off
  · exact moved.elim (· input) (· reference)

/-- In either case the Tuner has the new reference, and the Tuner and the link alone have changed. -/
theorem State.tunerProfile_rest (s : State) (p : Profile) : (s.tunerProfile p).tuner.reference = p.reference ∧
    (s.tunerProfile p).input = s.input ∧ (s.tunerProfile p).store = s.store ∧ (s.tunerProfile p).engine = s.engine ∧
    (s.tunerProfile p).transition = s.transition := by
  by_cases restart : s.tuner.state ≠ .off ∧ (p.input ≠ s.input.selected ∨ p.reference ≠ s.tuner.reference)
  · obtain ⟨engaged, changed⟩ := restart
    rw [State.tunerProfile_of_restart engaged changed]
    obtain ⟨input, store, engine, transition, tuner, _⟩ := State.handFrames_blocks
      { s with tuner := s.tuner.restart p.reference } (readingFrames s.link.units (1, 0, 0))
    exact ⟨congrArg (·.reference) tuner, input, store, engine, transition⟩
  · have same : s.tuner.state = .off ∨ p.input = s.input.selected ∧ p.reference = s.tuner.reference := by
      by_cases off : s.tuner.state = .off
      · exact .inl off
      · obtain ⟨input, reference⟩ := not_or.1 fun changed => restart ⟨off, changed⟩
        exact .inr ⟨Decidable.not_not.1 input, Decidable.not_not.1 reference⟩
    rw [State.tunerProfile_of_same same]
    exact ⟨rfl, rfl, rfl, rfl, rfl⟩

end TunerProfile

/-! ## The profile work of a block start (R78) -/

/-- A learn that runs under another profile ends (R85). -/
def State.leaveLearn (s : State) : State := if s.input.chosen ≠ s.input.active then s.abortLearn else s

theorem State.leaveLearn_rest (s : State) : s.leaveLearn.input = { s.input with learner := s.leaveLearn.input.learner } ∧
    s.leaveLearn.store = s.store ∧ s.leaveLearn.engine = s.engine ∧ s.leaveLearn.transition = s.transition ∧
    s.leaveLearn.tuner = s.tuner ∧ s.leaveLearn.link = s.link := by
  by_cases left : s.input.chosen ≠ s.input.active ∧ s.input.learner.learning = true
  · obtain ⟨other, learning⟩ := left
    rw [State.leaveLearn, if_pos other]
    refine ⟨?_, s.abortLearn_store, s.abortLearn_engine, s.abortLearn_transition, s.abortLearn_tuner, s.abortLearn_link⟩
    rw [State.abortLearn_input learning]
  · have stays : s.leaveLearn = s := by
      unfold State.leaveLearn
      split
      next other => exact State.abortLearn_of_idle (by simpa using fun learning => left ⟨other, learning⟩)
      next => rfl
    rw [stays]
    exact ⟨rfl, rfl, rfl, rfl, rfl, rfl⟩

theorem State.leaveLearn_of_other {s : State} (other : s.input.chosen ≠ s.input.active)
    (learning : s.input.learner.learning = true) : s.leaveLearn.input.learner.learning = false := by
  rw [State.leaveLearn, if_pos other, State.abortLearn_input learning]
  rfl

theorem State.leaveLearn_of_active {s : State} (active : s.input.chosen = s.input.active) : s.leaveLearn = s :=
  if_neg (not_not_intro active)

theorem InputSection.changeDue_iff (i : InputSection) :
    i.changeDue = true ↔ i.chosen ≠ i.active ∨ i.chosen ∈ i.rewritten := by
  simp [InputSection.changeDue]

/-- The part with a profile made active in the Input Section. -/
def State.activateProfile (s : State) (p : Profile) : State :=
  { s with input := { s.input.activate p with rewritten := [] } }

theorem State.profileWork_of_change {s : State} (due : s.input.changeDue = true) {p : Profile}
    (chosen : s.store.profiles.getD s.input.chosen .reset = p) :
    s.profileWork = (s.leaveLearn.tunerProfile p).activateProfile p := by
  unfold State.profileWork
  rw [if_pos due, chosen]
  rfl

end Sys2Proof.Machine

namespace Sys2Proof.Proofs
open Sys2Proof.Machine

/-- Settles O21: what the profile work of a block start makes of each block, through the state in which a learn has been
left and the Tuner has the new profile. -/
theorem profileChangeTakesUpChosen : Obligations.ProfileChangeTakesUpChosen := by
  intro s yet b p change
  have isDue : b.input.changeDue = true := (InputSection.changeDue_iff _).mpr change
  have worked : Work.profile.run b = (b.leaveLearn.tunerProfile p).activateProfile p := State.profileWork_of_change isDue rfl
  have next := exec_event_of_due (exec_profileChangeTakeup s) yet isDue
  rw [worked] at next
  refine ⟨_, next, ?_⟩
  obtain ⟨input, store, engine, transition, tuner, link⟩ := b.leaveLearn_rest
  obtain ⟨reference, input', store', engine', transition'⟩ := b.leaveLearn.tunerProfile_rest p
  have restart := State.tunerProfile_of_restart (s := b.leaveLearn) (p := p)
  have keeps := State.tunerProfile_of_same (s := b.leaveLearn) (p := p)
  have left := State.leaveLearn_of_other (s := b)
  have stays : b.input.chosen = b.input.active → b.leaveLearn.input.learner = b.input.learner :=
    fun active => congrArg (·.input.learner) (State.leaveLearn_of_active active)
  clear next worked
  generalize b.leaveLearn.tunerProfile p = u at *
  generalize b.leaveLearn = l at *
  have inputIs : ((u.activateProfile p).mark (Work.profile.place + 1)).input =
      { InputSection.activate { b.input with learner := l.input.learner } p with rewritten := [] } :=
    congrArg (fun i => { InputSection.activate i p with rewritten := [] }) (input'.trans input)
  have selected : l.input.selected = b.input.selected := congrArg (·.selected) input
  rw [inputIs]
  refine ⟨rfl, rfl, rfl, rfl, rfl, rfl, apply_ite _ _ _ _, apply_ite _ _ _ _, reference, store'.trans store,
    engine'.trans engine, transition'.trans transition, fun off => ?off, fun engaged changed => ?restart,
    fun same => ?same, left, stays⟩
  case off =>
    show u.tuner = _
    rw [keeps (.inl (by rw [tuner, off])), tuner]
  case restart =>
    obtain ⟨_, _, _, _, restarted, _⟩ := State.handFrames_blocks
      { l with tuner := l.tuner.restart p.reference } (readingFrames l.link.units (1, 0, 0))
    rw [← restart (by rwa [tuner]) (by rwa [tuner, selected])] at restarted
    have tunerIs : u.tuner = l.tuner.restart p.reference := restarted
    have linkIs : u.link = (b.handFrames (readingFrames b.link.units (1, 0, 0))).link := by
      rw [restart (by rwa [tuner]) (by rwa [tuner, selected]), link]
      exact State.handFrames_link (by rfl) _
    show u.tuner.state = _ ∧ u.tuner.history = _ ∧ u.tuner.windowCount = _ ∧ u.tuner.run = _ ∧ u.tuner.accepted = _ ∧
      u.tuner.shownNote = _ ∧ u.tuner.shownCents = _ ∧ u.tuner.collecting = _ ∧ u.link = _
    rw [tunerIs]
    exact ⟨rfl, rfl, rfl, rfl, rfl, rfl, rfl, rfl, linkIs⟩
  case same =>
    show u.tuner = _ ∧ u.link = _
    rw [keeps (by rwa [tuner, selected]), tuner]
    exact ⟨rfl, link⟩

end Sys2Proof.Proofs
end

section
/-! SUPPORT. The commands that name one event of a block start (log 3, log 5). -/

namespace Sys2Proof.Machine

/-- Each of these commands runs the block start up to its work. -/
theorem exec_eventRow {r : Instr × Work × (State → Bool)} (row : r ∈ eventRows) :
    ∀ s, exec r.1 s = whenReady s (·.upTo r.2.1 r.2.2) := by
  have arms : ∀ r ∈ eventRows, ∀ s, exec r.1 s = whenReady s (·.upTo r.2.1 r.2.2) := by
    simp only [eventRows, List.forall_mem_cons]
    exact ⟨exec_gateHoldExpiry, exec_tailQuietEnd, exec_tailAgeEnd, exec_learnComplete, exec_tunerWindowEnd,
      exec_tunerHoldExpiry, exec_profileChangeTakeup, exec_stageSelect, exec_restage, exec_dipTurn, exec_fadeEnd,
      exec_dipEnd, exec_engineStop, exec_engineRestart, exec_directCopy, exec_impulseLoadComplete, exec_routeCrossfadeEnd,
      exec_routeCrossfadeStart, exec_referralExpiry, exec_controlEventTake, exec_readoutPeriodClose, nofun⟩
  exact arms r row

theorem Work.mem_works (w : Work) : w ∈ works := by cases w <;> decide

/-- The command of an event that is not due changes nothing (log 3). -/
theorem exec_event_of_not_due {c : Instr} {s : State} {w : Work} {due : State → Bool}
    (arm : exec c s = whenReady s (·.upTo w due)) (notDue : ¬ (s.yetTo w ∧ due (s.before w) = true)) :
    exec c s = .next s := by
  cases ready : s.port.ready with
  | false => exact exec_of_not_ready arm ready
  | true =>
    rw [exec_of_ready arm ready, State.upTo_of_not_due]
    rintro ⟨notDone, isDue⟩
    exact notDue ⟨⟨ready, notDone⟩, isDue⟩

end Sys2Proof.Machine

namespace Sys2Proof.Proofs
open Sys2Proof.Machine

/-- Settles O55: the two outcomes of each command, and that a block start after it does the works not yet done. -/
theorem eventRowsArePartOfTheBlockStart : Obligations.EventRowsArePartOfTheBlockStart := by
  refine ⟨fun c w due row s => ⟨fun yet isDue => ⟨_, exec_event_of_due (exec_eventRow row s) yet isDue, rfl⟩,
    fun notDue => exec_event_of_not_due (exec_eventRow row s) notDue⟩, fun c w due row s t next => ?_⟩
  cases ready : s.port.ready with
  | false =>
    rw [exec_of_not_ready (exec_eventRow row s) ready] at next
    cases next
    rfl
  | true =>
    rw [exec_of_ready (exec_eventRow row s) ready] at next
    cases next
    have still : (s.upTo w due).port.ready = true := (State.upTo_steps s w due).ready.trans ready
    rw [exec_of_ready (exec_blockStart _) ready, exec_of_ready (exec_blockStart _) still,
      State.blockStart_after_upTo s w due w.mem_works]

end Sys2Proof.Proofs
end

section
/-! SUPPORT. The gate's step, state by state (R26, R27), and what the close of a block leaves. -/

namespace Sys2Proof.Machine

/-! ## The gate's step (R26, R27) -/

/-- The gain code as it enters a block. -/
def gateHeld (params : List Int) (state : GateState) (g : Int) : Int :=
  if state = .closed then params.getD 5 0 else min g (params.getD 5 0)

/-- The gain code moved by the attack step. -/
def gateAttacked (params : List Int) (state : GateState) (g : Int) : Int :=
  max 0 (gateHeld params state g - ceilDiv (params.getD 5 0) (params.getD 2 0))

/-- The gain code moved by the release step. -/
def gateReleasedCode (params : List Int) (state : GateState) (g : Int) : Int :=
  min (params.getD 5 0) (gateHeld params state g + ceilDiv (params.getD 5 0) (params.getD 3 0))

section Gate
variable (params : List Int) (c g hold : Int)

theorem gateStep_closed : gateStep params c .closed g hold =
    if c ≤ params.getD 0 0 then (.opening, gateAttacked params .closed g, hold) else (.closed, params.getD 5 0, hold) := rfl

theorem gateStep_opening : gateStep params c .opening g hold =
    (if gateAttacked params .opening g = 0 then .opened else .opening, gateAttacked params .opening g, hold) := rfl

theorem gateStep_opened : gateStep params c .opened g hold =
    if c ≤ params.getD 0 0 + params.getD 1 0 then (.opened, 0, hold)
    else if 0 < params.getD 4 0 then (.holding, 0, params.getD 4 0)
    else (.closing, gateReleasedCode params .opened g, hold) := rfl

theorem gateStep_holding : gateStep params c .holding g hold =
    if c ≤ params.getD 0 0 then (.opened, 0, hold)
    else if hold - 1 ≤ 0 then (.closing, gateReleasedCode params .holding g, 0)
    else (.holding, 0, hold - 1) := rfl

theorem gateStep_closing : gateStep params c .closing g hold =
    if c ≤ params.getD 0 0 then (.opening, gateAttacked params .closing g, hold)
    else (if gateReleasedCode params .closing g = params.getD 5 0 then .closed else .closing,
      gateReleasedCode params .closing g, hold) := rfl

end Gate

theorem ceilDiv_nonneg {d a : Int} (nonneg : 0 ≤ d) (positive : 0 < a) : 0 ≤ ceilDiv d a :=
  Int.ediv_nonneg (by omega) (by omega)

section Bounds
variable {params : List Int} {g : Int} (depth : 0 ≤ params.getD 5 0) (gain : 0 ≤ g)
include depth gain

theorem gateHeld_bounds (state : GateState) : 0 ≤ gateHeld params state g ∧ gateHeld params state g ≤ params.getD 5 0 := by
  unfold gateHeld
  split <;> omega

theorem gateAttacked_bounds (attack : 0 < params.getD 2 0) (state : GateState) :
    0 ≤ gateAttacked params state g ∧ gateAttacked params state g ≤ params.getD 5 0 := by
  have held := gateHeld_bounds depth gain state
  have step := ceilDiv_nonneg depth attack
  unfold gateAttacked
  omega

theorem gateReleasedCode_bounds (release : 0 < params.getD 3 0) (state : GateState) :
    0 ≤ gateReleasedCode params state g ∧ gateReleasedCode params state g ≤ params.getD 5 0 := by
  have held := gateHeld_bounds depth gain state
  have step := ceilDiv_nonneg depth release
  unfold gateReleasedCode
  omega

/-- The gain code stays between 0 and the depth. -/
theorem gateStep_gain_bounds (attack : 0 < params.getD 2 0) (release : 0 < params.getD 3 0) (c hold : Int)
    (state : GateState) :
    0 ≤ (gateStep params c state g hold).2.1 ∧ (gateStep params c state g hold).2.1 ≤ params.getD 5 0 := by
  have attacked := gateAttacked_bounds depth gain attack state
  have released := gateReleasedCode_bounds depth gain release state
  cases state with
  | closed => rw [gateStep_closed]; split <;> simp only <;> omega
  | opening => exact attacked
  | opened =>
    rw [gateStep_opened]
    split
    · simp only; omega
    · split <;> simp only <;> omega
  | holding =>
    rw [gateStep_holding]
    split
    · simp only; omega
    · split <;> simp only <;> omega
  | closing => rw [gateStep_closing]; split <;> simp only <;> omega

end Bounds

/-! ## The close of a block -/

theorem State.closeWork_rest (s : State) : s.closeWork.requests = s.requests ∧ s.closeWork.port = s.port ∧
    s.closeWork.ram = s.ram ∧ s.closeWork.mapper = s.mapper ∧ s.closeWork.tuner = s.tuner ∧
    s.closeWork.link.blockCount = s.link.blockCount + 1 ∧ s.closeWork.report.periodCount = s.report.periodCount + 1 := by
  unfold State.closeWork
  split <;> exact ⟨rfl, rfl, rfl, rfl, rfl, rfl, rfl⟩

/-- Where no work of the block start is done, nothing comes before the first. -/
theorem State.before_close {s : State} (none_done : s.grid.done = 0) : s.before .close = s := by
  have place : Work.close.place = 0 := rfl
  rw [State.before, place, List.take_zero, List.drop_nil]
  show s.mark 0 = s
  rw [State.mark, ← none_done]

theorem gateReleased_of {before after : Stage} {g g' h h' : Int} (held : before.state = .gate .holding g h)
    (closing : after.state = .gate .closing g' h') : gateReleased before after = true := by
  rw [gateReleased, held, closing]

/-- A gate of LIVE that goes from HOLDING to CLOSING makes the event due. -/
theorem State.gateHoldDue_of_live {s : State} {p : Nat} {before after : Stage}
    (stood : s.engine.live.stages[p]? = some before) (stands : s.closeWork.engine.live.stages[p]? = some after)
    (released : gateReleased before after = true) : s.gateHoldDue = true := by
  refine Bool.or_eq_true_iff.mpr (.inl (List.any_eq_true.mpr ⟨true, ?_, rfl⟩))
  refine List.mem_of_getElem? (i := p) ?_
  rw [List.getElem?_zipWith, stood, stands]
  exact congrArg some released

end Sys2Proof.Machine

namespace Sys2Proof.Proofs
open Sys2Proof.Machine

/-- Settles O50: the notice as it is read back, and the bytes outside it. -/
theorem noticeIsWrittenAtCount : Obligations.NoticeIsWrittenAtCount := by
  intro s x mem
  obtain ⟨number, kind, originClass, originIndex, args⟩ := State.notify_reads mem x
  refine ⟨rfl, rfl, number, kind, originClass, originIndex, args, ?_, fun b outside count => ?_, rfl, rfl,
    ⟨rfl, rfl, rfl, rfl, rfl, rfl, rfl, rfl, rfl⟩⟩
  · refine (readLE_writeLE_same (wf_writeFields mem _ _) _ (by decide)).trans ?_
    have := (s.report.noticeCount + 1).isLt
    omega
  · exact State.notify_outside mem x outside count

/-- Settles O53: the gate's step in each state; and the event at the close of a block. -/
theorem gateStatesAndHoldExpiry : Obligations.GateStatesAndHoldExpiry := by
  refine ⟨fun params c g hold => ?step, fun s p before after g g' h h' ready none_done stood held stands closing => ?event⟩
  case step =>
    intro thr quiet d depth gain attack release holdParam st gainOf counter
    have closed := gateStep_closed params c g hold
    have opening := gateStep_opening params c g hold
    have opened := gateStep_opened params c g hold
    have holding := gateStep_holding params c g hold
    have closing := gateStep_closing params c g hold
    have bounds := gateStep_gain_bounds depth gain attack release c hold
    have heard {α : Type} {a b : α} (loud : c ≤ thr) : (if c ≤ params.getD 0 0 then a else b) = a := if_pos loud
    have unheard {α : Type} {a b : α} (soft : thr < c) : (if c ≤ params.getD 0 0 then a else b) = b :=
      if_neg (Int.not_le.mpr soft)
    have held {α : Type} {a b : α} (loud : c ≤ quiet) : (if c ≤ params.getD 0 0 + params.getD 1 0 then a else b) = a :=
      if_pos loud
    have unheld {α : Type} {a b : α} (soft : quiet < c) : (if c ≤ params.getD 0 0 + params.getD 1 0 then a else b) = b :=
      if_neg (Int.not_le.mpr soft)
    simp only [st, gainOf, counter, closed, opening, opened, holding, closing]
    refine ⟨fun loud => ?heard, fun soft => ?idle, fun zero => if_pos zero, fun more => if_neg (by omega),
      fun loud => ?opened, fun soft hold' => ?toHolding, fun soft noHold => ?toClosing, fun soft last => ?expires,
      fun soft more => ?counts, fun soft shut => ?closes, fun soft more => ?closing, bounds, rfl, fun loud => ?heardGain,
      fun either => ?openGain, fun soft noHold => ?openedGain,
      fun soft => ⟨fun more => ?holdingGain, fun last => ?expiryGain, ?closingGain⟩⟩
    case heard => rw [heard loud, heard loud, heard loud]; exact ⟨rfl, rfl, rfl⟩
    case idle => rw [unheard soft]; exact ⟨rfl, rfl⟩
    case opened => rw [held loud]
    case toHolding => rw [unheld soft, if_pos hold']; exact ⟨rfl, rfl⟩
    case toClosing => rw [unheld soft, if_neg (by omega)]
    case expires => rw [unheard soft, if_pos (by omega)]
    case counts => rw [unheard soft, if_neg (by omega)]; exact ⟨rfl, rfl⟩
    case closes => rw [unheard soft] at shut ⊢; exact if_pos shut
    case closing => rw [unheard soft] at more ⊢; exact if_neg (Int.ne_of_lt more)
    case heardGain => rw [heard loud, heard loud, heard loud]; exact ⟨rfl, rfl, rfl⟩
    case openGain =>
      obtain loud | hold' := either
      · rw [held loud]
      · rw [if_pos hold']; split <;> rfl
    case openedGain => rw [unheld soft, if_neg (by omega)]; rfl
    case holdingGain => rw [unheard soft, if_neg (by omega)]
    case expiryGain => rw [unheard soft, if_pos (by omega)]; rfl
    case closingGain => rw [unheard soft]; rfl
  case event =>
    have before_is := State.before_close none_done
    have isDue : State.gateHoldDue (s.before .close) = true := by
      rw [before_is]
      exact State.gateHoldDue_of_live stood stands (gateReleased_of held closing)
    have next := exec_event_of_due (exec_gateHoldExpiry s) ⟨ready, none_done ▸ Nat.zero_le _⟩ isDue
    rw [before_is] at next
    obtain ⟨requests, port, ram, mapper, tuner, blockCount, periodCount⟩ := s.closeWork_rest
    exact ⟨_, next, stands, blockCount, periodCount, rfl, requests, port, ram, mapper, tuner⟩

end Sys2Proof.Proofs
end

section
/-! SUPPORT. The Tuner's reading (R95), and its engage and disengage (R87, R102). -/

namespace Sys2Proof.Machine

/-! ## The reading of a period (R95) -/

/-- The integer part of log2(b / a). -/
def quotientLog (a b : Nat) : Int := if a ≤ b then ((b / a).log2 : Int) else -(((a - 1) / b).log2 + 1 : Int)

/-- The powers of 2 below a quotient are those up to the integer part of its logarithm. -/
theorem le_quotientLog_iff {a b : Nat} (ha : 0 < a) (hb : 0 < b) (k : Int) :
    2 ^ k.toNat * a ≤ 2 ^ (-k).toNat * b ↔ k ≤ quotientLog a b := by
  unfold quotientLog
  obtain ⟨n, rfl | rfl⟩ := Int.eq_nat_or_neg k
  · have back : (-(n : Int)).toNat = 0 := by omega
    rw [Int.toNat_natCast, back, Nat.pow_zero, Nat.one_mul]
    split
    next le =>
      rw [Int.ofNat_le, Nat.le_log2 (Nat.ne_of_gt (Nat.div_pos le ha)), Nat.le_div_iff_mul_le ha]
    next gt =>
      have large : a ≤ 2 ^ n * a := Nat.le_mul_of_pos_left a (Nat.two_pow_pos n)
      omega
  · have back : (-(n : Int)).toNat = 0 := by omega
    rw [Int.neg_neg, Int.toNat_natCast, back, Nat.pow_zero, Nat.one_mul]
    split
    next le =>
      have large : b ≤ 2 ^ n * b := Nat.le_mul_of_pos_left b (Nat.two_pow_pos n)
      omega
    next gt =>
      have whole : (a - 1) / b ≠ 0 := Nat.ne_of_gt (Nat.div_pos (by omega) hb)
      have reach : a ≤ 2 ^ n * b ↔ ((a - 1) / b).log2 < n := by
        rw [Nat.log2_lt whole, Nat.div_lt_iff_lt_mul hb]
        omega
      omega

/-- t is the integer part of the logarithm, with 1 added, halved. -/
theorem readingT_eq (p16 r : Nat) :
    readingT p16 r = (quotientLog (Nat.pow (p16 * r) 24000) (Nat.pow 7680000 24000) + 1) / 2 := by
  unfold readingT quotientLog
  generalize Nat.pow (p16 * r) 24000 = a
  generalize Nat.pow 7680000 24000 = b
  dsimp only
  split
  · rfl
  · congr 1

/-! ## Engage and disengage (R87) -/

theorem toneWritten_eq (v : Int) :
    (toneWritten v).1.toNat = (if v = 0 then 0 else if v < 0 then 0 else (max 28 (min 96 v)).toNat) ∧
    ((toneWritten v).2 = true ↔ v ≠ 0 ∧ (v < 28 ∨ 96 < v)) := by
  unfold toneWritten
  split
  next zero => simp [zero]
  next nonzero =>
    split
    next negative => exact ⟨rfl, by simp only [true_iff]; omega⟩
    next => exact ⟨rfl, (clampMark_marked 28 96 v).trans (by simp [nonzero])⟩

theorem okCode_of_iff {marked : Bool} {p : Prop} [Decidable p] (iff : marked = true ↔ p) :
    okCode marked = if p then .okClamped else .ok := by
  simp only [← iff]
  rfl

/-- No unit shows a reading where none that is enabled and PRESENT has its display flag set. -/
theorem readingFrames_of_dark {units : List UnitEntry} (reading : Nat × Int × Int)
    (dark : ∀ u, u ∈ units → u.state = .present → u.enabled = true → u.display = false) : readingFrames units reading = [] := by
  unfold readingFrames
  rw [List.filter_eq_nil_iff.mpr, List.map_nil]
  intro u hu shows
  obtain ⟨enabled, present, display⟩ := of_decide_eq_true shows
  rw [dark u hu present enabled] at display
  cases display

theorem State.handFrames_nil (s : State) : s.handFrames [] = s := rfl

theorem State.setTuner_of_same {s : State} {t : Tuner} (same : s.tuner.isEngaged = t.isEngaged) :
    s.setTuner t = { s with tuner := t } := by rw [State.setTuner_reads, if_pos same]

theorem State.setTuner_of_change {s : State} {t : Tuner} (change : s.tuner.isEngaged ≠ t.isEngaged) :
    s.setTuner t = State.handFrames { s with tuner := t } (readingFrames s.link.units t.reads) := by
  rw [State.setTuner_reads, if_neg change]

section Requests
variable {c : Instr} {s : State} {n : Nat} {rest : List Nat} {x : Tuner} {code : Result} {value : ResultValue}
  {due : Taken → Bool} {carry : Taken → State → Answer}
  (arm : ∀ s, exec c s = whenReady s (·.take due .none carry)) (mem : s.memoryOk) (head : s.headIs n rest)
  (hdue : due (takenAt s.ram n) = true)
  (carried : carry (takenAt s.ram n) (s.takeHead n rest) = ((s.takeHead n rest).setTuner x).answer code value)
include arm mem head hdue carried

/-- A request that leaves the Tuner engaged, or OFF, as it was. -/
theorem completes_setTuner (keeps : CarryKeeps carry) (same : s.tuner.isEngaged = x.isEngaged) :
    completes c s { s with tuner := x } n rest code value := by
  rw [State.setTuner_of_same (s := s.takeHead n rest) same] at carried
  exact completes_blocks arm mem head hdue (BufferNeed.none_passes _) keeps carried

/-- A request that engages the Tuner or disengages it, with its reading handed on; and where no unit shows the reading. -/
theorem completesFrom_setTuner (keeps : CarryKeeps carry) (change : s.tuner.isEngaged ≠ x.isEngaged) :
    completesFrom c s (State.handFrames { s with tuner := x } (readingFrames s.link.units x.reads)) n rest code value ∧
    ((∀ u, u ∈ s.link.units → u.state = .present → u.enabled = true → u.display = false) →
      completes c s { s with tuner := x } n rest code value) := by
  rw [State.setTuner_of_change (s := s.takeHead n rest) change, State.takeHead_link] at carried
  refine ⟨?_, fun dark => ?_⟩
  · unfold completesFrom
    rw [arm]
    exact State.take_answersFrom head hdue (BufferNeed.none_passes _) carried
      ((takeHead_alike mem n rest x).handFrames _) (State.handFrames_requests _ _) (State.handFrames_requests _ _)
  · rw [readingFrames_of_dark _ dark, State.handFrames_nil] at carried
    exact completes_blocks arm mem head hdue (BufferNeed.none_passes _) keeps carried

end Requests

theorem carryTunerEngage_invalid {t : Taken} (s : State) (other : t.arg1 ≠ 0 ∧ t.arg1 ≠ 1) :
    carryTunerEngage t s = s.answer .invalid (.given s.tuner.state.code) := if_pos other

theorem carryTunerEngage_engages {t : Taken} (s : State) (mode : t.arg1 = 0 ∨ t.arg1 = 1) :
    carryTunerEngage t s =
      let x := s.tuner.engage (if t.arg1 = 0 then .mute else .live) (decide (t.arg2 ≠ 0)) (toneWritten t.arg3).1.toNat
      (s.setTuner x).answer (okCode (decide (1 < t.arg0) || (toneWritten t.arg3).2)) (.given x.state.code) :=
  if_neg (by omega)

section Engage
variable {t : Tuner} (mode : TunerMode) (phones : Bool) (tone : Nat)

theorem Tuner.engage_of_off (off : t.state = .off) : t.engage mode phones tone =
    { t with mode := mode, phonesMute := phones, toneNote := tone, state := .listen, engaged := true } := if_pos off

theorem Tuner.engage_of_engaged (engaged : t.state ≠ .off) :
    t.engage mode phones tone = { t with mode := mode, phonesMute := phones, toneNote := tone } := if_neg engaged

end Engage

theorem Tuner.isEngaged_of_off {t : Tuner} (off : t.state = .off) : t.isEngaged = false := by
  rw [Tuner.isEngaged, off]
  rfl

theorem Tuner.disengage_of_off {t : Tuner} (off : t.state = .off) : t.disengage = t := if_pos off

theorem Tuner.disengage_of_engaged {t : Tuner} (engaged : t.state ≠ .off) : t.disengage =
    { t with
      state := .off, run := [], accepted := [], tunedMark := false, lockedWindows := 0, collecting := false,
      engaged := false } := if_neg engaged

end Sys2Proof.Machine

namespace Sys2Proof.Proofs
open Sys2Proof.Machine

/-- Settles O36: t by the powers of 2 below the quotient; and the arithmetic of a reading. -/
theorem tunerReadingRule : Obligations.TunerReadingRule := by
  refine ⟨fun p16 r low _ low' _ => ?reading, fun t => ⟨rfl, rfl, rfl, ?least, ?most⟩, rfl, rfl, rfl⟩
  case reading =>
    intro t above
    have positive (base n : Nat) (hbase : 0 < base) : 0 < Nat.pow base n := Nat.pow_pos hbase
    have aboveIff : ∀ k, above k ↔ k ≤ quotientLog (Nat.pow (p16 * r) 24000) (Nat.pow 7680000 24000) :=
      le_quotientLog_iff (positive _ _ (Nat.mul_pos (by omega) (by omega))) (positive _ _ (by decide))
    have tIs : t = (quotientLog (Nat.pow (p16 * r) 24000) (Nat.pow 7680000 24000) + 1) / 2 := readingT_eq p16 r
    rw [aboveIff, aboveIff, tIs]
    generalize quotientLog (Nat.pow (p16 * r) 24000) (Nat.pow 7680000 24000) = l
    omega
  case least => show -500 ≤ t - 1000 * (69 + (t + 500) / 1000 - 69); omega
  case most => show t - 1000 * (69 + (t + 500) / 1000 - 69) ≤ 499; omega

/-- Settles O34: the two requests in each state, with the reading handed on where the Tuner engages or disengages. -/
theorem tunerEngagesAndDisengages : Obligations.TunerEngagesAndDisengages := by
  intro s n rest mem head t tone toneClamped set engaged off engageCode offCode handed kind
  obtain ⟨toneIs, toneMarked⟩ := toneWritten_eq t.arg3
  refine ⟨fun on other0 other1 => ?invalid, fun on mode => ?engage, fun isOff => ?disengage⟩
  case invalid =>
    have due : (isKind 15 t && decide (1 ≤ t.arg0)) = true := by rw [isKind_of_kind kind, decide_eq_true on]; rfl
    exact completes_refused exec_tunerEngage mem head due (BufferNeed.none_passes _) carryTunerEngage_keeps
      (carryTunerEngage_invalid _ ⟨other0, other1⟩)
  case engage =>
    have due : (isKind 15 t && decide (1 ≤ t.arg0)) = true := by rw [isKind_of_kind kind, decide_eq_true on]; rfl
    have code : okCode (decide (1 < t.arg0) || (toneWritten t.arg3).2) = engageCode :=
      okCode_of_iff (by rw [Bool.or_eq_true, decide_eq_true_iff, toneMarked])
    have carried := carryTunerEngage_engages (s.takeHead n rest) mode
    rw [code, toneIs] at carried
    refine ⟨fun running => ?_, fun idle => ?_⟩
    · dsimp only at carried
      rw [State.takeHead_tuner, Tuner.engage_of_engaged _ _ _ running] at carried
      exact completes_setTuner exec_tunerEngage mem head due carried carryTunerEngage_keeps rfl
    · dsimp only at carried
      rw [State.takeHead_tuner, Tuner.engage_of_off _ _ _ idle] at carried
      exact completesFrom_setTuner exec_tunerEngage mem head due carried carryTunerEngage_keeps
        (by rw [Tuner.isEngaged_of_off idle]; exact Bool.false_ne_true)
  case disengage =>
    have due : (isKind 15 t && decide (t.arg0 < 1)) = true := by rw [isKind_of_kind kind, decide_eq_true isOff]; rfl
    have code : okCode (decide (t.arg0 < 0)) = offCode := okCode_of_iff decide_eq_true_iff
    have carried : carryTunerDisengage t (s.takeHead n rest) =
        ((s.takeHead n rest).setTuner s.tuner.disengage).answer offCode (.given 0) := by rw [← code]; rfl
    refine ⟨fun idle => ?_, fun running => ?_⟩
    · rw [Tuner.disengage_of_off idle] at carried
      exact completes_setTuner exec_tunerDisengage mem head due carried carryTunerDisengage_keeps rfl
    · rw [Tuner.disengage_of_engaged running] at carried
      exact completesFrom_setTuner exec_tunerDisengage mem head due carried carryTunerDisengage_keeps
        (by rw [(Tuner.isEngaged_iff _).mpr running]; exact Bool.false_ne_true.symm)

end Sys2Proof.Proofs
end

section
/-! SUPPORT. The curves of a pedal and its mapped value (R151), and tap tempo (R155). -/

namespace Sys2Proof.Machine

/-! ## The curves (R151) -/

theorem root_max_iff {n : Nat} (small : n < 2 ^ 20) (m : Nat) : m ≤ root n ↔ m * m ≤ n := by
  have search := le_greatest_iff (test := fun g => decide (g * g ≤ n))
    (fun a b le pass => decide_eq_true (Nat.le_trans (Nat.mul_le_mul le le) (of_decide_eq_true pass))) 10 0 m
    (by simp) (decide_eq_false (by omega))
  exact search.trans decide_eq_true_iff

theorem root_sq_le {n : Nat} (small : n < 2 ^ 20) : root n * root n ≤ n := (root_max_iff small _).mp (Nat.le_refl _)

theorem root_succ_sq_gt {n : Nat} (small : n < 2 ^ 20) : n < (root n + 1) * (root n + 1) :=
  Nat.lt_of_not_le (mt (root_max_iff small _).mpr (by omega))

/-- The end points of the travel, and the order between them. -/
theorem PedalCurve.apply_ends (c : PedalCurve) : c.apply 0 = 0 ∧ c.apply 1023 = 1023 := by cases c <;> decide

theorem PedalCurve.apply_mono (c : PedalCurve) {v w : Nat} (le : v ≤ w) (travel : w ≤ 1023) : c.apply v ≤ c.apply w := by
  cases c with
  | linear => exact le
  | slow => exact Nat.div_le_div_right (Nat.mul_le_mul le le)
  | fast =>
    have first : root (v * 1023) * root (v * 1023) ≤ v * 1023 := root_sq_le (by omega)
    have scaled : v * 1023 ≤ w * 1023 := Nat.mul_le_mul_right _ le
    exact (root_max_iff (by omega) _).mpr (Nat.le_trans first scaled)

/-! ## The mapped value (R151) -/

/-- The value before the clamp. -/
def Assignment.spread (a : Assignment) (v : Nat) : Int := a.min + ((a.max - a.min) * a.curve.apply v + 511) / 1023

section Mapped
variable {a : Assignment} {rule : ParamRule} (defined : paramRule a.kind a.index = some rule)

theorem Assignment.spread_zero (a : Assignment) : a.spread 0 = a.min := by
  rw [Assignment.spread, a.curve.apply_ends.1]
  omega

theorem Assignment.spread_full (a : Assignment) : a.spread 1023 = a.max := by
  rw [Assignment.spread, a.curve.apply_ends.2]
  omega

theorem Assignment.spread_mono {v w : Nat} (le : v ≤ w) (travel : w ≤ 1023) :
    (a.min ≤ a.max → a.spread v ≤ a.spread w) ∧ (a.max ≤ a.min → a.spread w ≤ a.spread v) := by
  have curve : (a.curve.apply v : Int) ≤ a.curve.apply w := by exact_mod_cast a.curve.apply_mono le travel
  unfold Assignment.spread
  refine ⟨fun up => ?_, fun down => ?_⟩
  · have := Int.mul_le_mul_of_nonneg_left curve (show 0 ≤ a.max - a.min by omega)
    omega
  · have := Int.mul_le_mul_of_nonpos_left (show a.max - a.min ≤ 0 by omega) curve
    omega

include defined

theorem mappedValue_eq (v : Nat) : a.mapped v =
    if a.kind = .amp ∧ a.index = 3 ∧ 16 ≤ a.spread v ∧ a.spread v ≤ 254 then 15
    else max rule.lo (min rule.hi (a.spread v)) := congrArg Prod.fst (paramClamped_of_rule defined (a.spread v))

/-- A larger value before the clamp is no smaller after it: the gap of the AMP filter set goes to 15, which lies below it. -/
theorem mappedValue_mono {v w : Nat} (le : a.spread v ≤ a.spread w) : a.mapped v ≤ a.mapped w := by
  rw [mappedValue_eq defined, mappedValue_eq defined]
  by_cases filter : a.kind = .amp ∧ a.index = 3
  · obtain ⟨kind, index⟩ := filter
    rw [kind, index, paramRule_amp3, Option.some.injEq] at defined
    subst defined
    simp only [kind, index, true_and]
    split <;> split <;> omega
  · rw [if_neg fun gap => filter ⟨gap.1, gap.2.1⟩, if_neg fun gap => filter ⟨gap.1, gap.2.1⟩]
    omega

theorem mappedValue_of_inside {v : Nat} {m : Int} (spread : a.spread v = m) (low : rule.lo ≤ m) (high : m ≤ rule.hi)
    (inside : ¬ (a.kind = .amp ∧ a.index = 3 ∧ 16 ≤ m ∧ m ≤ 254)) : a.mapped v = m := by
  rw [mappedValue_eq defined, spread, if_neg inside]
  omega

end Mapped

/-! ## Tap tempo (R155) -/

/-- The intervals after one more, at most three of them. -/
theorem lastThree_append {l : List Nat} (short : l.length ≤ 3) (b : Nat) :
    (l ++ [b]).drop ((l ++ [b]).length - 3) = if l.length = 3 then l.drop 1 ++ [b] else l ++ [b] := by
  rw [List.length_append, List.length_singleton]
  split
  next full => rw [full, List.drop_append_of_le_length (by omega)]
  next more =>
    have start : l.length + 1 - 3 = 0 := by omega
    rw [start, List.drop_zero]

theorem tapTempo_toNat (kept : List Nat) : (clampInt 400 3000 (tapTempo kept)).toNat =
    max 400 (min 3000 ((1800000 * kept.length + kept.foldl (· + ·) 0) / (2 * kept.foldl (· + ·) 0))) := by
  rw [tapTempo, roundHalfUp]
  generalize kept.foldl (· + ·) 0 = total
  have quotient : (2 * (900000 * (kept.length : Int)) + (total : Int)) / (2 * (total : Int)) =
      ((1800000 * kept.length + total) / (2 * total) : Nat) := by
    rw [Int.natCast_ediv]
    congr 1
    omega
  rw [quotient]
  generalize (1800000 * kept.length + total) / (2 * total) = tempo
  unfold clampInt
  omega

section Tap
variable {s : State} {time last : Word}

theorem State.tap_first (first : s.mapper.lastTap = none) :
    s.tap time = { s with mapper := { s.mapper with lastTap := some time } } := by rw [State.tap, first]

variable (before : s.mapper.lastTap = some last)
include before

theorem State.tap_apart (apart : (time - last).toNat < 300 ∨ 3000 < (time - last).toNat) :
    s.tap time = { s with mapper := { s.mapper with lastTap := some time, intervals := [] } } := by
  rw [State.tap, before]
  exact if_pos apart

theorem State.tap_counts (low : 300 ≤ (time - last).toNat) (high : (time - last).toNat ≤ 3000) :
    let kept := (s.mapper.intervals ++ [(time - last).toNat]).drop
      ((s.mapper.intervals ++ [(time - last).toNat]).length - 3)
    s.tap time =
      { s with
        mapper := { s.mapper with lastTap := some time, intervals := kept }
        engine := { s.engine with tempoTarget := (clampInt 400 3000 (tapTempo kept)).toNat } } := by
  rw [State.tap, before]
  exact if_neg (by omega)

end Tap

end Sys2Proof.Machine

namespace Sys2Proof.Proofs
open Sys2Proof.Machine

/-- Settles O41: the three curves; their ends and their order; and the mapped value by the value before its clamp. -/
theorem pedalMappingRule : Obligations.PedalMappingRule := by
  refine ⟨fun v travel => ⟨rfl, rfl, root_sq_le (by omega), root_succ_sq_gt (by omega)⟩,
    fun c => ⟨c.apply_ends.1, c.apply_ends.2, fun v w => c.apply_mono⟩, by decide, by decide, fun a rule v defined => ?mapped⟩
  case mapped =>
    intro gap m
    have mapped := mappedValue_eq defined v
    refine ⟨fun inGap => mapped.trans (if_pos inGap), fun outside => mapped.trans (if_neg outside),
      mappedValue_of_inside defined a.spread_zero, mappedValue_of_inside defined a.spread_full,
      fun w le travel => ?_⟩
    obtain ⟨up, down⟩ := Assignment.spread_mono (a := a) le travel
    exact ⟨fun rising => mappedValue_mono defined (up rising), fun falling => mappedValue_mono defined (down falling)⟩

/-- Settles O43: the three taps. -/
theorem tapTempoRule : Obligations.TapTempoRule := by
  intro s time short
  refine ⟨State.tap_first, fun last before => ?_, rfl, rfl⟩
  intro b kept total
  refine ⟨State.tap_apart before, fun low high => ?_⟩
  have counted := State.tap_counts before low high
  rw [lastThree_append short] at counted
  dsimp only at counted
  rw [counted, tapTempo_toNat]

end Sys2Proof.Proofs
end

section
/-! SUPPORT. SET_ASSIGN (R147, 11.3): the faults of an image, and the assignment that one without a fault is stored as. -/

namespace Sys2Proof.Machine

/-! ## The codes of an image -/

theorem Trigger.code_of_ofCode {c : Nat} {t : Trigger} (known : Trigger.ofCode c = some t) : t.code = c := by
  unfold Trigger.ofCode at known
  split at known <;> cases known <;> rfl

theorem Trigger.lt_of_unknown {c : Nat} (unknown : Trigger.ofCode c = none) : 4 < c := by
  refine Nat.lt_of_not_le fun small => ?_
  obtain rfl | rfl | rfl | rfl | rfl : c = 0 ∨ c = 1 ∨ c = 2 ∨ c = 3 ∨ c = 4 := by omega
  all_goals cases unknown

theorem Trigger.ofCode_facts {c : Nat} {t : Trigger} (known : Trigger.ofCode c = some t) :
    c ≤ 4 ∧ (t = .pedal ↔ c = 4) := by
  rw [← Trigger.code_of_ofCode known]
  cases t <;> decide

theorem Action.lt_of_unknown {c : Nat} (unknown : Action.ofCode c = none) : 7 < c := by
  refine Nat.lt_of_not_le fun small => ?_
  obtain rfl | rfl | rfl | rfl | rfl | rfl | rfl | rfl :
    c = 0 ∨ c = 1 ∨ c = 2 ∨ c = 3 ∨ c = 4 ∨ c = 5 ∨ c = 6 ∨ c = 7 := by omega
  all_goals cases unknown

theorem Action.ofCode_facts {c : Nat} {a : Action} (known : Action.ofCode c = some a) : c ≤ 7 ∧ (a = .scene ↔ c = 0) ∧
    (a = .sceneStep ↔ c = 1) ∧ (a = .toggle ↔ c = 2) ∧ (a = .param ↔ c = 3) ∧ (a = .profile ↔ c = 6) := by
  unfold Action.ofCode at known
  split at known <;> cases known <;> decide

/-! ## The faults (R147) -/

/-- The rule of the parameter that a PARAM image names. -/
abbrev AssignImage.rule (x : AssignImage) : Option ParamRule := paramRule ((Kind.ofCode x.kind).getD .none) x.index

/-- This field of an image is at fault. -/
def AssignImage.bad (x : AssignImage) : Nat → Prop
  | 1 => 1 < x.scope
  | 2 => x.scope = 1 ∧ 127 < x.scopeScene
  | 3 => x.unit < 1 ∨ 15 < x.unit
  | 4 => 4 < x.trigger
  | 5 => x.trigger = 4 ∧ 3 < x.control ∨ x.trigger < 4 ∧ 13 < x.control
  | 6 => 7 < x.action ∨ x.action = 3 ∧ x.trigger ≠ 4 ∨ x.trigger = 4 ∧ ¬ x.action = 3
  | 7 => x.action = 0 ∧ (x.argument < 0 ∨ 127 < x.argument) ∨
      (x.action = 2 ∨ x.action = 3) ∧ (x.argument < 0 ∨ 11 < x.argument) ∨
      x.action = 6 ∧ (x.argument < 0 ∨ 7 < x.argument) ∨ x.action = 1 ∧ x.argument = 0
  | 8 => 1 < x.policy ∨ x.policy = 1 ∧ x.action ≠ 0 ∧ x.action ≠ 1
  | 9 => x.policy = 1 ∧ 1 < x.default
  | 10 => x.action = 3 ∧ (x.kind < 1 ∨ 8 < x.kind)
  | 11 => x.action = 3 ∧ (x.rule = none ∨ ∃ r, x.rule = some r ∧ r.cls = .fixed)
  | 12 => x.action = 3 ∧ 2 < x.curve
  | 13 => x.action = 3 ∧ 1 < x.takeover
  | _ => False

/-- The result code of a fault. -/
def AssignImage.faultCode (x : AssignImage) (f : Nat) : Result :=
  if f = 2 ∨ f = 3 ∨ f = 5 ∨ (f = 7 ∧ x.action ≠ 1) ∨ (f = 11 ∧ x.rule = none) then .range else .invalid

/-- No field before this one is at fault. -/
def AssignImage.cleanBelow (x : AssignImage) : Nat → Prop
  | 0 => True
  | f + 1 => x.cleanBelow f ∧ ¬ x.bad f

theorem AssignImage.cleanBelow_iff (x : AssignImage) (f : Nat) : x.cleanBelow f ↔ ∀ g, g < f → ¬ x.bad g := by
  induction f with
  | zero => simp [AssignImage.cleanBelow]
  | succ f ih => rw [AssignImage.cleanBelow, ih, Nat.forall_lt_succ_right]

theorem AssignImage.not_bad_beyond (x : AssignImage) {f : Nat} (beyond : 13 < f) : ¬ x.bad f := by
  unfold AssignImage.bad
  split <;> first | omega | exact id

/-- This field is the first at fault, with this code. -/
def AssignImage.firstFault (x : AssignImage) (f : Nat) (c : Result) : Prop :=
  x.bad f ∧ x.cleanBelow f ∧ c = x.faultCode f

theorem argumentFault_spec {c : Nat} {a : Action} (known : Action.ofCode c = some a) (v : Int) :
    let outside := c = 0 ∧ (v < 0 ∨ 127 < v) ∨ (c = 2 ∨ c = 3) ∧ (v < 0 ∨ 11 < v) ∨ c = 6 ∧ (v < 0 ∨ 7 < v) ∨ c = 1 ∧ v = 0
    (argumentFault a v = none ↔ ¬ outside) ∧
    ∀ r, argumentFault a v = some r → outside ∧ r = if c = 1 then .invalid else .range := by
  unfold Action.ofCode at known
  split at known <;> cases known <;> simp [argumentFault]

theorem indexFault_spec (k i : Nat) :
    let rule := paramRule ((Kind.ofCode k).getD .none) i
    (indexFault k i = none ↔ ¬ (rule = none ∨ ∃ r, rule = some r ∧ r.cls = .fixed)) ∧
    ∀ c, indexFault k i = some c → (rule = none ∨ ∃ r, rule = some r ∧ r.cls = .fixed) ∧
      c = if rule = none then .range else .invalid := by
  unfold indexFault
  cases paramRule ((Kind.ofCode k).getD .none) i with
  | none => simp
  | some r =>
    dsimp only
    split
    next fixed => simp [fixed]
    next free => simp [free]

/-- A search that finds the first fault, and nothing where no field is at fault. -/
def AssignImage.finds (x : AssignImage) (r : Option (Nat × Result)) : Prop :=
  (∀ f c, r = some (f, c) → x.firstFault f c) ∧ (r = none → x.cleanBelow 14)

section Search
variable {x : AssignImage} {f : Nat} {code : Result} {rest : Option (Nat × Result)}

theorem AssignImage.finds_of_bad (clean : x.cleanBelow f) (bad : x.bad f) (codeIs : code = x.faultCode f) :
    x.finds (some (f, code)) := by
  refine ⟨fun g c found => ?_, nofun⟩
  cases found
  exact ⟨bad, clean, codeIs⟩

/-- A search that tests one field, with what comes after it. -/
theorem AssignImage.finds_of_test {p : Prop} [Decidable p] (clean : x.cleanBelow f) (test : p ↔ x.bad f)
    (codeIs : x.bad f → code = x.faultCode f) (after : x.cleanBelow (f + 1) → x.finds rest) :
    x.finds (if p then some (f, code) else rest) := by
  split
  next bad => exact AssignImage.finds_of_bad clean (test.mp bad) (codeIs (test.mp bad))
  next good => exact after ⟨clean, mt test.mpr good⟩

theorem AssignImage.finds_none (clean : x.cleanBelow 14) : x.finds none := ⟨nofun, fun _ => clean⟩

end Search

/-- The codes by field. -/
theorem AssignImage.faultCode_eq (x : AssignImage) : x.faultCode 1 = .invalid ∧ x.faultCode 2 = .range ∧
    x.faultCode 3 = .range ∧ x.faultCode 4 = .invalid ∧ x.faultCode 5 = .range ∧ x.faultCode 6 = .invalid ∧
    x.faultCode 7 = (if x.action = 1 then .invalid else .range) ∧ x.faultCode 8 = .invalid ∧ x.faultCode 9 = .invalid ∧
    x.faultCode 10 = .invalid ∧ x.faultCode 11 = (if x.rule = none then .range else .invalid) ∧
    x.faultCode 12 = .invalid ∧ x.faultCode 13 = .invalid := by
  simp [AssignImage.faultCode]

/-- What is found is the first fault: each field is tested where those before it are clean. -/
theorem AssignImage.finds_fault (x : AssignImage) : x.finds x.fault := by
  obtain ⟨c1, c2, c3, c4, c5, c6, c7, c8, c9, c10, c11, c12, c13⟩ := x.faultCode_eq
  have clean1 : x.cleanBelow 1 := ⟨trivial, id⟩
  unfold AssignImage.fault
  cases trigger : Trigger.ofCode x.trigger with
  | none =>
    refine finds_of_test clean1 Iff.rfl (fun _ => c1.symm) fun clean => ?_
    refine finds_of_test clean Iff.rfl (fun _ => c2.symm) fun clean => ?_
    refine finds_of_test clean Iff.rfl (fun _ => c3.symm) fun clean => ?_
    exact finds_of_bad clean (Trigger.lt_of_unknown trigger) c4.symm
  | some t =>
    obtain ⟨known, pedal⟩ := Trigger.ofCode_facts trigger
    refine finds_of_test clean1 Iff.rfl (fun _ => c1.symm) fun clean => ?_
    refine finds_of_test clean Iff.rfl (fun _ => c2.symm) fun clean => ?_
    refine finds_of_test clean Iff.rfl (fun _ => c3.symm) fun clean => ?_
    have clean5 : x.cleanBelow 5 := ⟨clean, Nat.not_lt.mpr known⟩
    refine finds_of_test clean5 ?control (fun _ => c5.symm) fun clean => ?_
    case control =>
      simp only [pedal, AssignImage.bad]
      split <;> omega
    cases action : Action.ofCode x.action with
    | none =>
      have bad6 : x.bad 6 := .inl (Action.lt_of_unknown action)
      dsimp only
      split <;> exact finds_of_bad clean bad6 c6.symm
    | some a =>
      obtain ⟨known', scene, step, _, param, _⟩ := Action.ofCode_facts action
      refine finds_of_test clean ?agree (fun _ => c6.symm) fun clean => ?_
      case agree =>
        have isParam : (some a == some Action.param) = true ↔ x.action = 3 := by simp [param]
        have isPedal : (t == Trigger.pedal) = true ↔ x.trigger = 4 := by simp [pedal]
        rw [ne_eq, Bool.eq_iff_iff, isParam, isPedal]
        simp only [AssignImage.bad]
        omega
      obtain ⟨argumentClean, argumentBad⟩ := argumentFault_spec action x.argument
      dsimp only
      cases argument : argumentFault a x.argument with
      | some code =>
        obtain ⟨bad7, codeIs⟩ := argumentBad code argument
        exact finds_of_bad clean bad7 (codeIs.trans c7.symm)
      | none =>
        have clean8 : x.cleanBelow 8 := ⟨clean, argumentClean.mp argument⟩
        refine finds_of_test clean8 (by simp [AssignImage.bad, scene, step]) (fun _ => c8.symm) fun clean => ?_
        refine finds_of_test clean (by simp [AssignImage.bad]) (fun _ => c9.symm) fun clean => ?_
        split
        next isParam =>
          have acts : x.action = 3 := param.mp (by simpa using isParam)
          refine finds_of_test clean (by simp [AssignImage.bad, acts]) (fun _ => c10.symm) fun clean => ?_
          obtain ⟨indexClean, indexBad⟩ := indexFault_spec x.kind x.index
          cases index : indexFault x.kind x.index with
          | some code =>
            obtain ⟨bad11, codeIs⟩ := indexBad code index
            exact finds_of_bad clean ⟨acts, bad11⟩ (codeIs.trans c11.symm)
          | none =>
            have clean12 : x.cleanBelow 12 := ⟨clean, fun bad => indexClean.mp index bad.2⟩
            refine finds_of_test clean12 (by simp [AssignImage.bad, acts]) (fun _ => c12.symm) fun clean => ?_
            exact finds_of_test clean (by simp [AssignImage.bad, acts]) (fun _ => c13.symm) finds_none
        next isOther =>
          have others : x.action ≠ 3 := fun acts => isOther (by simpa using param.mpr acts)
          refine finds_none ⟨⟨⟨⟨clean, ?_⟩, ?_⟩, ?_⟩, ?_⟩
          all_goals exact fun bad => others bad.1

theorem AssignImage.fault_eq_none {x : AssignImage} (faultless : x.fault = none) (f : Nat) : ¬ x.bad f := by
  by_cases beyond : 13 < f
  · exact x.not_bad_beyond beyond
  · exact (x.cleanBelow_iff 14).mp (x.finds_fault.2 faultless) f (by omega)

theorem AssignImage.fault_eq_some_iff (x : AssignImage) (f : Nat) (c : Result) :
    x.fault = some (f, c) ↔ x.bad f ∧ (∀ g, g < f → ¬ x.bad g) ∧ c = x.faultCode f := by
  rw [← x.cleanBelow_iff]
  refine ⟨x.finds_fault.1 f c, fun ⟨bad, clean, codeIs⟩ => ?_⟩
  cases found : x.fault with
  | none => exact absurd bad (AssignImage.fault_eq_none found f)
  | some first =>
    obtain ⟨bad', clean', codeIs'⟩ := x.finds_fault.1 _ _ found
    have same : first.1 = f := by
      rw [x.cleanBelow_iff] at clean clean'
      refine Decidable.byContradiction fun other => ?_
      obtain below | above : first.1 < f ∨ f < first.1 := by omega
      · exact clean _ below bad'
      · exact clean' _ above bad
    exact congrArg some (Prod.ext same (by rw [codeIs, ← same, codeIs']))

/-- A field at fault, as one disjunction. -/
theorem AssignImage.bad_iff (x : AssignImage) (f : Nat) : x.bad f ↔
    (f = 1 ∧ 1 < x.scope) ∨ (f = 2 ∧ x.scope = 1 ∧ 127 < x.scopeScene) ∨ (f = 3 ∧ (x.unit < 1 ∨ 15 < x.unit)) ∨
    (f = 4 ∧ 4 < x.trigger) ∨ (f = 5 ∧ (x.trigger = 4 ∧ 3 < x.control ∨ x.trigger < 4 ∧ 13 < x.control)) ∨
    (f = 6 ∧ (7 < x.action ∨ x.action = 3 ∧ x.trigger ≠ 4 ∨ x.trigger = 4 ∧ ¬ x.action = 3)) ∨
    (f = 7 ∧ (x.action = 0 ∧ (x.argument < 0 ∨ 127 < x.argument) ∨
      (x.action = 2 ∨ x.action = 3) ∧ (x.argument < 0 ∨ 11 < x.argument) ∨
      x.action = 6 ∧ (x.argument < 0 ∨ 7 < x.argument) ∨ x.action = 1 ∧ x.argument = 0)) ∨
    (f = 8 ∧ (1 < x.policy ∨ x.policy = 1 ∧ x.action ≠ 0 ∧ x.action ≠ 1)) ∨ (f = 9 ∧ x.policy = 1 ∧ 1 < x.default) ∨
    (f = 10 ∧ x.action = 3 ∧ (x.kind < 1 ∨ 8 < x.kind)) ∨
    (f = 11 ∧ x.action = 3 ∧ (x.rule = none ∨ ∃ r, x.rule = some r ∧ r.cls = .fixed)) ∨
    (f = 12 ∧ x.action = 3 ∧ 2 < x.curve) ∨ (f = 13 ∧ x.action = 3 ∧ 1 < x.takeover) := by
  by_cases beyond : 13 < f
  · refine iff_of_false (x.not_bad_beyond beyond) ?_
    omega
  · obtain rfl | rfl | rfl | rfl | rfl | rfl | rfl | rfl | rfl | rfl | rfl | rfl | rfl | rfl :
      f = 0 ∨ f = 1 ∨ f = 2 ∨ f = 3 ∨ f = 4 ∨ f = 5 ∨ f = 6 ∨ f = 7 ∨ f = 8 ∨ f = 9 ∨ f = 10 ∨ f = 11 ∨ f = 12 ∨ f = 13 := by
      omega
    all_goals simp [AssignImage.bad]

/-! ## The assignment as it is stored (R145, R147) -/

theorem argumentWritten_spec {c : Nat} {a : Action} (known : Action.ofCode c = some a) {v : Int} (step : ¬ (c = 1 ∧ v = 0)) :
    (argumentWritten a v).1 = (if c = 1 then (if 0 < v then 1 else -1)
      else if c = 0 ∨ c = 2 ∨ c = 3 ∨ c = 6 then v else 0) ∧
    ((argumentWritten a v).2 = true ↔ c = 1 ∧ (v < -1 ∨ 1 < v)) := by
  unfold Action.ofCode at known
  split at known <;> cases known <;> simp [argumentWritten, clampMark, clampInt]
  case _ => split <;> omega

theorem PedalCurve.known_of_le {c : Nat} (small : c ≤ 2) : PedalCurve.ofCode c = some ((PedalCurve.ofCode c).getD .linear) := by
  obtain rfl | rfl | rfl : c = 0 ∨ c = 1 ∨ c = 2 := by omega
  all_goals rfl

theorem Kind.known_of_le {c : Nat} (small : c ≤ 8) : Kind.ofCode c = some ((Kind.ofCode c).getD .none) := by
  cases kind : Kind.ofCode c with
  | none =>
    have := (Kind.ofCode_isNone_iff c).mp (by rw [kind]; rfl)
    omega
  | some k => rfl

theorem Kind.amp_iff {c : Nat} {k : Kind} (kind : Kind.ofCode c = some k) : k = .amp ↔ c = 3 := by
  rw [← Kind.code_of_ofCode kind]
  cases k <;> decide

/-- The fields that every action uses. -/
theorem AssignImage.assignment_common (x : AssignImage) :
    let a := x.assignment.1
    a.catching = .uncaught ∧ a.unit = x.unit ∧ a.control = x.control ∧
    a.trigger = (Trigger.ofCode x.trigger).getD .press ∧ a.action = (Action.ofCode x.action).getD .scene ∧
    a.enabled = decide (0 < x.enabled) ∧ a.scope = (if x.scope = 1 then some x.scopeScene else none) ∧
    a.refer = (if x.policy = 1 then some (x.default == 0) else none) ∧
    a.argument = (argumentWritten ((Action.ofCode x.action).getD .scene) x.argument).1 := by
  unfold AssignImage.assignment
  dsimp only
  split <;> exact ⟨rfl, rfl, rfl, rfl, rfl, rfl, rfl, rfl, rfl⟩

/-- The fields that PARAM alone uses, and what marks it as clamped. -/
theorem AssignImage.assignment_of_param {x : AssignImage} (acts : Action.ofCode x.action = some .param) :
    let k := (Kind.ofCode x.kind).getD .none
    let a := x.assignment.1
    a.kind = k ∧ a.index = x.index ∧ a.min = (paramClamped k x.index x.min).1 ∧ a.max = (paramClamped k x.index x.max).1 ∧
    a.curve = (PedalCurve.ofCode x.curve).getD .linear ∧ a.takeover = (x.takeover == 1) ∧
    x.assignment.2 = ((enableWritten x.enabled).2 || (argumentWritten .param x.argument).2 ||
      (paramClamped k x.index x.min).2 || (paramClamped k x.index x.max).2) := by
  unfold AssignImage.assignment
  rw [acts]
  exact ⟨rfl, rfl, rfl, rfl, rfl, rfl, rfl⟩

theorem AssignImage.assignment_of_other {x : AssignImage} {a : Action} (acts : Action.ofCode x.action = some a)
    (other : a ≠ .param) :
    x.assignment.1.kind = .none ∧ x.assignment.1.index = 0 ∧ x.assignment.1.min = 0 ∧ x.assignment.1.max = 0 ∧
    x.assignment.1.curve = .linear ∧ x.assignment.1.takeover = false ∧
    x.assignment.2 = ((enableWritten x.enabled).2 || (argumentWritten a x.argument).2) := by
  unfold AssignImage.assignment
  rw [acts]
  dsimp only [Option.getD_some]
  rw [if_neg other]
  exact ⟨rfl, rfl, rfl, rfl, rfl, rfl, rfl⟩

theorem AssignImage.action_of_faultless {x : AssignImage} (faultless : x.fault = none) :
    ∃ a, Action.ofCode x.action = some a := by
  cases action : Action.ofCode x.action with
  | none => exact absurd (.inl (Action.lt_of_unknown action)) (AssignImage.fault_eq_none faultless 6)
  | some a => exact ⟨a, rfl⟩

theorem AssignImage.trigger_of_faultless {x : AssignImage} (faultless : x.fault = none) :
    ∃ t, Trigger.ofCode x.trigger = some t := by
  cases trigger : Trigger.ofCode x.trigger with
  | none => exact absurd (Trigger.lt_of_unknown trigger) (AssignImage.fault_eq_none faultless 4)
  | some t => exact ⟨t, rfl⟩

theorem enableWritten_marked (v : Int) : (enableWritten v).2 = true ↔ v < 0 ∨ 1 < v := decide_eq_true_iff

theorem paramClamped_marked {k : Kind} {i : Nat} {r : ParamRule} (rule : paramRule k i = some r) (v : Int) :
    (paramClamped k i v).2 = true ↔ (paramClamped k i v).1 ≠ v := by
  rw [paramClamped_of_rule rule]
  exact decide_eq_true_iff

/-! ## The request -/

theorem carrySetAssign_range {t : Taken} (s : State) (outside : t.arg0 < 0 ∨ 31 < t.arg0) :
    carrySetAssign t s = s.answer .range (.given (65535 * 65536)) := if_pos outside

section SetAssign
variable {t : Taken} {s : State} {image : AssignImage} (low : 0 ≤ t.arg0) (high : t.arg0 ≤ 31)
  (read : assignImage (readBytes s.ram t.offset 32) = image)
include low high read

theorem carrySetAssign_fault {f : Nat × Result} (fault : image.fault = some f) :
    carrySetAssign t s = s.answer f.2 (.given (65535 * 65536 + (f.1 : Int))) := by
  rw [carrySetAssign, if_neg (by omega)]
  dsimp only
  rw [read, fault]
  rfl

theorem carrySetAssign_writes (faultless : image.fault = none) : carrySetAssign t s = State.answer
    { s with mapper := { s.mapper with assignments := s.mapper.assignments.set t.arg0.toNat image.assignment.1 } }
    (okCode image.assignment.2) (.given t.arg0) := by
  rw [carrySetAssign, if_neg (by omega)]
  dsimp only
  rw [read, faultless]

end SetAssign

end Sys2Proof.Machine

namespace Sys2Proof.Proofs
open Sys2Proof.Machine

/-- Settles O37: the answers; the first fault, field by field; the assignment stored; and where the image has its fields. -/
theorem setAssignWritesAssignment : Obligations.SetAssignWritesAssignment := by
  refine ⟨fun s n rest mem head => ?request, fun x => ?assignment, fun image length => ?fields⟩
  case request =>
    intro t image kind buffer
    refine ⟨fun outside => ?_, fun low high => ?_⟩
    · exact completes_refused exec_setAssign mem head (isKind_of_kind kind) buffer carrySetAssign_keeps
        (carrySetAssign_range _ outside)
    have read : assignImage (readBytes (s.takeHead n rest).ram t.offset 32) = image := by
      rw [takeHead_readBytes mem head.lt (BufferNeed.offset_of_exactly buffer)]
    refine ⟨fun f fault => ?_, fun faultless => ?_⟩
    · exact completes_refused exec_setAssign mem head (isKind_of_kind kind) buffer carrySetAssign_keeps
        (carrySetAssign_fault low high read fault)
    · exact completes_blocks exec_setAssign mem head (isKind_of_kind kind) buffer carrySetAssign_keeps
        (carrySetAssign_writes low high read faultless)
  case assignment =>
    intro param rule bad code a
    refine ⟨fun f c => ?_, fun faultless => ?_⟩
    · have badIs : bad = x.bad := funext fun f => propext (x.bad_iff f).symm
      rw [badIs]
      exact x.fault_eq_some_iff f c
    have good := AssignImage.fault_eq_none faultless
    obtain ⟨act, acts⟩ := AssignImage.action_of_faultless faultless
    obtain ⟨trigger, triggers⟩ := AssignImage.trigger_of_faultless faultless
    obtain ⟨catching, unit, control, triggerIs, actionIs, enabledIs, scope, refer, argumentIs⟩ := x.assignment_common
    obtain ⟨_, _, _, _, isParam, _⟩ := Action.ofCode_facts acts
    obtain ⟨argument, argumentMarked⟩ := argumentWritten_spec acts (v := x.argument) fun zero => good 7 (.inr (.inr (.inr zero)))
    rw [acts] at actionIs argumentIs
    rw [triggers] at triggerIs
    refine ⟨catching, unit, control, ?trigger, ?action, ?enabled, scope, refer, argumentIs.trans argument, fun other => ?other,
      fun acts3 => ?param, ?marked⟩
    case trigger => exact (congrArg Trigger.code triggerIs).trans (Trigger.code_of_ofCode triggers)
    case action => exact acts.trans (congrArg some actionIs.symm)
    case enabled => exact (congrArg (· = true) enabledIs).to_iff.trans decide_eq_true_iff
    case other =>
      obtain ⟨kind, index, min, max, curve, takeover, _⟩ :=
        AssignImage.assignment_of_other acts fun same => other (isParam.mp same)
      exact ⟨kind, index, min, max, curve, takeover⟩
    case param =>
      rw [isParam.mpr acts3] at acts
      obtain ⟨kind, index, min, max, curve, takeover, _⟩ := AssignImage.assignment_of_param acts
      have known : x.kind ≤ 8 := by
        have := good 10
        simp only [AssignImage.bad, Decidable.not_and_iff_not_or_not] at this
        omega
      have smallCurve : x.curve ≤ 2 := by
        have := good 12
        simp only [AssignImage.bad, Decidable.not_and_iff_not_or_not] at this
        omega
      have amp := Kind.amp_iff (Kind.known_of_le known)
      refine ⟨index, (Kind.known_of_le known).trans (congrArg some kind.symm), ?_,
        (PedalCurve.known_of_le smallCurve).trans (congrArg some curve.symm), fun r ruleIs => ?_⟩
      · rw [takeover, beq_iff_eq]
      · rw [min, max, paramClamped_of_rule ruleIs, paramClamped_of_rule ruleIs]
        simp only [amp]
        trivial
    case marked =>
      by_cases acts3 : x.action = 3
      · obtain ⟨r, ruleIs⟩ : ∃ r, x.rule = some r :=
          Option.ne_none_iff_exists'.mp fun undefined => good 11 ⟨acts3, .inl undefined⟩
        rw [isParam.mpr acts3] at acts argumentMarked
        obtain ⟨_, _, min, max, _, _, marks⟩ := AssignImage.assignment_of_param acts
        rw [marks, Bool.or_eq_true, Bool.or_eq_true, Bool.or_eq_true, enableWritten_marked, argumentMarked,
          paramClamped_marked ruleIs, paramClamped_marked ruleIs, ← min, ← max]
        simp only [param, acts3, true_and, or_assoc]
        exact Iff.rfl
      · obtain ⟨_, _, _, _, _, _, marks⟩ := AssignImage.assignment_of_other acts fun same => acts3 (isParam.mp same)
        rw [marks, Bool.or_eq_true, enableWritten_marked, argumentMarked]
        simp only [param, acts3, false_and, or_false, or_assoc]
  case fields =>
    intro byte word
    have byteIs (i : Nat) : imageNat image i 1 = byte i := imageNat_byte image i
    have signedIs (i : Nat) : imageInt image i 1 = signedOf 8 (byte i) := by rw [imageInt, byteIs]
    have wordIs (i : Nat) : imageInt image i 4 = word i := by
      rw [imageInt, imageNat_word]
      exact congrArg (signedOf 32) (by simp only [byte, Nat.add_assoc, Nat.reduceAdd]; omega)
    simp only [assignImage, byteIs, signedIs, wordIs]

end Sys2Proof.Proofs
end

section
/-! SUPPORT. SET_ROUTE (R67, 11.4), and the crossfades of the sinks at a block start (R68, R69). -/

namespace Sys2Proof.Machine

/-! ## SET_ROUTE (R67) -/

theorem Source.ofCode_beyond {c : Nat} (beyond : 4 < c) : Source.ofCode c = none := by
  unfold Source.ofCode
  split <;> first | omega | rfl

theorem Source.ofCode_within {c : Nat} (within : c ≤ 4) :
    Source.ofCode c = some ((Source.ofCode c).getD .off) ∧ ((Source.ofCode c).getD .off = .tone ↔ c = 4) := by
  obtain rfl | rfl | rfl | rfl | rfl : c = 0 ∨ c = 1 ∨ c = 2 ∨ c = 3 ∨ c = 4 := by omega
  all_goals decide

/-- The fields of a packed route entry (11.4). -/
def packedSource (a : Int) : Nat := argBits a % 256

def packedLevel (a : Int) : Int := signedOf 8 (argBits a / 256 % 256)

def packedPan (a : Int) : Int := signedOf 8 (argBits a / 65536 % 256)

/-- A packed entry as it is stored, and whether it is clamped. -/
def storedEntry (a : Int) : RouteEntry × Bool :=
  (⟨(Source.ofCode (packedSource a)).getD .off, max (-96) (min 24 (packedLevel a)), max (-64) (min 64 (packedPan a))⟩,
    decide (packedLevel a < -96 ∨ 24 < packedLevel a ∨ packedPan a < -64 ∨ 64 < packedPan a))

theorem packed_argBytes (a : Int) : argByte a 0 = packedSource a ∧ signedOf 8 (argByte a 1) = packedLevel a ∧
    signedOf 8 (argByte a 2) = packedPan a := by
  simp [argByte, packedSource, packedLevel, packedPan]

theorem routeEntry_within {a : Int} (within : packedSource a ≤ 4) : routeEntry a = some (storedEntry a) := by
  obtain ⟨source, level, pan⟩ := packed_argBytes a
  rw [routeEntry, source, level, pan, (Source.ofCode_within within).1, Option.map_some]
  refine congrArg some (Prod.ext rfl ?_)
  simp only [clampMark, storedEntry, ← Bool.decide_or, or_assoc]

theorem routeEntry_beyond {a : Int} (beyond : 4 < packedSource a) : routeEntry a = none := by
  rw [routeEntry, (packed_argBytes a).1, Source.ofCode_beyond beyond]
  rfl

/-- The three packed entries of a request. -/
def Taken.packed (t : Taken) : List Int := [t.arg1, t.arg2, t.arg3]

theorem routeEntries_within {t : Taken} (within : ∀ a, a ∈ t.packed → packedSource a ≤ 4) :
    routeEntries t = some (t.packed.map storedEntry) := by
  rw [routeEntries, routeEntry_within (within _ (by simp [Taken.packed])),
    routeEntry_within (within _ (by simp [Taken.packed])), routeEntry_within (within _ (by simp [Taken.packed]))]
  rfl

theorem routeEntries_beyond {t : Taken} (beyond : ∃ a, a ∈ t.packed ∧ 4 < packedSource a) : routeEntries t = none := by
  obtain ⟨a, packed, beyond⟩ := beyond
  have unread := routeEntry_beyond beyond
  unfold routeEntries
  simp only [Taken.packed, List.mem_cons, List.not_mem_nil, or_false] at packed
  obtain rfl | rfl | rfl := packed
  · rw [unread]
  · rw [unread]; cases routeEntry t.arg1 <;> rfl
  · rw [unread]; cases routeEntry t.arg1 <;> cases routeEntry t.arg2 <;> rfl

/-- The route names the TONE source. -/
theorem storedEntries_tone {l : List Int} (within : ∀ a, a ∈ l → packedSource a ≤ 4) :
    (l.map storedEntry).any (fun e => e.1.source == .tone) = true ↔ ∃ a, a ∈ l ∧ packedSource a = 4 := by
  simp only [List.any_map, List.any_eq_true, Function.comp, beq_iff_eq]
  refine exists_congr fun a => and_congr_right fun ha => (Source.ofCode_within (within a ha)).2

section SetRoute
variable {t : Taken} (s : State)

theorem carrySetRoute_range (bad : t.arg0 < 0 ∨ 2 < t.arg0 ∨ ∃ a, a ∈ t.packed ∧ 4 < packedSource a) :
    carrySetRoute t s = s.answer .range (.given t.arg0) := by
  unfold carrySetRoute
  split
  · rfl
  next destination =>
    obtain under | beyond | source := bad
    · exact absurd (.inl under) destination
    · exact absurd (.inr beyond) destination
    · rw [routeEntries_beyond source]

variable (low : 0 ≤ t.arg0) (high : t.arg0 ≤ 2) (within : ∀ a, a ∈ t.packed → packedSource a ≤ 4)
include low high within

theorem carrySetRoute_tone (other : t.arg0 ≠ 2) (tone : ∃ a, a ∈ t.packed ∧ packedSource a = 4) :
    carrySetRoute t s = s.answer .invalid (.given t.arg0) := by
  rw [carrySetRoute, if_neg (by omega), routeEntries_within within]
  exact if_pos ⟨other, (storedEntries_tone within).mpr tone⟩

theorem carrySetRoute_hands (plain : t.arg0 = 2 ∨ ∀ a, a ∈ t.packed → packedSource a ≠ 4) : carrySetRoute t s = State.answer
    { s with router := s.router.mapSink t.arg0.toNat fun k =>
        { k with waiting := some (t.packed.map fun a => (storedEntry a).1) } }
    (okCode (t.packed.any fun a => (storedEntry a).2)) (.given t.arg0) := by
  rw [carrySetRoute, if_neg (by omega), routeEntries_within within]
  dsimp only
  rw [if_neg, List.map_map, List.any_map]
  · rfl
  · rintro ⟨other, tone⟩
    obtain ⟨a, packed, source⟩ := (storedEntries_tone within).mp tone
    exact plain.elim other fun none_tone => none_tone a packed source

end SetRoute

/-! ## Route crossfades (R68, R69) -/

theorem Sink.startDue_iff (k : Sink) : k.startDue = true ↔ k.fade = none ∧ k.waiting ≠ none := by
  simp [Sink.startDue, Option.isSome_iff_ne_none]

theorem Sink.startFade_spec (k : Sink) :
    (∀ r, k.fade = none → k.waiting = some r → k.startFade = { k with fade := some ⟨r, 0⟩, waiting := none }) ∧
    ((k.fade ≠ none ∨ k.waiting = none) → k.startFade = k) := by
  refine ⟨fun r idle waits => by rw [Sink.startFade, idle, waits], fun other => ?_⟩
  unfold Sink.startFade
  split
  next r idle waits =>
    rw [idle, waits] at other
    obtain busy | unasked := other
    · exact absurd rfl busy
    · cases unasked
  next => rfl

theorem Sink.fadeOver_iff (k : Sink) : k.fadeOver = true ↔ ∃ f, k.fade = some f ∧ 256 ≤ f.samples := by
  unfold Sink.fadeOver
  cases k.fade <;> simp

theorem Sink.endFade_spec (k : Sink) :
    (∀ f, k.fade = some f → 256 ≤ f.samples → k.endFade = { k with route := f.incoming, fade := none }) ∧
    ((∀ f, k.fade = some f → f.samples < 256) → k.endFade = k) := by
  refine ⟨fun f fades ended => by rw [Sink.endFade, fades]; exact if_pos ended, fun more => ?_⟩
  unfold Sink.endFade
  split
  next f fades => exact if_neg (Nat.not_le.mpr (more f fades))
  next => rfl

theorem Router.anySink_iff (r : Router) (p : Sink → Bool) :
    r.anySink p = true ↔ p r.main = true ∨ p r.stage = true ∨ p r.phones = true := by
  simp [Router.anySink, or_assoc]

end Sys2Proof.Machine

namespace Sys2Proof.Proofs
open Sys2Proof.Machine

/-- Settles O31: the two refusals, and the route handed to each sink. -/
theorem setRouteHandsRouteToSink : Obligations.SetRouteHandsRouteToSink := by
  intro s n rest mem head t source level pan args entry clamped code kind
  have refused {code : Result} (answer : carrySetRoute t (s.takeHead n rest) = (s.takeHead n rest).answer code (.given t.arg0)) :
      completes .setRoute s s n rest code (.given t.arg0) :=
    completes_refused exec_setRoute mem head (isKind_of_kind kind) (BufferNeed.none_passes _) carrySetRoute_keeps answer
  refine ⟨fun bad => refused (carrySetRoute_range _ bad), fun low high within =>
    ⟨fun other tone => refused (carrySetRoute_tone _ low high within other tone), fun plain => ?hands⟩⟩
  have hands := carrySetRoute_hands (s.takeHead n rest) low high within plain
  refine ⟨fun sink => ?_, fun sink => ?_, fun sink => ?_⟩
  all_goals
    rw [show (takenAt s.ram n).arg0 = _ from sink] at hands
    exact completes_blocks exec_setRoute mem head (isKind_of_kind kind) (BufferNeed.none_passes _) carrySetRoute_keeps hands

/-- Settles O32: each sink at the start and at the end of a crossfade. -/
theorem routeCrossfadesStartAndEnd : Obligations.RouteCrossfadesStartAndEnd := by
  refine ⟨fun s yet => ?starts, fun s yet => ?ends⟩
  case starts =>
    intro b r due
    have isDue : b.router.anySink Sink.startDue = true := by
      rw [Router.anySink_iff, Sink.startDue_iff, Sink.startDue_iff, Sink.startDue_iff]
      exact due
    exact ⟨_, exec_event_of_due (exec_routeCrossfadeStart s) yet isDue, r.main.startFade_spec, r.stage.startFade_spec,
      r.phones.startFade_spec, ⟨rfl, rfl, rfl, rfl, rfl, rfl, rfl, rfl, rfl⟩, rfl, rfl, rfl, rfl, rfl⟩
  case ends =>
    intro b r due
    have isDue : b.router.anySink Sink.fadeOver = true := by
      rw [Router.anySink_iff, Sink.fadeOver_iff, Sink.fadeOver_iff, Sink.fadeOver_iff]
      obtain ⟨k, f, rfl | rfl | rfl, fades⟩ := due
      · exact .inl ⟨f, fades⟩
      · exact .inr (.inl ⟨f, fades⟩)
      · exact .inr (.inr ⟨f, fades⟩)
    exact ⟨_, exec_event_of_due (exec_routeCrossfadeEnd s) yet isDue, r.main.endFade_spec, r.stage.endFade_spec,
      r.phones.endFade_spec, ⟨rfl, rfl, rfl, rfl, rfl, rfl, rfl, rfl, rfl⟩, rfl, rfl, rfl, rfl, rfl⟩

end Sys2Proof.Proofs
end

section
/-! SUPPORT. What moves at a block start: the gains (R60, R72, R139), a stage (R8, R12, R13, R15, R25, R45), and the
weights (R126 to R129). -/

namespace Sys2Proof.Machine

/-! ## Gains -/

theorem glide_up {step current target : Int} (below : current ≤ target) (positive : 0 ≤ step) :
    glide step current target = min target (current + step) := by unfold glide; split <;> omega

theorem glide_down {step current target : Int} (above : target ≤ current) :
    glide step current target = max target (current - step) := by unfold glide; split <;> omega

theorem glide_one (current target : Int) : (current < target → glide 1 current target = current + 1) ∧
    (target < current → glide 1 current target = current - 1) ∧ (current = target → glide 1 current target = current) := by
  unfold glide
  refine ⟨fun below => ?_, fun above => ?_, fun same => ?_⟩
  · rw [if_pos below]; omega
  · rw [if_neg (by omega)]; omega
  · rw [if_neg (by omega)]; omega

theorem moveGain_zero (current : Nat) : moveGain current 0 = current - 32 := by
  unfold moveGain
  rw [glide_down (by omega)]
  omega

theorem moveGain_full {current : Nat} (low : current ≤ 256) : moveGain current 256 = min 256 (current + 32) := by
  unfold moveGain
  rw [glide_up (by omega) (by omega)]
  omega

theorem Tuner.muted_iff (t : Tuner) :
    (t.isEngaged && t.mode == .mute) = true ↔ t.state ≠ .off ∧ t.mode = .mute := by
  rw [Bool.and_eq_true, Tuner.isEngaged_iff, beq_iff_eq]

theorem Tuner.mainGoal_eq (t : Tuner) [Decidable (t.state ≠ .off ∧ t.mode = .mute)] :
    t.mainGoal = if t.state ≠ .off ∧ t.mode = .mute then 0 else 256 := by
  simp only [Tuner.mainGoal, Tuner.muted_iff]

theorem Tuner.phonesGoal_eq (t : Tuner) [Decidable ((t.state ≠ .off ∧ t.mode = .mute) ∧ t.phonesMute = true)] :
    t.phonesGoal = if (t.state ≠ .off ∧ t.mode = .mute) ∧ t.phonesMute = true then 0 else 256 := by
  simp only [Tuner.phonesGoal, Bool.and_eq_true, Tuner.isEngaged_iff, beq_iff_eq]

/-! ## A stage at a block start -/

theorem Stage.moveDelay_eq (tempo : Nat) (st : Stage) : st.moveDelay tempo =
    { st with delayTarget := (st.moveDelay tempo).delayTarget, delayCurrent := (st.moveDelay tempo).delayCurrent } := by
  unfold Stage.moveDelay
  split <;> rfl

/-- The stage with its delay times, ramp state and currents moved (R9). -/
def Stage.movedOn (tempo : Nat) (st : Stage) : Stage :=
  { st with
    delayTarget := (st.moveDelay tempo).delayTarget, delayCurrent := (st.moveDelay tempo).delayCurrent,
    ramp := st.ramp.next st.enable, currents := moveCurrents st.kind st.targets st.currents }

/-- A stage enters RAMP_ON from OFF where its enable flag is set. -/
theorem RampState.enters_iff (r : RampState) (enable : Bool) :
    (r = .off ∧ r.next enable = .rampOn) ↔ r = .off ∧ enable = true := by cases r <;> cases enable <;> decide

section Start
variable {st : Stage} (tempo : Nat) (kind : st.kind ≠ .none) (placed : st.placeholder = false)
include kind placed

theorem Stage.atBlockStart_eq : st.atBlockStart tempo =
    (if st.ramp = .off ∧ st.enable = true then (st.movedOn tempo).clear else st.movedOn tempo).settleSections := by
  rw [Stage.atBlockStart, if_neg (by simp [kind, placed]), Stage.moveDelay_eq]
  simp only [RampState.enters_iff]
  rfl

/-- All but the kind state and the previous factors. -/
theorem Stage.atBlockStart_fields : st.atBlockStart tempo = { st.movedOn tempo with
    state := (st.atBlockStart tempo).state, factors := (st.atBlockStart tempo).factors } := by
  rw [Stage.atBlockStart_eq tempo kind placed, Stage.settleSections_state]
  split <;> rfl

/-- A stage that is switched on is cleared, with its currents moved (R8, R13). -/
theorem Stage.atBlockStart_of_on (off : st.ramp = .off) (on : st.enable = true) :
    (st.atBlockStart tempo).state = clearedState st.kind (st.movedOn tempo).currents ∧
    (st.atBlockStart tempo).factors = factorsOf st.kind (st.movedOn tempo).currents (st.atBlockStart tempo).state := by
  have settled : ((st.movedOn tempo).clear.settleSections).state = clearedState st.kind (st.movedOn tempo).currents := by
    obtain ⟨others, sections⟩ := (st.movedOn tempo).clear.settleSections_spec
    have cleared : (st.movedOn tempo).clear.state = clearedState st.kind (st.movedOn tempo).currents := rfl
    cases state : clearedState st.kind (st.movedOn tempo).currents with
    | sections hs =>
      have atRest : hs = List.replicate 4 .zero := by
        cases kind : st.kind <;> rw [kind] at state <;> cases state <;> rfl
      rw [sections hs (cleared.trans state), atRest, clearUnused_zero]
    | _ => rw [others (by rw [cleared, state]; exact nofun), cleared, state]
  rw [Stage.atBlockStart_eq tempo kind placed, if_pos ⟨off, on⟩, settled]
  refine ⟨rfl, ?_⟩
  rw [Stage.settleSections_state]
  rfl

/-- Another stage keeps its kind state, but for the sections it no longer uses (R29, R45). -/
theorem Stage.atBlockStart_of_kept (kept : st.ramp ≠ .off ∨ st.enable = false) :
    (st.atBlockStart tempo).factors = st.factors ∧
    ((∀ hs, st.state ≠ .sections hs) → (st.atBlockStart tempo).state = st.state) ∧
    (∀ hs, st.state = .sections hs →
      (st.atBlockStart tempo).state = .sections (clearUnused (sectionsUsed (st.movedOn tempo)) hs)) := by
  have stays : ¬ (st.ramp = .off ∧ st.enable = true) := by
    rintro ⟨off, on⟩
    rw [off, on] at kept
    simp at kept
  rw [Stage.atBlockStart_eq tempo kind placed, if_neg stays]
  refine ⟨?_, (st.movedOn tempo).settleSections_spec⟩
  rw [Stage.settleSections_state]
  rfl

end Start

theorem ParamClass.move_spec (cls : ParamClass) (c t : Int) :
    (cls = .immediate ∨ cls = .fixed → cls.move c t = t) ∧
    (cls = .level ∨ cls = .percent → (c < t → cls.move c t = c + 1) ∧ (t < c → cls.move c t = c - 1) ∧
      (c = t → cls.move c t = c)) := by
  cases cls with
  | level => exact ⟨nofun, fun _ => glide_one c t⟩
  | percent => exact ⟨nofun, fun _ => glide_one c t⟩
  | immediate => exact ⟨fun _ => rfl, nofun⟩
  | fixed => exact ⟨fun _ => rfl, nofun⟩

theorem Stage.moveDelay_of_other {st : Stage} (other : st.kind ≠ .delay) (tempo : Nat) : st.moveDelay tempo = st :=
  if_neg other

theorem Stage.moveDelay_of_delay {st : Stage} (delay : st.kind = .delay) (tempo : Nat) : st.moveDelay tempo =
    { st with
      delayTarget := delayTargetOf st.targets tempo
      delayCurrent := glide 48 st.delayCurrent (delayTargetOf st.targets tempo) } := if_pos delay

theorem delayTargetOf_direct {params : List Int} (mode : params.getD 0 0 = 0) (tempo : Nat) :
    delayTargetOf params tempo = min (params.getD 1 0 * 48) (49152 * params.getD 3 0 - 1) := if_pos mode

/-- num/den of the division a DELAY names (R25). -/
theorem division_of_mem {d num den : Int}
    (row : (d, num, den) ∈ [((0 : Int), (1 : Int), (1 : Int)), (1, 3, 4), (2, 1, 2), (3, 1, 3), (4, 1, 4)]) :
    division d = (num, den) := by
  simp only [List.mem_cons, Prod.mk.injEq, List.not_mem_nil, or_false] at row
  obtain ⟨rfl, rfl, rfl⟩ | ⟨rfl, rfl, rfl⟩ | ⟨rfl, rfl, rfl⟩ | ⟨rfl, rfl, rfl⟩ | ⟨rfl, rfl, rfl⟩ := row <;> rfl

theorem delayTargetOf_tempo {params : List Int} (mode : params.getD 0 0 ≠ 0) (tempo : Nat) {num den : Int}
    (row : division (params.getD 2 0) = (num, den)) : delayTargetOf params tempo =
    min ((2 * (28800000 * num) + tempo * den) / (2 * (tempo * den))) (49152 * params.getD 3 0 - 1) := by
  rw [delayTargetOf, if_neg mode, row]
  rfl

/-! ## The engine's work (R9, R10, R126, R139) -/

theorem State.engineWork_of_running {s : State} (running : s.engine.running = true) :
    s.engineWork.engine.bankA = s.engine.bankA.atBlockStart s.engine.tempoTarget ∧
    s.engineWork.engine.bankB = s.engine.bankB.atBlockStart s.engine.tempoTarget ∧
    s.engineWork.engine.tails = s.engine.tails.map (Tail.atBlockStart s.engine.tempoTarget) ∧
    s.engineWork.engine.tempo = s.engine.tempoTarget ∧ s.engineWork.transition.liveWeight = s.transition.liveWeight ∧
    s.engineWork.transition.nextWeight = s.transition.nextWeight ∧
    s.engineWork.transition.liveNew = s.transition.weights.1 ∧ s.engineWork.transition.nextNew = s.transition.weights.2 ∧
    s.engineWork.transition.startGainPrev = s.transition.startGain ∧
    s.engineWork.transition.startGain = moveGain s.transition.startGain 256 := by
  unfold State.engineWork
  rw [if_pos running]
  refine ⟨rfl, rfl, rfl, rfl, rfl, rfl, rfl, rfl, rfl, ?_⟩
  dsimp only

theorem State.engineWork_of_stopped {s : State} (stopped : s.engine.running = false) :
    s.engineWork = { s with engine := { s.engine with tempo := s.engine.tempoTarget } } := by
  rw [State.engineWork, if_neg (by simp [stopped])]

/-- The weights of the block that begins. -/
theorem Transition.weights_spec (t : Transition) :
    let part := 256 * t.count / t.phaseLength
    (t.state = .idle ∨ t.state = .staging → t.weights = (256, 0)) ∧
    (t.state = .fading → t.weights = (256 - part, part)) ∧ (t.state = .dipOut → t.weights = (256 - part, 0)) ∧
    (t.state = .dipIn → t.weights = (0, part)) := by
  refine ⟨fun h => ?_, fun h => ?_, fun h => ?_, fun h => ?_⟩
  · obtain h | h := h <;> rw [Transition.weights, h]
  all_goals rw [Transition.weights, h]

end Sys2Proof.Machine

namespace Sys2Proof.Proofs
open Sys2Proof.Machine

/-- Settles O33: the gains and the trim by `glide`; a stage with its currents and delay times moved, cleared or
settled; and the engine's work, running or not. -/
theorem gainsMoveByBoundedSteps : Obligations.GainsMoveByBoundedSteps := by
  refine ⟨fun r t main phones => ?mutes, fun i => glide_one _ _, fun s running low => ?startGain,
    fun tempo st kind placed => ?stage, fun cs => ⟨rfl, rfl, rfl, rfl, rfl, rfl, rfl⟩, fun s => ?engine⟩
  case mutes =>
    intro muted r'
    classical
    have mainIs : r'.mainMute = moveGain r.mainMute (if muted then 0 else 256) := by rw [← Tuner.mainGoal_eq]; rfl
    have phonesIs : r'.phonesMute = moveGain r.phonesMute (if muted ∧ t.phonesMute = true then 0 else 256) := by
      rw [← Tuner.phonesGoal_eq]; rfl
    refine ⟨rfl, rfl, fun on => ?_, fun off => ?_, fun on => ?_, fun off => ?_⟩
    · rw [mainIs, if_pos on, moveGain_zero]
    · rw [mainIs, if_neg off, moveGain_full main]
    · rw [phonesIs, if_pos on, moveGain_zero]
    · rw [phonesIs, if_neg off, moveGain_full phones]
  case startGain =>
    obtain ⟨_, _, _, tempo, _, _, _, _, before, gain⟩ := State.engineWork_of_running running
    exact ⟨gain.trans (moveGain_full low), before, tempo⟩
  case stage =>
    intro st' target current used
    have fields : st' = { st.movedOn tempo with state := st'.state, factors := st'.factors } :=
      Stage.atBlockStart_fields tempo kind placed
    have currents : st'.currents = moveCurrents st.kind st.targets st.currents := congrArg (·.currents) fields
    have delayTarget : st'.delayTarget = (st.moveDelay tempo).delayTarget := congrArg (·.delayTarget) fields
    have delayCurrent : st'.delayCurrent = (st.moveDelay tempo).delayCurrent := congrArg (·.delayCurrent) fields
    refine ⟨congrArg (·.kind) fields, congrArg (·.enable) fields, congrArg (·.targets) fields, congrArg (·.lanes) fields,
      congrArg (·.carry) fields, congrArg (·.tailMode) fields, (congrArg (·.placeholder) fields).trans placed, ?ramp,
      fun i r rule => ?current, fun other => ?other, fun delay => ?delay, fun off on => ?on, fun kept => ?kept⟩
    case ramp =>
      refine (congrArg (·.ramp) fields).trans ?_
      show st.ramp.next st.enable = _
      cases st.ramp <;> cases st.enable <;> rfl
    case current =>
      have moved : current i = r.cls.move (st.currents.getD i 0) (target i) := by
        show st'.currents.getD i 0 = _
        rw [currents, moveCurrents_get _ _ rule]
      rw [moved]
      exact r.cls.move_spec _ _
    case other => rw [delayTarget, delayCurrent, Stage.moveDelay_of_other other]; exact ⟨rfl, rfl⟩
    case delay =>
      rw [Stage.moveDelay_of_delay delay] at delayTarget delayCurrent
      intro last goal
      have goalIs : goal = delayTargetOf st.targets tempo := delayTarget
      refine ⟨fun direct => ?_, fun byTempo num den row => ?_, fun below => ?_, fun above => ?_⟩
      · exact goalIs.trans (delayTargetOf_direct direct tempo)
      · exact goalIs.trans (delayTargetOf_tempo byTempo tempo (division_of_mem row))
      · rw [delayCurrent, goalIs]; exact glide_up (goalIs ▸ below) (by decide)
      · rw [delayCurrent, goalIs]; exact glide_down (goalIs ▸ above)
    case on =>
      rw [currents]
      exact Stage.atBlockStart_of_on tempo kind placed off on
    case kept =>
      obtain ⟨factors, others, sections⟩ := Stage.atBlockStart_of_kept tempo kind placed kept
      refine ⟨factors, others, fun hs state => ⟨_, sections hs state, List.length_mapIdx, fun i h entry => ?_⟩⟩
      have usedIs : sectionsUsed (st.movedOn tempo) = used := by
        show sectionsUsed _ = match st.kind with
          | .amp => if st'.currents.getD 3 0 = 255 then 0 else (st'.currents.getD 4 0).toNat
          | .eq => (st'.currents.getD 1 0).toNat
          | _ => 0
        rw [currents]
        rfl
      rw [usedIs]
      exact clearUnused_get used entry
  case engine =>
    intro t tr moved part
    cases running : s.engine.running with
    | true =>
      obtain ⟨bankA, bankB, tails, _, liveWeight, nextWeight, liveNew, nextNew, _, _⟩ :=
        State.engineWork_of_running running
      obtain ⟨still, fading, dipOut, dipIn⟩ := s.transition.weights_spec
      have movedIs (l : List Stage) : moved l = l.map (Stage.atBlockStart s.engine.tempoTarget) := if_pos running
      refine ⟨?_, ?_, ?_, nofun, fun _ => ⟨liveWeight, nextWeight, fun state => ?_, fun state => ?_, fun state => ?_,
        fun state => ?_⟩⟩
      · rw [movedIs, bankA]; rfl
      · rw [movedIs, bankB]; rfl
      · rw [movedIs, tails, List.map_map, List.map_map]; rfl
      · rw [liveNew, nextNew, still state]; exact ⟨rfl, rfl⟩
      · rw [liveNew, nextNew, fading state]; exact ⟨rfl, rfl⟩
      · rw [liveNew, nextNew, dipOut state]; exact ⟨rfl, rfl⟩
      · rw [liveNew, nextNew, dipIn state]; exact ⟨rfl, rfl⟩
    | false =>
      have movedIs (l : List Stage) : moved l = l := if_neg (by simp [running])
      have work := State.engineWork_of_stopped running
      rw [movedIs, movedIs, movedIs, show t = _ from work]
      exact ⟨rfl, rfl, rfl, fun _ => rfl, nofun⟩

end Sys2Proof.Proofs
end

section
/-! SUPPORT. The two banks of the engine under their writes (R6), and the tails that end (R132). -/

namespace Sys2Proof.Machine

/-! ## The banks (R6) -/

/-- The bank that stands for LIVE stays the same one where its role does. -/
theorem Engine.setLive_aIsLive {e : Engine} {b : Bank} (role : b.role = e.live.role) : (e.setLive b).aIsLive = e.aIsLive := by
  cases aIsLive : e.aIsLive with
  | true =>
    have live : e.live = e.bankA := if_pos aIsLive
    rw [show e.setLive b = { e with bankA := b } from if_pos aIsLive]
    show (b.role == .live) = true
    rw [role, live]
    exact aIsLive
  | false =>
    rw [show e.setLive b = { e with bankB := b } from if_neg (by simp [aIsLive])]
    exact aIsLive

theorem Engine.setOther_aIsLive {e : Engine} {b : Bank} (role : b.role = e.other.role ∨ b.role ≠ .live) :
    (e.setOther b).aIsLive = e.aIsLive := by
  cases aIsLive : e.aIsLive with
  | true =>
    rw [show e.setOther b = { e with bankB := b } from if_pos aIsLive]
    exact aIsLive
  | false =>
    have other : e.other = e.bankA := if_neg (by simp [aIsLive])
    rw [show e.setOther b = { e with bankA := b } from if_neg (by simp [aIsLive])]
    show (b.role == .live) = false
    rcases role with same | notLive
    · rw [same, other]; exact aIsLive
    · exact beq_eq_false_iff_ne.2 notLive

theorem Engine.setLive_banks {e : Engine} {b : Bank} (role : b.role = e.live.role) :
    (e.setLive b).live = b ∧ (e.setLive b).other = e.other := by
  have still := Engine.setLive_aIsLive role
  cases aIsLive : e.aIsLive <;>
    simp [Engine.live, Engine.other, still, aIsLive] <;> simp [Engine.setLive, aIsLive]

theorem Engine.setOther_banks {e : Engine} {b : Bank} (role : b.role = e.other.role ∨ b.role ≠ .live) :
    (e.setOther b).live = e.live ∧ (e.setOther b).other = b := by
  have still := Engine.setOther_aIsLive role
  cases aIsLive : e.aIsLive <;>
    simp [Engine.live, Engine.other, still, aIsLive] <;> simp [Engine.setOther, aIsLive]

/-- Both banks written at once. -/
theorem Engine.setBoth_banks {e : Engine} {live other : Bank} (liveRole : live.role = e.live.role)
    (otherRole : other.role = e.other.role ∨ other.role ≠ .live) :
    ((e.setLive live).setOther other).live = live ∧ ((e.setLive live).setOther other).other = other := by
  obtain ⟨liveIs, otherIs⟩ := Engine.setLive_banks liveRole
  obtain ⟨liveKept, otherNew⟩ := Engine.setOther_banks (e := e.setLive live) (otherIs ▸ otherRole)
  exact ⟨liveKept.trans liveIs, otherNew⟩

/-- Writes of the banks change nothing else of the engine. -/
theorem Engine.setLive_rest (e : Engine) (b : Bank) :
    (e.setLive b).tempoTarget = e.tempoTarget ∧ (e.setLive b).running = e.running ∧ (e.setLive b).tails = e.tails ∧
    (e.setLive b).overlay = e.overlay := by
  unfold Engine.setLive; split <;> exact ⟨rfl, rfl, rfl, rfl⟩

theorem Engine.setOther_rest (e : Engine) (b : Bank) :
    (e.setOther b).tempoTarget = e.tempoTarget ∧ (e.setOther b).running = e.running ∧ (e.setOther b).tails = e.tails ∧
    (e.setOther b).overlay = e.overlay := by
  unfold Engine.setOther; split <;> exact ⟨rfl, rfl, rfl, rfl⟩

/-! ## Tails that end (R132) -/

theorem ceilDiv_32_le_iff (n q : Int) : ceilDiv n 32 ≤ q ↔ n ≤ 32 * q := by
  unfold ceilDiv; omega

/-- A tail is over by quiet when its count, in blocks, has reached the repeat interval, in frames. -/
theorem Tail.countQuiet_over (t : Tail) :
    t.countQuiet.quietOver =
      decide (t.stage.delayCurrent ≤ 32 * ((if 180 ≤ peakCode t.wetPeak then t.quiet + 1 else 0 : Nat) : Int)) := by
  unfold Tail.quietOver Tail.countQuiet
  dsimp only
  rw [decide_eq_decide, ceilDiv_32_le_iff]

theorem Tail.countAge_over (t : Tail) : (!t.countAge.ageOver) = decide (t.age + 1 < 12000) := by
  show (!decide (12000 ≤ t.age + 1)) = _
  simp only [← decide_not, Nat.not_le]

end Sys2Proof.Machine

namespace Sys2Proof.Proofs
open Sys2Proof.Machine

/-- Settles O26: the count comes before the filter, and a filter passes through a map. -/
theorem tailsEndByQuietOrAge : Obligations.TailsEndByQuietOrAge := by
  refine ⟨fun s yet => ?quiet, fun s yet => ?age⟩
  case quiet =>
    intro b count ends ⟨t, mem, isOver⟩
    have endsIs : (fun x : Tail => !x.countQuiet.quietOver) = fun x => !ends x := by
      funext x; rw [x.countQuiet_over]
    have due : b.tailQuietDue = true :=
      List.any_eq_true.2 ⟨_, List.mem_map_of_mem mem, t.countQuiet_over.trans isOver⟩
    refine ⟨_, exec_event_of_due (exec_tailQuietEnd s) yet due, ⟨rfl, rfl, ?_, rfl, rfl, rfl, rfl, rfl, rfl⟩, rfl, rfl, rfl,
      rfl, rfl⟩
    show Engine.quietWork b.engine = _
    unfold Engine.quietWork
    rw [List.filter_map, show (fun t : Tail => !t.quietOver) ∘ Tail.countQuiet = _ from endsIs]
    rfl
  case age =>
    intro b ⟨t, mem, isOver⟩
    have due : b.tailAgeDue = true :=
      List.any_eq_true.2 ⟨_, List.mem_map_of_mem mem, decide_eq_true isOver⟩
    refine ⟨_, exec_event_of_due (exec_tailAgeEnd s) yet due, ⟨rfl, rfl, ?_, rfl, rfl, rfl, rfl, rfl, rfl⟩, rfl, rfl, rfl,
      rfl, rfl⟩
    show Engine.ageWork b.engine = _
    unfold Engine.ageWork
    rw [List.filter_map, show (fun t : Tail => !t.ageOver) ∘ Tail.countAge = _ from funext Tail.countAge_over]
    rfl

end Sys2Proof.Proofs
end

section
/-! SUPPORT. The turn of a dip (R128) and the offer of a tail candidate (R131). -/

namespace Sys2Proof.Machine

/-! ## A candidate is offered (R131) -/

theorem offerTail_eq (next : List Stage) (tails : List Tail) (st : Stage) :
    let left := if 2 ≤ tails.length then tails.tail else tails
    offerTail next tails st =
      if lanesWanted next + lanesHeld (left.map (·.stage)) + st.lanes.length ≤ 4 ∧
        loadOf next + loadOf (left.map (·.stage)) + 24 ≤ 1000 then left ++ [⟨st, 0, 0, 0⟩] else left := by
  unfold offerTail
  simp only [List.drop_one, askedLanes_eq, heldLanes_eq, fullLoad_eq]
  rfl

/-! ## The turn (R128) -/

theorem State.turnDue_iff (s : State) : s.turnDue = true ↔ s.mayMove = true ∧ s.transition.state = .dipOut ∧
    s.transition.restageDue = false ∧ s.transition.phaseLength ≤ s.transition.count := by
  simp [State.turnDue, and_assoc]

/-- A carried stage that needs no lanes, or has its own, stands in NEXT as it moved in. -/
theorem turned_get_carried {held : List Nat} {live next : List Stage} {p : Nat} {l c : Stage} (atLive : live[p]? = some l)
    (atNext : next[p]? = some c) (placeholder : c.placeholder = true) (noLanes : l.kind ≠ .delay ∨ l.lanes ≠ []) :
    (turned held live next)[p]? = some { l with targets := c.targets, enable := c.enable, carry := true } := by
  have moved := ((carryInto_moved live next).2 p l c atLive atNext).1 placeholder
  refine ((giveAllLanes_given held _).2.1 p _ moved).1 fun ⟨delay, _, empty⟩ => ?_
  exact noLanes.elim (· delay) (· empty)

/-- What the turn leaves. -/
theorem State.turnWork_of_due {s : State} (due : s.turnDue = true) :
    let t := s.turnWork
    let tails := releaseTails s.engine.other.stages s.engine.live.stages s.engine.tails
    t.engine.live = { s.engine.live with stages := List.replicate 12 .none } ∧
    t.engine.other =
      { s.engine.other with stages := turned (lanesOf (tailStages tails)) s.engine.live.stages s.engine.other.stages } ∧
    t.engine.tails = tails ∧
    t.transition = { s.transition with
      state := .dipIn, count := 1, phaseLength := Select.inPhase s.transition.inFlight, acted := true } ∧
    t.port = s.port ∧ t.requests = s.requests ∧ t.store = s.store ∧ t.input = s.input := by
  unfold State.turnWork
  rw [if_pos due]
  have banks (stages : List Stage) := Engine.setBoth_banks (e := s.engine)
    (live := { s.engine.live with stages := List.replicate 12 .none }) (other := { s.engine.other with stages := stages })
    rfl (.inl rfl)
  exact ⟨(banks _).1, (banks _).2, rfl, rfl, rfl, rfl, rfl, rfl⟩

end Sys2Proof.Machine

namespace Sys2Proof.Proofs
open Sys2Proof.Machine

/-- Settles O24: the turn by its rule, an offer by whether the candidate fits. -/
theorem dipTurnReleasesOutgoing : Obligations.DipTurnReleasesOutgoing := by
  refine ⟨fun s yet => ?turn, fun _ _ _ => rfl, fun next tails st => ?offer⟩
  case turn =>
    intro b mayMove state noRestage ended
    have due : b.turnDue = true := b.turnDue_iff.2 ⟨mayMove, state, noRestage, ended⟩
    refine ⟨_, exec_event_of_due (exec_dipTurn s) yet due, ?_⟩
    obtain ⟨live, other, tails, transition, port, requests, store, input⟩ := State.turnWork_of_due due
    simp only [Work.run, State.mark]
    generalize b.turnWork = t at *
    refine ⟨by rw [transition], by rw [transition], fun x d inFlight decided => ?_, by rw [transition], live, by rw [other],
      by rw [other], tails, ?_, fun p l c atLive atNext placeholder noLanes => ?_, port, requests, store, input⟩
    · rw [transition]
      show Select.inPhase _ = _
      rw [inFlight]
      unfold Select.inPhase
      rw [Option.bind_some, decided]
      rfl
    · rw [other, tails]
      exact turned_given _ _ _
    · rw [other]
      exact turned_get_carried atLive atNext placeholder noLanes
  case offer =>
    exact ⟨fun fits => (offerTail_eq next tails st).trans (if_pos fits),
      fun notFits => (offerTail_eq next tails st).trans (if_neg notFits)⟩

end Sys2Proof.Proofs
end

section
/-! SUPPORT. What finishing a select reports beside its notice (R135), the direct copy of the stopped select (R138) and the end
of a transition (R127, R129). -/

namespace Sys2Proof.Machine

/-! ## What comes before a work -/

theorem State.before_memory {s : State} (mem : s.memoryOk) (w : Work) : (s.before w).memoryOk :=
  (s.before_keeps w).memory mem

theorem State.before_slots {s : State} (exact32 : s.requests.exact) (w : Work) : (s.before w).requests.slots.length = 32 :=
  ((s.before_keeps w).exact exact32).1

/-! ## Records by scene number -/

theorem Store.scene_natCast (store : Store) (n : Nat) : store.scene n = (store.scenes[n]?).join := by
  rw [store.scene_of_nonneg (Int.natCast_nonneg n), Int.toNat_natCast]

theorem Store.scene_of_stored {store : Store} {n : Nat} {r : SceneRecord} (stored : store.scenes[n]? = some (some r)) :
    store.scene n = some r := by
  rw [store.scene_natCast, stored]; rfl

/-! ## Finishing a select (R135) -/

/-- The LAMP frame of an entry, byte by byte (11.5). -/
theorem LampEntry.frame_eq (e : LampEntry) : e.frame = ⟨.lamp, e.unit, 15,
    [e.lamps.toNat % 128, e.lamps.toNat / 128, e.blink.toNat % 128, e.blink.toNat / 128]⟩ := by
  have lamps : e.lamps.toNat / 128 % 128 = e.lamps.toNat / 128 := Nat.mod_eq_of_lt (by omega)
  have blink : e.blink.toNat / 128 % 128 = e.blink.toNat / 128 := Nat.mod_eq_of_lt (by omega)
  unfold LampEntry.frame lampPayload bitmapBytes
  rw [lamps, blink]
  rfl

theorem lampFrames_eq (l : List LampEntry) : l.map LampEntry.frame = l.map fun e => ⟨.lamp, e.unit, 15,
    [e.lamps.toNat % 128, e.lamps.toNat / 128, e.blink.toNat % 128, e.blink.toNat / 128]⟩ :=
  List.map_congr_left fun e _ => e.frame_eq

theorem State.completeAll_report (s : State) (cs : List Completion) : (s.completeAll cs).report = s.report := by
  induction cs generalizing s with
  | nil => rfl
  | cons c cs ih => rw [State.completeAll_cons, ih, State.complete_report]

theorem State.completeAll_link (s : State) (cs : List Completion) : (s.completeAll cs).link = s.link := by
  induction cs generalizing s with
  | nil => rfl
  | cons c cs ih => rw [State.completeAll_cons, ih, State.complete_link]

/-- What finishing a select does to the link. -/
theorem State.finishSelect_link (s : State) (x : Select) (o : SelectOutcome) (other : Nat) :
    (s.finishSelect x o other).link =
      if o = .live ∨ o = .cutShort then (s.handFrames (x.lamps.map LampEntry.frame)).link else s.link := by
  have still : ((s.notify (sceneNotice x o other)).completeAll (x.completions o)).link = s.link :=
    State.completeAll_link _ _
  unfold State.finishSelect
  dsimp only
  split
  next => exact State.handFrames_link still _
  next => exact still

/-- A select that hands no frames on writes its own notice alone. -/
theorem State.finishSelect_count {s : State} {x : Select} {o : SelectOutcome} {other : Nat}
    (silent : (o = .live ∨ o = .cutShort) → x.lamps = []) :
    (s.finishSelect x o other).report.noticeCount = s.report.noticeCount + 1 := by
  have notified : ((s.notify (sceneNotice x o other)).completeAll (x.completions o)).report.noticeCount =
      s.report.noticeCount + 1 := by rw [State.completeAll_report]; rfl
  unfold State.finishSelect
  dsimp only
  split
  next finishes => rw [silent finishes]; exact notified
  next => exact notified

/-! ## The direct copy (R138) -/

/-- A stage given lanes keeps everything but its lanes and its state (R18). -/
theorem giveAllLanes_keeps {free : List Nat} {l : List Stage} {p : Nat} {c : Stage} (entry : l[p]? = some c) :
    ∃ st, (giveAllLanes free l)[p]? = some st ∧ st = { c with lanes := st.lanes, state := st.state } := by
  obtain ⟨keeps, gives⟩ := giveAllLanes_get (free := free) entry
  by_cases wants : c.wantsLanes
  · obtain ⟨lanes, given, _⟩ := gives wants
    exact ⟨_, given, rfl⟩
  · exact ⟨c, keeps wants, rfl⟩

/-- The fields of a stage of a copied bank that its entry gives (R8). -/
theorem giveAllLanes_fresh {free : List Nat} {tempo : Nat} {r : SceneRecord} {p : Nat} {e : StageEntry}
    (entry : r.stages[p]? = some e) (kind : e.kind ≠ .none) :
    ∃ st, (giveAllLanes free (freshViews tempo r.entries))[p]? = some st ∧ st.kind = e.kind ∧ st.enable = e.enable ∧
      st.targets = e.params ∧ st.currents = e.params ∧ st.ramp = if e.enable then .on else .off := by
  have viewed : r.entries[p]? = some ⟨e.kind, e.enable, e.params⟩ := by
    unfold SceneRecord.entries; rw [List.getElem?_map, entry]; rfl
  obtain ⟨st, given, same⟩ := giveAllLanes_keeps (free := free) (freshViews_get tempo viewed)
  obtain ⟨kindIs, enable, targets, currents, ramp, _⟩ := (freshAt_copy tempo ⟨e.kind, e.enable, e.params⟩).2 kind
  refine ⟨st, given, ?_, ?_, ?_, ?_, ?_⟩ <;> rw [same]
  · exact kindIs
  · exact enable
  · exact targets
  · exact currents
  · exact ramp

theorem State.directCopy_mapper (s : State) (x : Select) (r : SceneRecord) (v : List EditView) (o : SelectOutcome) :
    (s.directCopy x r v o).mapper = s.mapper.allUncaught := by
  unfold State.directCopy
  obtain ⟨_, _, _, _, _, _, mapper, _⟩ := State.finishSelect_blocks (State.writeSceneFields
      { s with
        engine := { s.engine.directCopied x.scene (s.engine.tempoWith r) v with overlay := [] }
        transition := { s.transition with liveWeight := 256, nextWeight := 0 }
        mapper := s.mapper.uncatchAll } r) { x with decided := some (.direct, 0), lamps := r.lamps } o s.engine.live.scene
  exact mapper

section DirectWork
variable {s : State} {x : Select}

/-- The stopped select as it is taken up. -/
def State.stoppedTaken (s : State) : State := { s with transition := { s.transition with stopped := none, acted := true } }

variable (running : s.engine.running = false) (runNext : s.engine.runNext = false) (acted : s.transition.acted = false)
  (stopped : s.transition.stopped = some x)
include running runNext acted stopped

theorem State.directDue_eq : s.directDue = (s.store.scene x.scene).elim true fun r => !s.store.mustWait r := by
  unfold State.directDue; rw [running, runNext, acted, stopped]; rfl

theorem State.directDue_of_record {r : SceneRecord} (stored : s.store.scenes[x.scene]? = some (some r)) :
    s.directDue = !s.store.mustWait r := by
  rw [State.directDue_eq running runNext acted stopped, Store.scene_of_stored stored]; rfl

theorem State.directDue_of_empty (empty : (s.store.scenes[x.scene]?).join = none) : s.directDue = true := by
  rw [State.directDue_eq running runNext acted stopped, s.store.scene_natCast, empty]; rfl

theorem State.directWork_of_record {r : SceneRecord} (stored : s.store.scenes[x.scene]? = some (some r))
    (ready : s.store.mustWait r = false) :
    s.directWork = s.stoppedTaken.directCopy x r r.entries (if x.fromStop then .cutShort else .live) := by
  have due := State.directDue_of_record running runNext acted stopped stored
  unfold State.directWork
  rw [if_pos (by rw [due, ready]; rfl), stopped]
  dsimp only
  rw [Store.scene_of_stored stored]
  rfl

theorem State.directWork_of_empty (empty : (s.store.scenes[x.scene]?).join = none) :
    s.directWork = s.stoppedTaken.finishSelect x .empty 255 := by
  unfold State.directWork
  rw [if_pos (State.directDue_of_empty running runNext acted stopped empty), stopped]
  dsimp only
  rw [s.store.scene_natCast, empty]
  rfl

end DirectWork

/-- The codes of a select that a direct copy finishes (R135, R138). -/
theorem directOutcome_codes (x : Select) :
    let o : SelectOutcome := if x.fromStop then .cutShort else .live
    (o = .live ∨ o = .cutShort) ∧ o.code = (if x.fromStop then 3 else 0) ∧
    (o.result x.clamped).code = if x.fromStop then 11 else if x.clamped then 1 else 0 := by
  cases x.fromStop
  · exact ⟨.inl rfl, rfl, by cases x.clamped <;> rfl⟩
  · exact ⟨.inr rfl, rfl, rfl⟩

/-! ## The end of a transition (R127, R129, R134) -/

theorem Engine.swapped_banks (e : Engine) (stages : List Stage) :
    (e.swapped stages).live = ⟨.live, e.other.scene, stages.map Stage.uncarried⟩ ∧ (e.swapped stages).other = .idle ∧
    (e.swapped stages).tails = e.tails ∧ (e.swapped stages).tempoTarget = e.tempoTarget ∧
    (e.swapped stages).overlay = e.overlay := by
  unfold Engine.swapped
  dsimp only
  split <;> exact ⟨rfl, rfl, rfl, rfl, rfl⟩

/-- The blocks as the end of a transition leaves them, before the select finishes. -/
def State.ended (s : State) : State :=
  { s with
    engine := { s.engine.swapped s.engine.other.stages with
      tails := releaseTails s.engine.other.stages s.engine.live.stages s.engine.tails }
    transition := { s.transition.nextSelect (!s.engine.runNext) with liveWeight := 256, nextWeight := 0, acted := true }
    mapper := s.mapper.uncatchAll }

theorem State.endTransition_of_none {s : State} (inFlight : s.transition.inFlight = none) : s.endTransition = s.ended := by
  unfold State.endTransition; rw [inFlight]; rfl

theorem State.endTransition_of_some {s : State} {x : Select} (inFlight : s.transition.inFlight = some x) :
    s.endTransition = s.ended.finishSelect x .live s.engine.live.scene := by
  unfold State.endTransition; rw [inFlight]; rfl

/-- The end of a transition leaves the blocks as `ended` has them. -/
theorem State.endTransition_blocks (s : State) :
    let t := s.endTransition
    t.transition = s.ended.transition ∧ t.engine = s.ended.engine ∧ t.store = s.store ∧ t.input = s.input ∧
    t.tuner = s.tuner ∧ t.router = s.router ∧ t.mapper = s.mapper.allUncaught := by
  cases inFlight : s.transition.inFlight with
  | none => rw [State.endTransition_of_none inFlight]; exact ⟨rfl, rfl, rfl, rfl, rfl, rfl, rfl⟩
  | some x =>
    rw [State.endTransition_of_some inFlight]
    obtain ⟨transition, engine, store, input, tuner, router, mapper, _⟩ :=
      s.ended.finishSelect_blocks x .live s.engine.live.scene
    exact ⟨transition, engine, store, input, tuner, router, mapper⟩

theorem Transition.nextSelect_of_some {t : Transition} {x : Select} (pending : t.pending = some x) :
    t.nextSelect false = { t with inFlight := some x, pending := none, state := .staging, count := 0 } := by
  unfold Transition.nextSelect; rw [pending]

theorem Transition.nextSelect_of_none {t : Transition} (pending : t.pending = none) (stopping : Bool) :
    t.nextSelect stopping = { t with inFlight := none, state := .idle, count := 0 } := by
  unfold Transition.nextSelect; rw [pending]; cases stopping <;> rfl

theorem Transition.nextSelect_of_stopping (t : Transition) :
    t.nextSelect true = { t with inFlight := none, state := .idle, count := 0 } := rfl

/-- The end of either transition is what its command does. -/
theorem exec_transitionEnd {s : State} {c : Instr} {w : Work} {st : TransState}
    (which : (c = .fadeEnd ∧ w = .fadeEnd ∧ st = .fading) ∨ (c = .dipEnd ∧ w = .dipEnd ∧ st = .dipIn)) (yet : s.yetTo w)
    (running : (s.before w).engine.running = true) (acted : (s.before w).transition.acted = false)
    (state : (s.before w).transition.state = st)
    (counted : (s.before w).transition.phaseLength ≤ (s.before w).transition.count) :
    exec c s = .next ((s.before w).endTransition.mark (w.place + 1)) := by
  rcases which with ⟨rfl, rfl, rfl⟩ | ⟨rfl, rfl, rfl⟩
  · have due : (s.before .fadeEnd).fadeEndDue = true := by simp [State.fadeEndDue, running, acted, state, counted]
    rw [exec_event_of_due (exec_fadeEnd s) yet due, show Work.run .fadeEnd _ = _ from if_pos due]
  · have due : (s.before .dipEnd).dipEndDue = true := by simp [State.dipEndDue, running, acted, state, counted]
    rw [exec_event_of_due (exec_dipEnd s) yet due, show Work.run .dipEnd _ = _ from if_pos due]

end Sys2Proof.Machine

namespace Sys2Proof.Proofs
open Sys2Proof.Machine

/-- Settles O28: the copy of a record by what a direct copy leaves and reports; the drop of an EMPTY one; the wait. -/
theorem directCopyMakesSceneLive : Obligations.DirectCopyMakesSceneLive := by
  intro s x yet b lamps running runNext acted stopped
  refine ⟨fun r stored ready => ?copied, fun empty => ?dropped, fun r stored waits => ?waiting⟩
  case copied =>
    have due : b.directDue = true := by
      rw [State.directDue_of_record running runNext acted stopped stored, ready]; rfl
    have work := State.directWork_of_record running runNext acted stopped stored ready
    obtain ⟨finishes, outcome, code⟩ := directOutcome_codes x
    obtain ⟨live, other, tails, _, _, transition, fields, store, _, _, queue⟩ :=
      b.stoppedTaken.directCopy_blocks x r r.entries (if x.fromStop then .cutShort else .live)
    have mapper := b.stoppedTaken.directCopy_mapper x r r.entries (if x.fromStop then .cutShort else .live)
    have reports := fun (mem : s.memoryOk) (slots : s.requests.exact) (few : r.lamps.length ≤ 4) =>
      State.directCopy_reports (s := b.stoppedTaken) (State.before_memory mem .directCopy)
        (State.before_slots slots .directCopy) x r r.entries _ finishes few
    rw [← work] at live other tails transition fields store queue mapper
    simp only [← work, outcome, code] at reports
    refine ⟨_, exec_event_of_due (exec_directCopy s) yet due, ?_⟩
    simp only [Work.run, State.mark]
    generalize b.directWork = t at *
    refine ⟨by rw [transition]; rfl, by rw [live], by rw [live], ?length, ?bank, fun p e entry kind => ?fresh, other, tails,
      by rw [transition], by rw [transition], fields, store, queue, mapper, fun mem slots few => ?reports⟩
    case length => rw [live]; simp [giveAllLanes_length, freshViews, SceneRecord.entries]
    case bank => rw [live]; exact giveAllLanes_copied _ _ _
    case fresh => rw [live]; exact giveAllLanes_fresh entry kind
    case reports =>
      obtain ⟨slot, scene, signal, link⟩ := reports mem slots few
      refine ⟨slot, scene, signal, link.trans ?_⟩
      rw [lampFrames_eq]
      exact State.handFrames_link (s := b.stoppedTaken) (t := b) rfl _
  case dropped =>
    have due := State.directDue_of_empty running runNext acted stopped empty
    have work := State.directWork_of_empty running runNext acted stopped empty
    obtain ⟨transition, engine, store, input, _, _, mapper, _⟩ := b.stoppedTaken.finishSelect_blocks x .empty 255
    have reports := fun (mem : s.memoryOk) (slots : s.requests.exact) =>
      State.finishSelect_reports (s := b.stoppedTaken) (State.before_memory mem .directCopy) x .empty 255
        (State.before_slots slots .directCopy) nofun
    have count := State.finishSelect_count (s := b.stoppedTaken) (x := x) (o := .empty) (other := 255) nofun
    have link := b.stoppedTaken.finishSelect_link x .empty 255
    rw [← work] at transition engine store input mapper count link
    simp only [← work] at reports
    refine ⟨_, exec_event_of_due (exec_directCopy s) yet due, ?_⟩
    simp only [Work.run, State.mark]
    generalize b.directWork = t at *
    refine ⟨by rw [transition]; rfl, engine, input, store, link.trans (if_neg (by decide)), mapper, fun mem slots => ?_⟩
    obtain ⟨scene, slot, signal, _⟩ := reports mem slots
    exact ⟨slot, scene, signal, count⟩
  case waiting =>
    refine exec_event_of_not_due (exec_directCopy s) fun ⟨_, due⟩ => ?_
    rw [State.directDue_of_record running runNext acted stopped stored, waits] at due
    cases due

/-- Settles O25: the banks by the swap, the reports by how a select finishes LIVE. -/
theorem transitionEndSwapsRoles : Obligations.TransitionEndSwapsRoles := by
  intro s c w st which yet mem slots b running acted state counted
  refine ⟨_, exec_transitionEnd which yet running acted state counted, ?_⟩
  obtain ⟨transition, engine, store, input, tuner, router, mapper⟩ := b.endTransition_blocks
  obtain ⟨live, other, _⟩ := b.engine.swapped_banks b.engine.other.stages
  replace live := (congrArg Engine.live engine).trans live
  replace other := (congrArg Engine.other engine).trans other
  have tails := congrArg Engine.tails engine
  have quiet := fun inFlight => State.endTransition_of_none (s := b) inFlight
  have finishes := fun x inFlight => State.endTransition_of_some (s := b) (x := x) inFlight
  have mem' : b.ended.memoryOk := State.before_memory mem w
  have slots' : b.ended.requests.slots.length = 32 := State.before_slots slots w
  simp only [State.mark]
  generalize b.endTransition = t at *
  refine ⟨by rw [live], by rw [live], by rw [live]; rfl, other, by rw [transition]; rfl, by rw [transition]; rfl, tails,
    fun runNext x pending => ?goesOn, fun runNext x pending => ?stops, fun pending => ?rests, fun inFlight => ?quiet,
    fun x inFlight noLamps => ?count, fun x inFlight few => ?reports, store, input, tuner, router, mapper⟩
  case goesOn =>
    rw [transition]
    unfold State.ended
    rw [runNext, Bool.not_true, Transition.nextSelect_of_some pending]
    exact ⟨rfl, rfl, rfl⟩
  case stops =>
    rw [transition]
    unfold State.ended
    rw [runNext, Bool.not_false, Transition.nextSelect_of_stopping]
    exact ⟨rfl, rfl, pending⟩
  case rests =>
    rw [transition]
    unfold State.ended
    rw [Transition.nextSelect_of_none pending]
    exact ⟨rfl, rfl⟩
  case quiet => rw [quiet inFlight]; exact ⟨rfl, rfl⟩
  case count => rw [finishes x inFlight]; exact State.finishSelect_count fun _ => noLamps
  case reports =>
    rw [finishes x inFlight]
    obtain ⟨scene, slot, signal, link⟩ := State.finishSelect_reports mem' x .live b.engine.live.scene slots' fun _ => few
    have code : (SelectOutcome.result .live x.clamped).code = if x.clamped then 1 else 0 := by cases x.clamped <;> rfl
    refine ⟨scene, signal, code ▸ slot, link.trans ?_⟩
    rw [if_pos (.inl rfl), lampFrames_eq]
    exact State.handFrames_link (s := b.ended) (t := b) rfl _

end Sys2Proof.Proofs
end

section
/-! SUPPORT. The staging and the restaging of a select (R123 to R125, R130, R133). -/

namespace Sys2Proof.Machine

/-! ## The overlay on the copied entries (R20) -/

theorem overlayEntryOn_cases (beside : Int) (views : List EditView) (o : OverlayEntry) :
    overlayEntryOn beside views o = views ∨ ∃ v, overlayEntryOn beside views o = views.set o.position v := by
  unfold overlayEntryOn
  dsimp only
  split
  · exact .inl rfl
  · exact .inr ⟨_, rfl⟩

theorem overlayOn_length (beside : Int) (overlay : List OverlayEntry) (views : List EditView) :
    (overlayOn beside overlay views).length = views.length := by
  unfold overlayOn
  induction overlay generalizing views with
  | nil => rfl
  | cons o overlay ih =>
    rw [List.foldl_cons, ih]
    rcases overlayEntryOn_cases beside views o with same | ⟨v, set⟩
    · rw [same]
    · rw [set, List.length_set]

/-- An entry that no overlay entry names stays the record's. -/
theorem overlayOn_other (beside : Int) {overlay : List OverlayEntry} {p : Nat} (views : List EditView)
    (others : ∀ o, o ∈ overlay → o.position ≠ p) : (overlayOn beside overlay views)[p]? = views[p]? := by
  unfold overlayOn
  induction overlay generalizing views with
  | nil => rfl
  | cons o overlay ih =>
    rw [List.foldl_cons, ih _ fun o' mem => others o' (List.mem_cons_of_mem _ mem)]
    rcases overlayEntryOn_cases beside views o with same | ⟨v, set⟩
    · rw [same]
    · rw [set, List.getElem?_set_ne (others o List.mem_cons_self)]

/-! ## The decision of a kind (R90, R120) -/

section DecideKind
variable {s : State} {x : Select} {r : SceneRecord}

theorem State.decideKind_of_cut (cut : (s.tuner.state ≠ .off ∧ s.tuner.mode = .mute) ∨ x.kind.getD r.kind = .cut) :
    s.decideKind x r = (.cut, 2) := by
  unfold State.decideKind
  split
  next => rfl
  next notMuted =>
    have notMuted : ¬ (s.tuner.state ≠ .off ∧ s.tuner.mode = .mute) := by simpa [Tuner.isEngaged_iff] using notMuted
    rw [cut.resolve_left notMuted]

variable (notMuted : ¬ (s.tuner.state ≠ .off ∧ s.tuner.mode = .mute))
include notMuted

theorem State.decideKind_of_fade (kind : x.kind.getD r.kind = .fade) :
    s.decideKind x r = (.fade, x.length.getD r.fade) := by
  unfold State.decideKind
  rw [if_neg (by simpa [Tuner.isEngaged_iff] using notMuted), kind]

theorem State.decideKind_of_dip (kind : x.kind.getD r.kind = .dip) :
    s.decideKind x r = (.dip, x.length.getD r.fade) := by
  unfold State.decideKind
  rw [if_neg (by simpa [Tuner.isEngaged_iff] using notMuted), kind]

end DecideKind

/-- Only a FADE that no engaged Tuner mutes is decided a FADE. -/
theorem State.decideKind_not_fade {s : State} {x : Select} {r : SceneRecord}
    (other : (s.tuner.state ≠ .off ∧ s.tuner.mode = .mute) ∨ x.kind.getD r.kind ≠ .fade) :
    (s.decideKind x r).1 ≠ .fade := by
  by_cases muted : s.tuner.state ≠ .off ∧ s.tuner.mode = .mute
  · rw [State.decideKind_of_cut (.inl muted)]; nofun
  · cases kind : x.kind.getD r.kind with
    | fade => exact absurd kind (other.resolve_left muted)
    | dip => rw [State.decideKind_of_dip muted kind]; nofun
    | cut => rw [State.decideKind_of_cut (.inr kind)]; nofun

/-! ## The decision of a staging (R123, R125) -/

theorem stagedAs_of_not_fade {k : DecidedKind} (notFade : k ≠ .fade) (live next : List Stage) (tails : List Tail) :
    stagedAs k live next tails = stagedDip k live next tails := if_neg notFade

/-- A FADE that passes the admission test. -/
theorem stagedAs_of_admitted {live next : List Stage} {tails : List Tail}
    (passes : admissionTest live next (cutUntil (admissionTest live next) tails) = true) :
    stagedAs .fade live next tails =
      let kept := cutUntil (admissionTest live next) tails
      ⟨.fade, live, giveAllLanes (freeLanes (lanesOf live ++ lanesOf (tailStages kept))) next, kept⟩ := by
  unfold stagedAs
  rw [if_pos rfl]
  exact if_pos passes

/-- A FADE that does not pass the admission test becomes a DIP, with no tail left. -/
theorem stagedAs_of_refused {live next : List Stage} {tails : List Tail}
    (fails : admissionTest live next (cutUntil (admissionTest live next) tails) = false) :
    stagedAs .fade live next tails = stagedDip .dip live next [] := by
  unfold stagedAs
  rw [if_pos rfl]
  refine (if_neg (by simp [fails])).trans ?_
  rw [cutUntil_nil fails]

/-- What a staging makes of LIVE and of NEXT: LIVE's instances with a carry mark each, NEXT as long as it was. -/
structure Staged.Fits (g : Staged) (live next : List Stage) : Prop where
  liveLength : g.live.length = live.length
  nextLength : g.next.length = next.length
  marked : ∀ (p : Nat) (l : Stage), live[p]? = some l → ∃ c, g.live[p]? = some { l with carry := c }

theorem decideCarries_live {live : List Stage} (next : List Stage) {p : Nat} {l : Stage} (entry : live[p]? = some l) :
    ∃ c, (decideCarries live next).1[p]? = some { l with carry := c } := by
  induction live generalizing next p with
  | nil => simp at entry
  | cons a live ih =>
    cases next with
    | nil => exact ⟨l.carry, entry⟩
    | cons b next =>
      unfold decideCarries
      cases p with
      | zero => exact ⟨carried a b, by simp at entry; simp [entry]⟩
      | succ p => simpa using ih next (by simpa using entry)

theorem stagedDip_fits (k : DecidedKind) (live next : List Stage) (tails : List Tail) :
    (stagedDip k live next tails).Fits live next :=
  ⟨(decideCarries_length live next).1, (decideCarries_length live next).2, fun _ _ entry => decideCarries_live next entry⟩

theorem stagedAs_fits (k : DecidedKind) (live next : List Stage) (tails : List Tail) :
    (stagedAs k live next tails).Fits live next := by
  by_cases fade : k = .fade
  · subst fade
    cases passes : admissionTest live next (cutUntil (admissionTest live next) tails) with
    | true =>
      rw [stagedAs_of_admitted passes]
      exact ⟨rfl, giveAllLanes_length _ _, fun _ l entry => ⟨l.carry, entry⟩⟩
    | false => rw [stagedAs_of_refused passes]; exact stagedDip_fits _ _ _ _
  · rw [stagedAs_of_not_fade fade]; exact stagedDip_fits _ _ _ _

/-- A staged dip, in the words of R124 and R125. -/
theorem stagedDip_banks (k : DecidedKind) (live : List Stage) (tempo : Nat) (entries : List EditView) (tails : List Tail)
    {mark : Stage → Stage} (marks : ∀ st, mark st = { st with tailMode := (mark st).tailMode }) :
    let g := stagedDip k live (freshViews tempo entries) tails
    dipBanks tempo entries live (g.live.map mark) g.next ∧ cutTo (dipAdmits entries) tails g.tails :=
  ⟨decideCarries_banks live tempo entries mark marks, cutUntil_cutTo (dipTest_iff live tempo entries) tails⟩

/-! ## Tail marks (R130) -/

theorem Stage.markTail_eq (st : Stage) : st.markTail = { st with tailMode := st.markTail.tailMode } := by
  unfold Stage.markTail; split <;> rfl

theorem Stage.markTail_iff (st : Stage) : st.markTail.tailMode = true ↔ st.tailMode = true ∨
    st.kind = .delay ∧ st.targets.getD 6 0 = 1 ∧ st.ramp = .on ∧ st.carry = false := by
  unfold Stage.markTail
  split
  next candidate => exact iff_of_true rfl (.inr candidate)
  next notCandidate => exact ⟨.inl, fun marked => marked.resolve_right notCandidate⟩

theorem Staged.Fits.tailsMarked {g : Staged} {live next : List Stage} (fits : g.Fits live next) :
    tailsMarked live (g.live.map Stage.markTail) := by
  intro p l l' entry entry'
  obtain ⟨c, marked⟩ := fits.marked p l entry
  rw [List.getElem?_map, marked, Option.map_some, Option.some.injEq] at entry'
  have carry : l'.carry = c := by rw [← entry', Stage.markTail_eq]
  rw [← entry', Stage.markTail_iff, entry', carry]

/-! ## What a staging leaves in the blocks (R123, R133) -/

theorem State.copyReady_of {s : State} {x : Select} {r : SceneRecord} (inFlight : s.transition.inFlight = some x)
    (stored : s.store.scenes[x.scene]? = some (some r)) (ready : s.store.mustWait r = false) : s.copyReady = some r := by
  unfold State.copyReady
  rw [(s.transition.inFlightScene_iff s.store r).2 ⟨x, inFlight, stored⟩]
  simp [ready]

/-- The decision at the staging of a select. -/
def State.stagedFor (s : State) (x : Select) (r : SceneRecord) : Staged :=
  stagedAs (s.decideKind x r).1 s.engine.live.stages
    (freshViews (s.engine.tempoWith r) (overlayOn s.loadBeside s.engine.overlay r.entries)) s.engine.tails

/-- The decision at the restaging of a select. -/
def State.restagedFor (s : State) (x : Select) (r : SceneRecord) : Staged :=
  stagedDip (s.decideKind x r).1.asDip s.engine.live.stages (freshViews (s.engine.tempoWith r) r.entries) s.engine.tails

theorem State.writeSceneFields_brings {s u : State} (input : u.input = s.input)
    (tempo : u.engine.tempoTarget = s.engine.tempoTarget) (r : SceneRecord) : bringsFields s (u.writeSceneFields r) r := by
  refine ⟨?_, ?_⟩
  · show (if r.profile = 255 then u.input else _).chosen = _
    split <;> rw [input]
  · show u.engine.tempoWith r = _
    unfold Engine.tempoWith
    rw [tempo]

theorem Engine.setBoth_tempo (e : Engine) (live other : Bank) :
    ((e.setLive live).setOther other).tempoTarget = e.tempoTarget :=
  (Engine.setOther_rest _ _).1.trans (Engine.setLive_rest _ _).1

theorem State.copyStaged_blocks (s : State) (x : Select) (r : SceneRecord) :
    let g := s.stagedFor x r
    let length := (s.decideKind x r).2
    let t := s.copyStaged x r
    t.engine.live = { s.engine.live with stages := g.live.map Stage.markTail } ∧
    t.engine.other = ⟨.next, x.scene, g.next⟩ ∧ t.engine.tails = g.tails ∧ t.engine.overlay = [] ∧
    t.transition = { s.transition with
      state := if g.kind = .fade then .fading else .dipOut
      inFlight := some { x with decided := some (g.kind, length), lamps := r.lamps }
      count := 1, phaseLength := if g.kind = .fade then length else length / 2, restageDue := false, acted := true } ∧
    bringsFields s t r ∧ t.store = s.store ∧ t.requests = s.requests ∧ t.port = s.port ∧ t.router = s.router ∧
    t.tuner = s.tuner ∧ t.mapper = s.mapper.allUncaught := by
  intro g length t
  have banks := Engine.setBoth_banks (e := s.engine) (live := { s.engine.live with stages := g.live.map Stage.markTail })
    (other := ⟨.next, x.scene, g.next⟩) rfl (.inr nofun)
  refine ⟨banks.1, banks.2, rfl, rfl, ?transition, ?brings, rfl, rfl, rfl, rfl, rfl, rfl⟩
  all_goals unfold t State.copyStaged
  case transition =>
    simp only [beq_iff_eq]
    rfl
  case brings =>
    refine State.writeSceneFields_brings (s := s) ?_ ?_ r
    · rfl
    · exact Engine.setBoth_tempo _ _ _

theorem State.copyRestaged_blocks (s : State) (x : Select) (r : SceneRecord) :
    let g := s.restagedFor x r
    let t := s.copyRestaged x r
    t.engine.live = { s.engine.live with stages := g.live } ∧ t.engine.other = ⟨.next, x.scene, g.next⟩ ∧
    t.engine.tails = g.tails ∧
    t.transition = { s.transition with
      inFlight := some { x with decided := some (g.kind, (s.decideKind x r).2), lamps := r.lamps }
      count := s.transition.advanced, restageDue := false, acted := true } ∧
    bringsFields s t r ∧ t.store = s.store ∧ t.requests = s.requests ∧ t.port = s.port ∧ t.router = s.router ∧
    t.mapper = s.mapper.allUncaught := by
  intro g t
  have banks := Engine.setBoth_banks (e := s.engine) (live := { s.engine.live with stages := g.live })
    (other := ⟨.next, x.scene, g.next⟩) rfl (.inr nofun)
  refine ⟨banks.1, banks.2, rfl, rfl, ?brings, rfl, rfl, rfl, rfl, rfl⟩
  unfold t State.copyRestaged
  refine State.writeSceneFields_brings (s := s) ?_ ?_ r
  · rfl
  · exact Engine.setBoth_tempo _ _ _

/-- The staging of a select whose record can be copied. -/
theorem State.stageWork_of {s : State} {x : Select} {r : SceneRecord} (mayMove : s.mayMove = true)
    (state : s.transition.state = .staging) (inFlight : s.transition.inFlight = some x)
    (stored : s.store.scenes[x.scene]? = some (some r)) (ready : s.store.mustWait r = false) :
    s.stageDue = true ∧ s.stageWork = s.copyStaged x r := by
  have copyReady := State.copyReady_of inFlight stored ready
  have due : s.stageDue = true := by simp [State.stageDue, mayMove, state, inFlight, copyReady]
  refine ⟨due, ?_⟩
  unfold State.stageWork
  rw [if_pos due, inFlight, copyReady]

theorem State.restageWork_of {s : State} {x : Select} {r : SceneRecord} (mayMove : s.mayMove = true)
    (state : s.transition.state = .dipOut) (asked : s.transition.restageDue = true)
    (inFlight : s.transition.inFlight = some x) (stored : s.store.scenes[x.scene]? = some (some r))
    (ready : s.store.mustWait r = false) : s.restageDue = true ∧ s.restageWork = s.copyRestaged x r := by
  have copyReady := State.copyReady_of inFlight stored ready
  have due : s.restageDue = true := by simp [State.restageDue, mayMove, state, asked, inFlight, copyReady]
  refine ⟨due, ?_⟩
  unfold State.restageWork
  rw [if_pos due, inFlight, copyReady]

/-! ## The staged banks and tails, by the kind decided -/

section StagedFor
variable {s : State} {x : Select} {r : SceneRecord}

/-- The entries of a record with the staging overlay applied (R20). -/
def State.entriesFor (s : State) (r : SceneRecord) : List EditView :=
  overlayOn s.loadBeside s.engine.overlay r.entries

/-- What is decided a DIP or CUT is staged as one. -/
theorem State.stagedFor_of_not_fade (notFade : (s.decideKind x r).1 ≠ .fade) :
    s.stagedFor x r = stagedDip (s.decideKind x r).1 s.engine.live.stages
      (freshViews (s.engine.tempoWith r) (s.entriesFor r)) s.engine.tails := stagedAs_of_not_fade notFade _ _ _

/-- A FADE is staged as a FADE or, where the admission test fails with every tail cut, as a DIP. -/
theorem State.stagedFor_of_fade {n : Nat} (fade : s.decideKind x r = (.fade, n)) :
    let live := s.engine.live.stages
    let next := freshViews (s.engine.tempoWith r) (s.entriesFor r)
    let kept := cutUntil (admissionTest live next) s.engine.tails
    (admits live (s.entriesFor r) kept → s.stagedFor x r =
      ⟨.fade, live, giveAllLanes (freeLanes (lanesOf live ++ lanesOf (tailStages kept))) next, kept⟩) ∧
    (¬ admits live (s.entriesFor r) kept → kept = [] ∧ s.stagedFor x r = stagedDip .dip live next []) := by
  intro live next kept
  have test := admissionTest_iff live (s.engine.tempoWith r) (s.entriesFor r) kept
  have staged : s.stagedFor x r = stagedAs .fade live next s.engine.tails := by unfold State.stagedFor; rw [fade]; rfl
  refine ⟨fun passes => staged.trans (stagedAs_of_admitted (test.2 passes)), fun fails => ?_⟩
  have fails : admissionTest live next kept = false := Bool.eq_false_iff.2 fun passes => fails (test.1 passes)
  exact ⟨cutUntil_nil fails, staged.trans (stagedAs_of_refused fails)⟩

/-- Whatever is not staged as a FADE has the banks of a DIP. -/
theorem State.stagedFor_banks (notFade : (s.stagedFor x r).kind ≠ .fade) :
    dipBanks (s.engine.tempoWith r) (s.entriesFor r) s.engine.live.stages ((s.stagedFor x r).live.map Stage.markTail)
      (s.stagedFor x r).next := by
  by_cases fade : (s.decideKind x r).1 = .fade
  · obtain ⟨admitted, refused⟩ := State.stagedFor_of_fade (s := s) (x := x) (r := r) (n := (s.decideKind x r).2)
      (by rw [← fade])
    by_cases passes : admits s.engine.live.stages (s.entriesFor r)
        (cutUntil (admissionTest s.engine.live.stages (freshViews (s.engine.tempoWith r) (s.entriesFor r))) s.engine.tails)
    · exact absurd (congrArg Staged.kind (admitted passes)) notFade
    · rw [(refused passes).2]; exact (stagedDip_banks _ _ _ _ _ Stage.markTail_eq).1
  · rw [State.stagedFor_of_not_fade fade]; exact (stagedDip_banks _ _ _ _ _ Stage.markTail_eq).1

/-- A stage of LIVE beside a FADE keeps everything but its tail mark. -/
theorem markTail_get {live : List Stage} {p : Nat} {l : Stage} (entry : live[p]? = some l) :
    ∃ l', (live.map Stage.markTail)[p]? = some l' ∧ l' = { l with tailMode := l'.tailMode } :=
  ⟨_, by rw [List.getElem?_map, entry]; rfl, l.markTail_eq⟩

end StagedFor

end Sys2Proof.Machine

namespace Sys2Proof.Proofs
open Sys2Proof.Machine

/-- Settles O23: the blocks by what each copy leaves, the decision by the kind decided and the admission test. -/
theorem stagingCopiesIntoNext : Obligations.StagingCopiesIntoNext := by
  refine ⟨fun s x r yet => ?staging, fun s x r yet => ?restaging⟩
  case staging =>
    intro b live tempo kind length muted mayMove state inFlight stored ready
    obtain ⟨due, work⟩ := State.stageWork_of mayMove state inFlight stored ready
    refine ⟨_, ((b.stagedFor x r).kind, (b.decideKind x r).2), b.entriesFor r,
      exec_event_of_due (exec_stageSelect s) yet due, ?_⟩
    have blocks := b.copyStaged_blocks x r
    rw [← work] at blocks
    obtain ⟨liveIs, other, tails, overlay, transition, brings, store, requests, port, router, tuner, mapper⟩ := blocks
    have fits : (b.stagedFor x r).Fits live (freshViews tempo (b.entriesFor r)) := stagedAs_fits _ _ _ _
    have tailsFewer : (b.stagedFor x r).tails.length ≤ b.engine.tails.length := stagedAs_tails _ _ _ _
    simp only [Work.run, State.mark]
    generalize b.stageWork = t at *
    refine ⟨by rw [transition], rfl, overlayOn_length _ _ _, fun empty => ?noOverlay, fun p => overlayOn_other _ _,
      fun cut => ?cut, fun notMuted dip => ?dip, fun notFade => ?dipTails, fun notMuted fade => ?fade,
      fun notFade => ?dipBanks, ?marks, by rw [transition], by rw [transition], by rw [transition], by rw [transition],
      by rw [transition], by rw [other], by rw [other], ?nextLength, by rw [liveIs], by rw [liveIs], ?liveLength, overlay,
      brings, by rw [tails]; exact tailsFewer, store, requests, port, router, tuner, mapper⟩
    case noOverlay => unfold State.entriesFor; rw [empty]; rfl
    case cut =>
      have decided := State.decideKind_of_cut (s := b) cut
      rw [State.stagedFor_of_not_fade (by rw [decided]; nofun), decided]
      rfl
    case dip =>
      have decided := State.decideKind_of_dip (s := b) notMuted dip
      rw [State.stagedFor_of_not_fade (by rw [decided]; nofun), decided]
      rfl
    case dipTails =>
      rw [tails, State.stagedFor_of_not_fade (State.decideKind_not_fade notFade)]
      exact (stagedDip_banks _ _ _ _ _ Stage.markTail_eq).2
    case fade =>
      have decided := State.decideKind_of_fade (s := b) notMuted fade
      obtain ⟨admitted, refused⟩ := State.stagedFor_of_fade decided
      refine ⟨_, cutUntil_cutTo (admissionTest_iff live tempo (b.entriesFor r)) b.engine.tails, ?_, fun passes => ?_,
        fun fails => ?_⟩
      · rw [tails]
        by_cases passes : admits live (b.entriesFor r)
            (cutUntil (admissionTest live (freshViews tempo (b.entriesFor r))) b.engine.tails)
        · rw [admitted passes]; rfl
        · obtain ⟨noTails, refused⟩ := refused passes
          rw [refused]
          exact noTails.symm
      · rw [other, liveIs, admitted passes, decided]
        exact ⟨rfl, giveAllLanes_copied _ _ _, fun p l entry => markTail_get entry⟩
      · obtain ⟨noTails, refused⟩ := refused fails
        rw [refused, decided]
        exact ⟨noTails, rfl⟩
    case dipBanks => rw [liveIs, other]; exact State.stagedFor_banks notFade
    case marks => rw [liveIs]; exact fits.tailsMarked
    case nextLength =>
      rw [other]
      refine fits.nextLength.trans ?_
      simp [freshViews, State.entriesFor, overlayOn_length, SceneRecord.entries]
    case liveLength => rw [liveIs]; exact (List.length_map ..).trans fits.liveLength
  case restaging =>
    intro b live tempo kind muted mayMove state asked inFlight stored ready
    obtain ⟨due, work⟩ := State.restageWork_of mayMove state asked inFlight stored ready
    refine ⟨_, ((b.restagedFor x r).kind, (b.decideKind x r).2), exec_event_of_due (exec_restage s) yet due, ?_⟩
    have blocks := b.copyRestaged_blocks x r
    rw [← work] at blocks
    obtain ⟨liveIs, other, tails, transition, brings, store, requests, port, router, mapper⟩ := blocks
    have fits : (b.restagedFor x r).Fits live (freshViews tempo r.entries) := stagedDip_fits _ _ _ _
    obtain ⟨banks, cut⟩ := stagedDip_banks (b.decideKind x r).1.asDip live tempo r.entries b.engine.tails (mark := id)
      fun _ => rfl
    rw [List.map_id] at banks
    simp only [Work.run, State.mark]
    generalize b.restageWork = t at *
    refine ⟨by rw [transition], fun cut => ?cut, fun notMuted notCut => ?dip, by rw [tails]; exact cut, ?banks,
      fun p l l' entry entry' => ?tailMode, by rw [transition]; exact state, by rw [transition], by rw [transition],
      by rw [transition]; rfl, by rw [other], by rw [other], by rw [liveIs], brings, store, requests, port, router, mapper⟩
    case cut =>
      have decided := State.decideKind_of_cut (s := b) cut
      unfold State.restagedFor
      rw [decided]
      rfl
    case dip =>
      unfold State.restagedFor
      cases given : x.kind.getD r.kind with
      | fade => rw [State.decideKind_of_fade (s := b) notMuted given]; rfl
      | dip => rw [State.decideKind_of_dip (s := b) notMuted given]; rfl
      | cut => exact absurd given notCut
    case banks => rw [liveIs, other]; exact banks
    case tailMode =>
      obtain ⟨c, marked⟩ := fits.marked p l entry
      rw [liveIs] at entry'
      cases marked.symm.trans entry'
      rfl

end Sys2Proof.Proofs
end

section
/-! SUPPORT. SELECT_SCENE: its checks (R121), where a select is placed, and the select it replaces (R122, R135, R138). -/

namespace Sys2Proof.Machine

/-! ## The select as it is taken (R121) -/

theorem TransKind.ofCode_eq (v : Int) : TransKind.ofCode v =
    if v = 0 then some .fade else if v = 1 then some .dip else if v = 2 then some .cut else Option.none := by
  unfold TransKind.ofCode
  split
  next => rfl
  next => rfl
  next => rfl
  next not0 not1 not2 => rw [if_neg not0, if_neg not1, if_neg not2]

theorem requestedLength_eq (v : Int) : (requestedLength v).1 =
    if v = 0 then none else some ((max 2 (min 480 v) + max 2 (min 480 v) % 2).toNat) := by
  unfold requestedLength
  split <;> rfl

theorem requestedLength_marked (v : Int) : (requestedLength v).2 = true ↔ v ≠ 0 ∧ (v < 2 ∨ 480 < v) := by
  unfold requestedLength
  split
  next zero => exact iff_of_false nofun fun ⟨nonzero, _⟩ => nonzero zero
  next nonzero => exact (clampMark_marked 2 480 v).trans (and_iff_right nonzero).symm

/-- The select that a SELECT_SCENE request asks for. -/
def Taken.select (t : Taken) : Select :=
  .taken t.arg0.toNat (.slot t.slot) (TransKind.ofCode t.arg1) (requestedLength t.arg2).1 (requestedLength t.arg2).2

section CarrySelectScene
variable {t : Taken} {s : State}

theorem carrySelectScene_range (outside : t.arg0 < 0 ∨ 127 < t.arg0) :
    carrySelectScene t s = s.answer .range (.given t.arg0) := if_pos outside

variable (low : 0 ≤ t.arg0) (high : t.arg0 ≤ 127)
include low high

theorem carrySelectScene_kind (badKind : ¬ (t.arg1 = 0 ∨ t.arg1 = 1 ∨ t.arg1 = 2 ∨ t.arg1 = 255)) :
    carrySelectScene t s = s.answer .invalid (.given t.arg0) := by
  unfold carrySelectScene
  rw [if_neg (by omega), if_pos]
  refine ⟨by omega, ?_⟩
  rw [TransKind.ofCode_eq, if_neg (by omega), if_neg (by omega), if_neg (by omega)]
  rfl

variable (kind : t.arg1 = 0 ∨ t.arg1 = 1 ∨ t.arg1 = 2 ∨ t.arg1 = 255)
include kind

theorem carrySelectScene_of_kind : carrySelectScene t s =
    if (s.store.scene t.arg0).isNone then s.answer .emptyScene (.given t.arg0) else ⟨s.takeSelect t.select, none⟩ := by
  unfold carrySelectScene
  rw [if_neg (by omega), if_neg]
  · rfl
  · rintro ⟨not255, isNone⟩
    rcases kind with h | h | h | h <;> rw [h] at isNone not255
    · cases isNone
    · cases isNone
    · cases isNone
    · exact not255 rfl

theorem carrySelectScene_empty (empty : (s.store.scenes[t.arg0.toNat]?).join = none) :
    carrySelectScene t s = s.answer .emptyScene (.given t.arg0) := by
  rw [carrySelectScene_of_kind low high kind, s.store.scene_of_nonneg low, empty]
  rfl

theorem carrySelectScene_takes {r : SceneRecord} (stored : s.store.scenes[t.arg0.toNat]? = some (some r)) :
    carrySelectScene t s = ⟨s.takeSelect t.select, none⟩ := by
  rw [carrySelectScene_of_kind low high kind, s.store.scene_of_nonneg low, stored]
  rfl

end CarrySelectScene

/-! ## Where a select is placed, and which one it replaces (R122, R138) -/

/-- The select that a newer one replaces. -/
def State.replaced (s : State) : Option Select :=
  if !s.engine.running then s.transition.stopped
  else
    match s.transition.state with
    | .idle => none
    | .staging => s.transition.inFlight
    | .dipOut => s.transition.inFlight
    | _ => s.transition.pending

/-- A select in its place. -/
def State.placed (s : State) (x : Select) : State :=
  if !s.engine.running then { s with transition := { s.transition with stopped := some x } }
  else
    match s.transition.state with
    | .idle => { s with transition := { s.transition with inFlight := some x, state := .staging } }
    | .staging =>
      { s with transition := { s.transition with inFlight := some x }, engine := { s.engine with overlay := [] } }
    | .dipOut => { s with transition := { s.transition with inFlight := some x, restageDue := true } }
    | _ => { s with transition := { s.transition with pending := some x } }

theorem State.takeSelect_eq (s : State) (x : Select) : s.takeSelect x = (s.placed x).supersede s.replaced x.scene := by
  unfold State.takeSelect State.placed State.replaced
  split
  · rfl
  · cases s.transition.state <;> rfl

/-- A select replaces the one in flight before the turn, the one pending after it, or the stopped one. -/
theorem State.replaced_of {s : State} {old : Select}
    (which : (s.engine.running = true ∧ (s.transition.state = .staging ∨ s.transition.state = .dipOut) ∧
        s.transition.inFlight = some old) ∨
      (s.engine.running = true ∧ (s.transition.state = .fading ∨ s.transition.state = .dipIn) ∧
        s.transition.pending = some old) ∨
      (s.engine.running = false ∧ s.transition.stopped = some old)) : s.replaced = some old := by
  unfold State.replaced
  rcases which with ⟨running, state | state, old⟩ | ⟨running, state | state, old⟩ | ⟨running, old⟩
  · rw [running, state]; exact old
  · rw [running, state]; exact old
  · rw [running, state]; exact old
  · rw [running, state]; exact old
  · rw [running]; exact old

section Placed
variable {s : State} (x : Select)

theorem State.placed_of_stopped (running : s.engine.running = false) :
    s.placed x = { s with transition := { s.transition with stopped := some x } } := by
  unfold State.placed; rw [running]; rfl

variable (running : s.engine.running = true)
include running

theorem State.placed_of_idle (state : s.transition.state = .idle) :
    s.placed x = { s with transition := { s.transition with inFlight := some x, state := .staging } } := by
  unfold State.placed; rw [running, state]; rfl

theorem State.placed_of_staging (state : s.transition.state = .staging) : s.placed x =
    { s with transition := { s.transition with inFlight := some x }, engine := { s.engine with overlay := [] } } := by
  unfold State.placed; rw [running, state]; rfl

theorem State.placed_of_dipOut (state : s.transition.state = .dipOut) :
    s.placed x = { s with transition := { s.transition with inFlight := some x, restageDue := true } } := by
  unfold State.placed; rw [running, state]; rfl

theorem State.placed_of_turned (state : s.transition.state = .fading ∨ s.transition.state = .dipIn) :
    s.placed x = { s with transition := { s.transition with pending := some x } } := by
  unfold State.placed
  rcases state with state | state <;> rw [running, state] <;> rfl

end Placed

/-- A select replaces none where its place is free. -/
theorem State.replaced_none {s : State}
    (free : (s.engine.running = true ∧ s.transition.state = .idle) ∨
      (s.engine.running = true ∧ (s.transition.state = .fading ∨ s.transition.state = .dipIn) ∧
        s.transition.pending = none) ∨
      (s.engine.running = false ∧ s.transition.stopped = none)) : s.replaced = none := by
  unfold State.replaced
  rcases free with ⟨running, state⟩ | ⟨running, state | state, free⟩ | ⟨running, free⟩
  · rw [running, state]; rfl
  · rw [running, state]; exact free
  · rw [running, state]; exact free
  · rw [running]; exact free

theorem State.takeSelect_of_free {s : State} (free : s.replaced = none) (x : Select) : s.takeSelect x = s.placed x := by
  rw [s.takeSelect_eq, free]; rfl

/-- A select in its place changes the Transition Unit and the engine's overlay alone. -/
theorem State.placed_rest (s : State) (x : Select) :
    s.placed x = { s with transition := (s.placed x).transition, engine := (s.placed x).engine } := by
  unfold State.placed
  split
  · rfl
  · split <;> rfl

theorem State.takeSelect_blocks (s : State) (x : Select) :
    (s.takeSelect x).transition = (s.placed x).transition ∧ (s.takeSelect x).engine = (s.placed x).engine := by
  rw [s.takeSelect_eq]
  cases s.replaced with
  | none => exact ⟨rfl, rfl⟩
  | some old =>
    obtain ⟨transition, engine, _⟩ := (s.placed x).finishSelect_blocks old .superseded x.scene
    exact ⟨transition, engine⟩

/-! ## The select that is replaced (R135) -/

/-- Finishing a select leaves every slot but its own. -/
theorem State.finishSelect_otherSlot (s : State) {x : Select} {n : Nat} (other : x.origin ≠ .slot n) (o : SelectOutcome)
    (arg : Nat) : (s.finishSelect x o arg).requests.slots[n]? = s.requests.slots[n]? := by
  have others : ∀ c ∈ x.completions o, c.slot ≠ n := by
    unfold Select.completions
    cases origin : x.origin with
    | assignment i => nofun
    | slot k =>
      intro c mem same
      rw [List.mem_singleton.mp mem] at same
      exact other (origin.trans (congrArg Origin.slot same))
  have still := (s.notify (sceneNotice x o arg)).completeAll_otherSlot others
  unfold State.finishSelect
  dsimp only
  split
  · rw [State.handFrames_requests]; exact still
  · exact still

theorem State.takeSelect_supersedes {s : State} (mem : s.memoryOk) (slots : s.requests.slots.length = 32) {old x : Select}
    (replaced : s.replaced = some old) :
    let t := s.takeSelect x
    slotReport s t old 9 ∧ sceneReport t.ram s.report.noticeCount old 1 old.carriedKind x.scene ∧
    t.port.signal.notice = true ∧ t.report.noticeCount = s.report.noticeCount + 1 ∧ t.link = s.link ∧
    ∀ n, old.origin ≠ .slot n → t.requests.slots[n]? = s.requests.slots[n]? := by
  intro t
  have taken : t = (s.placed x).finishSelect old .superseded x.scene := by
    show s.takeSelect x = _
    rw [s.takeSelect_eq, replaced]; rfl
  rw [taken, s.placed_rest x]
  obtain ⟨scene, slot, signal, link⟩ := State.finishSelect_reports
    (s := { s with transition := (s.placed x).transition, engine := (s.placed x).engine }) mem old .superseded x.scene
    slots nofun
  exact ⟨slot, scene, signal, State.finishSelect_count nofun, link, fun n other =>
    State.finishSelect_otherSlot _ other _ _⟩

/-- The slot of a select stays what it was before a request was taken, the taken one apart. -/
theorem slotReport.of_takeHead {s t : State} {n : Nat} {rest : List Nat} {x : Select} {code : Nat} (head : s.headIs n rest)
    (report : slotReport (s.takeHead n rest) t x code) : slotReport s t x code := by
  intro k origin inside taken
  refine report k origin inside ?_
  by_cases same : k = n
  · rw [same]; exact State.takeHead_slot head
  · rw [s.takeHead_otherSlot same, taken]

section Requests
variable {c : Instr} {s v : State} {n : Nat} {rest : List Nat} {due : Taken → Bool} {need : BufferNeed}
  {carry : Taken → State → Answer}

/-- The outcome of a command whose request the owner keeps. -/
theorem exec_keeps (arm : ∀ s, exec c s = whenReady s (·.take due need carry)) (head : s.headIs n rest)
    (hdue : due (takenAt s.ram n) = true) (hneed : need.passes (takenAt s.ram n) = true)
    (carried : carry (takenAt s.ram n) (s.takeHead n rest) = ⟨v, none⟩) : exec c s = .next v.endServing := by
  rw [arm, whenReady_of_head head, State.take_of_head head hdue, State.serve_of_passes hneed, carried]
  rfl

end Requests

end Sys2Proof.Machine

namespace Sys2Proof.Proofs
open Sys2Proof.Machine

/-- Settles O22: the checks in their order, the place of the select by the unit's state, and the report of the one it
replaces. -/
theorem selectSceneChecksThenPlaces : Obligations.SelectSceneChecksThenPlaces := by
  refine ⟨fun s n rest mem head => ?request, fun s x y mem slots => ?replaces⟩
  case request =>
    intro t tr kindOk isSelect
    have hdue : isKind 10 (takenAt s.ram n) = true := isKind_of_kind isSelect
    have refused {code : Result} {value : ResultValue}
        (answer : carrySelectScene t (s.takeHead n rest) = (s.takeHead n rest).answer code value) :
        completes .selectScene s s n rest code value :=
      completes_refused exec_selectScene mem head hdue (BufferNeed.none_passes _) carrySelectScene_keeps answer
    refine ⟨fun outside => refused (carrySelectScene_range outside), fun low high =>
      ⟨fun badKind => refused (carrySelectScene_kind low high badKind), fun kind =>
        ⟨fun empty => refused (carrySelectScene_empty low high kind empty), fun r stored => ?taken⟩⟩⟩
    have takes : carrySelectScene t (s.takeHead n rest) = ⟨(s.takeHead n rest).takeSelect t.select, none⟩ :=
      carrySelectScene_takes low high kind stored
    have keeps {tr' : Transition} (free : (s.takeHead n rest).replaced = none)
        (placed : (s.takeHead n rest).placed t.select = { s.takeHead n rest with transition := tr' }) :
        keepsSlot .selectScene s { s with transition := tr' } n rest := by
      rw [State.takeSelect_of_free free, placed] at takes
      exact keepsSlot_of_kept exec_selectScene mem head hdue (BufferNeed.none_passes _) takes
    refine ⟨t.select, rfl, rfl, rfl, rfl, TransKind.ofCode_eq _, requestedLength_eq _, requestedLength_marked _,
      fun running idle => ?idle, fun stopped free => ?stopped, fun running turned free => ?turned, _,
      exec_keeps exec_selectScene head hdue (BufferNeed.none_passes _) takes, ?placed⟩
    case idle =>
      exact keeps (State.replaced_none (.inl ⟨running, idle⟩)) (State.placed_of_idle _ running idle)
    case stopped =>
      exact keeps (State.replaced_none (.inr (.inr ⟨stopped, free⟩))) (State.placed_of_stopped _ stopped)
    case turned =>
      exact keeps (State.replaced_none (.inr (.inl ⟨running, turned, free⟩))) (State.placed_of_turned _ running turned)
    case placed =>
      obtain ⟨transition, engine⟩ := (s.takeHead n rest).takeSelect_blocks t.select
      have kept := (s.takeHead n rest).takeSelect_keeps t.select
      have supersedes := fun (old : Select) (slots : s.requests.exact) replaced =>
        State.takeSelect_supersedes (s := s.takeHead n rest) (old := old) (x := t.select)
          ((State.takeHead_steps head.2.2.1).memory mem) (by simp [State.takeHead_requests, slots.1]) replaced
      generalize (s.takeHead n rest).takeSelect t.select = u at *
      refine ⟨kept.pending, fun stopped => ?_, fun running => ⟨fun state => ?_, fun state => ?_, fun state => ?_⟩,
        fun old slots which => ?_⟩
      · rw [State.placed_of_stopped (s := s.takeHead n rest) _ stopped] at transition engine
        exact ⟨transition, engine⟩
      · rw [State.placed_of_staging (s := s.takeHead n rest) _ running state] at transition engine
        exact ⟨transition, engine⟩
      · rw [State.placed_of_dipOut (s := s.takeHead n rest) _ running state] at transition engine
        exact ⟨transition, engine⟩
      · rw [State.placed_of_turned (s := s.takeHead n rest) _ running state] at transition engine
        exact ⟨transition, engine⟩
      · obtain ⟨slot, scene, signal, count, link, others⟩ :=
          supersedes old slots (State.replaced_of (s := s.takeHead n rest) which)
        exact ⟨slot.of_takeHead head, scene, signal, count, link, kept.queue, rfl,
          fun other => (others n other).trans (State.takeHead_slot head)⟩
  case replaces =>
    intro t tr reported
    obtain ⟨transition, _⟩ := s.takeSelect_blocks y
    have supersedes (replaced : s.replaced = some x) : reported := by
      obtain ⟨slot, scene, signal, count, link, _⟩ := State.takeSelect_supersedes (x := y) mem slots.1 replaced
      exact ⟨slot, scene, signal, count, link⟩
    refine ⟨fun running state inFlight => ⟨?_, supersedes (State.replaced_of (.inl ⟨running, state, inFlight⟩))⟩,
      fun running state pending => ⟨?_, supersedes (State.replaced_of (.inr (.inl ⟨running, state, pending⟩)))⟩,
      fun running stopped => ⟨?_, supersedes (State.replaced_of (.inr (.inr ⟨running, stopped⟩)))⟩⟩
    · refine (congrArg (·.inFlight) transition).trans ?_
      rcases state with state | state
      · rw [State.placed_of_staging y running state]
      · rw [State.placed_of_dipOut y running state]
    · exact (congrArg (·.pending) transition).trans (by rw [State.placed_of_turned y running state])
    · exact (congrArg (·.stopped) transition).trans (by rw [State.placed_of_stopped y running])

end Sys2Proof.Proofs
end

section
/-! SUPPORT. What later finishes leave of a select's report, and the steps of an engine stop (R135, R137). -/

namespace Sys2Proof.Machine

/-! ## How many notices a finish writes (R135, R174) -/

/-- The notices of dropped frames are at most the frames. -/
theorem State.handFrames_count (s : State) (fs : List MasterFrame) :
    ∃ j ≤ fs.length, (s.handFrames fs).report.noticeCount = s.report.noticeCount + BitVec.ofNat 32 j := by
  unfold State.handFrames
  induction fs generalizing s with
  | nil => exact ⟨0, Nat.le_refl _, (BitVec.add_zero _).symm⟩
  | cons f fs ih =>
    obtain ⟨j, few, count⟩ := ih (s.handFrame f)
    obtain ⟨_, _, kept | wrote, _⟩ := s.handFrame_rest f
    · exact ⟨j, Nat.le_succ_of_le few, by rw [List.foldl_cons, count, kept]⟩
    · refine ⟨j + 1, Nat.succ_le_succ few, ?_⟩
      rw [List.foldl_cons, count, wrote, BitVec.add_assoc, BitVec.add_comm 1, Nat.add_comm j, BitVec.ofNat_add,
        BitVec.add_comm (BitVec.ofNat 32 1)]
      rfl

/-- How many notices frames write depends on the link alone. -/
theorem State.handFrames_countFrom {s t : State} {k : Word} (link : s.link = t.link)
    (count : s.report.noticeCount = t.report.noticeCount + k) (fs : List MasterFrame) :
    (s.handFrames fs).report.noticeCount = (t.handFrames fs).report.noticeCount + k := by
  unfold State.handFrames
  induction fs generalizing s t with
  | nil => exact count
  | cons f fs ih =>
    refine ih (by rw [(s.handFrame_rest f).1, (t.handFrame_rest f).1, link]) ?_
    unfold State.handFrame
    rw [link]
    dsimp only
    split
    · show s.report.noticeCount + 1 = t.report.noticeCount + 1 + k
      rw [count, BitVec.add_assoc, BitVec.add_assoc, BitVec.add_comm k]
    · exact count

theorem State.handFrames_append (s : State) (fs gs : List MasterFrame) :
    s.handFrames (fs ++ gs) = (s.handFrames fs).handFrames gs := List.foldl_append

/-- The notices of a finish: its own, and those of its frames. -/
theorem State.finishSelect_countWith (s : State) (x : Select) {o : SelectOutcome} (finishes : o = .live ∨ o = .cutShort)
    (other : Nat) : (s.finishSelect x o other).report.noticeCount =
      (s.handFrames (x.lamps.map LampEntry.frame)).report.noticeCount + 1 := by
  unfold State.finishSelect
  dsimp only
  rw [if_pos finishes]
  refine State.handFrames_countFrom (t := s) ?_ ?_ _
  · exact State.completeAll_link _ _
  · rw [State.completeAll_report]; rfl

theorem State.finishSelect_countWithin (s : State) {x : Select} (few : x.lamps.length ≤ 4) {o : SelectOutcome}
    (finishes : o = .live ∨ o = .cutShort) (other : Nat) :
    ∃ j ≤ 5, (s.finishSelect x o other).report.noticeCount = s.report.noticeCount + 1 + BitVec.ofNat 32 j := by
  obtain ⟨j, within, count⟩ := s.handFrames_count (x.lamps.map LampEntry.frame)
  rw [List.length_map] at within
  refine ⟨j, by omega, ?_⟩
  rw [s.finishSelect_countWith x finishes, count, BitVec.add_assoc, BitVec.add_assoc, BitVec.add_comm 1]

/-! ## The report of a select stands while a later one finishes (R135, R137) -/

section Report
variable {b u : State} {x : Select} {code outcome kind other : Nat} {c : Word}

/-- A report: the notice of a select at an earlier count, its slot's result, and SIGNAL.NOTICE. -/
def reported (b u : State) (x : Select) (code : Nat) (c : Word) (outcome kind other : Nat) : Prop :=
  slotReport b u x code ∧ sceneReport u.ram c x outcome kind other ∧ u.port.signal.notice = true

theorem reported.finishSelect (report : reported b u x code c outcome kind other) (mem : u.memoryOk)
    (slots : u.requests.slots.length = 32) {j : Nat} (hj : j ≤ 5)
    (count : u.report.noticeCount = c + 1 + BitVec.ofNat 32 j) (y : Select) (o : SelectOutcome) (m : Nat)
    (few : o = .live ∨ o = .cutShort → y.lamps.length ≤ 4) :
    reported b (u.finishSelect y o m) x code c outcome kind other := by
  obtain ⟨slot, scene, _⟩ := report
  obtain ⟨bytes, done, signal⟩ := State.finishSelect_leaves mem slots y o m hj count few
  obtain ⟨_, _, notice, _⟩ := State.finishSelect_reports mem y o m slots few
  refine ⟨fun k origin inside taken => ?slot, ?scene, notice⟩
  case slot =>
    obtain ⟨isDone, isSignalled, codeStands, valueStands⟩ := slot k origin inside taken
    have address : slotAddress k = 0x40 + 32 * k := rfl
    have still (a : Nat) (low : slotAddress k + 0x18 ≤ a) (high : a < slotAddress k + 0x1E) :
        readByte (u.finishSelect y o m).ram a = readByte u.ram a := by
      refine bytes a ⟨by omega, by omega⟩ fun k' inside' taken' _ written => ?_
      have apart : k' ≠ k := fun same => by rw [same, isDone] at taken'; cases taken'
      have address' : slotAddress k' = 0x40 + 32 * k' := rfl
      unfold inResult at written
      omega
    exact ⟨done k isDone, signal isSignalled, (readLE_congr fun a low high => still a (by omega) (by omega)).trans codeStands,
      (readLE_congr fun a low high => still a (by omega) (by omega)).trans valueStands⟩
  case scene =>
    have bounds := noticeAddress_bounds c.toNat
    refine noticeStands_congr (fun a low high => bytes a ⟨by omega, by omega⟩ fun k inside _ _ written => ?_) scene
    have address := slotAddress_lt inside
    unfold inResult at written
    omega

end Report

/-! ## What every step of an engine stop leaves alone -/

structure StopKeeps (s t : State) : Prop where
  tails : t.engine.tails = s.engine.tails
  store : t.store = s.store
  tuner : t.tuner = s.tuner
  router : t.router = s.router
  queue : t.requests.queue = s.requests.queue

theorem StopKeeps.trans {s t u : State} (h : StopKeeps s t) (k : StopKeeps t u) : StopKeeps s u :=
  ⟨k.tails.trans h.tails, k.store.trans h.store, k.tuner.trans h.tuner, k.router.trans h.router, k.queue.trans h.queue⟩

theorem State.finishSelect_stopKeeps (s : State) (x : Select) (o : SelectOutcome) (n : Nat) :
    StopKeeps s (s.finishSelect x o n) := by
  obtain ⟨_, engine, store, _, tuner, router, _, queue⟩ := s.finishSelect_blocks x o n
  exact ⟨congrArg _ engine, store, tuner, router, queue⟩

theorem State.directCopy_stopKeeps (s : State) (x : Select) (r : SceneRecord) (v : List EditView) (o : SelectOutcome) :
    StopKeeps s (s.directCopy x r v o) := by
  obtain ⟨_, _, tails, _, _, _, _, store, tuner, router, queue⟩ := s.directCopy_blocks x r v o
  exact ⟨tails, store, tuner, router, queue⟩

/-! ## A select that becomes the stopped one (R138) -/

theorem State.stopSelect_blocks (s : State) (x : Select) :
    let t := s.stopSelect x
    t.transition = { s.transition with stopped := some x } ∧ t.engine = s.engine ∧ t.input = s.input ∧
    t.mapper = s.mapper ∧ StopKeeps s t := by
  unfold State.stopSelect
  cases s.transition.stopped with
  | none => exact ⟨rfl, rfl, rfl, rfl, rfl, rfl, rfl, rfl, rfl⟩
  | some old =>
    obtain ⟨transition, engine, store, input, tuner, router, mapper, queue⟩ := State.finishSelect_blocks
      { s with transition := { s.transition with stopped := some x } } old .superseded x.scene
    exact ⟨transition, engine, input, mapper, congrArg _ engine, store, tuner, router, queue⟩

/-- Where no select was stopped, none is reported. -/
theorem State.stopSelect_of_none {s : State} (free : s.transition.stopped = none) (x : Select) :
    s.stopSelect x = { s with transition := { s.transition with stopped := some x } } := by
  unfold State.stopSelect; rw [free]; rfl

/-! ## The tails are cut (R137, step 1) -/

/-- The part with its tails cut. -/
def State.cut (s : State) : State := { s with engine := s.engine.cutTails }

/-- Instances that have lost their marks. -/
def unmarkedStages (l : List Stage) : List Stage := l.map fun st => { st with tailMode := false }

theorem Engine.cutTails_banks (e : Engine) :
    e.cutTails.live = { e.live with stages := unmarkedStages e.live.stages } ∧
    e.cutTails.other = { e.other with stages := unmarkedStages e.other.stages } := by
  have still : e.cutTails.aIsLive = e.aIsLive := rfl
  unfold Engine.live Engine.other
  rw [still]
  cases e.aIsLive <;> exact ⟨rfl, rfl⟩

theorem loadOf_unmarked (l : List Stage) : loadOf (unmarkedStages l) = loadOf l := by
  unfold loadOf unmarkedStages
  rw [List.map_map]
  rfl

/-! ## NEXT becomes LIVE at once (R137, step 2) -/

theorem State.stopCompleting_blocks (s : State) (x : Select) :
    let t := s.stopCompleting x
    t.engine.live = ⟨.live, s.engine.other.scene,
      (turned [] s.engine.live.stages s.engine.other.stages).map Stage.uncarried⟩ ∧
    t.engine.other = .idle ∧ t.engine.tempoTarget = s.engine.tempoTarget ∧
    t.transition = { s.transition with inFlight := none } ∧ t.input = s.input ∧ t.mapper = s.mapper.allUncaught ∧
    StopKeeps s t := by
  unfold State.stopCompleting
  obtain ⟨transition, engine, store, input, tuner, router, mapper, queue⟩ := State.finishSelect_blocks
    { s with
      engine := s.engine.swapped (turned [] s.engine.live.stages s.engine.other.stages)
      transition := { s.transition with inFlight := none }
      mapper := s.mapper.uncatchAll } x .cutShort s.engine.live.scene
  obtain ⟨live, other, tails, tempo, _⟩ := s.engine.swapped_banks (turned [] s.engine.live.stages s.engine.other.stages)
  exact ⟨(congrArg _ engine).trans live, (congrArg _ engine).trans other, (congrArg _ engine).trans tempo, transition,
    input, mapper, (congrArg _ engine).trans tails, store, tuner, router, queue⟩

theorem State.stopCompleting_reports {s : State} (mem : s.memoryOk) (slots : s.requests.slots.length = 32) {x : Select}
    (few : x.lamps.length ≤ 4) :
    let t := s.stopCompleting x
    reported s t x 11 s.report.noticeCount 3 x.carriedKind s.engine.live.scene ∧
    ∃ j ≤ 5, t.report.noticeCount = s.report.noticeCount + 1 + BitVec.ofNat 32 j := by
  unfold State.stopCompleting
  obtain ⟨scene, slot, notice, _⟩ := State.finishSelect_reports
    (s := { s with
      engine := s.engine.swapped (turned [] s.engine.live.stages s.engine.other.stages)
      transition := { s.transition with inFlight := none }
      mapper := s.mapper.uncatchAll }) mem x .cutShort s.engine.live.scene slots fun _ => few
  exact ⟨⟨slot, scene, notice⟩, State.finishSelect_countWithin _ few (.inr rfl) _⟩

/-- The frames and the notices of a NEXT made LIVE, however many lamp entries there are. -/
theorem State.stopCompleting_hands (s : State) (x : Select) :
    (s.stopCompleting x).link = (s.handFrames (x.lamps.map LampEntry.frame)).link ∧
    (s.stopCompleting x).report.noticeCount =
      (s.handFrames (x.lamps.map LampEntry.frame)).report.noticeCount + 1 ∧
    ∀ n, x.origin ≠ .slot n → (s.stopCompleting x).requests.slots[n]? = s.requests.slots[n]? := by
  unfold State.stopCompleting
  refine ⟨(State.finishSelect_link _ _ _ _).trans ?_, (State.finishSelect_countWith _ _ (.inr rfl) _).trans ?_,
    fun n other => State.finishSelect_otherSlot _ other _ _⟩
  · refine (if_pos (.inr rfl)).trans (State.handFrames_link ?_ _)
    rfl
  · refine congrArg (· + 1) ((State.handFrames_countFrom (t := s) (k := 0) ?_ ?_ _).trans (BitVec.add_zero _))
    · rfl
    · exact (BitVec.add_zero _).symm

/-! ## A select whose NEXT is not staged (R137, step 2) -/

theorem Engine.dropNext_banks (e : Engine) :
    e.dropNext.live = { e.live with stages := e.live.stages.map Stage.uncarried } ∧ e.dropNext.other = .idle ∧
    e.dropNext.tempoTarget = e.tempoTarget ∧ e.dropNext.tails = e.tails ∧ e.dropNext.overlay = e.overlay := by
  obtain ⟨live, other⟩ := Engine.setBoth_banks (e := e)
    (live := { e.live with stages := e.live.stages.map Stage.uncarried }) (other := .idle) rfl (.inr nofun)
  obtain ⟨tempo, _, tails, overlay⟩ := (e.setLive { e.live with stages := e.live.stages.map Stage.uncarried }).setOther_rest .idle
  obtain ⟨tempo', _, tails', overlay'⟩ := e.setLive_rest { e.live with stages := e.live.stages.map Stage.uncarried }
  exact ⟨live, other, tempo.trans tempo', tails.trans tails', overlay.trans overlay'⟩

/-- The part whose restage was due has dropped its NEXT. -/
def State.dropped (s : State) : State :=
  if s.transition.state = .dipOut then { s with engine := s.engine.dropNext } else s

/-- The part from which an unstaged select is copied, or waits. -/
def State.copyBase (s : State) : State :=
  { s.dropped with transition := { s.transition with inFlight := none } }

theorem State.dropped_rest (s : State) : s.dropped = { s with engine := s.dropped.engine } := by
  unfold State.dropped; split <;> rfl

theorem State.copyBase_rest (s : State) :
    s.copyBase = { s with engine := s.dropped.engine, transition := { s.transition with inFlight := none } } := by
  unfold State.copyBase; rw [s.dropped_rest]

theorem State.dropped_engine (s : State) :
    s.dropped.engine.live.scene = s.engine.live.scene ∧ s.dropped.engine.tempoTarget = s.engine.tempoTarget ∧
    s.dropped.engine.tails = s.engine.tails ∧ s.dropped.engine.overlay = s.engine.overlay ∧
    (s.transition.state = .dipOut → s.dropped.engine.other = .idle) := by
  unfold State.dropped
  split
  next =>
    obtain ⟨live, other, tempo, tails, overlay⟩ := s.engine.dropNext_banks
    exact ⟨by rw [live], tempo, tails, overlay, fun _ => other⟩
  next notDip => exact ⟨rfl, rfl, rfl, rfl, fun dip => absurd dip notDip⟩

/-- The load that the overlay of a staged select is tested beside, once the tails are cut (R21, R137). -/
theorem State.dropped_loadBeside {s : State} {x : Select} {r : SceneRecord} (noTails : s.engine.tails = [])
    (unstaged : s.transition.state = .staging ∨ s.transition.state = .dipOut) (inFlight : s.transition.inFlight = some x)
    (stored : s.store.scenes[x.scene]? = some (some r)) : s.dropped.loadBeside =
      if s.transition.state = .staging ∧ x.kind.getD r.kind = .fade then loadOf s.engine.live.stages else 0 := by
  rcases unstaged with state | state
  · have same : s.dropped = s := if_neg (by rw [state]; nofun)
    have asFade : s.stagedAsFade = true ↔ x.kind.getD r.kind = .fade := by
      unfold State.stagedAsFade
      rw [inFlight]
      dsimp only
      rw [Store.scene_of_stored stored]
      cases x.kind <;> simp
    rw [same]
    unfold State.loadBeside
    rw [noTails, state]
    simp only [asFade, true_and, fullLoad_eq]
    exact Int.zero_add _
  · rw [if_neg (by rw [state]; nofun)]
    have same : s.dropped = { s with engine := s.engine.dropNext } := if_pos state
    obtain ⟨_, _, _, tails, _⟩ := s.engine.dropNext_banks
    rw [same]
    unfold State.loadBeside
    dsimp only
    rw [tails, noTails, state]
    rfl

section Unstaged
variable {s : State} {x : Select}
  (unstaged : s.transition.state = .staging ∨ s.transition.state = .dipOut ∧ s.transition.restageDue = true)
  (inFlight : s.transition.inFlight = some x)
include unstaged inFlight

theorem State.stopInFlight_of_unstaged : s.stopInFlight = s.dropped.stopStaging x := by
  unfold State.stopInFlight State.dropped
  rw [inFlight]
  rcases unstaged with state | ⟨state, asked⟩
  · rw [state]; rfl
  · rw [state, asked]; rfl

theorem State.stopInFlight_of_empty (empty : (s.store.scenes[x.scene]?).join = none) :
    s.stopInFlight = s.copyBase.finishSelect x .empty 255 := by
  rw [State.stopInFlight_of_unstaged unstaged inFlight, s.copyBase_rest, s.dropped_rest]
  unfold State.stopStaging
  dsimp only
  rw [s.store.scene_natCast, empty]

theorem State.stopInFlight_of_waits {r : SceneRecord} (stored : s.store.scenes[x.scene]? = some (some r))
    (waits : s.store.mustWait r = true) : s.stopInFlight = s.copyBase.stopSelect { x with fromStop := true } := by
  rw [State.stopInFlight_of_unstaged unstaged inFlight, s.copyBase_rest, s.dropped_rest]
  unfold State.stopStaging
  dsimp only
  rw [Store.scene_of_stored stored]
  exact if_pos waits

theorem State.stopInFlight_of_ready {r : SceneRecord} (noTails : s.engine.tails = [])
    (stored : s.store.scenes[x.scene]? = some (some r)) (ready : s.store.mustWait r = false) :
    let beside := if s.transition.state = .staging ∧ x.kind.getD r.kind = .fade then loadOf s.engine.live.stages else 0
    s.stopInFlight = s.copyBase.directCopy x r (overlayOn beside s.engine.overlay r.entries) .cutShort := by
  intro beside
  have besideIs := State.dropped_loadBeside noTails (unstaged.imp_right And.left) inFlight stored
  obtain ⟨_, _, _, overlay, _⟩ := s.dropped_engine
  rw [State.stopInFlight_of_unstaged unstaged inFlight, s.copyBase_rest]
  unfold beside
  rw [← besideIs, ← overlay]
  have store : s.dropped.store = s.store := by rw [s.dropped_rest]
  unfold State.stopStaging
  dsimp only
  rw [store, Store.scene_of_stored stored]
  refine (if_neg (by rw [ready]; nofun)).trans ?_
  rw [show s.dropped.transition = s.transition by rw [s.dropped_rest]]
  exact congrArg (fun s' => State.directCopy s' x r _ _) (by rw [s.dropped_rest])

end Unstaged

theorem State.stopInFlight_of_none {s : State} (inFlight : s.transition.inFlight = none) : s.stopInFlight = s := by
  unfold State.stopInFlight; rw [inFlight]

theorem State.stopInFlight_of_staged {s : State} {x : Select}
    (staged : s.transition.state = .fading ∨ s.transition.state = .dipIn ∨
      s.transition.state = .dipOut ∧ s.transition.restageDue = false)
    (inFlight : s.transition.inFlight = some x) : s.stopInFlight = s.stopCompleting x := by
  unfold State.stopInFlight
  rw [inFlight]
  rcases staged with state | state | ⟨state, asked⟩
  · rw [state]
  · rw [state]
  · rw [state, asked]; rfl

/-! ## A pending select (R137, step 3) -/

/-- The part that takes up its pending select. -/
def State.pendingTaken (s : State) : State := { s with transition := { s.transition with pending := none } }

theorem State.stopPending_of_none {s : State} (pending : s.transition.pending = none) : s.stopPending = s := by
  unfold State.stopPending; rw [pending]

section Pending
variable {s : State} {y : Select} (pending : s.transition.pending = some y)
include pending

theorem State.stopPending_of_empty (empty : (s.store.scenes[y.scene]?).join = none) :
    s.stopPending = s.pendingTaken.finishSelect y .empty 255 := by
  unfold State.stopPending
  rw [pending]
  dsimp only
  rw [s.store.scene_natCast, empty]
  rfl

theorem State.stopPending_of_waits {r : SceneRecord} (stored : s.store.scenes[y.scene]? = some (some r))
    (waits : s.store.mustWait r = true) : s.stopPending = s.pendingTaken.stopSelect y := by
  unfold State.stopPending
  rw [pending]
  dsimp only
  rw [Store.scene_of_stored stored]
  exact if_pos waits

theorem State.stopPending_of_ready {r : SceneRecord} (stored : s.store.scenes[y.scene]? = some (some r))
    (ready : s.store.mustWait r = false) : s.stopPending = s.pendingTaken.directCopy y r r.entries .live := by
  unfold State.stopPending
  rw [pending]
  dsimp only
  rw [Store.scene_of_stored stored]
  exact if_neg (by rw [ready]; nofun)

end Pending

end Sys2Proof.Machine
end

section
/-! SUPPORT. The engine stop and the engine restart as wholes (R137 to R139). -/

namespace Sys2Proof.Machine

/-! ## What a direct copy reports and hands on (R135, R138) -/

/-- The part with a record copied directly, before its select finishes. -/
def State.copiedIn (s : State) (x : Select) (r : SceneRecord) (v : List EditView) : State :=
  State.writeSceneFields
    { s with
      engine := { s.engine.directCopied x.scene (s.engine.tempoWith r) v with overlay := [] }
      transition := { s.transition with liveWeight := 256, nextWeight := 0 }
      mapper := s.mapper.uncatchAll } r

theorem State.directCopy_eq (s : State) (x : Select) (r : SceneRecord) (v : List EditView) (o : SelectOutcome) :
    s.directCopy x r v o = (s.copiedIn x r v).finishSelect { x with decided := some (.direct, 0), lamps := r.lamps } o
      s.engine.live.scene := rfl

section DirectCopy
variable {s : State} (x : Select) (r : SceneRecord) (v : List EditView)

theorem State.directCopy_reported {o : SelectOutcome} (mem : s.memoryOk) (slots : s.requests.slots.length = 32)
    (finishes : o = .live ∨ o = .cutShort) (few : r.lamps.length ≤ 4) :
    let t := s.directCopy x r v o
    reported s t x (o.result x.clamped).code s.report.noticeCount o.code 3 s.engine.live.scene ∧
    ∃ j ≤ 5, t.report.noticeCount = s.report.noticeCount + 1 + BitVec.ofNat 32 j := by
  intro t
  obtain ⟨slot, scene, notice, _⟩ := State.directCopy_reports mem slots x r v o finishes few
  refine ⟨⟨slot, scene, notice⟩, ?_⟩
  exact (s.copiedIn x r v).finishSelect_countWithin (x := { x with decided := some (.direct, 0), lamps := r.lamps }) few
    finishes _

theorem State.directCopy_link {o : SelectOutcome} (finishes : o = .live ∨ o = .cutShort) :
    (s.directCopy x r v o).link = (s.handFrames (r.lamps.map LampEntry.frame)).link := by
  rw [State.directCopy_eq, State.finishSelect_link, if_pos finishes]
  exact State.handFrames_link (s := s.copiedIn x r v) (t := s) rfl _

theorem reported.directCopy {b : State} {z : Select} {code outcome kind other : Nat} {c : Word}
    (report : reported b s z code c outcome kind other) (mem : s.memoryOk) (slots : s.requests.slots.length = 32) {j : Nat}
    (hj : j ≤ 5) (count : s.report.noticeCount = c + 1 + BitVec.ofNat 32 j) (few : r.lamps.length ≤ 4)
    (o : SelectOutcome) : reported b (s.directCopy x r v o) z code c outcome kind other := by
  rw [State.directCopy_eq]
  exact reported.finishSelect (u := s.copiedIn x r v) report mem slots hj count _ o _ fun _ => few

end DirectCopy

theorem reported.stopSelect {b s : State} {z : Select} {code outcome kind other : Nat} {c : Word}
    (report : reported b s z code c outcome kind other) (mem : s.memoryOk) (slots : s.requests.slots.length = 32) {j : Nat}
    (hj : j ≤ 5) (count : s.report.noticeCount = c + 1 + BitVec.ofNat 32 j) (x : Select) :
    reported b (s.stopSelect x) z code c outcome kind other := by
  unfold State.stopSelect
  cases s.transition.stopped with
  | none => exact report
  | some old =>
    exact reported.finishSelect (u := { s with transition := { s.transition with stopped := some x } }) report mem slots hj
      count old .superseded x.scene nofun

/-! ## The steps of the stop, whatever is under way (R137) -/

/-- What a step of the stop makes of the parts it may change in more than one way. -/
structure StopStep (s t : State) : Prop where
  keeps : StopKeeps s t
  mapper : t.mapper = s.mapper ∨ t.mapper = s.mapper.allUncaught

theorem State.finishSelect_stopStep (s : State) (x : Select) (o : SelectOutcome) (n : Nat) :
    StopStep s (s.finishSelect x o n) := by
  obtain ⟨_, _, _, _, _, _, mapper, _⟩ := s.finishSelect_blocks x o n
  exact ⟨s.finishSelect_stopKeeps x o n, .inl mapper⟩

theorem State.stopSelect_stopStep (s : State) (x : Select) : StopStep s (s.stopSelect x) := by
  obtain ⟨_, _, _, mapper, keeps⟩ := s.stopSelect_blocks x
  exact ⟨keeps, .inl mapper⟩

theorem State.directCopy_stopStep (s : State) (x : Select) (r : SceneRecord) (v : List EditView) (o : SelectOutcome) :
    StopStep s (s.directCopy x r v o) :=
  ⟨s.directCopy_stopKeeps x r v o, .inr (s.directCopy_mapper x r v o)⟩

theorem State.stopStaging_step (s : State) (x : Select) :
    StopStep s (s.stopStaging x) ∧ (s.stopStaging x).transition.inFlight = none ∧
    (s.stopStaging x).transition.pending = s.transition.pending := by
  have taken : StopKeeps s { s with transition := { s.transition with inFlight := none } } := ⟨rfl, rfl, rfl, rfl, rfl⟩
  unfold State.stopStaging
  dsimp only
  split
  next =>
    obtain ⟨transition, _⟩ := State.finishSelect_blocks
      { s with transition := { s.transition with inFlight := none } } x .empty 255
    obtain ⟨keeps, mapper⟩ := State.finishSelect_stopStep
      { s with transition := { s.transition with inFlight := none } } x .empty 255
    exact ⟨⟨taken.trans keeps, mapper⟩, by rw [transition], by rw [transition]⟩
  next =>
    split
    next =>
      obtain ⟨transition, _⟩ := State.stopSelect_blocks
        { s with transition := { s.transition with inFlight := none } } { x with fromStop := true }
      obtain ⟨keeps, mapper⟩ := State.stopSelect_stopStep
        { s with transition := { s.transition with inFlight := none } } { x with fromStop := true }
      exact ⟨⟨taken.trans keeps, mapper⟩, by rw [transition], by rw [transition]⟩
    next r _ _ =>
      obtain ⟨_, _, _, _, _, transition, _⟩ := State.directCopy_blocks
        { s with transition := { s.transition with inFlight := none } } x r
        (overlayOn s.loadBeside s.engine.overlay (r.stages.map StageEntry.view)) .cutShort
      obtain ⟨keeps, mapper⟩ := State.directCopy_stopStep
        { s with transition := { s.transition with inFlight := none } } x r
        (overlayOn s.loadBeside s.engine.overlay (r.stages.map StageEntry.view)) .cutShort
      exact ⟨⟨taken.trans keeps, mapper⟩, by rw [transition], by rw [transition]⟩

theorem State.stopCompleting_step (s : State) (x : Select) :
    StopStep s (s.stopCompleting x) ∧ (s.stopCompleting x).transition.inFlight = none ∧
    (s.stopCompleting x).transition.pending = s.transition.pending := by
  obtain ⟨_, _, _, transition, _, mapper, keeps⟩ := s.stopCompleting_blocks x
  exact ⟨⟨keeps, .inr mapper⟩, by rw [transition], by rw [transition]⟩

theorem State.stopInFlight_step (s : State) :
    StopStep s s.stopInFlight ∧ s.stopInFlight.transition.inFlight = none ∧
    s.stopInFlight.transition.pending = s.transition.pending := by
  unfold State.stopInFlight
  split
  next inFlight => exact ⟨⟨⟨rfl, rfl, rfl, rfl, rfl⟩, .inl rfl⟩, inFlight, rfl⟩
  next x _ =>
    split
    · exact s.stopStaging_step x
    · split
      · obtain ⟨⟨keeps, mapper⟩, inFlight, pending⟩ := State.stopStaging_step { s with engine := s.engine.dropNext } x
        obtain ⟨_, _, _, tails, _⟩ := s.engine.dropNext_banks
        have dropped : StopKeeps s { s with engine := s.engine.dropNext } := ⟨tails, rfl, rfl, rfl, rfl⟩
        exact ⟨⟨dropped.trans keeps, mapper⟩, inFlight, pending⟩
      · exact s.stopCompleting_step x
    · exact s.stopCompleting_step x

theorem State.stopPending_step (s : State) :
    StopStep s s.stopPending ∧ s.stopPending.transition.pending = none ∧
    s.stopPending.transition.inFlight = s.transition.inFlight := by
  have taken : StopKeeps s s.pendingTaken := ⟨rfl, rfl, rfl, rfl, rfl⟩
  cases pending : s.transition.pending with
  | none =>
    rw [State.stopPending_of_none pending]
    exact ⟨⟨⟨rfl, rfl, rfl, rfl, rfl⟩, .inl rfl⟩, pending, rfl⟩
  | some y =>
    cases stored : (s.store.scenes[y.scene]?).join with
    | none =>
      rw [State.stopPending_of_empty pending stored]
      obtain ⟨transition, _⟩ := s.pendingTaken.finishSelect_blocks y .empty 255
      obtain ⟨keeps, mapper⟩ := s.pendingTaken.finishSelect_stopStep y .empty 255
      exact ⟨⟨taken.trans keeps, mapper⟩, by rw [transition]; rfl, by rw [transition]; rfl⟩
    | some r =>
      have stored := Option.join_eq_some_iff.1 stored
      cases waits : s.store.mustWait r with
      | true =>
        rw [State.stopPending_of_waits pending stored waits]
        obtain ⟨transition, _⟩ := s.pendingTaken.stopSelect_blocks y
        obtain ⟨keeps, mapper⟩ := s.pendingTaken.stopSelect_stopStep y
        exact ⟨⟨taken.trans keeps, mapper⟩, by rw [transition]; rfl, by rw [transition]; rfl⟩
      | false =>
        rw [State.stopPending_of_ready pending stored waits]
        obtain ⟨_, _, _, _, _, transition, _⟩ := s.pendingTaken.directCopy_blocks y r r.entries .live
        obtain ⟨keeps, mapper⟩ := s.pendingTaken.directCopy_stopStep y r r.entries .live
        exact ⟨⟨taken.trans keeps, mapper⟩, by rw [transition]; rfl, by rw [transition]; rfl⟩

/-- The report of the select that was in flight stands after the pending one is applied. -/
theorem reported.stopPending {b u : State} {z : Select} {code outcome kind other : Nat} {c : Word}
    (report : reported b u z code c outcome kind other) (mem : u.memoryOk) (slots : u.requests.slots.length = 32)
    (within : ∃ j ≤ 5, u.report.noticeCount = c + 1 + BitVec.ofNat 32 j)
    (few : ∀ y r, u.transition.pending = some y → u.store.scenes[y.scene]? = some (some r) → r.lamps.length ≤ 4) :
    reported b u.stopPending z code c outcome kind other := by
  obtain ⟨j, hj, count⟩ := within
  cases pending : u.transition.pending with
  | none => rw [State.stopPending_of_none pending]; exact report
  | some y =>
    cases stored : (u.store.scenes[y.scene]?).join with
    | none =>
      rw [State.stopPending_of_empty pending stored]
      exact reported.finishSelect (u := u.pendingTaken) report mem slots hj count y .empty 255 nofun
    | some r =>
      have stored := Option.join_eq_some_iff.1 stored
      cases waits : u.store.mustWait r with
      | true =>
        rw [State.stopPending_of_waits pending stored waits]
        exact reported.stopSelect (s := u.pendingTaken) report mem slots hj count y
      | false =>
        rw [State.stopPending_of_ready pending stored waits]
        exact reported.directCopy (s := u.pendingTaken) y r r.entries report mem slots hj count (few y r pending stored) .live

/-! ## The engine stop (R137) -/

theorem exec_engineStop_of_due {s : State} (yet : s.yetTo .stop) (running : (s.before .stop).engine.running = true)
    (runNext : (s.before .stop).engine.runNext = false) :
    exec .engineStop s =
      .next ((State.stopped (s.before .stop).cut.stopInFlight.stopPending).mark (Work.stop.place + 1)) := by
  have due : (s.before .stop).stopDue = true := by simp [State.stopDue, running, runNext]
  rw [exec_event_of_due (exec_engineStop s) yet due]
  refine congrArg (fun t : State => Host.Outcome.next (t.mark (Work.stop.place + 1))) ?_
  exact if_pos due

/-! ## What the select in flight leaves (R137, step 2) -/

section InFlight
variable {b : State} {x : Select}

theorem State.cut_live (b : State) : b.cut.engine.live = { b.engine.live with stages := unmarkedStages b.engine.live.stages } :=
  b.engine.cutTails_banks.1

theorem State.cut_other (b : State) :
    b.cut.engine.other = { b.engine.other with stages := unmarkedStages b.engine.other.stages } := b.engine.cutTails_banks.2

theorem State.cut_liveScene (b : State) : b.cut.engine.live.scene = b.engine.live.scene := by rw [b.cut_live]

section Staged
variable
  (staged : b.transition.state = .fading ∨ b.transition.state = .dipIn ∨
    b.transition.state = .dipOut ∧ b.transition.restageDue = false)
  (inFlight : b.transition.inFlight = some x)
include staged inFlight

theorem State.cut_stopInFlight_of_staged : b.cut.stopInFlight = b.cut.stopCompleting x :=
  State.stopInFlight_of_staged (s := b.cut) staged inFlight

/-- A staged NEXT is LIVE. -/
theorem State.stopInFlight_staged_blocks :
    let u := b.cut.stopInFlight
    u.engine.live = ⟨.live, b.engine.other.scene,
      (turned [] (unmarkedStages b.engine.live.stages) (unmarkedStages b.engine.other.stages)).map Stage.uncarried⟩ ∧
    u.engine.other = .idle ∧ u.engine.tempoTarget = b.engine.tempoTarget ∧
    u.transition = { b.transition with inFlight := none } ∧ u.input = b.input ∧ u.mapper = b.mapper.allUncaught := by
  rw [State.cut_stopInFlight_of_staged staged inFlight]
  obtain ⟨live, other, tempo, transition, input, mapper, _⟩ := b.cut.stopCompleting_blocks x
  rw [b.cut_live, b.cut_other] at live
  exact ⟨live, other, tempo, transition, input, mapper⟩

theorem State.stopInFlight_staged_hands :
    let u := b.cut.stopInFlight
    u.link = (b.handFrames (x.lamps.map LampEntry.frame)).link ∧
    u.report.noticeCount = (b.handFrames (x.lamps.map LampEntry.frame)).report.noticeCount + 1 ∧
    ∀ n, x.origin ≠ .slot n → u.requests.slots[n]? = b.requests.slots[n]? := by
  rw [State.cut_stopInFlight_of_staged staged inFlight]
  obtain ⟨link, count, others⟩ := b.cut.stopCompleting_hands x
  have sameCount := State.handFrames_countFrom (s := b.cut) (t := b) (k := 0) rfl (BitVec.add_zero _).symm
    (x.lamps.map LampEntry.frame)
  exact ⟨link.trans (State.handFrames_link (s := b.cut) (t := b) rfl _),
    count.trans (congrArg (· + 1) (sameCount.trans (BitVec.add_zero _))), others⟩

theorem State.stopInFlight_staged_reports (mem : b.memoryOk) (slots : b.requests.slots.length = 32)
    (few : x.lamps.length ≤ 4) :
    let u := b.cut.stopInFlight
    reported b u x 11 b.report.noticeCount 3 x.carriedKind b.engine.live.scene ∧
    ∃ j ≤ 5, u.report.noticeCount = b.report.noticeCount + 1 + BitVec.ofNat 32 j := by
  rw [State.cut_stopInFlight_of_staged staged inFlight]
  obtain ⟨report, within⟩ := State.stopCompleting_reports (s := b.cut) mem slots few
  rw [b.cut_liveScene] at report
  exact ⟨report, within⟩

end Staged

section Unstaged
variable
  (unstaged : b.transition.state = .staging ∨ b.transition.state = .dipOut ∧ b.transition.restageDue = true)
  (inFlight : b.transition.inFlight = some x)
include unstaged inFlight

/-- A select of a cleared scene finishes EMPTY. -/
theorem State.stopInFlight_empty_blocks (empty : (b.store.scenes[x.scene]?).join = none) :
    let u := b.cut.stopInFlight
    u.engine.live.scene = b.engine.live.scene ∧ u.input = b.input ∧
    u.transition = { b.transition with inFlight := none } ∧ u.mapper = b.mapper ∧
    (b.memoryOk → b.requests.slots.length = 32 → reported b u x 8 b.report.noticeCount 2 x.carriedKind 255) := by
  rw [State.stopInFlight_of_empty (s := b.cut) unstaged inFlight empty, b.cut.copyBase_rest]
  obtain ⟨liveScene, _⟩ := b.cut.dropped_engine
  have base : ∃ c : State, c = { b.cut with
      engine := b.cut.dropped.engine, transition := { b.cut.transition with inFlight := none } } := ⟨_, rfl⟩
  obtain ⟨c, base⟩ := base
  rw [← base]
  obtain ⟨transition, engine, _, input, _, _, mapper, _⟩ := c.finishSelect_blocks x .empty 255
  refine ⟨?_, by rw [input, base]; rfl, by rw [transition, base]; rfl, by rw [mapper, base]; rfl, fun mem slots => ?_⟩
  · rw [engine, base, ← b.cut_liveScene, ← liveScene]
  · obtain ⟨scene, slot, notice, _⟩ := State.finishSelect_reports (s := c) (by rw [base]; exact mem) x .empty 255
      (by rw [base]; exact slots) nofun
    rw [base] at scene slot notice
    rw [base]
    exact ⟨slot, scene, notice⟩

variable {r : SceneRecord} (stored : b.store.scenes[x.scene]? = some (some r))
include stored

/-- A select whose record must wait becomes the stopped select. -/
theorem State.stopInFlight_waits_blocks (waits : b.store.mustWait r = true) :
    let u := b.cut.stopInFlight
    u.transition = { b.transition with inFlight := none, stopped := some { x with fromStop := true } } ∧
    u.engine.live.scene = b.engine.live.scene ∧ u.input = b.input ∧ u.engine.tempoTarget = b.engine.tempoTarget ∧
    u.mapper = b.mapper ∧ (b.transition.stopped = none → u.report = b.report ∧ u.requests = b.requests) ∧
    (b.transition.state = .dipOut → u.engine.other = ⟨.idle, 255, []⟩) := by
  rw [State.stopInFlight_of_waits (s := b.cut) unstaged inFlight stored waits, b.cut.copyBase_rest]
  obtain ⟨liveScene, tempo, _, _, other⟩ := b.cut.dropped_engine
  have base : ∃ c : State, c = { b.cut with
      engine := b.cut.dropped.engine, transition := { b.cut.transition with inFlight := none } } := ⟨_, rfl⟩
  obtain ⟨c, base⟩ := base
  rw [← base]
  obtain ⟨transition, engine, input, mapper, _⟩ := c.stopSelect_blocks { x with fromStop := true }
  refine ⟨by rw [transition, base]; rfl, ?_, by rw [input, base]; rfl, ?_, by rw [mapper, base]; rfl, fun free => ?_,
    fun dip => ?_⟩
  · rw [engine, base, ← b.cut_liveScene, ← liveScene]
  · rw [engine, base]; exact tempo
  · rw [State.stopSelect_of_none (s := c) (by rw [base]; exact free), base]
    exact ⟨rfl, rfl⟩
  · rw [engine, base]; exact other dip

variable (ready : b.store.mustWait r = false)
include ready

/-- A select whose record can be copied is LIVE. -/
theorem State.stopInFlight_ready_blocks :
    let u := b.cut.stopInFlight
    let beside := if b.transition.state = .staging ∧ x.kind.getD r.kind = .fade then loadOf b.engine.live.stages else 0
    u.engine.live.role = .live ∧ u.engine.live.scene = x.scene ∧ u.engine.other = ⟨.idle, 255, []⟩ ∧
    copiedBank [] (b.engine.tempoWith r) (overlayOn beside b.engine.overlay r.entries) u.engine.live.stages ∧
    bringsFields b u r ∧ u.transition.stopped = b.transition.stopped ∧ u.mapper = b.mapper.allUncaught ∧
    u.link = (b.handFrames (r.lamps.map LampEntry.frame)).link ∧
    (b.memoryOk → b.requests.slots.length = 32 → r.lamps.length ≤ 4 →
      reported b u x 11 b.report.noticeCount 3 3 b.engine.live.scene ∧
      ∃ j ≤ 5, u.report.noticeCount = b.report.noticeCount + 1 + BitVec.ofNat 32 j) := by
  have copied := State.stopInFlight_of_ready (s := b.cut) unstaged inFlight rfl stored ready
  rw [b.cut.copyBase_rest, b.cut_live, loadOf_unmarked] at copied
  obtain ⟨liveScene, tempo, tails, _, _⟩ := b.cut.dropped_engine
  have base : ∃ c : State, c = { b.cut with
      engine := b.cut.dropped.engine, transition := { b.cut.transition with inFlight := none } } := ⟨_, rfl⟩
  obtain ⟨c, base⟩ := base
  rw [← base] at copied
  intro u beside
  replace copied : u = c.directCopy x r (overlayOn beside b.engine.overlay r.entries) .cutShort := copied
  have tempo : c.engine.tempoTarget = b.engine.tempoTarget := by rw [base]; exact tempo
  have tempoWith : c.engine.tempoWith r = b.engine.tempoWith r := by unfold Engine.tempoWith; rw [tempo]
  have tails : c.engine.tails = [] := by rw [base]; exact tails
  obtain ⟨live, other, _, _, _, transition, ⟨profile, tempo'⟩, _⟩ :=
    c.directCopy_blocks x r (overlayOn beside b.engine.overlay r.entries) .cutShort
  rw [← copied] at live other transition profile tempo'
  refine ⟨by rw [live], by rw [live], other, ?_, ⟨?_, ?_⟩, by rw [transition, base]; rfl, ?_, ?_, fun mem slots few => ?_⟩
  · rw [live, tails, tempoWith]
    exact giveAllLanes_copied [] _ _
  · rw [profile, base]; rfl
  · rw [tempo', tempo]
  · rw [copied, c.directCopy_mapper, base]; rfl
  · rw [copied, State.directCopy_link _ _ _ (.inr rfl)]
    refine State.handFrames_link (t := b) ?_ _
    rw [base]; rfl
  · obtain ⟨report, within⟩ := State.directCopy_reported (s := c) x r (overlayOn beside b.engine.overlay r.entries)
      (o := .cutShort) (by rw [base]; exact mem) (by rw [base]; exact slots) (.inr rfl) few
    rw [← copied] at report within
    have scene : c.engine.live.scene = b.engine.live.scene := by rw [base, ← b.cut_liveScene, ← liveScene]
    rw [scene] at report
    rw [base] at report within
    exact ⟨report, within⟩

end Unstaged

end InFlight

/-- What a pending select that can be copied leaves (R137, step 3). -/
theorem State.stopPending_copied {u : State} {y : Select} {r : SceneRecord} (noTails : u.engine.tails = [])
    (pending : u.transition.pending = some y) (stored : u.store.scenes[y.scene]? = some (some r))
    (ready : u.store.mustWait r = false) :
    let t := u.stopPending
    t.engine.live.scene = y.scene ∧ t.engine.live.role = .live ∧ t.engine.other = ⟨.idle, 255, []⟩ ∧
    copiedBank [] t.engine.tempoTarget r.entries t.engine.live.stages ∧ bringsFields u t r ∧
    t.transition.stopped = u.transition.stopped ∧ t.link = (u.handFrames (r.lamps.map LampEntry.frame)).link := by
  rw [State.stopPending_of_ready pending stored ready]
  intro t
  obtain ⟨live, other, _, _, _, transition, fields, _⟩ := u.pendingTaken.directCopy_blocks y r r.entries .live
  have tempo : t.engine.tempoTarget = u.pendingTaken.engine.tempoWith r := fields.2
  have tails : u.pendingTaken.engine.tails = [] := noTails
  refine ⟨by rw [live], by rw [live], other, ?_, fields, by rw [transition]; rfl,
    (State.directCopy_link (s := u.pendingTaken) y r r.entries (.inl rfl)).trans
      (State.handFrames_link (s := u.pendingTaken) (t := u) rfl _)⟩
  rw [tempo, live, tails]
  exact giveAllLanes_copied [] _ _

/-! ## The engine restart (R139) -/

theorem State.restartWork_of {s : State} (running : s.engine.running = false) (runNext : s.engine.runNext = true) :
    let t := s.restartWork
    s.restartDue = true ∧ t.engine.running = true ∧ t.transition.startGain = 0 ∧
    t.engine.live = { s.engine.live with stages := s.engine.live.stages.map (Stage.refreshed s.engine.tempoTarget) } ∧
    t.engine.other = s.engine.other ∧ t.engine.tails = s.engine.tails ∧
    (s.transition.stopped = none →
      t.transition.state = s.transition.state ∧ t.transition.inFlight = s.transition.inFlight) ∧
    (∀ x, s.transition.stopped = some x → t.transition.stopped = none ∧ t.transition.state = .staging ∧
      t.transition.inFlight = some { x with fromStop := false }) ∧
    t.requests = s.requests ∧ t.port = s.port ∧ t.store = s.store ∧ t.input = s.input ∧ t.router = s.router := by
  have due : s.restartDue = true := by simp [State.restartDue, running, runNext]
  obtain ⟨live, other⟩ := Engine.setLive_banks (e := s.engine)
    (b := { s.engine.live with stages := s.engine.live.stages.map (Stage.refreshed s.engine.tempoTarget) }) rfl
  unfold State.restartWork
  rw [if_pos due]
  refine ⟨due, rfl, ?_, live, other, Engine.setLive_tails _ _, fun free => ?_, fun x stopped => ?_, rfl, rfl, rfl, rfl, rfl⟩
  · dsimp only
    split <;> rfl
  · dsimp only
    rw [free]
    exact ⟨rfl, rfl⟩
  · dsimp only
    rw [stopped]
    exact ⟨rfl, rfl, rfl⟩

theorem Stage.refreshed_lanes {st : Stage} (kind : st.kind ≠ .none) (tempo : Nat) : (st.refreshed tempo).lanes = st.lanes := by
  unfold Stage.refreshed freshAt
  rw [if_neg kind]
  rfl

end Sys2Proof.Machine

namespace Sys2Proof.Proofs
open Sys2Proof.Machine

/-- Settles O27: the stop step by step, by what is in flight and by what is pending; the restart by its own rule. -/
theorem engineStopAndRestart : Obligations.EngineStopAndRestart := by
  refine ⟨fun s yet mem slots => ?stop, fun s yet => ?restart⟩
  case stop =>
    have happens := exec_engineStop_of_due yet
    have memB := State.before_memory mem .stop
    have slotsB := (s.before_keeps .stop).exact slots
    generalize s.before .stop = b at *
    intro b' tr unmarked lamps staged unstaged running runNext
    refine ⟨_, happens running runNext, ?_⟩
    -- step 2 leaves `u`, and step 3 leaves `v`
    obtain ⟨⟨keeps, mapper⟩, inFlightGone, pendingKept⟩ := b.cut.stopInFlight_step
    obtain ⟨⟨keeps', mapper'⟩, pendingGone, inFlightKept⟩ := b.cut.stopInFlight.stopPending_step
    have uMem : b.cut.stopInFlight.memoryOk := b.cut.stopInFlight_keeps.memory memB
    have uSlots : b.cut.stopInFlight.requests.slots.length = 32 := (b.cut.stopInFlight_keeps.exact slotsB).1
    have uNone := State.stopInFlight_of_none (s := b.cut)
    have uStaged := fun x => State.stopInFlight_staged_blocks (b := b) (x := x)
    have uStagedHands := fun x => State.stopInFlight_staged_hands (b := b) (x := x)
    have uStagedReports := fun x => State.stopInFlight_staged_reports (b := b) (x := x)
    have uEmpty := fun x => State.stopInFlight_empty_blocks (b := b) (x := x)
    have uWaits := fun x => State.stopInFlight_waits_blocks (b := b) (x := x)
    have uReady := fun x => State.stopInFlight_ready_blocks (b := b) (x := x)
    generalize b.cut.stopInFlight = u at *
    have idle (pending : tr.pending = none) : u.stopPending = u := State.stopPending_of_none (pendingKept.trans pending)
    have stillFew (few : ∀ y r, tr.pending = some y → b.store.scenes[y.scene]? = some (some r) → r.lamps.length ≤ 4) :
        ∀ y r, u.transition.pending = some y → u.store.scenes[y.scene]? = some (some r) → r.lamps.length ≤ 4 :=
      fun y r pending stored => few y r (pendingKept.symm.trans pending) (keeps.store ▸ stored)
    have uncaught (first : u.mapper = b.mapper.allUncaught) : u.stopPending.mapper = b.mapper.allUncaught :=
      mapper'.elim (·.trans first) fun again => again.trans (by rw [first, Mapper.allUncaught_twice])
    refine ⟨rfl, keeps'.tails.trans keeps.tails, rfl, rfl, inFlightKept.trans inFlightGone, pendingGone, rfl, rfl, rfl,
      fun x inFlight staged => ?mapperStaged, fun x r inFlight unstaged stored ready => ?mapperCopied,
      fun y r pending stored ready => ?mapperPending, fun pending still => ?mapperStill,
      fun inFlight pending => ?nothing, fun x inFlight staged few fewPending => ?reportStaged,
      fun x r inFlight unstaged stored ready few fewPending => ?reportCopied, fun x inFlight pending staged => ?completed,
      fun x r inFlight pending unstaged stored => ⟨fun ready => ?copied, fun waits => ?waits⟩,
      fun x inFlight pending unstaged empty => ?dropped,
      fun y r pending stored => ⟨fun ready => ?pendingCopied, fun waits => ?pendingWaits⟩,
      keeps'.store.trans keeps.store, keeps'.tuner.trans keeps.tuner, keeps'.router.trans keeps.router,
      keeps'.queue.trans keeps.queue⟩
    case mapperStaged =>
      obtain ⟨_, _, _, _, _, mapper⟩ := uStaged x staged inFlight
      exact uncaught mapper
    case mapperCopied =>
      obtain ⟨_, _, _, _, _, _, mapper, _⟩ := uReady x unstaged inFlight stored ready
      exact uncaught mapper
    case mapperPending =>
      show u.stopPending.mapper = _
      rw [State.stopPending_of_ready (pendingKept.trans pending) (keeps.store ▸ stored) (keeps.store ▸ ready),
        State.directCopy_mapper]
      show u.mapper.allUncaught = _
      rcases mapper with same | uncaught
      · rw [same]; rfl
      · rw [uncaught, Mapper.allUncaught_twice]; rfl
    case mapperStill =>
      show u.stopPending.mapper = _
      rw [idle pending]
      cases inFlight : tr.inFlight with
      | none => rw [uNone inFlight]; rfl
      | some x =>
        rw [inFlight] at still
        obtain ⟨unstaged, waits⟩ := still.resolve_left nofun
        cases stored : (b.store.scenes[x.scene]?).join with
        | none =>
          obtain ⟨_, _, _, mapper, _⟩ := uEmpty x unstaged inFlight stored
          exact mapper
        | some r =>
          have stored := Option.join_eq_some_iff.1 stored
          obtain ⟨_, _, _, _, mapper, _⟩ := uWaits x unstaged inFlight stored (waits x r rfl stored)
          exact mapper
    case nothing =>
      rw [idle pending, uNone inFlight]
      exact ⟨b.cut_live, rfl, rfl, rfl, rfl, rfl⟩
    case reportStaged =>
      obtain ⟨report, within⟩ := uStagedReports x staged inFlight memB slotsB.1 few
      exact report.stopPending uMem uSlots within (stillFew fewPending)
    case reportCopied =>
      obtain ⟨_, _, _, _, _, _, _, _, reports⟩ := uReady x unstaged inFlight stored ready
      obtain ⟨report, within⟩ := reports memB slotsB.1 few
      exact report.stopPending uMem uSlots within (stillFew fewPending)
    case completed =>
      obtain ⟨live, other, tempo, transition, input, _⟩ := uStaged x staged inFlight
      obtain ⟨link, _⟩ := uStagedHands x staged inFlight
      rw [idle pending]
      refine ⟨congrArg (·.scene) live, congrArg (·.role) live, other, ?_, congrArg (·.stopped) transition, input, tempo,
        link.trans (by rw [lampFrames_eq])⟩
      obtain ⟨moved, movedIn, given⟩ := turned_given [] (unmarkedStages b.engine.live.stages)
        (unmarkedStages b.engine.other.stages)
      exact ⟨moved, _, movedIn, given, congrArg (·.stages) live⟩
    case copied =>
      obtain ⟨role, scene, other, bank, brings, stopped, _, link, _⟩ := uReady x unstaged inFlight stored ready
      rw [idle pending]
      exact ⟨scene, role, other, bank, brings, stopped, link.trans (by rw [lampFrames_eq])⟩
    case waits =>
      obtain ⟨transition, scene, input, tempo, _, quiet, other⟩ := uWaits x unstaged inFlight stored waits
      rw [idle pending]
      exact ⟨congrArg (·.stopped) transition, scene, input, tempo, quiet, other⟩
    case dropped =>
      obtain ⟨scene, input, transition, _, reports⟩ := uEmpty x unstaged inFlight empty
      obtain ⟨slot, report, _⟩ := reports memB slotsB.1
      rw [idle pending]
      exact ⟨scene, input, congrArg (·.stopped) transition, slot, report⟩
    case pendingCopied =>
      have uPending : u.transition.pending = some y := pendingKept.trans pending
      have uStored : u.store.scenes[y.scene]? = some (some r) := keeps.store ▸ stored
      have uReady : u.store.mustWait r = false := keeps.store ▸ ready
      obtain ⟨scene, role, other, bank, ⟨profile, tempo⟩, stopped, link⟩ :=
        State.stopPending_copied keeps.tails uPending uStored uReady
      refine ⟨scene, role, other, bank, fun own => tempo.trans (if_neg own), fun own => profile.trans (if_neg own),
        fun inFlight => ?alone, fun x inFlight staged => ?behind⟩
      all_goals
        have code : (SelectOutcome.result .live y.clamped).code = if y.clamped then 1 else 0 := by cases y.clamped <;> rfl
        have reports := fun few =>
          (State.directCopy_reported (s := u.pendingTaken) (o := .live) y r r.entries uMem uSlots (.inl rfl) few).1
        rw [← State.stopPending_of_ready uPending uStored uReady, code] at reports
      case alone =>
        obtain rfl : u = b.cut := uNone inFlight
        refine ⟨⟨profile, tempo⟩, stopped, fun few => ?_⟩
        obtain ⟨slot, report, _⟩ := reports few
        rw [show b.cut.pendingTaken.engine.live.scene = b.engine.live.scene from b.cut_liveScene] at report
        refine ⟨slot, report, link.trans ?_⟩
        rw [lampFrames_eq]
        exact State.handFrames_link (s := b.cut) (t := b) rfl _
      case behind =>
        obtain ⟨live, _, tempoKept, transition, input, _⟩ := uStaged x staged inFlight
        obtain ⟨handed, count, others⟩ := uStagedHands x staged inFlight
        refine ⟨⟨?_, ?_⟩, stopped.trans (congrArg (·.stopped) transition), ?_, fun apart _ few => ?_⟩
        · rw [← input]; exact profile
        · rw [← tempoKept]; exact tempo
        · rw [State.handFrames_append]
          refine link.trans ((State.handFrames_link handed _).trans ?_)
          rw [lampFrames_eq, lampFrames_eq]
        · obtain ⟨slot, report, _⟩ := reports few
          rw [show u.pendingTaken.report.noticeCount = _ from count,
            show u.pendingTaken.engine.live.scene = b.engine.other.scene from congrArg (·.scene) live, lampFrames_eq] at report
          refine ⟨fun k origin inside taken => slot k origin inside ?_, report⟩
          exact (others k fun same => apart (same.trans origin.symm)).trans taken
    case pendingWaits =>
      have work := State.stopPending_of_waits (pendingKept.trans pending) (keeps.store ▸ stored) (keeps.store ▸ waits)
      obtain ⟨transition, engine, input, _⟩ := u.pendingTaken.stopSelect_blocks y
      rw [← work] at transition engine input
      refine ⟨congrArg (·.stopped) transition, fun inFlight => ?_⟩
      obtain rfl : u = b.cut := uNone inFlight
      exact ⟨(congrArg (·.live.scene) engine).trans b.cut_liveScene, input⟩
  case restart =>
    intro b running runNext
    obtain ⟨due, isRunning, gain, live, other, tails, free, stopped, requests, port, store, input, router⟩ :=
      State.restartWork_of running runNext
    refine ⟨_, exec_event_of_due (exec_engineRestart s) yet due, ?_⟩
    simp only [Work.run, State.mark]
    generalize b.restartWork = t at *
    refine ⟨isRunning, gain, by rw [live], by rw [live], by rw [live]; exact List.length_map .., fun p o entry => ?_, other,
      tails, free, stopped, requests, port, store, input, router⟩
    refine ⟨o.refreshed b.engine.tempoTarget, ?_, freshAt_copy _ _ _, fun kind => Stage.refreshed_lanes kind _⟩
    rw [live]
    show (List.map _ _)[p]? = _
    rw [List.getElem?_map, entry]
    rfl

end Sys2Proof.Proofs
end

section
/-! SUPPORT. Edits: the checks, where an edit lands, and the overlay's entries (R19 to R22). -/

namespace Sys2Proof.Machine

/-! ## Where an edit lands (R19, R20) -/

section PutEdit
variable (s : State) (p : Nat) (f : Stage → Stage) (o : OverlayEntry)

/-- The engine after an edit. -/
def State.edited : Engine :=
  match s.transition.state with
  | .idle => s.engine.setLive { s.engine.live with stages := s.engine.live.stages.modify p f }
  | .staging => { s.engine with overlay := overlayPut o s.engine.overlay }
  | _ => s.engine.setOther { s.engine.other with stages := s.engine.other.stages.modify p f }

/-- An edit touches the engine alone. -/
theorem State.putEdit_eq : s.putEdit p f o = { s with engine := s.edited p f o } := by
  unfold State.putEdit State.edited
  cases s.transition.state <;> rfl

theorem State.edited_rest : (s.edited p f o).tails = s.engine.tails ∧ (s.edited p f o).tempoTarget = s.engine.tempoTarget := by
  unfold State.edited
  split
  · exact ⟨Engine.setLive_tails _ _, (Engine.setLive_rest _ _).1⟩
  · exact ⟨rfl, rfl⟩
  · exact ⟨Engine.setOther_tails _ _, (Engine.setOther_rest _ _).1⟩

variable {s}

theorem State.edited_of_idle (idle : s.transition.state = .idle) :
    (s.edited p f o).live = { s.engine.live with stages := s.engine.live.stages.modify p f } ∧
    (s.edited p f o).other = s.engine.other ∧ (s.edited p f o).overlay = s.engine.overlay := by
  unfold State.edited
  rw [idle]
  obtain ⟨live, other⟩ := Engine.setLive_banks (e := s.engine)
    (b := { s.engine.live with stages := s.engine.live.stages.modify p f }) rfl
  obtain ⟨_, _, _, overlay⟩ := s.engine.setLive_rest { s.engine.live with stages := s.engine.live.stages.modify p f }
  exact ⟨live, other, overlay⟩

theorem State.edited_of_staging (staging : s.transition.state = .staging) :
    s.edited p f o = { s.engine with overlay := overlayPut o s.engine.overlay } := by
  unfold State.edited
  rw [staging]

theorem State.edited_of_moving
    (moving : s.transition.state = .fading ∨ s.transition.state = .dipOut ∨ s.transition.state = .dipIn) :
    (s.edited p f o).other = { s.engine.other with stages := s.engine.other.stages.modify p f } ∧
    (s.edited p f o).live = s.engine.live ∧ (s.edited p f o).overlay = s.engine.overlay := by
  have edited : s.edited p f o = s.engine.setOther { s.engine.other with stages := s.engine.other.stages.modify p f } := by
    unfold State.edited
    rcases moving with state | state | state <;> rw [state]
  rw [edited]
  obtain ⟨live, other⟩ := Engine.setOther_banks (e := s.engine)
    (b := { s.engine.other with stages := s.engine.other.stages.modify p f }) (.inl rfl)
  obtain ⟨_, _, _, overlay⟩ := s.engine.setOther_rest { s.engine.other with stages := s.engine.other.stages.modify p f }
  exact ⟨other, live, overlay⟩

end PutEdit

/-! ## The same edit after the take of its request -/

/-- The outcome of an edit with its effect on another state of the same engine. -/
def EditOutcome.on (o : EditOutcome) (s : State) : EditOutcome :=
  match o with
  | .refused code => .refused code
  | .wrote v clamped u => .wrote v clamped { s with engine := u.engine }

theorem EditOutcome.on_ite {c : Prop} [Decidable c] (x y : EditOutcome) (s : State) :
    EditOutcome.on (if c then x else y) s = if c then x.on s else y.on s := by split <;> rfl

section TakeHead
variable (s : State) (n : Nat) (rest : List Nat)

theorem State.takeHead_putEdit (p : Nat) (f : Stage → Stage) (o : OverlayEntry) :
    (s.takeHead n rest).putEdit p f o = { s.takeHead n rest with engine := (s.putEdit p f o).engine } := by
  rw [State.putEdit_eq, State.putEdit_eq]; rfl

theorem State.takeHead_editParam (p i v k : Int) :
    (s.takeHead n rest).editParam p i v k = (s.editParam p i v k).on (s.takeHead n rest) := by
  have views : (s.takeHead n rest).editView = s.editView := rfl
  have budget : (s.takeHead n rest).overBudget = s.overBudget := rfl
  unfold State.editParam
  simp only [views, budget, State.takeHead_store, EditOutcome.on_ite]
  congr 3
  cases paramRule (s.editView p.toNat).kind i.toNat with
  | none => rfl
  | some rule =>
    simp only [EditOutcome.on_ite]
    congr 2
    exact congrArg (EditOutcome.wrote _ _) (s.takeHead_putEdit n rest _ _ _)

theorem State.takeHead_editEnable (p v k : Int) :
    (s.takeHead n rest).editEnable p v k = (s.editEnable p v k).on (s.takeHead n rest) := by
  have views : (s.takeHead n rest).editView = s.editView := rfl
  unfold State.editEnable
  simp only [views, EditOutcome.on_ite]
  congr 2
  exact congrArg (EditOutcome.wrote _ _) (s.takeHead_putEdit n rest _ _ _)

end TakeHead

/-- A written edit changes the engine alone. -/
def EditOutcome.touchesEngine (o : EditOutcome) (s : State) : Prop :=
  ∀ v clamped u, o = .wrote v clamped u → u = { s with engine := u.engine }

theorem EditOutcome.touchesEngine.refused (code : Result) (s : State) :
    (EditOutcome.refused code).touchesEngine s := by intro _ _ _ h; cases h

theorem EditOutcome.touchesEngine.putEdit (v : Int) (clamped : Bool) (s : State) (p : Nat) (f : Stage → Stage)
    (o : OverlayEntry) : (EditOutcome.wrote v clamped (s.putEdit p f o)).touchesEngine s := by
  intro _ _ _ h
  cases h
  rw [State.putEdit_eq]

theorem EditOutcome.touchesEngine.of_ite {c : Prop} [Decidable c] {x y : EditOutcome} {s : State} (hx : x.touchesEngine s)
    (hy : y.touchesEngine s) : (if c then x else y).touchesEngine s := by split <;> assumption

theorem State.editParam_touchesEngine (s : State) (p i v k : Int) : (s.editParam p i v k).touchesEngine s := by
  unfold State.editParam
  refine .of_ite (.refused _ _) (.of_ite (.refused _ _)
    (.of_ite (.refused _ _) ?_))
  cases paramRule (s.editView p.toNat).kind i.toNat with
  | none => exact .refused _ _
  | some rule =>
    exact .of_ite (.refused _ _) (.of_ite (.refused _ _)
      (.putEdit _ _ _ _ _ _))

theorem State.editEnable_touchesEngine (s : State) (p v k : Int) : (s.editEnable p v k).touchesEngine s := by
  unfold State.editEnable
  exact .of_ite (.refused _ _) (.of_ite (.refused _ _)
    (.putEdit _ _ _ _ _ _))

/-! ## The requests (R21, R22, R154) -/

theorem Assignment.catches_iff (a : Assignment) (p i : Int) : a.catches p i = true ↔
    a.action = .param ∧ a.takeover = true ∧ a.argument = p ∧ (a.index : Int) = i := by
  simp [Assignment.catches, and_assoc]

/-- A parameter that a request writes uncatches its assignments, every one of them. -/
theorem Mapper.uncatch_all (m : Mapper) (p i : Int) : m.uncatch p i none =
    { m with assignments := m.assignments.map fun a =>
        if a.action = .param ∧ a.takeover = true ∧ a.argument = p ∧ (a.index : Int) = i then
          { a with catching := .uncaught } else a } := by
  unfold Mapper.uncatch
  refine congrArg (fun l => { m with assignments := l }) (List.ext_getElem? fun n => ?_)
  simp [Assignment.catches_iff]

end Sys2Proof.Machine

namespace Sys2Proof.Proofs
open Sys2Proof.Machine

/-- Settles O29: the outcome of the edit is that of the state before the take, and the request is answered with it. -/
theorem editRequestsWriteOrRefuse : Obligations.EditRequestsWriteOrRefuse := by
  intro s n rest mem head t
  refine ⟨fun kind => ⟨fun code refused => ?_, fun v clamped u wrote => ?_⟩,
    fun kind => ⟨fun code refused => ?_, fun v clamped u wrote => ?_⟩⟩
  · refine completes_refused exec_setParam mem head (isKind_of_kind kind) (BufferNeed.none_passes _) carrySetParam_keeps ?_
    unfold carrySetParam
    rw [s.takeHead_editParam, refused]
    rfl
  · have engineOnly := s.editParam_touchesEngine _ _ _ _ _ _ _ wrote
    rw [engineOnly, ← Mapper.uncatch_all]
    refine completes_blocks exec_setParam mem head (isKind_of_kind kind) (BufferNeed.none_passes _) carrySetParam_keeps
      (v := { s.takeHead n rest with engine := u.engine, mapper := s.mapper.uncatch t.arg0 t.arg1 none }) ?_
    unfold carrySetParam
    rw [s.takeHead_editParam, wrote]
    rfl
  · refine completes_refused exec_setEnable mem head (isKind_of_kind kind) (BufferNeed.none_passes _) carrySetEnable_keeps ?_
    unfold carrySetEnable
    rw [s.takeHead_editEnable, refused]
    rfl
  · have engineOnly := s.editEnable_touchesEngine _ _ _ _ _ _ wrote
    rw [engineOnly]
    refine completes_blocks exec_setEnable mem head (isKind_of_kind kind) (BufferNeed.none_passes _) carrySetEnable_keeps
      (v := { s.takeHead n rest with engine := u.engine }) ?_
    unfold carrySetEnable
    rw [s.takeHead_editEnable, wrote]
    rfl

end Sys2Proof.Proofs
end

section
/-! SUPPORT. The checks of an edit (R21, R22), the budget test (R17, R21), what an edit is checked against (R19, R20), and how a
copy applies one overlay entry (R20). -/

namespace Sys2Proof.Machine

/-! ## The checks (R21, R22) -/

section Checks
variable {s : State} {p i v k : Int}

theorem State.edit_outside (outside : p < 0 ∨ 11 < p) :
    s.editParam p i v k = .refused .range ∧ s.editEnable p v k = .refused .range := ⟨if_pos outside, if_pos outside⟩

theorem wrongKind_iff (k : Int) (kind : Kind) : wrongKind k kind = true ↔ k ≠ 0 ∧ k ≠ kind.code := by simp [wrongKind]

variable (low : 0 ≤ p) (high : p ≤ 11)
include low high

theorem State.edit_none (kind : (s.editView p.toNat).kind = .none) :
    s.editParam p i v k = .refused .invalid ∧ s.editEnable p v k = .refused .invalid := by
  unfold State.editParam State.editEnable
  have inside : ¬ (p < 0 ∨ 11 < p) := by omega
  refine ⟨(if_neg inside).trans (if_pos kind), (if_neg inside).trans (if_pos ?_)⟩
  rw [decide_eq_true kind]
  rfl

variable (kind : (s.editView p.toNat).kind ≠ .none)
include kind

theorem State.editEnable_eq : s.editEnable p v k =
    if wrongKind k (s.editView p.toNat).kind then .refused .invalid
    else .wrote (if 0 < v then 1 else 0) (decide (v < 0 ∨ 1 < v))
      (s.putEnable p.toNat (decide (0 < v)) (s.editView p.toNat).kind) := by
  unfold State.editEnable
  rw [if_neg (by omega)]
  simp [kind, enableWritten, boolInt]

theorem State.editParam_noParam (noParam : i < 0 ∨ paramRule (s.editView p.toNat).kind i.toNat = none) :
    s.editParam p i v k = .refused .range := by
  unfold State.editParam
  rw [if_neg (by omega)]
  dsimp only
  rw [if_neg kind]
  rcases noParam with negative | noRule
  · exact if_pos negative
  · rw [noRule]
    exact ite_self _

theorem State.editParam_eq {rule : ParamRule} (index : 0 ≤ i)
    (isRule : paramRule (s.editView p.toNat).kind i.toNat = some rule) :
    let view := s.editView p.toNat
    let w := paramWritten view.kind i.toNat v
    s.editParam p i v k =
      if (k ≠ 0 ∧ k ≠ view.kind.code) ∨ rule.cls = .fixed ∨ s.overBudget view i.toNat w.1 = true then .refused .invalid
      else if view.kind = .cab ∧ i = 0 ∧ s.store.loading w.1 then .refused .inUse
      else .wrote w.1 w.2 (s.putTarget p.toNat i.toNat w.1 view.kind) := by
  unfold State.editParam
  rw [if_neg (by omega)]
  dsimp only
  rw [if_neg kind, if_neg (by omega), isRule]
  simp [Bool.or_eq_true, wrongKind_iff, or_assoc]

end Checks

/-! ## The order of the overlay (R20) -/

/-- An entry's place within its position: the enable flag first, then the indices. -/
theorem OverlayEntry.key_eq (o : OverlayEntry) : o.key = 9 * o.position + (o.index.map (· + 1)).getD 0 := by
  unfold OverlayEntry.key
  cases o.index <;> rfl

theorem OverlayEntry.place_le {o : OverlayEntry} (inside : ∀ i, o.index = some i → i < 8) :
    (o.index.map (· + 1)).getD 0 ≤ 8 := by
  cases index : o.index with
  | none => exact Nat.zero_le _
  | some i => exact inside i index

/-! ## The budget test (R17, R21) -/

theorem State.stagedAsFade_iff (s : State) : s.stagedAsFade = true ↔
    ∃ x, s.transition.inFlight = some x ∧ (x.kind = some .fade ∨
      x.kind = none ∧ ∃ r, s.store.scenes[x.scene]? = some (some r) ∧ r.kind = .fade) := by
  unfold State.stagedAsFade
  cases inFlight : s.transition.inFlight with
  | none => simp
  | some x =>
    dsimp only
    rw [s.store.scene_natCast]
    cases stored : (s.store.scenes[x.scene]?).join with
    | none =>
      have notStored : ∀ r, s.store.scenes[x.scene]? ≠ some (some r) := fun r h => by rw [h] at stored; cases stored
      simp [notStored]
    | some r => simp [Option.join_eq_some_iff.1 stored]

/-- LIVE counts beside the bank edited while both are processed together. -/
theorem State.loadBeside_eq {s : State} {beside : Int}
    (together : s.transition.state = .fading ∨ s.transition.state = .staging ∧ s.stagedAsFade = true →
      beside = loadOf s.engine.live.stages)
    (alone : ¬ (s.transition.state = .fading ∨ s.transition.state = .staging ∧ s.stagedAsFade = true) → beside = 0) :
    s.loadBeside = loadOf (s.engine.tails.map (·.stage)) + beside := by
  unfold State.loadBeside
  simp only [fullLoad_eq]
  refine congrArg (loadOf (s.engine.tails.map (·.stage)) + ·) ?_
  cases state : s.transition.state with
  | fading => exact (together (.inl state)).symm
  | staging =>
    cases asFade : s.stagedAsFade with
    | true => exact (together (.inr ⟨state, asFade⟩)).symm
    | false => exact (alone (by simp [state, asFade])).symm
  | idle => exact (alone (by simp [state])).symm
  | dipOut => exact (alone (by simp [state])).symm
  | dipIn => exact (alone (by simp [state])).symm

theorem State.overBudget_iff {s : State} {p : Nat} {view : EditView} (entry : s.editViews[p]? = some view) (i : Nat)
    (v : Int) :
    let after := { view with targets := view.targets.set i v }
    s.overBudget view i v = true ↔ kindLoad view.kind view.targets < kindLoad after.kind after.targets ∧
      1000 < entriesLoad (s.editViews.set p after) + s.loadBeside := by
  intro after
  rw [entriesLoad_set after entry]
  unfold State.overBudget
  rw [Bool.and_eq_true, decide_eq_true_iff, decide_eq_true_iff]
  exact Iff.rfl

/-! ## What an edit is checked against (R19, R20) -/

/-- The entries of one position have different indices. -/
theorem overlay_indices {overlay : List OverlayEntry} (sorted : overlay.Pairwise fun x y => x.key < y.key) (p : Nat) :
    (overlay.filter fun o => o.position == p).Pairwise fun x y => x.index ≠ y.index := by
  refine (List.Pairwise.filter _ sorted).imp_of_mem fun {x y} hx hy less same => ?_
  have xAt := beq_iff_eq.1 (List.mem_filter.1 hx).2
  have yAt := beq_iff_eq.1 (List.mem_filter.1 hy).2
  rw [OverlayEntry.key_congr (xAt.trans yAt.symm) same] at less
  exact Nat.lt_irrefl _ less

theorem State.stagedViews_of {s : State} {x : Select} {r : SceneRecord} (inFlight : s.transition.inFlight = some x)
    (stored : s.store.scenes[x.scene]? = some (some r)) : s.stagedViews = r.stages.mapIdx (overlaid s.engine.overlay) := by
  unfold State.stagedViews
  rw [(s.transition.inFlightScene_iff s.store r).2 ⟨x, inFlight, stored⟩]

/-! ## One overlay entry on the copied entries (R20) -/

section OverlayEntryOn
variable {views : List EditView} {o : OverlayEntry} {v : EditView} (entry : views[o.position]? = some v) (beside : Int)
include entry

/-- An entry is dropped where it raises the load over the budget. -/
theorem overlayEntryOn_eq : overlayEntryOn beside views o =
    if kindLoad v.kind v.targets < kindLoad (o.applyTo v).kind (o.applyTo v).targets ∧
      1000 < entriesLoad (views.set o.position (o.applyTo v)) + beside then views
    else views.set o.position (o.applyTo v) := by
  unfold overlayEntryOn
  dsimp only
  rw [List.getD_eq_getElem?_getD, entry, Option.getD_some, entriesLoad_set _ entry]
  rfl

theorem overlayEntryOn_of_otherKind (other : o.kind ≠ v.kind) : overlayEntryOn beside views o = views := by
  have same : o.applyTo v = v := if_neg other
  rw [overlayEntryOn_eq entry, same]
  split
  · rfl
  · obtain ⟨inside, atPosition⟩ := List.getElem?_eq_some_iff.1 entry
    rw [← atPosition]
    exact List.set_getElem_self inside

end OverlayEntryOn

end Sys2Proof.Machine

namespace Sys2Proof.Proofs
open Sys2Proof.Machine

/-- Settles O30: clause by clause, each from the lemma of its operation. -/
theorem editsAreCheckedAndLand : Obligations.EditsAreCheckedAndLand := by
  refine ⟨fun s p i v k => ?checks, fun s p i v on k => ⟨rfl, rfl⟩, fun s p f o => ?lands, fun x y xInside yInside => ?order,
    fun ps => ?loads, fun s p i v beside view entry => ?budget, fun s => ?views, fun beside views o rest => ?overlay⟩
  case checks =>
    intro view
    refine ⟨State.edit_outside, fun low high => ⟨State.edit_none low high, fun kind => ⟨fun named other => ?_, fun same => ?_,
      State.editParam_noParam low high kind, fun rule index isRule => ?_⟩⟩⟩
    · exact (State.editEnable_eq low high kind).trans (if_pos ((wrongKind_iff _ _).2 ⟨named, other⟩))
    · refine (State.editEnable_eq low high kind).trans (if_neg fun wrong => ?_)
      obtain ⟨named, other⟩ := (wrongKind_iff _ _).1 wrong
      exact same.elim named other
    · have edit := State.editParam_eq (v := v) (k := k) low high kind index isRule
      refine ⟨fun bad => edit.trans (if_pos bad), fun notBad cab zero loading => ?_, fun notBad free => ?_⟩
      · exact edit.trans ((if_neg notBad).trans (if_pos ⟨cab, zero, loading⟩))
      · refine edit.trans ((if_neg notBad).trans (if_neg fun ⟨cab, zero, loading⟩ => ?_))
        rcases free with notCab | notZero | notLoading
        · exact notCab cab
        · exact notZero zero
        · exact absurd loading (Bool.eq_false_iff.1 notLoading)
  case lands =>
    intro t
    have edit : t = { s with engine := s.edited p f o } := s.putEdit_eq p f o
    obtain ⟨tails, tempo⟩ := s.edited_rest p f o
    rw [edit]
    refine ⟨⟨_, rfl⟩, tails, tempo, s.edited_of_idle p f o, fun staging => ?_, s.edited_of_moving p f o⟩
    rw [State.edited_of_staging p f o staging]
    refine ⟨rfl, rfl, (overlayPut_mem _ _ _).2 (.inl rfl), fun x mem => ?_, fun x mem apart => ?_,
      fun x mem => overlayPut_replaces mem, overlayPut_sorted o⟩
    · exact ((overlayPut_mem _ _ _).1 mem).imp_right And.left
    · exact (overlayPut_mem _ _ _).2 (.inr ⟨mem, apart⟩)
  case order =>
    have xPlace := OverlayEntry.place_le xInside
    have yPlace := OverlayEntry.place_le yInside
    intro place
    rw [OverlayEntry.key_eq, OverlayEntry.key_eq]
    show _ ↔ _ ∨ _ ∧ (x.index.map (· + 1)).getD 0 < (y.index.map (· + 1)).getD 0
    omega
  case loads =>
    refine ⟨rfl, rfl, rfl, ?_, rfl, rfl, rfl, rfl, rfl⟩
    show (if ps.getD 3 0 = 255 then 96 else 96 + 8 * ps.getD 4 0) = _
    split <;> rfl
  case budget =>
    intro tr after asFade together counts countsNot
    have besideIs := State.loadBeside_eq (s := s) (beside := beside)
      (by rw [s.stagedAsFade_iff]; exact counts) (by rw [s.stagedAsFade_iff]; exact countsNot)
    have test := State.overBudget_iff entry i v
    dsimp only at test
    rw [besideIs, Int.add_comm (loadOf _), ← Int.add_assoc] at test
    exact test
  case views =>
    intro seen
    refine ⟨fun idle => ?_, fun moving => ?_, fun x r staging inFlight stored sorted => ?_⟩
    · unfold State.editViews; rw [idle]; rfl
    · unfold State.editViews
      rcases moving with state | state | state <;> rw [state] <;> rfl
    · have views : s.editViews = r.stages.mapIdx (overlaid s.engine.overlay) := by
        rw [← State.stagedViews_of inFlight stored]
        unfold State.editViews
        rw [staging]
      rw [views]
      refine ⟨List.length_mapIdx, fun p e entry => ⟨overlaid s.engine.overlay p e, ?_, ?_⟩⟩
      · rw [List.getElem?_mapIdx, entry]; rfl
      · have applied := OverlayEntry.applyAll (s.engine.overlay.filter fun o => o.position == p) ⟨e.kind, e.enable, e.params⟩
          (overlay_indices sorted p)
        simp only [List.mem_filter, beq_iff_eq, and_assoc] at applied
        obtain ⟨kind, length, enable, enableKept, target, targetKept⟩ := applied
        exact ⟨kind, enable, enableKept, length, target, targetKept⟩
  case overlay =>
    refine ⟨rfl, rfl, fun v entry => ?_⟩
    intro after tooHeavy
    have applied (kind : o.kind = v.kind) : o.applyTo v = after := if_pos kind
    by_cases kind : o.kind = v.kind
    · have one := overlayEntryOn_eq entry beside
      rw [applied kind] at one
      exact ⟨fun dropped => one.trans (if_pos (dropped.resolve_left fun other => other kind)), fun _ fits =>
        one.trans (if_neg fits)⟩
    · exact ⟨fun _ => overlayEntryOn_of_otherKind entry beside kind, fun same => absurd same kind⟩

end Sys2Proof.Proofs
end

section
/-! SUPPORT. The select that a control or a referral makes (R149), VERDICT (R157) and the expiry of a referral (R158). -/

namespace Sys2Proof.Machine

/-! ## A select and what it leaves alone -/

/-- A select leaves every block but the Transition Unit and the engine's overlay. -/
theorem State.takeSelect_rest (s : State) (x : Select) :
    let t := s.takeSelect x
    t.store = s.store ∧ t.input = s.input ∧ t.tuner = s.tuner ∧ t.router = s.router ∧ t.mapper = s.mapper ∧
    t.link = s.link := by
  rw [s.takeSelect_eq, s.placed_rest x]
  cases s.replaced with
  | none => exact ⟨rfl, rfl, rfl, rfl, rfl, rfl⟩
  | some old =>
    obtain ⟨_, _, store, input, tuner, router, mapper, _⟩ := State.finishSelect_blocks
      { s with transition := (s.placed x).transition, engine := (s.placed x).engine } old .superseded x.scene
    exact ⟨store, input, tuner, router, mapper, State.finishSelect_link _ _ _ _⟩

/-- Where a select stands in each state of the Transition Unit (R122, R138). -/
theorem State.takeSelect_places (s : State) (x : Select) :
    let u := s.takeSelect x
    let tr := s.transition
    (s.engine.running = false → u.transition = { tr with stopped := some x } ∧ u.engine = s.engine) ∧
    (s.engine.running = true →
      (tr.state = .idle → u.transition = { tr with inFlight := some x, state := .staging } ∧ u.engine = s.engine) ∧
      (tr.state = .staging → u.transition = { tr with inFlight := some x } ∧ u.engine = { s.engine with overlay := [] }) ∧
      (tr.state = .dipOut → u.transition = { tr with inFlight := some x, restageDue := true } ∧ u.engine = s.engine) ∧
      (tr.state = .fading ∨ tr.state = .dipIn →
        u.transition = { tr with pending := some x } ∧ u.engine = s.engine)) := by
  intro u tr
  obtain ⟨transition, engine⟩ := s.takeSelect_blocks x
  refine ⟨fun stopped => ?_, fun running => ⟨fun state => ?_, fun state => ?_, fun state => ?_, fun state => ?_⟩⟩
  · rw [State.placed_of_stopped x stopped] at transition engine; exact ⟨transition, engine⟩
  · rw [State.placed_of_idle x running state] at transition engine; exact ⟨transition, engine⟩
  · rw [State.placed_of_staging x running state] at transition engine; exact ⟨transition, engine⟩
  · rw [State.placed_of_dipOut x running state] at transition engine; exact ⟨transition, engine⟩
  · rw [State.placed_of_turned x running state] at transition engine; exact ⟨transition, engine⟩

/-! ## A select of the Control Mapper (R149) -/

/-- The select that assignment `i` makes of a scene. -/
abbrev mapperChoice (i scene : Nat) : Select := .taken scene (.assignment i) none none false

theorem State.mapperSelect_of_stored {s : State} {scene : Nat} {r : SceneRecord}
    (stored : s.store.scenes[scene]? = some (some r)) (i : Nat) :
    s.mapperSelect i scene = s.takeSelect (mapperChoice i scene) := by
  unfold State.mapperSelect
  dsimp only
  rw [Store.scene_of_stored stored]
  rfl

theorem State.mapperSelect_of_empty {s : State} {scene : Nat} (empty : (s.store.scenes[scene]?).join = none) (i : Nat) :
    s.mapperSelect i scene = s.notify ⟨1, 1, i, [scene, 2, 255, 255]⟩ := by
  unfold State.mapperSelect
  dsimp only
  rw [s.store.scene_natCast, empty]
  rfl

/-! ## The end of a referral (R157, R158) -/

/-- The part without its pending referral. -/
def State.unreferred (s : State) : State := { s with mapper := { s.mapper with referral := none } }

theorem State.settleReferral_of_stored {s : State} {scene : Nat} {x : SceneRecord}
    (stored : s.store.scenes[scene]? = some (some x)) (r : Referral) :
    s.settleReferral r scene = s.unreferred.takeSelect (mapperChoice r.assignment scene) :=
  State.mapperSelect_of_stored (s := s.unreferred) stored r.assignment

theorem State.settleReferral_of_empty {s : State} {scene : Nat} (empty : (s.store.scenes[scene]?).join = none)
    (r : Referral) : s.settleReferral r scene = s.unreferred.notify ⟨1, 1, r.assignment, [scene, 2, 255, 255]⟩ :=
  State.mapperSelect_of_empty (s := s.unreferred) empty r.assignment

theorem State.settleReferral_mapper (s : State) (r : Referral) (scene : Nat) :
    (s.settleReferral r scene).mapper = { s.mapper with referral := none } := by
  cases stored : (s.store.scenes[scene]?).join with
  | none => rw [State.settleReferral_of_empty stored]; rfl
  | some x =>
    rw [State.settleReferral_of_stored (Option.join_eq_some_iff.1 stored)]
    obtain ⟨_, _, _, _, mapper, _⟩ := s.unreferred.takeSelect_rest (mapperChoice r.assignment scene)
    exact mapper

section CarryVerdict
variable {t : Taken} {s : State}

theorem carryVerdict_verdict (outside : t.arg1 < 0 ∨ 2 < t.arg1) : carryVerdict t s = s.answer .invalid .unstated :=
  if_pos outside

variable (low : 0 ≤ t.arg1) (high : t.arg1 ≤ 2)
include low high

theorem carryVerdict_none (nothing : s.mapper.referral = none) : carryVerdict t s = s.answer .tooLate (.given t.arg0) := by
  unfold carryVerdict
  rw [if_neg (by omega), nothing]

variable {r : Referral} (pending : s.mapper.referral = some r)
include pending

theorem carryVerdict_late (other : t.arg0 ≠ r.id) : carryVerdict t s = s.answer .tooLate (.given t.arg0) := by
  unfold carryVerdict
  rw [if_neg (by omega), pending]
  exact if_pos other

variable (isId : t.arg0 = r.id)
include isId

theorem carryVerdict_eq : carryVerdict t s =
    if t.arg1 = 0 then (s.settleReferral r r.scene).answer .ok (.given r.scene)
    else if t.arg1 = 1 then s.unreferred.answer .ok (.given 255)
    else if t.arg2 < 0 ∨ 127 < t.arg2 then s.answer .range .unstated
    else if (s.store.scene t.arg2).isNone then s.answer .emptyScene .unstated
    else (s.settleReferral r t.arg2.toNat).answer .ok (.given t.arg2) := by
  unfold carryVerdict
  rw [if_neg (by omega), pending]
  exact if_neg (not_not_intro isId)

theorem carryVerdict_refuses (refuses : t.arg1 = 1) : carryVerdict t s = s.unreferred.answer .ok (.given 255) := by
  rw [carryVerdict_eq low high pending isId, if_neg (by omega), if_pos refuses]

theorem carryVerdict_range (substitutes : t.arg1 = 2) (outside : t.arg2 < 0 ∨ 127 < t.arg2) :
    carryVerdict t s = s.answer .range .unstated := by
  rw [carryVerdict_eq low high pending isId, if_neg (by omega), if_neg (by omega), if_pos outside]

theorem carryVerdict_empty (substitutes : t.arg1 = 2) (inside : 0 ≤ t.arg2) (below : t.arg2 ≤ 127)
    (empty : (s.store.scenes[t.arg2.toNat]?).join = none) : carryVerdict t s = s.answer .emptyScene .unstated := by
  rw [carryVerdict_eq low high pending isId, if_neg (by omega), if_neg (by omega), if_neg (by omega),
    s.store.scene_of_nonneg inside, empty]
  rfl

/-- ACCEPT of the scene referred, and SUBSTITUTE of another that is STORED. -/
theorem carryVerdict_selects {scene : Nat} {x : SceneRecord} (stored : s.store.scenes[scene]? = some (some x))
    (names : (t.arg1 = 0 ∧ scene = r.scene) ∨ (t.arg1 = 2 ∧ t.arg2 = scene ∧ scene ≤ 127)) :
    carryVerdict t s =
      (s.unreferred.takeSelect (mapperChoice r.assignment scene)).answer .ok (.given scene) := by
  rw [carryVerdict_eq low high pending isId, ← State.settleReferral_of_stored stored]
  rcases names with ⟨accepts, isScene⟩ | ⟨substitutes, isScene, inside⟩
  · rw [if_pos accepts, isScene]
  · rw [if_neg (by omega), if_neg (by omega), if_neg (by omega), isScene, Store.scene_of_stored stored,
      Int.toNat_natCast]
    rfl

theorem carryVerdict_emptied (accepts : t.arg1 = 0) (empty : (s.store.scenes[r.scene]?).join = none) :
    carryVerdict t s =
      (s.unreferred.notify ⟨1, 1, r.assignment, [r.scene, 2, 255, 255]⟩).answer .ok (.given r.scene) := by
  rw [carryVerdict_eq low high pending isId, if_pos accepts, State.settleReferral_of_empty empty]

end CarryVerdict

section Expiry
variable {s : State} {r : Referral} (pending : s.mapper.referral = some r) (isOver : r.expiry ≤ 1)
include pending isOver

theorem State.expiryDue_of : s.expiryDue = true := by
  unfold State.expiryDue; rw [pending]; exact decide_eq_true isOver

theorem State.referralWork_of_expired :
    s.referralWork = if r.apply then s.settleReferral r r.scene else s.unreferred := by
  unfold State.referralWork; rw [pending]; exact if_pos isOver

end Expiry

end Sys2Proof.Machine

namespace Sys2Proof.Proofs
open Sys2Proof.Machine

/-- Settles O39: the checks of a VERDICT in their order, and the select that a referral ends with by how a select is placed. -/
theorem referralsEndByVerdictOrExpiry : Obligations.ReferralsEndByVerdictOrExpiry := by
  unfold Obligations.ReferralsEndByVerdictOrExpiry
  intro placed
  refine ⟨fun s n rest mem head => ?verdict, fun s r yet => ?expiry⟩
  case verdict =>
    intro t gone isVerdict
    have hdue : isKind 18 (takenAt s.ram n) = true := isKind_of_kind isVerdict
    have answers {v u : State} {code : Result} {value : ResultValue}
        (carried : carryVerdict t (s.takeHead n rest) = v.answer code value)
        (quiet : Quiet (s.takeHead n rest) v) (blocks : u.sameBlocks v) (hv : v.ram = (s.takeHead n rest).ram)
        (hu : u.ram = s.ram) : completes .verdict s u n rest code value :=
      completes_blocks exec_verdict mem head hdue (BufferNeed.none_passes _) carryVerdict_keeps carried quiet blocks hv hu
    have refused {code : Result} {value : ResultValue}
        (carried : carryVerdict t (s.takeHead n rest) = (s.takeHead n rest).answer code value) :
        completes .verdict s s n rest code value :=
      completes_refused exec_verdict mem head hdue (BufferNeed.none_passes _) carryVerdict_keeps carried
    have exec {v : State} {code : Result} {value : ResultValue}
        (carried : carryVerdict t (s.takeHead n rest) = v.answer code value) :=
      exec_answers exec_verdict head hdue (BufferNeed.none_passes _) carried
    refine ⟨fun outside => refused (carryVerdict_verdict outside), fun low high =>
      ⟨fun nothing => refused (carryVerdict_none low high nothing), fun r pending =>
        ⟨fun other => refused (carryVerdict_late low high pending other), fun isId =>
          ⟨fun refuses => ?refuses, fun substitutes outside =>
            refused (carryVerdict_range low high pending isId substitutes outside),
            fun substitutes inside below empty =>
              refused (carryVerdict_empty low high pending isId substitutes inside below empty),
            fun scene x stored names => ?selects, fun accepts empty => ?emptied⟩⟩⟩⟩
    case refuses =>
      exact answers (carryVerdict_refuses low high pending isId refuses) ⟨rfl, rfl, rfl, rfl⟩
        ⟨rfl, rfl, rfl, rfl, rfl, rfl, rfl, rfl, rfl⟩ rfl rfl
    case selects =>
      intro sel
      have carried := carryVerdict_selects (s := s.takeHead n rest) low high pending isId stored names
      refine ⟨fun running idle => ?_, fun stopped free => ?_, _, exec carried, ?_⟩
      · rw [State.takeSelect_of_free (State.replaced_none (s := (s.takeHead n rest).unreferred) (.inl ⟨running, idle⟩)),
          State.placed_of_idle (s := (s.takeHead n rest).unreferred) _ running idle] at carried
        exact answers carried ⟨rfl, rfl, rfl, rfl⟩ ⟨rfl, rfl, rfl, rfl, rfl, rfl, rfl, rfl, rfl⟩ rfl rfl
      · rw [State.takeSelect_of_free (State.replaced_none (s := (s.takeHead n rest).unreferred)
            (.inr (.inr ⟨stopped, free⟩))),
          State.placed_of_stopped (s := (s.takeHead n rest).unreferred) _ stopped] at carried
        exact answers carried ⟨rfl, rfl, rfl, rfl⟩ ⟨rfl, rfl, rfl, rfl, rfl, rfl, rfl, rfl, rfl⟩ rfl rfl
      · obtain ⟨store, input, tuner, router, mapper, link⟩ := (s.takeHead n rest).unreferred.takeSelect_rest sel
        have places := (s.takeHead n rest).unreferred.takeSelect_places sel
        generalize (s.takeHead n rest).unreferred.takeSelect sel = v at *
        simp only [State.endServing, State.complete_mapper, State.complete_store, State.complete_input,
          State.complete_tuner, State.complete_router, State.complete_link, placed, State.complete_transition,
          State.complete_engine]
        exact ⟨mapper, places, store, input, tuner, router, link⟩
    case emptied =>
      have carried := carryVerdict_emptied (s := s.takeHead n rest) low high pending isId accepts empty
      refine ⟨_, exec carried, ?_⟩
      have kept := (s.takeHead n rest).unreferred.notify_keeps ⟨1, 1, r.assignment, [r.scene, 2, 255, 255]⟩
      have memV := kept.memory ((State.takeHead_steps head.2.2.1).memory mem)
      have taken : ((s.takeHead n rest).unreferred.notify ⟨1, 1, r.assignment, [r.scene, 2, 255, 255]⟩).requests.slots[n]? =
          some .taken := State.takeHead_slot head
      obtain ⟨done, _, codeReads, valueReads⟩ := State.complete_stands memV head.2.2.2.2 taken .ok (.given r.scene)
      simp only [State.endServing, State.complete_mapper, State.complete_transition, State.complete_engine,
        State.complete_report]
      exact ⟨rfl, rfl, rfl, rfl, done, codeReads, valueReads.trans (by unfold argBits; omega)⟩
  case expiry =>
    intro b gone pending isOver
    have exec := exec_event_of_due (exec_referralExpiry s) yet (State.expiryDue_of pending isOver)
    have work : Work.run .referral b = _ := State.referralWork_of_expired pending isOver
    rw [work] at exec
    refine ⟨fun drop => ?_, fun apply => ?_⟩
    · rw [drop] at exec
      exact ⟨_, exec, ⟨rfl, rfl, rfl, rfl, rfl, rfl, rfl, rfl, rfl⟩, rfl, rfl, rfl, rfl, rfl⟩
    · rw [apply, if_pos rfl] at exec
      refine ⟨_, exec, b.settleReferral_mapper r r.scene, fun x stored => ?_, fun empty => ?_⟩
      · rw [State.settleReferral_of_stored stored]
        obtain ⟨store, input, tuner, router, _, link⟩ :=
          b.unreferred.takeSelect_rest (mapperChoice r.assignment r.scene)
        exact ⟨b.unreferred.takeSelect_places _, store, input, tuner, router, link⟩
      · rw [State.settleReferral_of_empty empty]
        exact ⟨rfl, rfl⟩

end Sys2Proof.Proofs
end

section
/-! SUPPORT. The control event queue (R142, R143), matches and their order (R144, R146), and the search of a SCENE_STEP
(R149). -/

namespace Sys2Proof.Machine

/-! ## The first entry that satisfies a test is removed -/

theorem removeFirst_of_first {α : Type} {p : α → Bool} {before after : List α} {x : α} (isFirst : p x = true)
    (earlier : ∀ y, y ∈ before → p y = false) : removeFirst p (before ++ x :: after) = before ++ after := by
  induction before with
  | nil => exact if_pos isFirst
  | cons y before ih =>
    obtain ⟨notY, earlier⟩ := List.forall_mem_cons.1 earlier
    show (if p y then _ else y :: removeFirst p (before ++ x :: after)) = y :: (before ++ after)
    rw [notY, ih earlier]
    rfl

theorem removeFirst_sublist {α : Type} (p : α → Bool) (l : List α) : (removeFirst p l).Sublist l := by
  induction l with
  | nil => exact .refl _
  | cons x l ih =>
    unfold removeFirst
    split
    · exact List.sublist_cons_self x l
    · exact ih.cons_cons x

theorem removeFirst_length {α : Type} {p : α → Bool} {l : List α} (some : l.any p = true) :
    (removeFirst p l).length + 1 = l.length := by
  induction l with
  | nil => cases some
  | cons x l ih =>
    unfold removeFirst
    split
    next => rfl
    next notX =>
      rw [List.any_cons, Bool.or_eq_true] at some
      rw [List.length_cons, List.length_cons, ih (some.resolve_left notX)]

/-! ## An event arrives (R142, R143) -/

theorem ControlEvent.samePedal_iff (x e : ControlEvent) : x.samePedal e = true ↔
    e.trigger = .pedal ∧ x.trigger = .pedal ∧ x.unit = e.unit ∧ x.control = e.control := by
  simp only [ControlEvent.samePedal, Bool.and_eq_true, beq_iff_eq]
  constructor
  · rintro ⟨⟨⟨isPedal, isPedal'⟩, unit⟩, control⟩; exact ⟨isPedal', isPedal, unit, control⟩
  · rintro ⟨isPedal', isPedal, unit, control⟩; exact ⟨⟨⟨isPedal, isPedal'⟩, unit⟩, control⟩

/-- Two events of one pedal. -/
def onePedal (x y : ControlEvent) : Prop :=
  x.trigger = .pedal ∧ y.trigger = .pedal ∧ x.unit = y.unit ∧ x.control = y.control

/-- The bounds of the queue: 16 entries, and one of each pedal. -/
def queueBounded (q : List ControlEvent) : Prop := q.length ≤ 16 ∧ q.Pairwise fun x y => ¬ onePedal x y

/-- A pedal's entry takes the new value in place. -/
def ControlEvent.renewed (e x : ControlEvent) : ControlEvent :=
  if x.trigger = .pedal ∧ x.unit = e.unit ∧ x.control = e.control then { x with value := e.value, time := e.time } else x

theorem ControlEvent.renewed_place (e x : ControlEvent) :
    (e.renewed x).trigger = x.trigger ∧ (e.renewed x).unit = x.unit ∧ (e.renewed x).control = x.control := by
  unfold ControlEvent.renewed
  split <;> exact ⟨rfl, rfl, rfl⟩

section Arrive
variable {m : Mapper} {e : ControlEvent}

/-- A position of a pedal that is queued renews its entry. -/
theorem Mapper.arrive_of_queued {x : ControlEvent} (mem : x ∈ m.queue)
    (same : e.trigger = .pedal ∧ x.trigger = .pedal ∧ x.unit = e.unit ∧ x.control = e.control) :
    m.arrive e = ({ m with queue := m.queue.map e.renewed }, []) := by
  have queued : (m.queue.any (·.samePedal e)) = true := List.any_eq_true.2 ⟨x, mem, (x.samePedal_iff e).2 same⟩
  have renewed : ∀ y : ControlEvent,
      (if y.samePedal e then { y with value := e.value, time := e.time } else y) = e.renewed y := fun y => by
    unfold ControlEvent.renewed
    simp only [y.samePedal_iff, same.1, true_and]
  unfold Mapper.arrive
  rw [if_pos same.1, if_pos queued]
  simp only [renewed]

variable (fresh : ∀ x, x ∈ m.queue → ¬ (e.trigger = .pedal ∧ x.trigger = .pedal ∧ x.unit = e.unit ∧ x.control = e.control))
include fresh

theorem Mapper.arrive_of_fresh : m.arrive e =
    if m.queue.length < 16 then ({ m with queue := m.queue ++ [e] }, [])
    else if e.trigger = .pedal then (m, [])
    else if m.queue.any (fun x => x.trigger == .pedal) then
      ({ m with queue := removeFirst (fun x => x.trigger == .pedal) m.queue ++ [e] }, [])
    else
      ({ m with drops := min 65535 (m.drops + 1) },
        [⟨9, 4, e.unit, [e.unit, e.control, e.trigger.code, (min 65535 (m.drops + 1) : Nat)]⟩]) := by
  have notQueued : ¬ (m.queue.any (·.samePedal e)) = true := fun any => by
    obtain ⟨x, mem, same⟩ := List.any_eq_true.1 any
    exact fresh x mem ((x.samePedal_iff e).1 same)
  have counted : countTo 65535 m.drops = min 65535 (m.drops + 1) := by unfold countTo; omega
  unfold Mapper.arrive
  by_cases pedal : e.trigger = .pedal
  · rw [if_pos pedal, if_neg notQueued, if_pos pedal]
  · rw [if_neg pedal, if_neg pedal, counted]
    rfl

end Arrive

theorem queueBounded.arrive {m : Mapper} (bounded : queueBounded m.queue) (e : ControlEvent) :
    queueBounded (m.arrive e).1.queue := by
  obtain ⟨short, apart⟩ := bounded
  by_cases queued : ∃ x, x ∈ m.queue ∧ e.trigger = .pedal ∧ x.trigger = .pedal ∧ x.unit = e.unit ∧ x.control = e.control
  · obtain ⟨x, mem, same⟩ := queued
    rw [Mapper.arrive_of_queued mem same]
    refine ⟨Nat.le_trans (Nat.le_of_eq (List.length_map _)) short, List.pairwise_map.2 (apart.imp fun {x y} apart one => apart ?_)⟩
    obtain ⟨trigger, unit, control⟩ := e.renewed_place x
    obtain ⟨trigger', unit', control'⟩ := e.renewed_place y
    unfold onePedal at one ⊢
    rwa [trigger, unit, control, trigger', unit', control'] at one
  · have fresh : ∀ x, x ∈ m.queue →
        ¬ (e.trigger = .pedal ∧ x.trigger = .pedal ∧ x.unit = e.unit ∧ x.control = e.control) :=
      fun x mem same => queued ⟨x, mem, same⟩
    have joins {q : List ControlEvent} (sub : q.Sublist m.queue) (room : q.length < 16) : queueBounded (q ++ [e]) := by
      refine ⟨by rw [List.length_append]; exact room, List.pairwise_append.2 ⟨apart.sublist sub, List.pairwise_singleton .., ?_⟩⟩
      rintro x mem y mem' ⟨xPedal, ePedal, unit, control⟩
      rw [List.mem_singleton.1 mem'] at ePedal unit control
      exact fresh x (sub.subset mem) ⟨ePedal, xPedal, unit, control⟩
    rw [Mapper.arrive_of_fresh fresh]
    split
    next room => exact joins (.refl _) room
    next =>
      split
      next => exact ⟨short, apart⟩
      next =>
        split
        next some =>
          have := removeFirst_length some
          exact joins (removeFirst_sublist _ _) (by omega)
        next => exact ⟨short, apart⟩

/-! ## Matches (R144, R146) -/

theorem Assignment.isMatch_iff (a : Assignment) (e : ControlEvent) (live : Nat) : a.isMatch e live = true ↔
    a.enabled = true ∧ a.unit = e.unit ∧ a.trigger = e.trigger ∧ a.control = e.control ∧
    (a.scope = none ∨ a.scope = some live) := by
  have scope : a.inScope live = true ↔ a.scope = none ∨ a.scope = some live := by
    unfold Assignment.inScope
    cases a.scope <;> simp
  simp only [Assignment.isMatch, Bool.and_eq_true, beq_iff_eq, scope, and_assoc]

/-- One assignment tested, with whether an earlier match was a TAP. -/
def testOne (e : ControlEvent) (x : State × Bool) (i : Nat) : State × Bool :=
  let a := x.1.mapper.assignments.getD i .cleared
  if a.isMatch e x.1.engine.live.scene = true then (x.1.act i a e x.2, x.2 || a.action == .tap) else x

theorem State.actFrom_eq_foldl (e : ControlEvent) (l : List Nat) (s : State) (tapped : Bool) :
    State.actFrom e l s tapped = (l.foldl (testOne e) (s, tapped)).1 := by
  induction l generalizing s tapped with
  | nil => rfl
  | cons i l ih =>
    unfold State.actFrom
    rw [List.foldl_cons]
    unfold testOne
    dsimp only
    split
    · exact ih _ _
    · exact ih _ _

theorem State.actFrom_of_none {e : ControlEvent} {l : List Nat} {s : State} (tapped : Bool)
    (none : ∀ i ∈ l, (s.mapper.assignments.getD i .cleared).isMatch e s.engine.live.scene = false) :
    State.actFrom e l s tapped = s := by
  induction l with
  | nil => rfl
  | cons i l ih =>
    obtain ⟨notI, none⟩ := List.forall_mem_cons.1 none
    unfold State.actFrom
    dsimp only
    rw [notI]
    exact ih none

/-! ## The search of a SCENE_STEP (R149) -/

theorem Store.scene_isSome_iff (store : Store) (n : Nat) :
    (store.scene n).isSome = true ↔ ∃ r, store.scenes[n]? = some (some r) := by
  rw [store.scene_natCast, Option.isSome_iff_exists]
  simp only [Option.join_eq_some_iff]

/-- The first hit of a search along `f` is the hit of the least distance `d`, where `d` counts the places of `f`. -/
theorem find?_along {p : Nat → Bool} {f d : Nat → Nat} {k : Nat} {inReach : Nat → Prop}
    (reaches : ∀ i, i < k → inReach (f i)) (place : ∀ i, i < k → d (f i) = i)
    (found : ∀ m, inReach m → d m < k ∧ f (d m) = m) (n : Nat) :
    ((List.range k).map f).find? p = some n ↔
      inReach n ∧ p n = true ∧ ∀ m, inReach m → p m = true → d n ≤ d m := by
  rw [List.find?_map, Option.map_eq_some_iff]
  simp only [List.find?_range_eq_some, List.mem_range, Function.comp, Bool.not_eq_true']
  constructor
  · rintro ⟨i, ⟨hit, inside, earlier⟩, rfl⟩
    refine ⟨reaches i inside, hit, fun m inReach hit' => ?_⟩
    obtain ⟨inside', isM⟩ := found m inReach
    rw [place i inside]
    refine Nat.le_of_not_lt fun less => ?_
    have miss := earlier (d m) (by omega)
    rw [isM, hit'] at miss
    cases miss
  · rintro ⟨inReach, hit, least⟩
    obtain ⟨inside, isN⟩ := found n inReach
    refine ⟨d n, ⟨by rw [isN]; exact hit, inside, fun j less => ?_⟩, isN⟩
    refine Bool.eq_false_iff.2 fun hit' => ?_
    have := least (f j) (reaches j (by omega)) hit'
    rw [place j (by omega)] at this
    omega

theorem stepOrder_all (up : Bool) : stepOrder 255 up = (List.range 128).map fun i => if up then i else 127 - i := by
  cases up <;> decide

/-- How far a scene lies from the base, in the direction of the step. -/
def stepAway (base : Nat) (up : Bool) (n : Nat) : Nat := if up then (n + 128 - base) % 128 else (base + 128 - n) % 128

theorem stepOrder_find {base : Nat} (inside : base < 128) (up : Bool) (p : Nat → Bool) (n : Nat) :
    (stepOrder base up).find? p = some n ↔
      (n < 128 ∧ n ≠ base) ∧ p n = true ∧ ∀ m, m < 128 ∧ m ≠ base → p m = true → stepAway base up n ≤ stepAway base up m := by
  have order : stepOrder base up = (List.range 127).map fun i => (if up then base + i + 1 else base + 256 - i - 1) % 128 :=
    if_neg (by omega)
  rw [order, find?_along (d := fun m => stepAway base up m - 1) (inReach := fun m => m < 128 ∧ m ≠ base)]
  · refine and_congr_right fun nReach => and_congr_right fun _ =>
      forall_congr' fun m => imp_congr_right fun mReach => imp_congr_right fun _ => ?_
    obtain ⟨nInside, nApart⟩ := nReach
    obtain ⟨mInside, mApart⟩ := mReach
    unfold stepAway
    cases up <;> simp <;> omega
  · intro i less; cases up <;> simp <;> omega
  · intro i less; unfold stepAway; cases up <;> simp <;> omega
  · rintro m ⟨mInside, mApart⟩; unfold stepAway; cases up <;> simp <;> omega

theorem stepOrder_find_all (up : Bool) (p : Nat → Bool) (n : Nat) :
    (stepOrder 255 up).find? p = some n ↔
      n < 128 ∧ p n = true ∧ ∀ m, m < 128 → p m = true → if up = true then n ≤ m else m ≤ n := by
  rw [stepOrder_all, find?_along (d := fun m => if up then m else 127 - m) (inReach := fun m => m < 128)]
  · refine and_congr_right fun nInside => and_congr_right fun _ =>
      forall_congr' fun m => imp_congr_right fun mInside => imp_congr_right fun _ => ?_
    cases up <;> simp
    omega
  · intro i less; cases up <;> simp <;> omega
  · intro i less; cases up <;> simp
    omega
  · intro m inside; cases up <;> simp <;> omega

end Sys2Proof.Machine
end

section
/-! SUPPORT. The actions of a match (R23, R149, R150, R152 to R155). -/

namespace Sys2Proof.Machine

/-! ## What an action leaves alone -/

/-- No action touches the event queue, the Scene Store or the Router. -/
structure ActKeeps (s t : State) : Prop where
  queue : t.mapper.queue = s.mapper.queue
  store : t.store = s.store
  router : t.router = s.router

theorem ActKeeps.refl (s : State) : ActKeeps s s := ⟨rfl, rfl, rfl⟩

theorem ActKeeps.trans {s t u : State} (h : ActKeeps s t) (k : ActKeeps t u) : ActKeeps s u :=
  ⟨k.queue.trans h.queue, k.store.trans h.store, k.router.trans h.router⟩

theorem State.takeSelect_actKeeps (s : State) (x : Select) : ActKeeps s (s.takeSelect x) := by
  obtain ⟨store, _, _, router, mapper, _⟩ := s.takeSelect_rest x
  exact ⟨congrArg _ mapper, store, router⟩

theorem State.mapperSelect_actKeeps (s : State) (i scene : Nat) : ActKeeps s (s.mapperSelect i scene) := by
  unfold State.mapperSelect
  dsimp only
  split
  · exact ⟨rfl, rfl, rfl⟩
  · exact s.takeSelect_actKeeps _

theorem State.nameScene_actKeeps (s : State) (e : ControlEvent) (i scene : Nat) (refer : Option Bool) :
    ActKeeps s (s.nameScene e i scene refer) := by
  unfold State.nameScene
  split
  · exact s.mapperSelect_actKeeps i scene
  · split
    · exact ⟨rfl, rfl, rfl⟩
    · exact s.mapperSelect_actKeeps i scene

theorem State.handFrames_actKeeps (s : State) (fs : List MasterFrame) : ActKeeps s (s.handFrames fs) := by
  obtain ⟨_, store, _, _, _, router, mapper, _⟩ := s.handFrames_blocks fs
  exact ⟨congrArg _ mapper, store, router⟩

theorem State.setTuner_actKeeps (s : State) (t : Tuner) : ActKeeps s (s.setTuner t) := by
  rw [State.setTuner_reads]
  have set : ActKeeps s { s with tuner := t } := ⟨rfl, rfl, rfl⟩
  split
  · exact set
  · exact set.trans (State.handFrames_actKeeps _ _)

theorem State.toggleTuner_actKeeps (s : State) : ActKeeps s s.toggleTuner := by
  unfold State.toggleTuner
  split <;> exact s.setTuner_actKeeps _

theorem State.tap_actKeeps (s : State) (time : Word) : ActKeeps s (s.tap time) := by
  unfold State.tap
  split
  · exact ⟨rfl, rfl, rfl⟩
  · dsimp only
    split <;> exact ⟨rfl, rfl, rfl⟩

theorem State.toggleAction_actKeeps (s : State) (position : Int) : ActKeeps s (s.toggleAction position) := by
  unfold State.toggleAction
  split
  next => exact .refl s
  next wrote => rw [s.editEnable_touchesEngine _ _ _ _ _ _ wrote]; exact ⟨rfl, rfl, rfl⟩

theorem State.paramAction_actKeeps (s : State) (i : Nat) (a : Assignment) (v : Nat) :
    ActKeeps s (s.paramAction i a v) := by
  unfold State.paramAction
  dsimp only
  split
  · exact .refl s
  · split
    · split
      next => exact ⟨rfl, rfl, rfl⟩
      next wrote => rw [State.editParam_touchesEngine _ _ _ _ _ _ _ _ wrote]; exact ⟨rfl, rfl, rfl⟩
    · exact ⟨rfl, rfl, rfl⟩

theorem State.act_actKeeps (s : State) (i : Nat) (a : Assignment) (e : ControlEvent) (tapped : Bool) :
    ActKeeps s (s.act i a e tapped) := by
  unfold State.act
  cases a.action with
  | scene => exact s.nameScene_actKeeps _ _ _ _
  | sceneStep =>
    dsimp only
    split
    · exact s.nameScene_actKeeps _ _ _ _
    · exact .refl s
  | toggle => exact s.toggleAction_actKeeps _
  | param => exact s.paramAction_actKeeps _ _ _
  | tunerToggle => exact s.toggleTuner_actKeeps
  | tap =>
    dsimp only
    split
    · exact .refl s
    · exact s.tap_actKeeps _
  | profile => exact ⟨rfl, rfl, rfl⟩
  | forward => exact ⟨rfl, rfl, rfl⟩

theorem State.actFrom_actKeeps (e : ControlEvent) (l : List Nat) (s : State) (tapped : Bool) :
    ActKeeps s (State.actFrom e l s tapped) := by
  induction l generalizing s tapped with
  | nil => exact .refl s
  | cons i l ih =>
    unfold State.actFrom
    dsimp only
    split
    · exact (s.act_actKeeps _ _ _ _).trans (ih _ _)
    · exact ih _ _

/-! ## A named scene (R149, R156) -/

section NameScene
variable {s : State} {n : Nat} (e : ControlEvent) (i : Nat)

theorem State.nameScene_of_empty (empty : ¬ ∃ r, s.store.scenes[n]? = some (some r)) (refer : Option Bool) :
    s.nameScene e i n refer = s.notify ⟨1, 1, i, [n, 2, 255, 255]⟩ := by
  have absent : (s.store.scenes[n]?).join = none := by
    rw [Option.eq_none_iff_forall_ne_some]
    exact fun r h => empty ⟨r, Option.join_eq_some_iff.1 h⟩
  have notStored : (s.store.scene n).isSome = false := by rw [s.store.scene_natCast, absent]; rfl
  unfold State.nameScene
  rw [notStored]
  cases refer <;> exact State.mapperSelect_of_empty absent i

variable (stored : ∃ r, s.store.scenes[n]? = some (some r))
include stored

theorem State.nameScene_local : s.nameScene e i n none = s.takeSelect (mapperChoice i n) := by
  obtain ⟨r, stored⟩ := stored
  exact State.mapperSelect_of_stored stored i

theorem State.nameScene_refer (apply : Bool) : s.nameScene e i n (some apply) = s.makeReferral e i n apply :=
  if_pos ((s.store.scene_isSome_iff n).2 stored)

end NameScene

/-! ## TUNER_TOGGLE (R88, R102) -/

theorem State.toggleTuner_of_off {s : State} (off : s.tuner.state = .off) : s.toggleTuner =
    State.handFrames { s with tuner := { s.tuner with state := .listen, engaged := true } }
      (readingFrames s.link.units (1, 0, 0)) := by
  have idle := Tuner.isEngaged_of_off off
  unfold State.toggleTuner
  rw [if_neg (by rw [idle]; nofun), Tuner.engage_of_off _ _ _ off,
    State.setTuner_of_change (by rw [idle]; exact Bool.false_ne_true)]
  rfl

theorem State.toggleTuner_of_engaged {s : State} (engaged : s.tuner.state ≠ .off) : s.toggleTuner =
    State.handFrames
      { s with tuner := { s.tuner with
          state := .off, run := [], accepted := [], tunedMark := false, lockedWindows := 0, collecting := false,
          engaged := false } } (readingFrames s.link.units (0, 0, 0)) := by
  have isEngaged := (Tuner.isEngaged_iff s.tuner).2 engaged
  unfold State.toggleTuner
  rw [if_pos isEngaged, Tuner.disengage_of_engaged engaged,
    State.setTuner_of_change (by rw [isEngaged]; exact Bool.false_ne_true.symm)]
  rfl

/-- The Tuner that a TUNER_TOGGLE leaves, and the blocks it does not touch. -/
theorem State.toggleTuner_leaves (s : State) :
    (s.tuner.state = .off → s.toggleTuner.tuner = { s.tuner with state := .listen, engaged := true }) ∧
    (s.tuner.state ≠ .off → s.toggleTuner.tuner = { s.tuner with
      state := .off, run := [], accepted := [], tunedMark := false, lockedWindows := 0, collecting := false,
      engaged := false }) ∧
    s.toggleTuner.engine = s.engine ∧ s.toggleTuner.transition = s.transition ∧ s.toggleTuner.store = s.store ∧
    s.toggleTuner.mapper = s.mapper := by
  have handed (t : Tuner) (fs : List MasterFrame) : let u := State.handFrames { s with tuner := t } fs
      u.tuner = t ∧ u.engine = s.engine ∧ u.transition = s.transition ∧ u.store = s.store ∧ u.mapper = s.mapper := by
    obtain ⟨_, store, engine, transition, tuner, _, mapper, _⟩ := State.handFrames_blocks { s with tuner := t } fs
    exact ⟨tuner, engine, transition, store, mapper⟩
  by_cases off : s.tuner.state = .off
  · rw [State.toggleTuner_of_off off]
    obtain ⟨tuner, rest⟩ := handed { s.tuner with state := .listen, engaged := true } (readingFrames s.link.units (1, 0, 0))
    exact ⟨fun _ => tuner, fun engaged => absurd off engaged, rest⟩
  · rw [State.toggleTuner_of_engaged off]
    obtain ⟨tuner, rest⟩ := handed { s.tuner with
      state := .off, run := [], accepted := [], tunedMark := false, lockedWindows := 0, collecting := false,
      engaged := false } (readingFrames s.link.units (0, 0, 0))
    exact ⟨fun isOff => absurd isOff off, fun _ => tuner, rest⟩

/-! ## TOGGLE (R23, R150) -/

section Toggle
variable {s : State} {p : Nat}

theorem State.toggledFlag_of_bank
    (bank : s.transition.state ≠ .staging ∨ ∀ o, ¬ (o ∈ s.engine.overlay ∧ o.position = p ∧ o.index = none)) :
    s.toggledFlag p = (s.editView p).enable := by
  unfold State.toggledFlag
  split
  next staging found =>
    have mem := List.mem_of_find?_eq_some found
    have isFlag := List.find?_some found
    rw [Bool.and_eq_true, beq_iff_eq, Option.isNone_iff_eq_none] at isFlag
    exact absurd ⟨mem, isFlag⟩ (bank.resolve_left (absurd staging) _)
  next => rfl

theorem State.toggledFlag_of_overlay {o : OverlayEntry} (staging : s.transition.state = .staging)
    (flag : o ∈ s.engine.overlay ∧ o.position = p ∧ o.index = none)
    (only : ∀ x, x ∈ s.engine.overlay ∧ x.position = p ∧ x.index = none → x = o) :
    s.toggledFlag p = (o.value == 1) := by
  obtain ⟨mem, position, index⟩ := flag
  have found : s.engine.overlay.find? (fun o => o.position == p && o.index.isNone) = some o := by
    obtain ⟨x, found⟩ := Option.isSome_iff_exists.1
      (List.find?_isSome.2 ⟨o, mem, by rw [position, index]; simp⟩ :
        (s.engine.overlay.find? fun o => o.position == p && o.index.isNone).isSome = true)
    have isFlag := List.find?_some found
    rw [Bool.and_eq_true, beq_iff_eq, Option.isNone_iff_eq_none] at isFlag
    rw [found, only x ⟨List.mem_of_find?_eq_some found, isFlag⟩]
  unfold State.toggledFlag
  rw [staging, found]

theorem State.toggleAction_of_none {position : Int} (low : 0 ≤ position) (high : position ≤ 11)
    (kind : (s.editView position.toNat).kind = .none) : s.toggleAction position = s := by
  unfold State.toggleAction
  rw [(State.edit_none (i := 0) low high kind).2]

theorem State.toggleAction_of_kind {position : Int} (low : 0 ≤ position) (high : position ≤ 11)
    (kind : (s.editView position.toNat).kind ≠ .none) : s.toggleAction position =
      s.putEnable position.toNat (!s.toggledFlag position.toNat) (s.editView position.toNat).kind := by
  have anyKind : ¬ wrongKind 0 (s.editView position.toNat).kind = true := by simp [wrongKind]
  unfold State.toggleAction
  rw [State.editEnable_eq low high kind, if_neg anyKind]
  cases s.toggledFlag position.toNat <;> rfl

end Toggle

/-! ## PARAM (R152 to R154) -/

section Param
variable {s : State} {i : Nat} {a : Assignment} {v : Nat}

theorem State.paramAction_of_otherKind (other : (s.editView a.argument.toNat).kind ≠ a.kind) : s.paramAction i a v = s :=
  if_pos other

variable (kind : (s.editView a.argument.toNat).kind = a.kind)
include kind

theorem State.paramAction_eq :
    let c := a.takes (a.mapped v) ((s.editView a.argument.toNat).targets.getD a.index 0)
    s.paramAction i a v = if c.2 then
        match (s.setCatch i c.1).editParam a.argument a.index (a.mapped v) a.kind.code with
        | .refused _ => s.setCatch i c.1
        | .wrote _ _ w => { w with mapper := w.mapper.uncatch a.argument a.index (some i) }
      else s.setCatch i c.1 := by
  unfold State.paramAction
  exact if_neg (not_not_intro kind)

end Param

/-- A parameter that a pedal writes uncatches its other assignments. -/
theorem Mapper.uncatch_but (m : Mapper) (p : Int) (index i : Nat) : m.uncatch p index (some i) =
    { m with assignments := m.assignments.mapIdx fun j x =>
        if j ≠ i ∧ x.action = .param ∧ x.takeover = true ∧ x.argument = p ∧ x.index = index then
          { x with catching := .uncaught } else x } := by
  unfold Mapper.uncatch
  refine congrArg (fun f => { m with assignments := m.assignments.mapIdx f }) (funext fun j => funext fun x => ?_)
  have same : (x.catches p index = true ∧ some i ≠ some j) ↔
      (j ≠ i ∧ x.action = .param ∧ x.takeover = true ∧ x.argument = p ∧ x.index = index) := by
    rw [Assignment.catches_iff, Int.ofNat_inj, ne_eq, Option.some.injEq, eq_comm (a := i), and_comm]
  simp only [same]

/-! ## An event is taken (R144) -/

/-- The part with this event queue. -/
def State.withQueue (s : State) (rest : List ControlEvent) : State := { s with mapper := { s.mapper with queue := rest } }

theorem State.eventWork_of {s : State} {e : ControlEvent} {rest : List ControlEvent} (queue : s.mapper.queue = e :: rest) :
    s.eventWork = State.actFrom e (List.range 32) (s.withQueue rest) false := by
  unfold State.eventWork; rw [queue]; rfl

/-! ## The base of a SCENE_STEP (R149) -/

theorem State.stepBase_of_referral {s : State} {r : Referral} (referral : s.mapper.referral = some r) :
    s.stepBase = r.scene := by unfold State.stepBase; rw [referral]

theorem State.stepBase_of_none {s : State} (referral : s.mapper.referral = none) :
    (∀ x, s.transition.pending = some x → s.stepBase = x.scene) ∧
    (∀ x, s.transition.pending = none → s.transition.inFlight = some x → s.stepBase = x.scene) ∧
    (∀ x, s.transition.pending = none → s.transition.inFlight = none → s.transition.stopped = some x →
      s.stepBase = x.scene) ∧
    (s.transition.pending = none → s.transition.inFlight = none → s.transition.stopped = none →
      s.stepBase = s.engine.live.scene) := by
  unfold State.stepBase
  rw [referral]
  refine ⟨fun x pending => ?_, fun x pending inFlight => ?_, fun x pending inFlight stopped => ?_,
    fun pending inFlight stopped => ?_⟩
  · rw [pending]
  · rw [pending, inFlight]
  · rw [pending, inFlight, stopped]
  · rw [pending, inFlight, stopped]

end Sys2Proof.Machine

namespace Sys2Proof.Proofs
open Sys2Proof.Machine

/-- Settles O40: the queue by how an event arrives, the take by the fold over the assignments, each action by its lemma. -/
theorem controlEventsArriveAndAreTaken : Obligations.ControlEventsArriveAndAreTaken := by
  refine ⟨fun m e => ?arrives, fun s e rest yet => ?taken, Assignment.isMatch_iff, fun s i a e tapped => ?acts,
    fun s i a e tapped low high => ?edits, fun s up => ?steps⟩
  case arrives =>
    intro same bounded r
    refine ⟨fun ⟨x, mem, queued⟩ => Mapper.arrive_of_queued mem queued, fun fresh => ?_, fun short =>
      queueBounded.arrive short e, rfl, rfl⟩
    have arrives := Mapper.arrive_of_fresh fresh
    refine ⟨fun room => arrives.trans (if_pos room), fun full pedal => arrives.trans ?_, fun full notPedal => ⟨?_, ?_⟩⟩
    · rw [if_neg (by omega), if_pos pedal]
    · intro before x after queue isPedal earlier
      have removed := removeFirst_of_first (p := fun x : ControlEvent => x.trigger == .pedal) (before := before)
        (after := after) (beq_iff_eq.2 isPedal) fun y mem => beq_eq_false_iff_ne.2 (earlier y mem)
      refine arrives.trans ?_
      rw [if_neg (by omega), if_neg notPedal, if_pos, queue, removed]
      exact List.any_eq_true.2 ⟨x, by rw [queue]; simp, beq_iff_eq.2 isPedal⟩
    · intro noPedal
      refine arrives.trans ?_
      rw [if_neg (by omega), if_neg notPedal, if_neg]
      intro any
      obtain ⟨x, mem, isPedal⟩ := List.any_eq_true.1 any
      exact noPedal x mem (beq_iff_eq.1 isPedal)
  case taken =>
    intro b queue
    have due : (!b.mapper.queue.isEmpty) = true := by rw [queue]; rfl
    have exec := exec_event_of_due (exec_controlEventTake s) yet due
    have work : Work.run .event b = _ := State.eventWork_of queue
    rw [work] at exec
    have keeps := State.actFrom_actKeeps e (List.range 32) (b.withQueue rest) false
    refine ⟨⟨_, exec, keeps.queue, keeps.store, keeps.router⟩, fun noMatch => ?_, ?_⟩
    · rw [State.actFrom_of_none (s := b.withQueue rest) false fun i mem => noMatch i (List.mem_range.1 mem)] at exec
      exact ⟨_, exec, ⟨rfl, rfl, rfl, rfl, rfl, rfl, rfl, rfl, rfl⟩, rfl, rfl, rfl, rfl, rfl⟩
    · intro test u
      rw [State.actFrom_eq_foldl] at exec
      have isFold : Machine.exec .controlEventTake s = .next (u.mark (Work.event.place + 1)) := exec
      clear_value u
      exact ⟨_, isFold, rfl⟩
  case acts =>
    intro u tr n sel stored
    refine ⟨fun action => ?_, fun action => ?_, fun action => ?_, fun action => ?_, fun action => ?_, fun action => ?_⟩
    · have acts : u = s.nameScene e i n a.refer := by show s.act i a e tapped = _; unfold State.act; rw [action]
      refine ⟨fun empty => acts.trans (State.nameScene_of_empty e i empty _), fun stored refer => ?_,
        fun apply stored refer => ?_⟩
      · have selects : u = s.takeSelect (sel n) := by rw [acts, refer]; exact State.nameScene_local e i stored
        refine ⟨selects, fun stopped free => ?_, fun running idle => ?_, fun running turned free => ?_⟩
        · rw [selects, State.takeSelect_of_free (State.replaced_none (.inr (.inr ⟨stopped, free⟩))),
            State.placed_of_stopped _ stopped]
        · rw [selects, State.takeSelect_of_free (State.replaced_none (.inl ⟨running, idle⟩)),
            State.placed_of_idle _ running idle]
        · rw [selects, State.takeSelect_of_free (State.replaced_none (.inr (.inl ⟨running, turned, free⟩))),
            State.placed_of_turned _ running turned]
      · rw [acts, refer]
        exact State.nameScene_refer e i stored apply
    · have acts : u = match s.stepScene (decide (0 < a.argument)) with
          | some scene => s.nameScene e i scene a.refer | none => s := by
        show s.act i a e tapped = _; unfold State.act; rw [action] <;> rfl
      refine ⟨fun m found => ?_, fun found => ?_⟩
      · rw [acts, found]; rfl
      · rw [acts, found]
    · have acts : u = s.toggleTuner := by show s.act i a e tapped = _; unfold State.act; rw [action]
      clear_value u
      obtain ⟨tunerOff, tunerOn, blocks⟩ := s.toggleTuner_leaves
      rw [← acts] at tunerOff tunerOn blocks
      refine ⟨fun off => ⟨tunerOff off, ?_⟩, fun engaged => ⟨tunerOn engaged, ?_⟩, blocks⟩
      · rw [tunerOff off]; exact acts.trans (State.toggleTuner_of_off off)
      · rw [tunerOn engaged]; exact acts.trans (State.toggleTuner_of_engaged engaged)
    · have acts : u = if tapped then s else s.tap e.time := by show s.act i a e tapped = _; unfold State.act; rw [action]
      exact ⟨fun first => by rw [acts, first]; rfl, fun again => by rw [acts, again]; rfl⟩
    · show s.act i a e tapped = _; unfold State.act; rw [action]; rfl
    · show s.act i a e tapped = _; unfold State.act; rw [action]; rfl
  case edits =>
    intro u p view flagAt
    refine ⟨fun action => ?_, fun action => ?_⟩
    · have acts : u = s.toggleAction a.argument := by show s.act i a e tapped = _; unfold State.act; rw [action]
      refine ⟨fun kind => acts.trans (State.toggleAction_of_none low high kind), fun kind bank => ?_,
        fun o kind staging flag only => ?_⟩
      · rw [acts, State.toggleAction_of_kind low high kind, State.toggledFlag_of_bank bank]
        rfl
      · rw [acts, State.toggleAction_of_kind low high kind, State.toggledFlag_of_overlay staging flag only]
        rfl
    · have acts : u = s.paramAction i a e.value := by show s.act i a e tapped = _; unfold State.act; rw [action]
      intro m c caught
      have steps (kind : view.kind = a.kind) :
          u = if c.2 then
              match caught.editParam a.argument a.index m a.kind.code with
              | .refused _ => caught
              | .wrote _ _ w => { w with mapper := w.mapper.uncatch a.argument a.index (some i) }
            else caught := acts.trans (State.paramAction_eq kind)
      refine ⟨fun other => acts.trans (State.paramAction_of_otherKind other), fun kind waits => ?_,
        fun kind writes => ⟨fun code refused => ?_, fun v k w wrote => ?_⟩⟩
      · exact (steps kind).trans (if_neg (by rw [waits]; nofun))
      · rw [steps kind, if_pos writes, refused]
      · rw [steps kind, if_pos writes, wrote, ← Mapper.uncatch_but]
  case steps =>
    intro tr base stored away
    have isStored (n : Nat) : (s.store.scene n).isSome = true ↔ ∃ r, s.store.scenes[n]? = some (some r) :=
      s.store.scene_isSome_iff n
    refine ⟨⟨fun r => State.stepBase_of_referral, State.stepBase_of_none⟩, fun inside n => ?_, fun isNone n => ?_⟩
    · unfold State.stepScene
      rw [stepOrder_find inside]
      simp only [isStored]
      constructor
      · rintro ⟨⟨inside, apart⟩, found, least⟩
        exact ⟨⟨inside, found⟩, apart, fun m ⟨inside', found'⟩ apart' => least m ⟨inside', apart'⟩ found'⟩
      · rintro ⟨⟨inside, found⟩, apart, least⟩
        exact ⟨⟨inside, apart⟩, found, fun m ⟨inside', apart'⟩ found' => least m ⟨inside', found'⟩ apart'⟩
    · unfold State.stepScene
      rw [show s.stepBase = 255 from isNone, stepOrder_find_all]
      simp only [isStored]
      constructor
      · rintro ⟨inside, found, least⟩
        exact ⟨⟨inside, found⟩, fun m ⟨inside', found'⟩ => least m inside' found'⟩
      · rintro ⟨⟨inside, found⟩, least⟩
        exact ⟨inside, found, fun m inside' found' => least m ⟨inside', found'⟩⟩

end Sys2Proof.Proofs
end

section
/-! SUPPORT. A Tuner window: its class (R92 to R94) and what each state makes of it (R96 to R98), its notice and its reading
(R100, R102). -/

namespace Sys2Proof.Machine

/-! ## The class of a window (R92 to R94) -/

theorem insertSorted_perm (x : Int) (l : List Int) : (insertSorted x l).Perm (x :: l) := by
  induction l with
  | nil => exact .refl _
  | cons y l ih =>
    unfold insertSorted
    split
    · exact .refl _
    · exact (ih.cons y).trans (.swap x y l)

theorem insertSorted_pairwise {x : Int} {l : List Int} (inOrder : l.Pairwise (· ≤ ·)) :
    (insertSorted x l).Pairwise (· ≤ ·) := by
  induction l with
  | nil => exact List.pairwise_singleton ..
  | cons y l ih =>
    obtain ⟨least, inOrder⟩ := List.pairwise_cons.1 inOrder
    unfold insertSorted
    split
    next below =>
      refine List.pairwise_cons.2 ⟨fun z mem => ?_, List.pairwise_cons.2 ⟨least, inOrder⟩⟩
      rcases List.mem_cons.1 mem with rfl | mem
      · exact below
      · exact Int.le_trans below (least z mem)
    next above =>
      refine List.pairwise_cons.2 ⟨fun z mem => ?_, ih inOrder⟩
      rcases List.mem_cons.1 ((insertSorted_perm x l).mem_iff.1 mem) with rfl | mem
      · omega
      · exact least z mem

theorem sorted_perm (l : List Int) : (sorted l).Perm l := by
  induction l with
  | nil => exact .refl _
  | cons x l ih => exact (insertSorted_perm x _).trans (ih.cons x)

theorem sorted_pairwise (l : List Int) : (sorted l).Pairwise (· ≤ ·) := by
  induction l with
  | nil => exact .nil
  | cons x l ih => exact insertSorted_pairwise ih

/-- Any ordering of a run of intervals is the model's. -/
theorem sorted_unique {l ordered : List Int} (perm : ordered.Perm l) (inOrder : ordered.Pairwise (· ≤ ·)) :
    sorted l = ordered :=
  ((sorted_perm l).trans perm.symm).eq_of_pairwise (fun _ _ _ _ => Int.le_antisymm) (sorted_pairwise l) inOrder

section Estimate
variable {intervals : List Int}

/-- The intervals within 3 percent of a median. -/
def clusterAbout (median : Int) (intervals : List Int) : List Int :=
  intervals.filter fun i => decide (100 * ((i - median).natAbs : Int) ≤ 3 * median)

theorem estimate_of_few (few : intervals.length < 2) : estimate intervals = none := if_pos few

/-- The estimate of a window of two intervals or more. -/
theorem estimate_of_enough (enough : ¬ intervals.length < 2) :
    let cluster := clusterAbout ((sorted intervals).getD ((intervals.length - 1) / 2) 0) intervals
    let p16 := (2 * cluster.sum + cluster.length) / (2 * cluster.length)
    estimate intervals =
      if 10 * cluster.length < 6 * intervals.length then none
      else if p16 < 512 ∨ 15360 < p16 then none else some p16.toNat := by
  unfold estimate
  rw [if_neg enough]
  simp only [sumOf_eq, List.map_id]
  rfl

end Estimate

section ScanStep
variable (c : Scan) (x : Int)

theorem Scan.step_rise_of_rising (below : c.before < 0) (above : 0 ≤ x) :
    (c.step x).rise = 16 * ((c.index : Int) - 1) + (32 * (-c.before) + (x - c.before)) / (2 * (x - c.before)) :=
  if_pos ⟨below, above⟩

theorem Scan.step_rise_of_other (other : 0 ≤ c.before ∨ x < 0) : (c.step x).rise = c.rise := if_neg (by omega)

theorem Scan.step_detector : (c.step x).detector = if x < -32768 then .low else if 32768 < x then .high else c.detector := rfl

theorem Scan.step_crossings : (c.step x).crossings =
    if c.detector = .low ∧ (c.step x).detector = .high then (c.step x).rise :: c.crossings else c.crossings := rfl

theorem Scan.step_detector_high (above : 32768 < x) : (c.step x).detector = .high := by
  rw [c.step_detector, if_neg (by omega), if_pos above]

theorem Scan.step_crossings_still (still : c.detector ≠ .low ∨ x ≤ 32768) : (c.step x).crossings = c.crossings := by
  rw [c.step_crossings, if_neg]
  rintro ⟨low, high⟩
  have inside := still.resolve_left (not_not_intro low)
  rw [c.step_detector, if_neg (by omega : ¬ 32768 < x), low] at high
  split at high <;> cases high

end ScanStep

/-! ## What a window leaves alone (R91, R94) -/

/-- No state's rule touches the collection or the settings, or the estimate just written. -/
structure WindowKeeps (t u : Tuner) : Prop where
  windowCount : u.windowCount = t.windowCount
  windowed : u.windowed = t.windowed
  history : u.history = t.history
  reference : u.reference = t.reference
  mode : u.mode = t.mode
  lastEstimate : u.lastEstimate = t.lastEstimate

theorem WindowKeeps.refl (t : Tuner) : WindowKeeps t t := ⟨rfl, rfl, rfl, rfl, rfl, rfl⟩

theorem Tuner.tryLock_keeps (t : Tuner) (note : Int) : WindowKeeps t (t.tryLock note) := by
  unfold Tuner.tryLock
  split
  · split <;> exact ⟨rfl, rfl, rfl, rfl, rfl, rfl⟩
  · exact .refl t

theorem Tuner.acquireWindow_keeps (t : Tuner) (w : Option Reading) (silent : Bool) :
    WindowKeeps t (t.acquireWindow w silent) := by
  unfold Tuner.acquireWindow
  split
  · exact ⟨rfl, rfl, rfl, rfl, rfl, rfl⟩
  · exact .refl t
  · split
    · obtain ⟨h1, h2, h3, h4, h5, h6⟩ := Tuner.tryLock_keeps { t with run := _ } _
      exact ⟨h1, h2, h3, h4, h5, h6⟩
    · exact ⟨rfl, rfl, rfl, rfl, rfl, rfl⟩
  · exact ⟨rfl, rfl, rfl, rfl, rfl, rfl⟩

theorem Tuner.lockedWindow_keeps (t : Tuner) (w : Option Reading) (silent : Bool) :
    WindowKeeps t (t.lockedWindow w silent) := by
  unfold Tuner.lockedWindow
  dsimp only
  split
  · split <;> exact ⟨rfl, rfl, rfl, rfl, rfl, rfl⟩
  · split <;> exact ⟨rfl, rfl, rfl, rfl, rfl, rfl⟩

theorem Tuner.holdWindow_keeps (t : Tuner) (w : Option Reading) : WindowKeeps t (t.holdWindow w) := by
  unfold Tuner.holdWindow
  split
  · exact ⟨rfl, rfl, rfl, rfl, rfl, rfl⟩
  · split <;> exact ⟨rfl, rfl, rfl, rfl, rfl, rfl⟩

/-! ## What each state makes of a window (R96 to R98) -/

/-- The estimate of a window: 0 where it has none. -/
def WindowClass.estimate : WindowClass → Nat
  | .conclusive p16 => p16
  | _ => 0

/-- The reading of a window that has one. -/
def WindowClass.reading (c : WindowClass) (reference : Nat) : Option Reading :=
  match c with
  | .conclusive p16 => some (readingOf (readingT p16 reference))
  | _ => none

/-- The Tuner with the estimate of a window. -/
def Tuner.estimated (t : Tuner) (c : WindowClass) : Tuner := { t with lastEstimate := c.estimate }

theorem Tuner.onWindow_eq (t : Tuner) (c : WindowClass) : t.onWindow c =
    match t.state with
    | .off => t.estimated c
    | .locked => (t.estimated c).lockedWindow (c.reading t.reference) (c == .noSignal)
    | .hold => (t.estimated c).holdWindow (c.reading t.reference)
    | _ => (t.estimated c).acquireWindow (c.reading t.reference) (c == .noSignal) := by
  cases c <;> rfl

section OnWindow
variable {t : Tuner} (c : WindowClass)

theorem Tuner.onWindow_keeps (t : Tuner) (c : WindowClass) : WindowKeeps (t.estimated c) (t.onWindow c) := by
  rw [t.onWindow_eq]
  split
  · exact .refl _
  · exact Tuner.lockedWindow_keeps _ _ _
  · exact Tuner.holdWindow_keeps _ _
  · exact Tuner.acquireWindow_keeps _ _ _

theorem Tuner.onWindow_of_locked (state : t.state = .locked) :
    t.onWindow c = (t.estimated c).lockedWindow (c.reading t.reference) (c == .noSignal) := by rw [t.onWindow_eq, state]

theorem Tuner.onWindow_of_hold (state : t.state = .hold) :
    t.onWindow c = (t.estimated c).holdWindow (c.reading t.reference) := by rw [t.onWindow_eq, state]

theorem Tuner.onWindow_of_listen (state : t.state = .listen) :
    t.onWindow c = (t.estimated c).acquireWindow (c.reading t.reference) (c == .noSignal) := by rw [t.onWindow_eq, state]

theorem Tuner.onWindow_of_acquire (state : t.state = .acquire) :
    t.onWindow c = (t.estimated c).acquireWindow (c.reading t.reference) (c == .noSignal) := by rw [t.onWindow_eq, state]

end OnWindow

theorem WindowClass.reading_of_none {c : WindowClass} (none : c = .noSignal ∨ c = .inconclusive) (reference : Nat) :
    c.reading reference = Option.none := by rcases none with rfl | rfl <;> rfl

section States
variable {t : Tuner}

/-- LISTEN, without an estimate. -/
theorem Tuner.listen_none {c : WindowClass} (state : t.state = .listen) (none : c = .noSignal ∨ c = .inconclusive) :
    t.onWindow c = t.estimated c := by
  have state' : (t.estimated c).state = .listen := state
  rw [Tuner.onWindow_of_listen c state, WindowClass.reading_of_none none]
  unfold Tuner.acquireWindow
  rw [state']

/-- LISTEN and HOLD, on a reading. -/
theorem Tuner.fresh_conclusive {p : Nat} (state : t.state = .listen ∨ t.state = .hold) :
    t.onWindow (.conclusive p) = (t.estimated (.conclusive p)).acquire (readingOf (readingT p t.reference)) := by
  have stays : (t.estimated (.conclusive p)).state = t.state := rfl
  rcases state with state | state
  · rw [Tuner.onWindow_of_listen _ state]
    unfold Tuner.acquireWindow
    rw [stays, state]
    rfl
  · rw [Tuner.onWindow_of_hold _ state]
    rfl

/-- HOLD, without an estimate: the 47th such window ends it. -/
theorem Tuner.hold_none {c : WindowClass} (state : t.state = .hold) (none : c = .noSignal ∨ c = .inconclusive) :
    t.onWindow c =
      if 47 ≤ t.holdCount + 1 then { t.estimated c with state := .listen, holdCount := 0, shownNote := 0, shownCents := 0 }
      else { t.estimated c with holdCount := t.holdCount + 1 } := by
  rw [Tuner.onWindow_of_hold c state, WindowClass.reading_of_none none]
  rfl

/-- ACQUIRE, without an estimate. -/
theorem Tuner.acquire_none {c : WindowClass} (state : t.state = .acquire) (none : c = .noSignal ∨ c = .inconclusive) :
    t.onWindow c = { t.estimated c with run := [], state := if c = .noSignal then .listen else .acquire } := by
  have state' : (t.estimated c).state = .acquire := state
  rw [Tuner.onWindow_of_acquire c state, WindowClass.reading_of_none none]
  unfold Tuner.acquireWindow
  rw [state']
  simp

/-- The run of ACQUIRE after a reading of the same note. -/
def Tuner.runWith (t : Tuner) (r : Reading) : List Reading := (t.run ++ [r]).drop (t.run.length - 2)

theorem Tuner.acquire_conclusive {p : Nat} (state : t.state = .acquire) :
    let r := readingOf (readingT p t.reference)
    let e := t.estimated (.conclusive p)
    (¬ (∃ q, t.run.getLast? = some q ∧ q.note = r.note) → t.onWindow (.conclusive p) = { e with run := [r] }) ∧
    ((∃ q, t.run.getLast? = some q ∧ q.note = r.note) →
      t.onWindow (.conclusive p) = Tuner.tryLock { e with run := t.runWith r } r.note) := by
  intro r e
  have state' : e.state = .acquire := state
  have steps : t.onWindow (.conclusive p) =
      if (t.run.getLast?).elim false (fun x => x.note == r.note) then Tuner.tryLock { e with run := t.runWith r } r.note
      else { e with run := [r] } := by
    have dropped : (t.run ++ [r]).length - 3 = t.run.length - 2 := by simp
    rw [Tuner.onWindow_of_acquire _ state]
    unfold Tuner.acquireWindow Tuner.runWith
    rw [show (t.estimated (.conclusive p)).state = .acquire from state]
    dsimp only [WindowClass.reading]
    rw [show (t.estimated (.conclusive p)).run = t.run from rfl, dropped]
  have test : (t.run.getLast?).elim false (fun x => x.note == r.note) = true ↔
      ∃ q, t.run.getLast? = some q ∧ q.note = r.note := by
    cases t.run.getLast? <;> simp
  exact ⟨fun other => steps.trans (if_neg fun same => other (test.1 same)), fun same => steps.trans (if_pos (test.2 same))⟩

theorem Tuner.tryLock_of_few {run : List Reading} (isRun : t.run = run)
    (apart : ∀ x y z, run = [x, y, z] → ¬ max x.t (max y.t z.t) - min x.t (min y.t z.t) ≤ 60) (note : Int) :
    t.tryLock note = t := by
  unfold Tuner.tryLock
  rw [isRun]
  split
  next a b c three =>
    obtain ⟨x, y, z, rfl, rfl, rfl, rfl⟩ : ∃ x y z : Reading, run = [x, y, z] ∧ x.t = a ∧ y.t = b ∧ z.t = c := by
      match run, three with
      | [x, y, z], three => exact ⟨x, y, z, rfl, by simpa using three⟩
    exact if_neg (apart x y z rfl)
  next => rfl

theorem Tuner.tryLock_of_agree {x y z : Reading} (isRun : t.run = [x, y, z])
    (agree : max x.t (max y.t z.t) - min x.t (min y.t z.t) ≤ 60) (note : Int) :
    t.tryLock note = { t with
      state := .locked, accepted := [x.t, y.t, z.t], run := [], holdCount := 0, tunedMark := false, lockedWindows := 1,
      shownNote := note, shownCents := meanOf [x.t, y.t, z.t] - 1000 * (note - 69) } := by
  unfold Tuner.tryLock
  rw [isRun]
  exact if_pos agree

theorem meanOf_three (x y z : Int) : meanOf [x, y, z] = (2 * (x + y + z) + 3) / 6 := by
  unfold meanOf roundHalfUp
  rw [sumOf_eq, List.map_id]
  simp
  omega

/-- LOCKED, without an estimate. -/
theorem Tuner.locked_none {c : WindowClass} (state : t.state = .locked) (none : c = .noSignal ∨ c = .inconclusive) :
    t.onWindow c = if c = .noSignal then
        { t.estimated c with state := .hold, accepted := [], holdCount := 0, tunedMark := false, lockedWindows := 0 }
      else { t.estimated c with lockedWindows := countTo 65535 t.lockedWindows } := by
  rw [Tuner.onWindow_of_locked c state, WindowClass.reading_of_none none]
  unfold Tuner.lockedWindow
  dsimp only
  simp only [beq_iff_eq]
  rfl

theorem Tuner.locked_conclusive {p : Nat} (state : t.state = .locked) :
    let r := readingOf (readingT p t.reference)
    let e := { t.estimated (.conclusive p) with lockedWindows := countTo 65535 t.lockedWindows }
    t.onWindow (.conclusive p) =
      if r.note = t.shownNote ∧ (r.t - (t.shownCents + 1000 * (t.shownNote - 69))).natAbs ≤ 200 then
        { e with
          accepted := t.accepted.drop 1 ++ [r.t], shownNote := r.note,
          shownCents := meanOf (t.accepted.drop 1 ++ [r.t]) - 1000 * (r.note - 69) }
      else e.acquire r := by
  rw [Tuner.onWindow_of_locked _ state]
  rfl

theorem countTo_eq (n k : Nat) : countTo n k = min n (k + 1) := by unfold countTo; omega

theorem Tuner.tryLock_mark (state : t.state ≠ .locked) {note : Int} (locked : (t.tryLock note).state = .locked) :
    (t.tryLock note).tunedMark = false := by
  unfold Tuner.tryLock at locked ⊢
  split at locked
  · split at locked
    next agree => simp only [if_pos agree]; rfl
    next => exact absurd locked state
  · exact absurd locked state

/-- The mark of a lock is its own: a lock that begins has none. -/
theorem Tuner.onWindow_mark (c : WindowClass) (on : t.state ≠ .off) (locked : (t.onWindow c).state = .locked) :
    (t.onWindow c).tunedMark = true ↔ t.state = .locked ∧ t.tunedMark = true := by
  cases state : t.state with
  | off => exact absurd state on
  | listen =>
    rcases c with _ | _ | p
    · rw [Tuner.listen_none state (.inl rfl)] at locked; cases state.symm.trans locked
    · rw [Tuner.listen_none state (.inr rfl)] at locked; cases state.symm.trans locked
    · rw [Tuner.fresh_conclusive (.inl state)] at locked; cases locked
  | acquire =>
    rcases c with _ | _ | p
    · rw [Tuner.acquire_none state (.inl rfl)] at locked; cases locked
    · rw [Tuner.acquire_none state (.inr rfl)] at locked; cases locked
    · obtain ⟨other, same⟩ := Tuner.acquire_conclusive (p := p) state
      by_cases isSame : ∃ q, t.run.getLast? = some q ∧ q.note = (readingOf (readingT p t.reference)).note
      · rw [same isSame] at locked ⊢
        rw [Tuner.tryLock_mark (by show t.state ≠ _; rw [state]; nofun) locked]
        exact iff_of_false nofun nofun
      · rw [other isSame] at locked; cases state.symm.trans locked
  | locked =>
    rcases c with _ | _ | p
    · rw [Tuner.locked_none state (.inl rfl)] at locked; cases locked
    · rw [Tuner.locked_none state (.inr rfl)]; exact (and_iff_right rfl).symm
    · rw [Tuner.locked_conclusive state] at locked ⊢
      split at locked
      next near => rw [if_pos near]; exact (and_iff_right rfl).symm
      next => cases locked
  | hold =>
    rcases c with _ | _ | p
    · rw [Tuner.hold_none state (.inl rfl)] at locked
      split at locked
      · cases locked
      · cases state.symm.trans locked
    · rw [Tuner.hold_none state (.inr rfl)] at locked
      split at locked
      · cases locked
      · cases state.symm.trans locked
    · rw [Tuner.fresh_conclusive (.inr state)] at locked; cases locked

end States

/-! ## The window work (R91, R100, R102) -/

/-- The Tuner with a window's count begun anew. -/
def Tuner.counted (t : Tuner) : Tuner := { t with windowCount := 0, windowed := true }

/-- The class of the window that ends. -/
def Tuner.window (t : Tuner) : WindowClass := classify t.history.reverse

theorem Tuner.afterWindow_eq (t : Tuner) : t.afterWindow = t.counted.onWindow t.window := rfl

/-- A Tuner once its TUNED notice, if one is due, is written. -/
def Tuner.marked (t : Tuner) : Tuner := { t with tunedMark := t.tunedDue || t.tunedMark }

theorem Tuner.tunedDue_iff (t : Tuner) :
    t.tunedDue = true ↔ t.state = .locked ∧ t.shownCents.natAbs ≤ 10 ∧ t.tunedMark = false := by
  simp only [Tuner.tunedDue, Bool.and_eq_true, beq_iff_eq, decide_eq_true_iff, Bool.not_eq_true']
  exact ⟨fun ⟨⟨state, mark⟩, cents⟩ => ⟨state, cents, mark⟩, fun ⟨state, cents, mark⟩ => ⟨⟨state, mark⟩, cents⟩⟩

section WindowWork
variable {s : State} (due : s.windowDue s.grid.opened = true)
include due

theorem State.windowWork_of_due : s.windowWork s.grid.opened =
    if s.tuner.afterWindow.tunedDue then
      State.handReading (State.notify { s with tuner := { s.tuner.afterWindow with tunedMark := true } }
        (tunedNotice s.tuner.afterWindow))
    else State.handReading { s with tuner := s.tuner.afterWindow } := by
  unfold State.windowDue at due
  rw [Bool.and_eq_true] at due
  unfold State.windowWork
  rw [if_pos due.1, if_pos due.2]

theorem State.windowWork_of_tuned (tuned : s.tuner.afterWindow.tunedDue = true) : s.windowWork s.grid.opened =
    State.handFrames (State.notify { s with tuner := s.tuner.afterWindow.marked } (tunedNotice s.tuner.afterWindow))
      (readingFrames s.link.units s.tuner.afterWindow.marked.reads) := by
  have isMarked : { s.tuner.afterWindow with tunedMark := true } = s.tuner.afterWindow.marked := by
    unfold Tuner.marked; rw [tuned]; rfl
  rw [State.windowWork_of_due due, if_pos tuned, isMarked]
  unfold State.handReading
  rw [tuneFrames_eq]
  rfl

theorem State.windowWork_of_untuned (untuned : s.tuner.afterWindow.tunedDue = false) : s.windowWork s.grid.opened =
    State.handFrames { s with tuner := s.tuner.afterWindow.marked }
      (readingFrames s.link.units s.tuner.afterWindow.marked.reads) := by
  have isMarked : s.tuner.afterWindow = s.tuner.afterWindow.marked := by
    unfold Tuner.marked; rw [untuned]; rfl
  rw [State.windowWork_of_due due, if_neg (by rw [untuned]; nofun)]
  unfold State.handReading
  rw [tuneFrames_eq, ← isMarked]

/-- The blocks after a window. -/
theorem State.windowWork_blocks :
    let t := s.windowWork s.grid.opened
    t.tuner = s.tuner.afterWindow.marked ∧
    t.link = (s.handFrames (readingFrames s.link.units s.tuner.afterWindow.marked.reads)).link ∧
    t.engine = s.engine ∧ t.transition = s.transition ∧ t.input = s.input ∧ t.router = s.router ∧ t.store = s.store := by
  cases tuned : s.tuner.afterWindow.tunedDue with
  | true =>
    rw [State.windowWork_of_tuned due tuned]
    obtain ⟨input, store, engine, transition, tuner, router, _⟩ := State.handFrames_blocks
      (State.notify { s with tuner := s.tuner.afterWindow.marked } (tunedNotice s.tuner.afterWindow))
      (readingFrames s.link.units s.tuner.afterWindow.marked.reads)
    refine ⟨tuner, State.handFrames_link ?_ _, engine, transition, input, router, store⟩
    rfl
  | false =>
    rw [State.windowWork_of_untuned due tuned]
    obtain ⟨input, store, engine, transition, tuner, router, _⟩ := State.handFrames_blocks
      { s with tuner := s.tuner.afterWindow.marked } (readingFrames s.link.units s.tuner.afterWindow.marked.reads)
    refine ⟨tuner, State.handFrames_link ?_ _, engine, transition, input, router, store⟩
    rfl

end WindowWork

theorem State.windowDue_of {s : State} (on : s.tuner.state ≠ .off) (collecting : s.tuner.collecting = true)
    (opened : s.grid.opened = true)
    (ends : if s.tuner.windowed then 32 ≤ min 64 (s.tuner.windowCount + 1) else 2048 ≤ s.tuner.history.length) :
    s.windowDue s.grid.opened = true := by
  have isEngaged := (Tuner.isEngaged_iff s.tuner).2 on
  have windowEnds : s.tuner.windowEnds = true := by
    unfold Tuner.windowEnds Tuner.countBlock
    rw [countTo_eq]
    split at ends
    next windowed => rw [if_pos windowed]; exact decide_eq_true ends
    next fresh => rw [if_neg fresh]; exact decide_eq_true ends
  simp [State.windowDue, isEngaged, collecting, opened, windowEnds]

end Sys2Proof.Machine

namespace Sys2Proof.Proofs
open Sys2Proof.Machine

/-- Settles O35: the window's effect state by state, its reports, the end of a hold, and the class of a window. -/
theorem tunerWindowEndAnalyses : Obligations.TunerWindowEndAnalyses := by
  refine ⟨fun s yet => ?window, fun s yet => ?hold, fun window => ?classes, ⟨fun _ => rfl, fun c x => ?scan, rfl,
    fun _ => rfl, fun _ _ _ => rfl⟩, fun intervals ordered perm inOrder => ?estimates⟩
  case window =>
    have happens := exec_event_of_due (s := s) (exec_tunerWindowEnd s) yet
    have memB : s.memoryOk → (s.before .window).memoryOk := fun mem => State.before_memory mem .window
    generalize s.before .window = b at *
    intro b' w on collecting opened ends
    have due := State.windowDue_of on collecting opened ends
    refine ⟨_, happens due, ?_⟩
    obtain ⟨tuner, link, engine, transition, input, router, store⟩ := State.windowWork_blocks due
    have tuned := State.windowWork_of_tuned due
    have untuned := State.windowWork_of_untuned due
    have after : b.tuner.afterWindow = b.tuner.counted.onWindow w := rfl
    have keeps := b.tuner.counted.onWindow_keeps w
    have mark := Tuner.onWindow_mark (t := b.tuner.counted) w on
    rw [← after] at keeps mark
    have dueIff := b.tuner.afterWindow.tunedDue_iff
    simp -zeta only [Work.run, State.mark]
    generalize b.windowWork b.grid.opened = t at *
    rw [tuner]
    clear_value w
    generalize b.tuner.afterWindow = a at *
    have estimate := keeps.lastEstimate
    refine ⟨keeps.windowCount, keeps.windowed, keeps.history, keeps.reference, keeps.mode, fun p isClass => ?estimated,
      fun nothing => ?unestimated, fun silent state => ?lockedSilent, fun unclear state => ?lockedUnclear,
      fun silent state => ?acquireSilent, fun unclear state => ?acquireUnclear, fun nothing state => ?listenNothing,
      fun nothing state early => ?holdNothing, fun p isClass state => ?fresh, fun p isClass state => ?acquires,
      fun p isClass state => ?locked, ?reports, engine, transition, input, router, store⟩
    case estimated => rw [isClass] at estimate; exact estimate
    case unestimated => rcases nothing with isClass | isClass <;> (rw [isClass] at estimate; exact estimate)
    case lockedSilent =>
      rw [Tuner.locked_none (t := b.tuner.counted) state (.inl silent), if_pos silent] at after
      rw [after]
      exact ⟨rfl, rfl, rfl, rfl, rfl⟩
    case lockedUnclear =>
      rw [Tuner.locked_none (t := b.tuner.counted) state (.inr unclear), if_neg (by rw [unclear]; nofun)] at after
      rw [after]
      exact ⟨state, rfl, rfl, rfl, countTo_eq _ _⟩
    case acquireSilent =>
      rw [Tuner.acquire_none (t := b.tuner.counted) state (.inl silent), if_pos silent] at after
      rw [after]
      exact ⟨rfl, rfl⟩
    case acquireUnclear =>
      rw [Tuner.acquire_none (t := b.tuner.counted) state (.inr unclear), if_neg (by rw [unclear]; nofun)] at after
      rw [after]
      exact ⟨rfl, rfl⟩
    case listenNothing =>
      rw [Tuner.listen_none (t := b.tuner.counted) state nothing] at after
      rw [after]
      exact ⟨state, rfl, rfl, rfl⟩
    case holdNothing =>
      have before : b.tuner.holdCount < 46 := early
      have tooEarly : ¬ 47 ≤ b.tuner.counted.holdCount + 1 := by show ¬ 47 ≤ b.tuner.holdCount + 1; omega
      rw [Tuner.hold_none (t := b.tuner.counted) state nothing, if_neg tooEarly] at after
      rw [after]
      exact ⟨state, rfl, rfl, rfl⟩
    case fresh =>
      rw [isClass, Tuner.fresh_conclusive (t := b.tuner.counted) state] at after
      rw [after]
      exact ⟨rfl, rfl, rfl⟩
    case acquires =>
      intro r run same agree
      obtain ⟨other, isSame⟩ := Tuner.acquire_conclusive (t := b.tuner.counted) (p := p) state
      rw [isClass] at after
      refine ⟨fun notSame => ?_, fun theSame apart => ?_, fun theSame x y z isRun agrees => ?_⟩
      · rw [after.trans (other notSame)]
        exact ⟨state, rfl⟩
      · rw [after.trans (isSame theSame), Tuner.tryLock_of_few rfl apart]
        exact ⟨state, rfl⟩
      · rw [after.trans (isSame theSame), Tuner.tryLock_of_agree isRun agrees]
        exact ⟨rfl, rfl, rfl, rfl, rfl, rfl, congrArg (· - 1000 * (r.note - 69)) (meanOf_three _ _ _)⟩
    case locked =>
      intro r near
      rw [isClass, Tuner.locked_conclusive (t := b.tuner.counted) state] at after
      refine ⟨fun isNear => ?_, fun notNear => ?_⟩
      · rw [after.trans (if_pos isNear)]
        refine ⟨state, rfl, countTo_eq _ _, rfl, fun x y z accepted => ?_⟩
        show meanOf (b.tuner.accepted.drop 1 ++ [r.t]) - _ = _
        rw [show b.tuner.accepted.drop 1 ++ [r.t] = [x, y, z] from accepted, meanOf_three]
        rfl
      · rw [after.trans (if_neg notNear)]
        exact ⟨rfl, rfl, rfl, rfl, rfl⟩
    case reports =>
      intro first notice moved frames
      have isFirst : first ↔ a.tunedDue = true := by
        rw [dueIff]
        refine and_congr_right fun locked => and_congr_right fun _ => ?_
        rw [← Bool.not_eq_true a.tunedMark, mark locked]
        show (_ → b.tuner.tunedMark = false) ↔ ¬ (b.tuner.state = .locked ∧ b.tuner.tunedMark = true)
        rw [not_and, Bool.not_eq_true]
      have noticeIs : notice = tunedNotice a := by
        unfold tunedNotice
        rw [show a.reference = b.tuner.reference from keeps.reference]
        rfl
      have untuned (notFirst : ¬ first) := untuned (Bool.eq_false_iff.2 fun due => notFirst (isFirst.2 due))
      refine ⟨link, fun isDue => ⟨?_, ?_⟩, fun notDue => ?_, fun mem dark => ⟨fun isDue => ?_, fun notDue => ?_⟩⟩
      · show (a.tunedDue || a.tunedMark) = true
        rw [isFirst.1 isDue]
        rfl
      · rw [noticeIs, ← tuner]
        exact congrArg (fun x : State => { x with grid := { t.grid with done := Work.window.place + 1 } })
          (tuned (isFirst.1 isDue))
      · rw [← tuner]
        exact congrArg (fun x : State => { x with grid := { t.grid with done := Work.window.place + 1 } })
          (untuned notDue)
      · have isDark : readingFrames b.link.units a.marked.reads = [] := readingFrames_of_dark _ dark
        rw [noticeIs, tuned (isFirst.1 isDue), isDark]
        refine ⟨rfl, ?_, State.notify_reads (s := moved) (memB mem) _⟩
        show (_ || _) = true
        simp [Signals.causeNotice]
      · have isDark : readingFrames b.link.units a.marked.reads = [] := readingFrames_of_dark _ dark
        rw [untuned notDue, isDark]
        exact ⟨rfl, rfl⟩
  case hold =>
    have happens := exec_event_of_due (s := s) (exec_tunerHoldExpiry s) yet
    generalize s.before .window = b at *
    intro b' state held collecting opened ends unclear
    have due := State.windowDue_of (s := b) (by rw [state]; nofun) collecting opened ends
    have nothing : b.tuner.window = .noSignal ∨ b.tuner.window = .inconclusive := by
      cases isClass : b.tuner.window with
      | noSignal => exact .inl rfl
      | inconclusive => exact .inr rfl
      | conclusive p => exact absurd isClass (unclear p)
    have after := b.tuner.afterWindow_eq
    have ended : 47 ≤ b.tuner.counted.holdCount + 1 := Nat.le_of_eq (congrArg (· + 1) held).symm
    rw [Tuner.hold_none (t := b.tuner.counted) state nothing, if_pos ended] at after
    have expiry : b.holdExpiryDue b.grid.opened = true := by
      unfold State.holdExpiryDue
      rw [due, state, after]
      rfl
    refine ⟨_, happens expiry, ?_⟩
    obtain ⟨tuner, link, engine, _, _, router, store⟩ := State.windowWork_blocks due
    simp only [Work.run, State.mark]
    generalize b.windowWork b.grid.opened = t at *
    rw [tuner]
    rw [after] at link ⊢
    exact ⟨rfl, rfl, rfl, rfl, rfl, engine, router, store, link⟩
  case classes =>
    intro found
    refine ⟨fun silent => if_pos silent, fun signal => ⟨fun p isFound => ?_, fun notFound => ?_⟩⟩
    · unfold classify
      rw [if_neg (by omega), show estimate (differences (crossingsOf window)) = some p from isFound]
    · unfold classify
      rw [if_neg (by omega), show estimate (differences (crossingsOf window)) = none from notFound]
  case scan =>
    intro c' d
    refine ⟨rfl, rfl, fun low => if_pos low, c.step_detector_high x, fun low high => ?_, c.step_rise_of_rising x,
      c.step_rise_of_other x, fun low high => ?_, c.step_crossings_still x⟩
    · show (c.step x).detector = _
      rw [c.step_detector, if_neg (by omega), if_neg (by omega)]
    · exact (c.step_crossings x).trans (if_pos ⟨low, c.step_detector_high x high⟩)
  case estimates =>
    intro n median cluster k p
    have isSorted := sorted_unique perm inOrder
    refine ⟨estimate_of_few, fun enough loose => ?_, fun enough tight => ⟨fun outside => ?_, fun low high => ?_⟩⟩
    all_goals
      have found := estimate_of_enough (intervals := intervals) (by omega)
      rw [isSorted] at found
    · exact found.trans (if_pos loose)
    · exact found.trans ((if_neg (by show ¬ 10 * k < 6 * n; omega)).trans (if_pos outside))
    · exact found.trans ((if_neg (by show ¬ 10 * k < 6 * n; omega)).trans (if_neg (by
        show ¬ (p < 512 ∨ 15360 < p); omega)))

end Sys2Proof.Proofs
end

section
/-! SUPPORT. LINK_CONFIG and SET_UNIT (R164, R177, R178). -/

namespace Sys2Proof.Machine

/-! ## LINK_CONFIG (R177, R178) -/

theorem defaulted_natCast (lo hi default v : Nat) :
    (defaulted lo hi default v).1.toNat = (if v = 0 then default else max lo (min hi v)) ∧
    ((defaulted lo hi default v).2 = true ↔ v ≠ 0 ∧ (v < lo ∨ hi < v)) := by
  unfold defaulted
  by_cases zero : v = 0
  · simp [zero]
  · rw [if_neg (by omega), if_neg zero, clampMark_marked]
    refine ⟨?_, by omega⟩
    show (clampInt lo hi v).toNat = _
    unfold clampInt
    omega

theorem okCode_eq_clamped {clamped : Bool} : okCode clamped = .okClamped ↔ clamped = true := by cases clamped <;> decide

theorem okCode_ok_or (clamped : Bool) : okCode clamped = .ok ∨ okCode clamped = .okClamped := by cases clamped <;> decide

/-- The three values of a LINK_CONFIG request, after defaults and clamps. -/
def Taken.holdMs (t : Taken) : Nat := (defaulted 200 2000 600 (argLow t.arg2)).1.toNat

def Taken.referralMs (t : Taken) : Nat := (defaulted 5 200 30 (argHigh t.arg2)).1.toNat

def Taken.deadband (t : Taken) : Nat := (defaulted 1 16 2 t.arg3).1.toNat

/-- One of its values is clamped. -/
def Taken.linkClamped (t : Taken) : Bool :=
  decide (t.arg0 ≠ 0 ∧ t.arg0 ≠ 1) || (defaulted 200 2000 600 (argLow t.arg2)).2 ||
    (defaulted 5 200 30 (argHigh t.arg2)).2 || (defaulted 1 16 2 t.arg3).2

theorem Taken.holdMs_eq (t : Taken) : t.holdMs =
    if argBits t.arg2 / 65536 ^ 0 % 65536 = 0 then 600 else max 200 (min 2000 (argBits t.arg2 / 65536 ^ 0 % 65536)) := by
  rw [← argLow_eq]
  exact (defaulted_natCast 200 2000 600 _).1

theorem Taken.referralMs_eq (t : Taken) : t.referralMs =
    if argBits t.arg2 / 65536 ^ 1 % 65536 = 0 then 30 else max 5 (min 200 (argBits t.arg2 / 65536 ^ 1 % 65536)) := by
  rw [← argHigh_eq]
  exact (defaulted_natCast 5 200 30 _).1

theorem Taken.deadband_eq (t : Taken) : t.deadband = if t.arg3 = 0 then 2 else (max 1 (min 16 t.arg3)).toNat := by
  unfold Taken.deadband defaulted
  split <;> rfl

theorem deadband_marked (v : Int) : (defaulted 1 16 2 v).2 = true ↔ v ≠ 0 ∧ (v < 1 ∨ 16 < v) := by
  unfold defaulted
  split
  next zero => simp [zero]
  next other => rw [clampMark_marked]; exact (and_iff_right other).symm

theorem Taken.linkClamped_iff (t : Taken) :
    let half := fun k => argBits t.arg2 / 65536 ^ k % 65536
    t.linkClamped = true ↔ (t.arg0 ≠ 0 ∧ t.arg0 ≠ 1) ∨ (half 0 ≠ 0 ∧ (half 0 < 200 ∨ 2000 < half 0)) ∨
      (half 1 ≠ 0 ∧ (half 1 < 5 ∨ 200 < half 1)) ∨ (t.arg3 ≠ 0 ∧ (t.arg3 < 1 ∨ 16 < t.arg3)) := by
  dsimp only
  have hold : (defaulted 200 2000 600 (argLow t.arg2)).2 = true ↔ _ := (defaulted_natCast 200 2000 600 _).2
  have referral : (defaulted 5 200 30 (argHigh t.arg2)).2 = true ↔ _ := (defaulted_natCast 5 200 30 _).2
  rw [← argLow_eq, ← argHigh_eq, ← deadband_marked, ← hold, ← referral, ← decide_eq_true_iff (p := t.arg0 ≠ 0 ∧ t.arg0 ≠ 1)]
  simp only [Taken.linkClamped, Bool.or_eq_true, or_assoc]

theorem carryLinkConfig_eq (t : Taken) (s : State) : carryLinkConfig t s = State.answer
    { s with
      link := Link.configure { s.link with holdMs := t.holdMs, deadband := t.deadband } (decide (t.arg0 ≠ 0))
        (decide (t.arg1 ≠ 0))
      mapper := { s.mapper with timeout := msToBlocks t.referralMs } }
    (okCode t.linkClamped) (.given (boolInt (decide (t.arg0 ≠ 0)))) := rfl

theorem Link.configure_off (l : Link) (restart : Bool) :
    l.configure false restart = if l.enabled then l.disable else l := by
  unfold Link.configure
  cases l.enabled <;> rfl

theorem Link.configure_restart (l : Link) : l.configure true true = l.restart := rfl

theorem Link.configure_on (l : Link) : l.configure true false = if l.enabled then l else l.resume := by
  unfold Link.configure
  cases l.enabled <;> rfl

/-! ## What a disable leaves of the line (R178) -/

theorem Link.endTurn_rest (l : Link) : l.endTurn.queue = l.queue ∧ l.endTurn.lampMirrors = l.lampMirrors ∧
    l.endTurn.textMirrors = l.textMirrors ∧ l.endTurn.phase = .between := by
  unfold Link.endTurn
  split <;> exact ⟨rfl, rfl, rfl, rfl⟩

theorem Link.idleLine_rest (l : Link) : l.idleLine.queue = l.queue ∧ l.idleLine.units = l.units ∧
    l.idleLine.lampMirrors = l.lampMirrors ∧ l.idleLine.textMirrors = l.textMirrors := by
  obtain ⟨queue, lamps, texts, _⟩ := l.endTurn_rest
  unfold Link.idleLine
  split
  · exact ⟨rfl, rfl, rfl, rfl⟩
  · exact ⟨queue, l.endTurn_units, lamps, texts⟩
  · exact ⟨rfl, rfl, rfl, rfl⟩

theorem Link.idleLine_phase_of_assembling {l : Link} {e : Nat} {d : Bool} {bytes : List Nat}
    (assembling : l.phase = .assembling e d bytes) : l.idleLine.phase = l.phase := by
  unfold Link.idleLine
  rw [assembling]
  exact assembling

theorem Link.idleLine_cycle_of_over {l : Link} {n : Nat} (sending : l.phase = .queueStep n) (nothing : l.queue = []) :
    l.idleLine.cycle = l.endTurn.cycle := by
  unfold Link.idleLine
  rw [sending, nothing]

theorem Link.idleLine_phase {l : Link} (other : ∀ e d bytes, l.phase ≠ .assembling e d bytes) :
    l.idleLine.phase = .between := by
  unfold Link.idleLine
  split
  next assembling => exact absurd assembling (other _ _ _)
  next => exact l.endTurn_rest.2.2.2
  next => rfl

theorem Link.idleLine_cycle {l : Link} (more : (∀ n, l.phase ≠ .queueStep n) ∨ l.queue ≠ []) :
    l.idleLine.cycle = l.cycle := by
  unfold Link.idleLine
  split
  next => rfl
  next sending nothing => exact more.elim (fun other => absurd sending (other _)) (fun some => absurd nothing some)
  next => rfl

/-! ## SET_UNIT (R164) -/

/-- Entry i is another enabled one with this unit number. -/
def Link.takes (l : Link) (entry unit : Nat) (i : Nat) : Prop :=
  i ≠ entry ∧ ∃ u, l.units[i]? = some u ∧ u.enabled = true ∧ u.number = unit

/-- The test by which `Link.duplicateOf` finds an entry. -/
def Link.takesTest (l : Link) (entry unit : Nat) (i : Nat) : Bool :=
  l.units[i]?.any fun u => i != entry && u.enabled && u.number == unit

theorem Link.takesTest_iff (l : Link) (entry unit i : Nat) : l.takesTest entry unit i = true ↔ l.takes entry unit i := by
  unfold Link.takesTest Link.takes
  cases l.units[i]? <;> simp [and_assoc]

theorem Link.duplicateOf_eq (l : Link) (entry unit : Nat) :
    l.duplicateOf entry unit = (List.range l.units.length).find? (l.takesTest entry unit) := by
  unfold Link.duplicateOf Link.takesTest
  congr 1
  funext i
  cases l.units[i]? <;> rfl

theorem Link.takes.lt {l : Link} {entry unit i : Nat} (takes : l.takes entry unit i) : i < l.units.length := by
  obtain ⟨_, u, stands, _⟩ := takes
  exact (List.getElem?_eq_some_iff.1 stands).1

theorem Link.duplicateOf_first {l : Link} {entry unit i : Nat} (takes : l.takes entry unit i)
    (first : ∀ j, j < i → ¬ l.takes entry unit j) : l.duplicateOf entry unit = some i := by
  rw [l.duplicateOf_eq, List.find?_range_eq_some]
  refine ⟨(l.takesTest_iff ..).2 takes, List.mem_range.2 takes.lt, fun j before => ?_⟩
  rw [Bool.not_eq_true', ← Bool.not_eq_true, l.takesTest_iff]
  exact first j before

theorem Link.duplicateOf_none {l : Link} {entry unit : Nat} (free : ∀ i, ¬ l.takes entry unit i) :
    l.duplicateOf entry unit = none := by
  rw [l.duplicateOf_eq, List.find?_eq_none]
  intro i _ takes
  exact free i ((l.takesTest_iff ..).1 takes)

section SetUnit
variable {t : Taken} (s : State)

theorem carrySetUnit_range (outside : t.arg0 < 0 ∨ 7 < t.arg0 ∨ t.arg1 < 1 ∨ 15 < t.arg1) :
    carrySetUnit t s = s.answer .range .unstated := if_pos outside

variable (inside : ¬ (t.arg0 < 0 ∨ 7 < t.arg0 ∨ t.arg1 < 1 ∨ 15 < t.arg1))
include inside

theorem carrySetUnit_duplicate {i : Nat} (enabled : argLow t.arg2 ≠ 0)
    (found : s.link.duplicateOf t.arg0.toNat t.arg1.toNat = some i) :
    carrySetUnit t s = s.answer .duplicate (.given i) := by
  unfold carrySetUnit
  rw [if_neg inside]
  dsimp only
  rw [if_pos (decide_eq_true enabled), found]

/-- The entry that a request writes. -/
def Taken.unitWritten (t : Taken) (u : UnitEntry) : UnitEntry where
  number := t.arg1.toNat
  enabled := decide (argLow t.arg2 ≠ 0)
  display := decide (argHigh t.arg2 ≠ 0)
  switchCount := min 14 (argLow t.arg3)
  pedalCount := min 4 (argHigh t.arg3)
  state := if argLow t.arg2 ≠ 0 then .joining else .unused
  misses := 0
  last := none
  losses := u.losses

theorem carrySetUnit_writes (free : argLow t.arg2 = 0 ∨ s.link.duplicateOf t.arg0.toNat t.arg1.toNat = none) :
    carrySetUnit t s = State.answer
      { s with link := { s.link with
          units := s.link.units.modify t.arg0.toNat t.unitWritten
          phase := s.link.phase.discardFor t.arg0.toNat } }
      (okCode (decide (1 < argLow t.arg2 ∨ 1 < argHigh t.arg2 ∨ 14 < argLow t.arg3 ∨ 4 < argHigh t.arg3)))
      (.given t.arg0) := by
  have none_found : (if decide (argLow t.arg2 ≠ 0) then s.link.duplicateOf t.arg0.toNat t.arg1.toNat else none) = none := by
    split
    next enabled => exact free.resolve_left (of_decide_eq_true enabled)
    next => rfl
  unfold carrySetUnit
  rw [if_neg inside]
  dsimp only
  rw [none_found]
  unfold Taken.unitWritten setAt
  simp only [decide_eq_true_eq]

end SetUnit

end Sys2Proof.Machine

namespace Sys2Proof.Proofs
open Sys2Proof.Machine

/-- Settles O44: the values of LINK_CONFIG and the line by its two flags; SET_UNIT by its refusals. -/
theorem linkConfigAndUnitEntries : Obligations.LinkConfigAndUnitEntries := by
  refine ⟨fun s n rest mem head => ?config, fun s n rest mem head => ?units⟩
  case config =>
    intro t half hold timeout dead clamped set mapper kind
    have clampedIff : t.linkClamped = true ↔ clamped := t.linkClamped_iff
    have carried := carryLinkConfig_eq t (s.takeHead n rest)
    rw [t.holdMs_eq, t.referralMs_eq, t.deadband_eq] at carried
    have settles {link : Link} {on : Int} (answer : carryLinkConfig t (s.takeHead n rest) = State.answer
        { s.takeHead n rest with link := link, mapper := mapper } (okCode t.linkClamped) (.given on)) :
        completes .linkConfig s { s with mapper := mapper, link := link } n rest (okCode t.linkClamped) (.given on) :=
      completes_blocks exec_linkConfig mem head (isKind_of_kind kind) (BufferNeed.none_passes _) carryLinkConfig_keeps answer
    refine ⟨okCode t.linkClamped, okCode_eq_clamped.trans clampedIff, okCode_ok_or _, fun off => settles ?off,
      fun on plain => settles ?on, fun on again => settles ?again, fun l => ?line⟩
    case off =>
      rw [carried, decide_eq_false (not_not_intro off), Link.configure_off]
      rfl
    case on =>
      rw [carried, decide_eq_true on, decide_eq_false (not_not_intro plain), Link.configure_on]
      rfl
    case again =>
      rw [carried, decide_eq_true on, decide_eq_true again, Link.configure_restart]
      rfl
    case line =>
      obtain ⟨queue, units, lamps, texts⟩ := l.idleLine_rest
      exact ⟨⟨rfl, queue, units, lamps, texts⟩,
        ⟨fun _ _ _ assembling => Link.idleLine_phase_of_assembling assembling, Link.idleLine_phase,
          Link.idleLine_cycle, fun _ sending nothing => Link.idleLine_cycle_of_over sending nothing⟩,
        ⟨rfl, rfl, rfl, rfl, rfl, rfl⟩, rfl, rfl, rfl, rfl, rfl, rfl⟩
  case units =>
    intro t low high other kind
    have settles {link : Link} {code : Result} {value : ResultValue}
        (answer : carrySetUnit t (s.takeHead n rest) = State.answer { s.takeHead n rest with link := link } code value) :
        completes .setUnit s { s with link := link } n rest code value :=
      completes_blocks exec_setUnit mem head (isKind_of_kind kind) (BufferNeed.none_passes _) carrySetUnit_keeps answer
    refine ⟨fun outside => settles (carrySetUnit_range _ outside), fun low0 high0 low1 high1 => ?within⟩
    have inside : ¬ (t.arg0 < 0 ∨ 7 < t.arg0 ∨ t.arg1 < 1 ∨ 15 < t.arg1) := by omega
    have otherIff (i : Nat) : other i ↔ s.link.takes t.arg0.toNat t.arg1.toNat i :=
      and_congr (by omega) (exists_congr fun u => and_congr_right fun _ => and_congr_right fun _ => by omega)
    refine ⟨fun i enabled takes first => settles (carrySetUnit_duplicate _ inside enabled ?found), fun free => ?writes⟩
    case found =>
      exact Link.duplicateOf_first ((otherIff i).1 takes) fun j before takes => first j before ((otherIff j).2 takes)
    case writes =>
      have written := carrySetUnit_writes (s.takeHead n rest) inside
        (free.imp_right fun free => Link.duplicateOf_none fun i takes => free i ((otherIff i).2 takes))
      rw [okCode_of_iff decide_eq_true_iff] at written
      exact settles written

end Sys2Proof.Proofs
end

section
/-! SUPPORT. A frame handed to the transmit queue (R174, R175), and LAMP and TEXT (R176, R196). -/

namespace Sys2Proof.Machine

/-! ## The mirrors (R175) -/

section Mirror
variable (l : Link) (f : MasterFrame)

theorem Link.mirror_rest : (l.mirror f).queue = l.queue ∧ (l.mirror f).drops = l.drops := by
  unfold Link.mirror
  split
  · split <;> exact ⟨rfl, rfl⟩
  · exact ⟨rfl, rfl⟩

theorem Link.mirror_lamps : (l.mirror f).lampMirrors =
    if f.kind = .lamp ∧ f.mask = 15 ∧ 1 ≤ f.target then l.lampMirrors.set f.target (some f.payload) else l.lampMirrors := by
  unfold Link.mirror
  by_cases reaches : f.mask = 15 ∧ 1 ≤ f.target
  · rw [if_pos reaches]
    cases f.kind <;> simp [reaches]
  · rw [if_neg reaches, if_neg fun all => reaches all.2]

theorem Link.mirror_texts : (l.mirror f).textMirrors =
    if f.kind = .text ∧ f.mask = 15 ∧ 1 ≤ f.target then l.textMirrors.set f.target (some f.payload) else l.textMirrors := by
  unfold Link.mirror
  by_cases reaches : f.mask = 15 ∧ 1 ≤ f.target
  · rw [if_pos reaches]
    cases f.kind <;> simp [reaches]
  · rw [if_neg reaches, if_neg fun all => reaches all.2]

theorem Link.place_mirrors : (l.place f).1.lampMirrors = l.lampMirrors ∧ (l.place f).1.textMirrors = l.textMirrors := by
  unfold Link.place
  split
  · exact ⟨rfl, rfl⟩
  · split
    · exact ⟨rfl, rfl⟩
    · split <;> exact ⟨rfl, rfl⟩

end Mirror

/-! ## The placing of a frame (R174) -/

theorem MasterFrame.sameKey_iff (g f : MasterFrame) :
    g.sameKey f = true ↔ g.kind = f.kind ∧ g.target = f.target ∧ g.mask = f.mask := by
  simp [MasterFrame.sameKey, and_assoc]

/-- A frame that replaces the payload of the one with its key. -/
def MasterFrame.over (f g : MasterFrame) : MasterFrame :=
  if g.kind = f.kind ∧ g.target = f.target ∧ g.mask = f.mask then { g with payload := f.payload } else g

theorem MasterFrame.over_key (f g : MasterFrame) :
    (f.over g).kind = g.kind ∧ (f.over g).target = g.target ∧ (f.over g).mask = g.mask := by
  unfold MasterFrame.over
  split <;> exact ⟨rfl, rfl, rfl⟩

section Place
variable {l : Link} {f : MasterFrame}

theorem Link.place_replaces (held : ∃ g, g ∈ l.queue ∧ g.kind = f.kind ∧ g.target = f.target ∧ g.mask = f.mask) :
    l.place f = ({ l with queue := l.queue.map f.over }, .replaced) := by
  simp only [← MasterFrame.sameKey_iff] at held
  rw [Link.place, if_pos (List.any_eq_true.2 held)]
  unfold MasterFrame.over
  simp only [MasterFrame.sameKey_iff]

variable (fresh : ∀ g, g ∈ l.queue → ¬ (g.kind = f.kind ∧ g.target = f.target ∧ g.mask = f.mask))
include fresh

theorem Link.noKey_of_fresh : ¬ l.queue.any (·.sameKey f) = true := by
  rw [List.any_eq_true]
  rintro ⟨g, queued, same⟩
  exact fresh g queued ((g.sameKey_iff f).1 same)

theorem Link.place_joins (room : l.queue.length < 8) : l.place f = ({ l with queue := l.queue ++ [f] }, .joined) := by
  rw [Link.place, if_neg (Link.noKey_of_fresh fresh), if_pos room]

theorem Link.place_displaces (full : 8 ≤ l.queue.length) (tunes : ∃ g, g ∈ l.queue ∧ g.kind = .tune) : l.place f =
    ({ l with queue := removeFirst (fun g => g.kind == .tune) l.queue ++ [f] }, .displaced) := by
  simp only [← beq_iff_eq (b := FrameKind.tune)] at tunes
  rw [Link.place, if_neg (Link.noKey_of_fresh fresh), if_neg (Nat.not_lt.2 full), if_pos (List.any_eq_true.2 tunes)]

theorem Link.place_drops (full : 8 ≤ l.queue.length) (others : ∀ g, g ∈ l.queue → g.kind ≠ .tune) :
    l.place f = ({ l with drops := min 65535 (l.drops + 1) }, .dropped) := by
  have untuned : ¬ l.queue.any (fun g => g.kind == .tune) = true := by
    rw [List.any_eq_true]
    rintro ⟨g, queued, tune⟩
    exact others g queued (beq_iff_eq.1 tune)
  rw [Link.place, if_neg (Link.noKey_of_fresh fresh), if_neg (Nat.not_lt.2 full), if_neg untuned]
  rfl

end Place

/-- The bounds of the transmit queue: eight frames, of different keys. -/
def QueueBounded (q : List MasterFrame) : Prop :=
  q.length ≤ 8 ∧ q.Pairwise fun x y => ¬ (x.kind = y.kind ∧ x.target = y.target ∧ x.mask = y.mask)

theorem QueueBounded.map_over {q : List MasterFrame} (bounded : QueueBounded q) (f : MasterFrame) :
    QueueBounded (q.map f.over) := by
  refine ⟨Nat.le_trans (Nat.le_of_eq (List.length_map _)) bounded.1, List.pairwise_map.2 (bounded.2.imp fun {x y} apart => ?_)⟩
  obtain ⟨kx, tx, mx⟩ := f.over_key x
  obtain ⟨ky, ty, my⟩ := f.over_key y
  rwa [kx, tx, mx, ky, ty, my]

theorem QueueBounded.append {q : List MasterFrame} (bounded : QueueBounded q) {f : MasterFrame} (room : q.length < 8)
    (fresh : ∀ g, g ∈ q → ¬ (g.kind = f.kind ∧ g.target = f.target ∧ g.mask = f.mask)) : QueueBounded (q ++ [f]) := by
  refine ⟨by rw [List.length_append]; exact room, List.pairwise_append.2 ⟨bounded.2, List.pairwise_singleton .., fun x queued y isF => ?_⟩⟩
  rw [List.mem_singleton.1 isF]
  exact fresh x queued

theorem Link.place_bounded {l : Link} (bounded : QueueBounded l.queue) (f : MasterFrame) :
    QueueBounded (l.place f).1.queue := by
  by_cases held : ∃ g, g ∈ l.queue ∧ g.kind = f.kind ∧ g.target = f.target ∧ g.mask = f.mask
  · rw [Link.place_replaces held]
    exact bounded.map_over f
  · have fresh : ∀ g, g ∈ l.queue → ¬ (g.kind = f.kind ∧ g.target = f.target ∧ g.mask = f.mask) :=
      fun g queued same => held ⟨g, queued, same⟩
    rcases Nat.lt_or_ge l.queue.length 8 with room | full
    · rw [Link.place_joins fresh room]
      exact bounded.append room fresh
    · by_cases tunes : ∃ g, g ∈ l.queue ∧ g.kind = .tune
      · rw [Link.place_displaces fresh full tunes]
        have sub := removeFirst_sublist (fun g : MasterFrame => g.kind == .tune) l.queue
        have shorter := removeFirst_length (p := fun g : MasterFrame => g.kind == .tune) (l := l.queue)
          (List.any_eq_true.2 (by simpa only [beq_iff_eq] using tunes))
        have : QueueBounded (removeFirst (fun g => g.kind == .tune) l.queue) :=
          ⟨Nat.le_trans sub.length_le bounded.1, bounded.2.sublist sub⟩
        exact this.append (by have := bounded.1; omega) fun g queued => fresh g (sub.subset queued)
      · rw [Link.place_drops fresh full fun g queued tune => tunes ⟨g, queued, tune⟩]
        exact bounded

/-! ## A frame handed on (R174) -/

section HandFrame
variable {s : State} {f : MasterFrame}

theorem State.handFrame_of_placed (placed : s.placing f ≠ .dropped) :
    s.handFrame f = { s with link := ((s.link.mirror f).place f).1 } := if_neg placed

theorem State.handFrame_of_dropped (dropped : s.placing f = .dropped) : s.handFrame f =
    State.notify { s with link := ((s.link.mirror f).place f).1 } (linkDropNotice f ((s.link.mirror f).place f).1.drops) :=
  if_pos dropped

end HandFrame

/-! ## LAMP and TEXT (R176, R196) -/

/-- The result value of a frame that is placed. -/
def Placing.number : Placing → Int
  | .joined => 0
  | .replaced => 1
  | _ => 2

section Requests
variable {c : Instr} {s : State} {n : Nat} {rest : List Nat} {code : Result} {f : MasterFrame}
  {due : Taken → Bool} {carry : Taken → State → Answer}
  (arm : ∀ s, exec c s = whenReady s (·.take due .none carry)) (mem : s.memoryOk) (head : s.headIs n rest)
  (hdue : due (takenAt s.ram n) = true)
  (carried : carry (takenAt s.ram n) (s.takeHead n rest) = (s.takeHead n rest).requestFrame f code)
include arm mem head hdue carried

/-- A request whose frame is placed. -/
theorem completes_of_placed (keeps : CarryKeeps carry) (placed : s.placing f ≠ .dropped) :
    completes c s (s.handFrame f) n rest code (.given (s.placing f).number) := by
  have placing : (s.takeHead n rest).placing f = s.placing f := rfl
  unfold State.requestFrame at carried
  rw [State.handFrame_of_placed (s := s.takeHead n rest) placed, placing] at carried
  rw [State.handFrame_of_placed placed]
  cases place : s.placing f with
  | dropped => exact absurd place placed
  | joined | replaced | displaced =>
    rw [place] at carried
    exact completes_blocks arm mem head hdue (BufferNeed.none_passes _) keeps carried

/-- A request whose frame is dropped. -/
theorem busy_of_dropped (dropped : s.placing f = .dropped) :
    ∃ u, exec c s = .next u ∧ u.requests.slots[n]? = some .done ∧ readLE u.ram (slotAddress n + 0x1C) 2 = 7 ∧
      u.link = (s.handFrame f).link ∧ u.report.noticeCount = s.report.noticeCount + 1 := by
  have placing : (s.takeHead n rest).placing f = .dropped := dropped
  unfold State.requestFrame at carried
  rw [placing] at carried
  obtain ⟨t, happens, blocks, answered⟩ := State.take_answersFrom head hdue (BufferNeed.none_passes _) carried
    ((takeHead_alike mem n rest s.tuner).handFrame f) (s.handFrame_rest f).2.1 ((s.takeHead n rest).handFrame_rest f).2.1
  obtain ⟨_, _, _, _, _, _, _, link, _⟩ := blocks
  obtain ⟨_, requests, _, report, _, result, _⟩ := answered
  refine ⟨t, (arm s).trans happens, ?_, result, link, ?_⟩
  · rw [requests]
    show ((s.handFrame f).requests.slots.set n .done)[n]? = _
    obtain ⟨_, _, _, posted, _⟩ := head
    rw [(s.handFrame_rest f).2.1, List.getElem?_set_self (List.getElem?_eq_some_iff.1 posted).1]
  · rw [report]
    show (s.handFrame f).report.noticeCount = _
    rw [State.handFrame_of_dropped dropped]
    rfl

end Requests

theorem addressOutside_iff (t : Taken) :
    addressOutside t = true ↔ t.arg0 < 0 ∨ 15 < t.arg0 ∨ t.arg1 < 0 ∨ 15 < t.arg1 := decide_eq_true_iff

section Carry
variable {t : Taken} (s : State)

theorem carryLamp_range (outside : addressOutside t = true) : carryLamp t s = s.answer .range .unstated := if_pos outside

theorem carryText_range (outside : addressOutside t = true) : carryText t s = s.answer .range .unstated := if_pos outside

variable (inside : ¬ addressOutside t = true)
include inside

theorem carryLamp_hands : carryLamp t s = s.requestFrame
    ⟨.lamp, t.arg0.toNat, t.arg1.toNat, lampPayload (argBits t.arg2 % 2 ^ 14) (argBits t.arg3 % 2 ^ 14)⟩ .ok := if_neg inside

theorem carryText_invalid (blank : textCharacters t = []) : carryText t s = s.answer .invalid .unstated := by
  rw [carryText, if_neg inside, if_pos blank]

theorem carryText_hands (written : textCharacters t ≠ []) : carryText t s = s.requestFrame
    ⟨.text, t.arg0.toNat, t.arg1.toNat, (textCharacters t).map textByte⟩
    (okCode ((textCharacters t).any fun c => textByte c != c)) := by
  rw [carryText, if_neg inside, if_neg written]

end Carry

/-- The payload of a LAMP in 7-bit bytes (11.5). -/
theorem lampPayload_arguments (a b : Nat) : lampPayload (a % 2 ^ 14) (b % 2 ^ 14) =
    [a / 128 ^ 0 % 128, a / 128 ^ 1 % 128, b / 128 ^ 0 % 128, b / 128 ^ 1 % 128] := by
  have low (v : Nat) : v % 2 ^ 14 % 128 = v / 128 ^ 0 % 128 := by omega
  have high (v : Nat) : v % 2 ^ 14 / 128 % 128 = v / 128 ^ 1 % 128 := by omega
  show [_, _, _, _] = _
  rw [low, high, low, high]

theorem textByte_changes (c : Nat) : (textByte c != c) = decide (c < 0x20 ∨ 0x7E < c) := by
  unfold textByte
  rw [Bool.eq_iff_iff, bne_iff_ne, decide_eq_true_iff]
  split <;> omega

end Sys2Proof.Machine

namespace Sys2Proof.Proofs
open Sys2Proof.Machine

/-- Settles O45: the refusals and the frames of LAMP and TEXT, by how the frame is placed; the placing by the queue. -/
theorem lampAndTextHandFrames : Obligations.LampAndTextHandFrames := by
  refine ⟨fun s n rest mem head => ?requests, fun s f => ?placing, fun _ _ => rfl⟩
  case requests =>
    intro t outside seven char text handed
    have outsideIff := addressOutside_iff t
    refine ⟨fun kind => ⟨fun isOut => ?lampRange, fun isIn => ?lamp⟩, fun kind =>
      ⟨fun isOut => ?textRange, fun isIn blank => ?blank, fun isIn written => ?text⟩⟩
    case lampRange =>
      exact completes_refused exec_lamp mem head (isKind_of_kind kind) (BufferNeed.none_passes _) carryLamp_keeps
        (carryLamp_range _ (outsideIff.2 isOut))
    case lamp =>
      have carried := carryLamp_hands (s.takeHead n rest) (mt outsideIff.1 isIn)
      rw [lampPayload_arguments] at carried
      exact ⟨completes_of_placed exec_lamp mem head (isKind_of_kind kind) carried carryLamp_keeps,
        busy_of_dropped exec_lamp mem head (isKind_of_kind kind) carried⟩
    case textRange =>
      exact completes_refused exec_text mem head (isKind_of_kind kind) (BufferNeed.none_passes _) carryText_keeps
        (carryText_range _ (outsideIff.2 isOut))
    case blank =>
      exact completes_refused exec_text mem head (isKind_of_kind kind) (BufferNeed.none_passes _) carryText_keeps
        (carryText_invalid _ (mt outsideIff.1 isIn) blank)
    case text =>
      have carried := carryText_hands (s.takeHead n rest) (mt outsideIff.1 isIn) written
      simp only [textByte_changes] at carried
      exact ⟨completes_of_placed exec_text mem head (isKind_of_kind kind) carried carryText_keeps,
        busy_of_dropped exec_text mem head (isKind_of_kind kind) carried⟩
  case placing =>
    intro l l' same bounded
    obtain ⟨queue, drops⟩ := l.mirror_rest f
    have isLink : l' = ((l.mirror f).place f).1 := (s.handFrame_rest f).1
    have isPlacing : s.placing f = ((l.mirror f).place f).2 := rfl
    have noticed : s.placing f = .dropped → _ := State.handFrame_of_dropped
    rw [← isLink] at noticed
    refine ⟨fun held => ?replaced, fun fresh => ⟨fun room => ?joined, fun full => ⟨fun before g after split tune others =>
      ?displaced, fun others => ?dropped⟩⟩, fun isBounded => ?bounded, ?lamps, ?texts, rfl, rfl⟩
    case replaced =>
      rw [← queue] at held
      rw [isLink, isPlacing, Link.place_replaces held]
      exact ⟨rfl, congrArg (List.map f.over) queue⟩
    case joined =>
      rw [← queue] at fresh room
      rw [isLink, isPlacing, Link.place_joins fresh room]
      exact ⟨rfl, congrArg (· ++ [f]) queue⟩
    case displaced =>
      rw [← queue] at fresh full split
      have removed := removeFirst_of_first (p := fun x : MasterFrame => x.kind == .tune) (after := after)
        (beq_iff_eq.2 tune) fun x earlier => beq_eq_false_iff_ne.2 (others x earlier)
      rw [isLink, isPlacing, Link.place_displaces fresh full ⟨g, by rw [split]; simp, tune⟩, split, removed]
      exact ⟨rfl, rfl⟩
    case dropped =>
      rw [← queue] at fresh full others
      have drop := Link.place_drops fresh full others
      have isDropped : s.placing f = .dropped := isPlacing.trans (congrArg Prod.snd drop)
      have isL : l' = _ := isLink.trans (congrArg Prod.fst drop)
      have dropsOf : l'.drops = min 65535 (l.drops + 1) := by rw [isL]; exact congrArg (fun k => min 65535 (k + 1)) drops
      refine ⟨isDropped, by rw [isL]; exact queue, dropsOf, ?_⟩
      rw [noticed isDropped, dropsOf]
      rfl
    case bounded =>
      rw [isLink]
      exact Link.place_bounded (l := l.mirror f) (queue ▸ isBounded) f
    case lamps => rw [isLink, ((l.mirror f).place_mirrors f).1, l.mirror_lamps]
    case texts => rw [isLink, ((l.mirror f).place_mirrors f).2, l.mirror_texts]

end Sys2Proof.Proofs
end

section
/-! SUPPORT. The turns of the Stage Link: which entry is polled next, and what each turn sends (R165, R174, R178). -/

namespace Sys2Proof.Machine

/-! ## The entries that a cycle polls (R165) -/

/-- A cycle with this counter polls entry i. -/
def Link.polls (l : Link) (cycle i : Nat) : Prop :=
  ∃ u, l.units[i]? = some u ∧ (u.state = .joining ∨ u.state = .present ∨ u.state = .lost ∧ cycle = 0)

/-- The test by which `Link.nextPolled` finds an entry. -/
def Link.pollTest (l : Link) (cycle position i : Nat) : Bool :=
  l.units[i]?.any fun u => decide (position ≤ i) && u.polled cycle

section NextPolled
variable (l : Link) (cycle position : Nat)

theorem UnitEntry.polled_iff (u : UnitEntry) :
    u.polled cycle = true ↔ u.state = .joining ∨ u.state = .present ∨ u.state = .lost ∧ cycle = 0 := by
  simp [UnitEntry.polled, or_assoc]

theorem Link.pollTest_iff (i : Nat) : l.pollTest cycle position i = true ↔ position ≤ i ∧ l.polls cycle i := by
  unfold Link.pollTest Link.polls
  simp only [← UnitEntry.polled_iff]
  cases l.units[i]? <;> simp

theorem Link.pollTest_eq_false (i : Nat) : (!l.pollTest cycle position i) = true ↔ (position ≤ i → ¬ l.polls cycle i) := by
  rw [Bool.not_eq_true', ← Bool.not_eq_true, l.pollTest_iff, not_and]

theorem Link.nextPolled_eq :
    l.nextPolled cycle position = (List.range l.units.length).find? (l.pollTest cycle position) := by
  unfold Link.nextPolled Link.pollTest
  congr 1
  funext i
  cases l.units[i]? <;> rfl

theorem Link.polls.lt {l : Link} {cycle i : Nat} (polls : l.polls cycle i) : i < l.units.length := by
  obtain ⟨u, stands, _⟩ := polls
  exact (List.getElem?_eq_some_iff.1 stands).1

theorem Link.nextPolled_eq_some (e : Nat) : l.nextPolled cycle position = some e ↔
    position ≤ e ∧ l.polls cycle e ∧ ∀ i, position ≤ i → i < e → ¬ l.polls cycle i := by
  rw [l.nextPolled_eq, List.find?_range_eq_some, l.pollTest_iff, List.mem_range]
  simp only [l.pollTest_eq_false]
  exact ⟨fun ⟨⟨after, polls⟩, _, first⟩ => ⟨after, polls, fun i after before => first i before after⟩,
    fun ⟨after, polls, first⟩ => ⟨⟨after, polls⟩, polls.lt, fun i before after => first i after before⟩⟩

theorem Link.nextPolled_eq_none : l.nextPolled cycle position = none ↔ ∀ i, position ≤ i → ¬ l.polls cycle i := by
  rw [l.nextPolled_eq, List.find?_eq_none]
  simp only [l.pollTest_iff, not_and]
  exact ⟨fun unpolled i after polls => unpolled i (List.mem_range.2 polls.lt) after polls, fun unpolled i _ => unpolled i⟩

end NextPolled

/-! ## The end of a turn, and the turn that comes next (R165) -/

section Turns
variable {l : Link}

theorem Link.endTurn_of_ended (ended : l.nextPolled l.cycle l.position = none) : l.endTurn =
    { l with phase := .between, cycle := (l.cycle + 1) % 16, position := 0, turnTaken := false } := by
  rw [Link.endTurn, ended]

theorem Link.endTurn_of_more {e : Nat} (more : l.nextPolled l.cycle l.position = some e) :
    l.endTurn = { l with phase := .between } := by rw [Link.endTurn, more]

theorem Link.upcoming_of_more {e : Nat} (more : l.nextPolled l.cycle l.position = some e) :
    l.upcoming = (l.cycle, some e) := by rw [Link.upcoming, more]

theorem Link.upcoming_of_taken (ended : l.nextPolled l.cycle l.position = none) (taken : l.turnTaken = true) :
    l.upcoming = ((l.cycle + 1) % 16, l.nextPolled ((l.cycle + 1) % 16) 0) := by
  rw [Link.upcoming, ended]
  exact if_pos taken

theorem Link.upcoming_of_untaken (ended : l.nextPolled l.cycle l.position = none) (untaken : l.turnTaken = false) :
    l.upcoming = (l.cycle, none) := by
  rw [Link.upcoming, ended]
  exact if_neg (by rw [untaken]; nofun)

/-- The next turn polls this entry: of this cycle, or of the next where this one has had a turn and polls no more. -/
theorem Link.upcoming_eq_some (cycle e : Nat) : l.upcoming = (cycle, some e) ↔
    (cycle = l.cycle ∧ l.nextPolled cycle l.position = some e) ∨
    (l.nextPolled l.cycle l.position = none ∧ l.turnTaken = true ∧ cycle = (l.cycle + 1) % 16 ∧
      l.nextPolled cycle 0 = some e) := by
  cases next : l.nextPolled l.cycle l.position with
  | some e' =>
    rw [Link.upcoming_of_more next, Prod.mk.injEq]
    constructor
    · rintro ⟨rfl, same⟩
      exact .inl ⟨rfl, next.trans same⟩
    · rintro (⟨rfl, same⟩ | ⟨impossible, _⟩)
      · exact ⟨rfl, next.symm.trans same⟩
      · cases impossible
  | none =>
    have other : ¬ (cycle = l.cycle ∧ l.nextPolled cycle l.position = some e) := by
      rintro ⟨rfl, more⟩
      cases next.symm.trans more
    cases taken : l.turnTaken with
    | true =>
      rw [Link.upcoming_of_taken next taken, Prod.mk.injEq, or_iff_right other]
      constructor
      · rintro ⟨rfl, same⟩
        exact ⟨rfl, rfl, rfl, same⟩
      · rintro ⟨_, _, rfl, same⟩
        exact ⟨rfl, same⟩
    | false =>
      rw [Link.upcoming_of_untaken next taken, or_iff_right other]
      simp

/-- The next turn has no poll: the cycle polls none, or the next one does not. -/
theorem Link.upcoming_eq_none (cycle : Nat) : l.upcoming = (cycle, none) ↔
    l.nextPolled l.cycle l.position = none ∧ (l.turnTaken = false ∧ cycle = l.cycle ∨
      l.turnTaken = true ∧ cycle = (l.cycle + 1) % 16 ∧ l.nextPolled cycle 0 = none) := by
  cases next : l.nextPolled l.cycle l.position with
  | some e => rw [Link.upcoming_of_more next]; simp
  | none =>
    cases taken : l.turnTaken with
    | true =>
      rw [Link.upcoming_of_taken next taken, Prod.mk.injEq]
      constructor
      · rintro ⟨rfl, nothing⟩
        exact ⟨rfl, .inr ⟨rfl, rfl, nothing⟩⟩
      · rintro ⟨_, ⟨impossible, _⟩ | ⟨_, rfl, nothing⟩⟩
        · cases impossible
        · exact ⟨rfl, nothing⟩
    | false =>
      rw [Link.upcoming_of_untaken next taken]
      simp [eq_comm]

/-! ## What a turn sends (R165, R174, R178) -/

theorem Link.sendHead_of_none (nothing : l.queue = []) (count : Nat) :
    l.sendHead count = Link.endTurn { l with sent := [] } := by rw [Link.sendHead, nothing]

section Head
variable {f : MasterFrame} {rest : List MasterFrame} (queued : l.queue = f :: rest)
include queued

theorem Link.sendHead_first :
    l.sendHead 0 = { l with queue := rest, sent := [.frame f.bytes], phase := .queueStep 1 } := by
  rw [Link.sendHead, queued]
  rfl

theorem Link.sendHead_second {count : Nat} (sent : count ≠ 0) :
    l.sendHead count = Link.endTurn { l with queue := rest, sent := [.frame f.bytes] } := by
  rw [Link.sendHead, queued]
  exact if_neg sent

end Head

section Up
variable (up : l.enabled = true ∧ l.breakDue = false)
include up

theorem Link.poll_of_free {cycle e : Nat} {u : UnitEntry}
    (free : l.phase = .between ∨ (∃ n, l.phase = .queueStep n) ∧ l.queue = []) (next : l.upcoming = (cycle, some e))
    (stands : l.units[e]? = some u) : l.poll =
      { l with cycle := cycle, position := e + 1, turnTaken := true, phase := .window e false
               sent := [.frame (pollBytes u.number)] } := by
  have turnFree : l.turnFree = true := by
    unfold Link.turnFree
    obtain ⟨enabled, unbroken⟩ := up
    obtain between | ⟨⟨n, sending⟩, nothing⟩ := free
    · simp [enabled, unbroken, between]
    · simp [enabled, unbroken, sending, nothing]
  rw [Link.poll, if_pos turnFree, next]
  dsimp only
  rw [stands]
  rfl

theorem Link.queueSend_of_sending {n : Nat} (sending : l.phase = .queueStep n) : l.queueSend = l.sendHead n := by
  rw [Link.queueSend, up.1, up.2, sending]
  rfl

theorem Link.queueSend_of_between {cycle : Nat} (between : l.phase = .between) (next : l.upcoming = (cycle, none)) :
    l.queueSend = Link.sendHead { l with cycle := cycle, position := 8, turnTaken := true } 0 := by
  rw [Link.queueSend, up.1, up.2, between, next]
  rfl

end Up

theorem Link.sendBreak_of_due (due : l.breakDue = true) (between : l.phase = .between) : l.sendBreak =
    { l with breakDue := false, cycle := 0, position := 0, turnTaken := false, sent := [.lineBreak] } := by
  rw [Link.sendBreak, due, between]

end Turns

/-- A command that changes the link alone. -/
theorem exec_changes_link {c : Instr} {f : Link → Link} (arm : ∀ s, exec c s = whenReady s fun s => { s with link := f s.link })
    {s : State} (ready : s.port.ready = true) {l : Link} (changed : f s.link = l) :
    ∃ t, exec c s = .next t ∧ s.onlyBlocks { s with link := l } t := by
  rw [exec_of_ready (arm s) ready, changed]
  exact ⟨_, rfl, ⟨rfl, rfl, rfl, rfl, rfl, rfl, rfl, rfl, rfl⟩, rfl, rfl, rfl, rfl, rfl⟩

end Sys2Proof.Machine

namespace Sys2Proof.Proofs
open Sys2Proof.Machine

/-- Settles O46: each command of a turn by the phase of the line, the end of a turn, and the turn that comes next. -/
theorem linkSendsInItsTurn : Obligations.LinkSendsInItsTurn := by
  refine ⟨fun s ready => ?sends, fun l cycle => ?turns⟩
  case sends =>
    intro l up item
    have sends {x : Link} := exec_changes_link (l := x) exec_queueFrameSend ready
    refine ⟨fun e u cycle isUp free next stands =>
        exec_changes_link exec_pollTurn ready (Link.poll_of_free isUp free next stands),
      fun n isUp sending => ?sending, fun cycle isUp between next => ?between,
      fun due between => exec_changes_link exec_linkBreak ready (Link.sendBreak_of_due due between)⟩
    case sending =>
      have steps := Link.queueSend_of_sending isUp sending
      refine ⟨fun nothing => sends (steps.trans (Link.sendHead_of_none nothing n)), fun f rest queued => ?_⟩
      refine ⟨_, exec_of_ready (exec_queueFrameSend s) ready, fun first => ?_, fun second => ?_⟩
      · rw [steps, first, Link.sendHead_first queued]
        exact ⟨⟨rfl, rfl, rfl, rfl, rfl, rfl, rfl, rfl, rfl⟩, rfl, rfl, rfl, rfl, rfl⟩
      · rw [steps, Link.sendHead_second queued second]
        exact ⟨⟨rfl, rfl, rfl, rfl, rfl, rfl, rfl, rfl, rfl⟩, rfl, rfl, rfl, rfl, rfl⟩
    case between =>
      intro turn
      have steps := Link.queueSend_of_between isUp between next
      exact ⟨fun nothing => sends (steps.trans (Link.sendHead_of_none (l := turn) nothing 0)),
        fun f rest queued => sends (steps.trans (Link.sendHead_first (l := turn) queued))⟩
  case turns =>
    intro polled ended
    have endedIff : l.nextPolled l.cycle l.position = none ↔ ended := l.nextPolled_eq_none _ _
    refine ⟨fun isEnded => Link.endTurn_of_ended (endedIff.2 isEnded), fun more => ?more, fun e => ?some, ?none⟩
    case more =>
      obtain ⟨e, next⟩ := Option.ne_none_iff_exists'.1 (mt endedIff.1 more)
      exact Link.endTurn_of_more next
    case some =>
      rw [Link.upcoming_eq_some, endedIff, l.nextPolled_eq_some, l.nextPolled_eq_some]
      simp only [Nat.zero_le, true_and, forall_const]
      rfl
    case none =>
      rw [Link.upcoming_eq_none, endedIff, l.nextPolled_eq_none]
      simp only [Nat.zero_le, forall_const]
      rfl

end Sys2Proof.Proofs
end

section
/-! SUPPORT. Misses of the Stage Link (R164, R168, R170, R178). -/

namespace Sys2Proof.Machine

theorem Link.afterReply_eq (l : Link) : l.afterReply =
    { l with phase := if l.enabled = true ∧ l.breakDue = false then .queueStep 0 else .between } := by
  unfold Link.afterReply
  simp only [Bool.and_eq_true, Bool.not_eq_true']

section Miss
variable {u : UnitEntry} (e : Nat)

theorem UnitEntry.miss_of_absent (absent : u.state ≠ .present) : u.miss e = (u, []) := if_neg absent

theorem UnitEntry.miss_of_few (present : u.state = .present) (few : u.misses < 2) :
    u.miss e = ({ u with misses := u.misses + 1 }, []) := by
  rw [UnitEntry.miss, if_pos present, if_neg (by omega)]

theorem UnitEntry.miss_of_third (present : u.state = .present) (two : u.misses = 2) : u.miss e =
    ({ u with state := .lost, misses := 3, last := none, losses := min 65535 (u.losses + 1) },
      [⟨5, 4, u.number, [e, u.number, downBitmap u.last, (min 65535 (u.losses + 1) : Nat)]⟩]) := by
  rw [UnitEntry.miss, if_pos present, if_pos (by omega)]
  rfl

end Miss

section LinkMiss
variable {s : State} {e : Nat} {u : UnitEntry}

theorem State.linkMiss_discarded : s.linkMiss e true = { s with link := s.link.afterReply } := rfl

variable (stands : s.link.units[e]? = some u)
include stands

theorem State.linkMiss_counted : s.linkMiss e false = State.notifyAll
    { s with link := { s.link.afterReply with units := s.link.units.set e (u.miss e).1 } } (u.miss e).2 := by
  unfold State.linkMiss
  rw [if_neg nofun, stands]

theorem State.linkMiss_of_absent (absent : u.state ≠ .present) (d : Bool) :
    s.linkMiss e d = { s with link := s.link.afterReply } := by
  cases d with
  | true => rfl
  | false =>
    have same : s.link.units.set e u = s.link.units := by
      obtain ⟨inside, isU⟩ := List.getElem?_eq_some_iff.1 stands
      rw [← isU, List.set_getElem_self]
    rw [State.linkMiss_counted stands, UnitEntry.miss_of_absent e absent, same]
    rfl

end LinkMiss

/-- The two commands of a miss. -/
theorem exec_miss {s : State} {c : Instr} {e : Nat} {d : Bool} (ready : s.port.ready = true)
    (missed : (c = .replyWindowExpiry ∧ s.link.phase = .window e d) ∨
      (c = .interByteTimeout ∧ ∃ bytes, s.link.phase = .assembling e d bytes)) : exec c s = .next (s.linkMiss e d) := by
  obtain ⟨rfl, window⟩ | ⟨rfl, bytes, assembling⟩ := missed
  · rw [exec_of_ready (exec_replyWindowExpiry s) ready, State.windowExpiry, window]
  · rw [exec_of_ready (exec_interByteTimeout s) ready, State.interByteTimeout, assembling]

end Sys2Proof.Machine

namespace Sys2Proof.Proofs
open Sys2Proof.Machine

/-- Settles O47: a discarded reply, a miss of a PRESENT entry, and the third one in a row with its notice. -/
theorem missesLoseUnits : Obligations.MissesLoseUnits := by
  intro s c e d u mem ready missed stands line counted lost
  have happens := exec_miss ready missed
  have after : s.link.afterReply = line := s.link.afterReply_eq
  refine ⟨fun harmless => ?harmless, fun counts present few => ?few, fun counts present two => ?third⟩
  case harmless =>
    have steps : s.linkMiss e d = { s with link := line } := by
      rw [← after]
      obtain discarded | absent := harmless
      · rw [discarded, State.linkMiss_discarded]
      · exact State.linkMiss_of_absent stands absent d
    rw [happens, steps]
    exact ⟨_, rfl, .refl _, rfl, rfl, rfl, rfl, rfl⟩
  case few =>
    rw [happens, counts, State.linkMiss_counted stands, UnitEntry.miss_of_few e present few, after]
    exact ⟨_, rfl, .refl _, rfl, rfl, rfl, rfl, rfl⟩
  case third =>
    rw [happens, counts, State.linkMiss_counted stands, UnitEntry.miss_of_third e present two, after]
    obtain ⟨count, kind, _, _, args⟩ := State.notify_reads (s := { s with link := { line with units := s.link.units.set e lost } })
      mem ⟨5, 4, u.number, [e, u.number, downBitmap u.last, (min 65535 (u.losses + 1) : Nat)]⟩
    have entry := args 0 (by decide)
    have number := args 1 (by decide)
    have losses := args 3 (by decide)
    refine ⟨_, rfl, rfl, rfl, ?_, ⟨count, kind, entry.trans ?_, number.trans ?_, losses.trans ?_⟩, rfl, rfl, rfl⟩
    · show (_ || _) = true
      simp [Signals.causeNotice]
    · show ((e : Int) % 65536).toNat = _
      omega
    · show ((u.number : Int) % 65536).toNat = _
      omega
    · show (((min 65535 (u.losses + 1) : Nat) : Int) % 65536).toNat = _
      omega

end Sys2Proof.Proofs
end

section
/-! SUPPORT. A STATE that a unit sends, as its bytes arrive (R160, R161, R166, R167). -/

namespace Sys2Proof.Machine

/-- A payload that a unit can form: 14 switches, and at most four pedals of 10 bits (11.5). -/
structure StateFrame.formed (f : StateFrame) : Prop where
  switches : f.switches < 2 ^ 14
  pedals : f.pedals.length ≤ 4
  values : ∀ v, v ∈ f.pedals → v ≤ 1023

/-! ## The bytes of a STATE (11.5) -/

/-- The pedal values as they are sent. -/
def StateFrame.pedalBody (f : StateFrame) : List Nat := (f.pedals.map pedalBytes).flatten

/-- The bytes under the check of a STATE. -/
def StateFrame.body (unit : Nat) (f : StateFrame) : List Nat :=
  144 :: unit :: (3 + 2 * f.pedals.length) :: f.switches % 128 :: f.switches / 128 % 128 :: f.pedals.length :: f.pedalBody

theorem stateBytes_eq (unit : Nat) (f : StateFrame) : stateBytes unit f = withCheck (f.body unit) := rfl

theorem pedalBytes_length (pedals : List Nat) : (pedals.map pedalBytes).flatten.length = 2 * pedals.length := by
  induction pedals with
  | nil => rfl
  | cons v rest ih =>
    rw [List.map_cons, List.flatten_cons, List.length_append, ih, List.length_cons]
    show 2 + _ = _
    omega

theorem pedalValues_bytes {pedals : List Nat} (values : ∀ v, v ∈ pedals → v ≤ 1023) :
    pedalValues (pedals.map pedalBytes).flatten = pedals := by
  induction pedals with
  | nil => rfl
  | cons v rest ih =>
    rw [List.forall_mem_cons] at values
    obtain ⟨value, others⟩ := values
    show (v / 128 % 8 * 128 + v % 128) :: pedalValues (rest.map pedalBytes).flatten = _
    rw [ih others]
    congr 1
    omega

theorem withCheck_length (bytes : List Nat) : (withCheck bytes).length = bytes.length + 2 := by
  unfold withCheck
  rw [List.length_append]
  rfl

section Formed
variable {unit : Nat} {f : StateFrame}

theorem StateFrame.body_length (unit : Nat) (f : StateFrame) : (f.body unit).length = 6 + 2 * f.pedals.length := by
  have := pedalBytes_length f.pedals
  simp only [StateFrame.body, StateFrame.pedalBody, List.length_cons]
  omega

theorem stateBytes_length (unit : Nat) (f : StateFrame) : (stateBytes unit f).length = 8 + 2 * f.pedals.length := by
  rw [stateBytes_eq, withCheck_length, f.body_length]
  omega

variable (number : unit < 128) (formed : f.formed)
include number formed

theorem stateBytes_tail : ∀ b, b ∈ (stateBytes unit f).tail → b < 128 := by
  obtain ⟨first, second⟩ := checkSums_le (f.body unit)
  have few := formed.pedals
  have pedal : ∀ b, b ∈ f.pedalBody → b < 128 := by
    intro b inside
    obtain ⟨_, sent, inside⟩ := List.mem_flatten.1 inside
    obtain ⟨v, value, rfl⟩ := List.mem_map.1 sent
    have := formed.values v value
    obtain rfl | rfl : b = v / 128 ∨ b = v % 128 := by simpa [pedalBytes] using inside
    · omega
    · omega
  intro b inside
  have parts : b ∈ unit :: (3 + 2 * f.pedals.length) :: f.switches % 128 :: f.switches / 128 % 128 :: f.pedals.length ::
      (f.pedalBody ++ [(checkSums (f.body unit)).1, (checkSums (f.body unit)).2]) := inside
  simp only [List.mem_cons, List.mem_append, List.not_mem_nil, or_false] at parts
  rcases parts with rfl | rfl | rfl | rfl | rfl | inside | rfl | rfl
  · exact number
  · omega
  · omega
  · omega
  · omega
  · exact pedal b inside
  · omega
  · omega

theorem stateBytes_lt {b : Nat} (inside : b ∈ stateBytes unit f) : b < 256 := by
  have parts : b ∈ 144 :: (stateBytes unit f).tail := inside
  obtain rfl | tail := List.mem_cons.1 parts
  · decide
  · exact Nat.lt_trans (stateBytes_tail number formed b tail) (by decide)

omit number formed in
/-- The bytes of a STATE by place. -/
theorem stateBytes_getD : (stateBytes unit f).head? = some 144 ∧ (stateBytes unit f).getD 1 0 = unit ∧
    (stateBytes unit f).getD 2 0 = 3 + 2 * f.pedals.length ∧ (stateBytes unit f).getD 5 0 = f.pedals.length :=
  ⟨rfl, rfl, rfl, rfl⟩

/-! ## The verdict on a STATE as it arrives (R166) -/

/-- The bytes of a STATE up to any of them pass every test that their number allows. -/
theorem stateBytes_take {m : Nat} (some : 1 ≤ m) (within : m ≤ 8 + 2 * f.pedals.length) :
    let bytes := (stateBytes unit f).take m
    bytes.length = m ∧ ¬ bytes.tail.any (fun b => decide (128 ≤ b)) = true ∧ bytes.head? = .some 144 ∧
    ¬ (2 ≤ bytes.length ∧ bytes.getD 1 0 ≠ unit) ∧ ¬ malformedSoFar bytes = true ∧
    (3 ≤ m → bytes.getD 2 0 = 3 + 2 * f.pedals.length) := by
  intro bytes
  obtain ⟨head, source, len, count⟩ := stateBytes_getD (unit := unit) (f := f)
  have length : bytes.length = m := by
    rw [List.length_take, stateBytes_length]
    omega
  have place {i : Nat} (arrived : i < m) : bytes.getD i 0 = (stateBytes unit f).getD i 0 := by
    simp [bytes, List.getD_eq_getElem?_getD, arrived]
  have lenIs (arrived : 3 ≤ m) : bytes.getD 2 0 = 3 + 2 * f.pedals.length := (place arrived).trans len
  refine ⟨length, ?_, ?_, ?_, ?_, lenIs⟩
  · rw [List.any_eq_true]
    rintro ⟨b, inside, high⟩
    have sent : b ∈ (stateBytes unit f).tail := (List.take_sublist m _).tail.subset inside
    exact absurd (stateBytes_tail number formed b sent) (by simpa using high)
  · rw [List.head?_take, if_neg (by omega), head]
  · rw [length]
    exact fun ⟨arrived, other⟩ => other ((place arrived).trans source)
  · have few := formed.pedals
    unfold malformedSoFar
    rw [length, Bool.or_eq_true, Bool.and_eq_true, Bool.and_eq_true, decide_eq_true_iff, decide_eq_true_iff]
    rintro (⟨arrived, unknown⟩ | ⟨arrived, differs⟩)
    · rw [lenIs arrived] at unknown
      obtain none | one | two | three | four : f.pedals.length = 0 ∨ f.pedals.length = 1 ∨ f.pedals.length = 2 ∨
        f.pedals.length = 3 ∨ f.pedals.length = 4 := by omega
      all_goals simp_all
    · rw [lenIs (by omega), (place arrived).trans count] at differs
      exact absurd rfl (bne_iff_ne.1 differs)

theorem judgeReply_of_take {m : Nat} (some : 1 ≤ m) (more : m < 8 + 2 * f.pedals.length) :
    judgeReply unit ((stateBytes unit f).take m) = .incomplete := by
  obtain ⟨length, low, head, source, wellFormed, len⟩ := stateBytes_take number formed some (Nat.le_of_lt more)
  unfold judgeReply
  rw [if_neg low, if_neg (not_not_intro head), if_neg source, if_neg wellFormed, if_pos]
  rw [length]
  by_cases early : m < 3
  · exact .inl early
  · rw [len (by omega)]
    omega

omit number in
theorem stateFrame_of_body : stateFrame ((f.body unit).drop 3) = some f := by
  have switches := formed.switches
  have payload : (f.body unit).drop 3 = f.switches % 128 :: f.switches / 128 % 128 :: f.pedals.length :: f.pedalBody := rfl
  rw [payload, stateFrame, if_pos ⟨formed.pedals, pedalBytes_length f.pedals⟩]
  unfold StateFrame.pedalBody
  rw [pedalValues_bytes formed.values, show f.switches % 128 + 128 * (f.switches / 128 % 128) = f.switches by omega]

theorem judgeReply_of_state : judgeReply unit (stateBytes unit f) = .good f := by
  have whole : (stateBytes unit f).take (8 + 2 * f.pedals.length) = stateBytes unit f :=
    List.take_of_length_le (Nat.le_of_eq (stateBytes_length unit f))
  obtain ⟨length, low, head, source, wellFormed, len⟩ :=
    stateBytes_take number formed (m := 8 + 2 * f.pedals.length) (by omega) (Nat.le_refl _)
  rw [whole] at length low head source wellFormed len
  have frame : (stateBytes unit f).take (3 + (stateBytes unit f).getD 2 0) = f.body unit := by
    rw [len (by omega), stateBytes_eq, withCheck]
    exact List.take_left' ((f.body_length unit).trans (by omega))
  refine (judgeReply_good_iff unit _ f).2 ?_
  refine ⟨low, head, source, wellFormed, ?_, ?_, ?_⟩
  · rw [length, len (by omega)]
    omega
  · rw [frame]
    exact stateBytes_eq unit f
  · rw [frame]
    exact stateFrame_of_body formed

end Formed

/-! ## The bytes arrive one by one (R166) -/

/-- A byte as the line delivers it. -/
def rxByte (b : Nat) : RxByte := ⟨BitVec.ofNat 8 b, false⟩

theorem rxByte_value {b : Nat} (small : b < 256) : (rxByte b).value.toNat = b :=
  (BitVec.toNat_ofNat b 8).trans (Nat.mod_eq_of_lt small)

/-- The part with the line in this phase. -/
def State.withPhase (s : State) (p : LinePhase) : State := { s with link := { s.link with phase := p } }

/-- What the next byte comes to: the reply so far with it is judged. -/
theorem State.receiveByte_of_assembling (s : State) (e : Nat) (d : Bool) (bytes : List Nat) {b : Nat} (small : b < 256) :
    (s.withPhase (.assembling e d bytes)).receiveByte (rxByte b) =
      (s.withPhase (.assembling e d bytes)).judge e d (bytes ++ [b]) := by
  exact congrArg (fun value => (s.withPhase (.assembling e d bytes)).judge e d (bytes ++ [value])) (rxByte_value small)

theorem State.receiveByte_of_window {s : State} {e : Nat} {d : Bool} (window : s.link.phase = .window e d) {b : Nat}
    (small : b < 256) (isHead : 128 ≤ b) : s.receiveByte (rxByte b) = s.judge e d [b] := by
  unfold State.receiveByte
  rw [window]
  dsimp only
  rw [rxByte_value small, if_neg (by omega)]
  rfl

section Judge
variable {s : State} {e : Nat} {u : UnitEntry} (stands : s.link.units[e]? = some u)
include stands

theorem State.judge_of_incomplete (p : LinePhase) (d : Bool) {bytes : List Nat}
    (incomplete : judgeReply u.number bytes = .incomplete) :
    (s.withPhase p).judge e d bytes = s.withPhase (.assembling e d bytes) := by
  have stands' : (s.withPhase p).link.units[e]? = some u := stands
  unfold State.judge
  rw [stands']
  dsimp only
  rw [incomplete]
  rfl

omit stands in
theorem State.goodState_withPhase (s : State) (p : LinePhase) (e : Nat) (u : UnitEntry) (f : StateFrame) :
    (s.withPhase p).goodState e u f = s.goodState e u f := by
  unfold State.goodState
  split <;> rfl

theorem State.judge_of_good (p : LinePhase) {bytes : List Nat} {f : StateFrame}
    (good : judgeReply u.number bytes = .good f) : (s.withPhase p).judge e false bytes = s.goodState e u f := by
  have stands' : (s.withPhase p).link.units[e]? = some u := stands
  unfold State.judge
  rw [stands']
  dsimp only
  rw [good]
  exact s.goodState_withPhase p e u f

variable {f : StateFrame} (window : s.link.phase = .window e false) (number : u.number < 128) (formed : f.formed)
include window number formed

/-- After m bytes of a STATE they have been judged, in some phase of the line. -/
theorem State.receive_take {m : Nat} (within : m + 1 ≤ 8 + 2 * f.pedals.length) :
    ∃ p, s.receive (((stateBytes u.number f).take (m + 1)).map rxByte) =
      (s.withPhase p).judge e false ((stateBytes u.number f).take (m + 1)) := by
  induction m with
  | zero => exact ⟨s.link.phase, State.receiveByte_of_window window (by decide) (by decide)⟩
  | succ m ih =>
    obtain ⟨p, soFar⟩ := ih (by omega)
    have inside : m + 1 < (stateBytes u.number f).length := by rw [stateBytes_length]; omega
    have next := List.take_append_getElem inside
    refine ⟨.assembling e false ((stateBytes u.number f).take (m + 1)), ?_⟩
    rw [← next, List.map_append]
    unfold State.receive at soFar ⊢
    rw [List.foldl_append, soFar,
      State.judge_of_incomplete stands p false (judgeReply_of_take number formed (by omega) (by omega))]
    exact State.receiveByte_of_assembling s e false _ (stateBytes_lt number formed (List.getElem_mem _))

/-- A whole STATE is good. -/
theorem State.receive_state : s.receive ((stateBytes u.number f).map rxByte) = s.goodState e u f := by
  obtain ⟨p, received⟩ := State.receive_take stands window number formed (m := 7 + 2 * f.pedals.length) (by omega)
  rw [List.take_of_length_le (Nat.le_of_eq ((stateBytes_length u.number f).trans (by omega)))] at received
  exact received.trans (State.judge_of_good stands p (judgeReply_of_state number formed))

end Judge

end Sys2Proof.Machine
end

section
/-! SUPPORT. What a good STATE comes to: the switches and the pedals against the last state, the baseline, and the events
handed over (R142, R168 to R173). -/

namespace Sys2Proof.Machine

/-! ## One switch against its record (R171, R172) -/

section Switch
variable {hold : Nat} {time : Word} {r : SwitchRecord}

theorem switchChange_of_up (up : r.down = false) : switchChange hold time true r = (⟨true, true, time, false⟩, [.press]) ∧
    switchChange hold time false r = (.up, []) := by
  obtain ⟨down, claimed, pressTime, held⟩ := r
  cases up
  exact ⟨rfl, rfl⟩

theorem switchChange_of_unclaimed (down : r.down = true) (unclaimed : r.claimed = false) :
    switchChange hold time true r = (r, []) ∧ switchChange hold time false r = (.up, []) := by
  obtain ⟨isDown, claimed, pressTime, held⟩ := r
  cases down
  cases unclaimed
  exact ⟨rfl, rfl⟩

variable (down : r.down = true) (claimed : r.claimed = true)
include down claimed

theorem switchChange_of_kept : switchChange hold time true r =
    if r.hold = false ∧ hold ≤ (time - r.pressTime).toNat then ({ r with hold := true }, [.hold]) else (r, []) := by
  obtain ⟨isDown, isClaimed, pressTime, held⟩ := r
  cases down
  cases claimed
  simp [switchChange]

theorem switchChange_of_released : switchChange hold time false r =
    (.up, if r.hold then [.releaseAny] else [.releaseAny, .releaseShort]) := by
  obtain ⟨isDown, isClaimed, pressTime, held⟩ := r
  cases down
  cases claimed
  rfl

end Switch

/-! ## Lists by index -/

theorem mem_flatten_mapIdx {α β : Type} {l : List α} {g : Nat → α → List β} {y : β} :
    y ∈ (l.mapIdx g).flatten ↔ ∃ i x, l[i]? = some x ∧ y ∈ g i x := by
  rw [List.mem_flatten]
  constructor
  · rintro ⟨_, made, inside⟩
    obtain ⟨i, lt, rfl⟩ := List.mem_mapIdx.1 made
    exact ⟨i, l[i], List.getElem?_eq_getElem lt, inside⟩
  · rintro ⟨i, x, stands, inside⟩
    exact ⟨g i x, mem_mapIdx_of stands g, inside⟩

/-- What each index makes stands in the order of the indices. -/
theorem pairwise_flatten_mapIdx {α β : Type} (l : List α) {g : Nat → α → List β} {key : β → Nat}
    (keyed : ∀ i x y, y ∈ g i x → key y = i) (apart : ∀ i x, (g i x).Pairwise fun a b => key a < key b) :
    (l.mapIdx g).flatten.Pairwise fun a b => key a < key b := by
  rw [List.pairwise_flatten]
  constructor
  · intro made inside
    obtain ⟨i, lt, rfl⟩ := List.mem_mapIdx.1 inside
    exact apart _ _
  · rw [List.pairwise_iff_getElem]
    intro i j _ _ before a ha b hb
    rw [List.getElem_mapIdx] at ha hb
    rw [keyed _ _ _ ha, keyed _ _ _ hb]
    exact before

/-! ## The baseline (R169) -/

theorem StateFrame.shows_iff (f : StateFrame) (u : UnitEntry) (i : Nat) :
    f.shows u i = true ↔ i < u.switchCount ∧ f.switches.testBit i = true := by
  simp [StateFrame.shows, bitOf]

theorem StateFrame.shows_eq (f : StateFrame) (u : UnitEntry) (i : Nat) :
    f.shows u i = decide (i < u.switchCount ∧ f.switches.testBit i = true) :=
  Bool.eq_iff_iff.2 ((f.shows_iff u i).trans decide_eq_true_iff.symm)

theorem baseline_switch (f : StateFrame) (u : UnitEntry) {i : Nat} (inside : i < 14) : (baseline f u).switches[i]? =
    some (if i < u.switchCount ∧ f.switches.testBit i = true then ⟨true, false, 0, false⟩ else .up) := by
  unfold baseline
  rw [List.getElem?_map, List.getElem?_range inside]
  simp only [Option.map_some, f.shows_iff]

theorem baseline_pedal (f : StateFrame) (u : UnitEntry) {i : Nat} (inside : i < 4) : (baseline f u).pedals[i]? =
    some (if i < u.pedalCount then f.pedals.getD i 0 else 0) := by
  unfold baseline
  rw [List.getElem?_map, List.getElem?_range inside]
  rfl

/-! ## The changes of a good STATE (R171 to R173) -/

section Find
variable (l : Link) (u : UnitEntry) (last : LastState) (f : StateFrame)

/-- Pedal i has moved from the last reported value to this one. -/
def pedalMoves (i was v : Nat) : Prop :=
  i < u.pedalCount ∧ f.pedals[i]? = some v ∧ (l.deadband ≤ ((v : Int) - was).natAbs ∨ (v = 0 ∨ v = 1023) ∧ v ≠ was)

/-- One pedal against its last reported value: the value after, and whether it has moved. -/
def pedalStep (i was : Nat) : Nat × Bool :=
  (f.pedals[i]?.filter fun v => decide (i < u.pedalCount) && pedalMoved l.deadband v was).elim (was, false) (·, true)

/-- The events of pedal i after its step. -/
def pedalEvents (i : Nat) (step : Nat × Bool) : List ControlEvent :=
  if step.2 then [⟨u.number, i, .pedal, step.1, l.blockCount⟩] else []

theorem pedalMoved_iff (deadband v was : Nat) : pedalMoved deadband v was = true ↔
    deadband ≤ ((v : Int) - was).natAbs ∨ (v = 0 ∨ v = 1023) ∧ v ≠ was := by
  simp [pedalMoved]

variable {l u f}

theorem pedalStep_of_moves {i was v : Nat} (moves : pedalMoves l u f i was v) : pedalStep l u f i was = (v, true) := by
  obtain ⟨watched, sent, moved⟩ := moves
  have test : (decide (i < u.pedalCount) && pedalMoved l.deadband v was) = true :=
    Bool.and_eq_true_iff.2 ⟨decide_eq_true watched, (pedalMoved_iff ..).2 moved⟩
  rw [pedalStep, sent, Option.filter_some, if_pos test]
  rfl

theorem pedalStep_of_still {i was : Nat} (still : ∀ v, ¬ pedalMoves l u f i was v) :
    pedalStep l u f i was = (was, false) := by
  unfold pedalStep
  cases sent : f.pedals[i]? with
  | none => rfl
  | some v =>
    have test : ¬ (decide (i < u.pedalCount) && pedalMoved l.deadband v was) = true := fun holds => by
      obtain ⟨watched, moved⟩ := Bool.and_eq_true_iff.1 holds
      exact still v ⟨of_decide_eq_true watched, sent, (pedalMoved_iff ..).1 moved⟩
    rw [Option.filter_some, if_neg test]
    rfl

theorem mem_pedalEvents {i was : Nat} {x : ControlEvent} : x ∈ pedalEvents l u i (pedalStep l u f i was) ↔
    ∃ v, pedalMoves l u f i was v ∧ x = ⟨u.number, i, .pedal, v, l.blockCount⟩ := by
  by_cases moved : ∃ v, pedalMoves l u f i was v
  · obtain ⟨v, moves⟩ := moved
    rw [pedalStep_of_moves moves, pedalEvents, if_pos rfl, List.mem_singleton]
    refine ⟨fun isX => ⟨v, moves, isX⟩, fun ⟨w, moves', isX⟩ => ?_⟩
    rw [isX, Option.some.inj (moves'.2.1.symm.trans moves.2.1)]
  · have still : ∀ v, ¬ pedalMoves l u f i was v := fun v moves => moved ⟨v, moves⟩
    rw [pedalStep_of_still still, pedalEvents, if_neg nofun]
    exact ⟨nofun, fun ⟨v, moves, _⟩ => absurd moves (still v)⟩

variable (l u f)

theorem findEvents_eq : findEvents l u last f =
    (⟨last.switches.mapIdx fun i r => (switchChange (msToBlocks l.holdMs) l.blockCount (f.shows u i) r).1,
      last.pedals.mapIdx fun i was => (pedalStep l u f i was).1⟩,
    (last.switches.mapIdx fun i r => (switchChange (msToBlocks l.holdMs) l.blockCount (f.shows u i) r).2.map fun t =>
      (⟨u.number, i, t, 0, l.blockCount⟩ : ControlEvent)).flatten ++
    (last.pedals.mapIdx fun i was => pedalEvents l u i (pedalStep l u f i was)).flatten) := by
  have step (i was : Nat) : (match f.pedals[i]? with
      | some v => if decide (i < u.pedalCount) && pedalMoved l.deadband v was then (v, true) else (was, false)
      | none => (was, false)) = pedalStep l u f i was := by
    unfold pedalStep
    cases f.pedals[i]? with
    | none => rfl
    | some v =>
      rw [Option.filter_some]
      dsimp only
      split <;> rfl
  unfold findEvents pedalEvents
  simp only [← step, map_mapIdx, List.mapIdx_mapIdx, Function.comp_def] <;> rfl

end Find

/-! ## Events handed over one by one (R142, R143, R171) -/

theorem State.notifyAll_rest (s : State) (ns : List Notice) : (s.notifyAll ns).requests = s.requests ∧
    (s.notifyAll ns).engine = s.engine ∧ (s.notifyAll ns).link = s.link ∧ (s.notifyAll ns).mapper = s.mapper := by
  induction ns generalizing s with
  | nil => exact ⟨rfl, rfl, rfl, rfl⟩
  | cons n ns ih => exact ih (s.notify n)

theorem State.handEvents_cons (s : State) (e : ControlEvent) (es : List ControlEvent) : s.handEvents (e :: es) =
    (State.notifyAll { s with mapper := (s.mapper.arrive e).1 } (s.mapper.arrive e).2).handEvents es := rfl

theorem State.handEvents_rest (s : State) (es : List ControlEvent) : (s.handEvents es).requests = s.requests ∧
    (s.handEvents es).engine = s.engine ∧ (s.handEvents es).link = s.link ∧
    (s.handEvents es).mapper = es.foldl (fun m x => (m.arrive x).1) s.mapper := by
  induction es generalizing s with
  | nil => exact ⟨rfl, rfl, rfl, rfl⟩
  | cons e es ih =>
    obtain ⟨requests, engine, link, mapper⟩ := ih (State.notifyAll { s with mapper := (s.mapper.arrive e).1 } (s.mapper.arrive e).2)
    obtain ⟨requests', engine', link', mapper'⟩ :=
      State.notifyAll_rest { s with mapper := (s.mapper.arrive e).1 } (s.mapper.arrive e).2
    rw [State.handEvents_cons, requests, engine, link, mapper, requests', engine', link', mapper']
    exact ⟨rfl, rfl, rfl, rfl⟩

/-- Events that are no pedal's join the queue while there is room for them all. -/
theorem State.handEvents_joins {s : State} {es : List ControlEvent} (room : s.mapper.queue.length + es.length ≤ 16)
    (others : ∀ x, x ∈ es → x.trigger ≠ .pedal) :
    s.handEvents es = { s with mapper := { s.mapper with queue := s.mapper.queue ++ es } } := by
  induction es generalizing s with
  | nil => rw [List.append_nil]; rfl
  | cons e es ih =>
    rw [List.forall_mem_cons] at others
    obtain ⟨other, others⟩ := others
    rw [List.length_cons] at room
    have joins : s.mapper.arrive e = ({ s.mapper with queue := s.mapper.queue ++ [e] }, []) := by
      rw [Mapper.arrive_of_fresh fun x _ same => other same.1, if_pos (by omega)]
    rw [State.handEvents_cons, joins]
    refine (ih (s := { s with mapper := { s.mapper with queue := s.mapper.queue ++ [e] } }) ?_ others).trans ?_
    · show (s.mapper.queue ++ [e]).length + es.length ≤ 16
      rw [List.length_append, List.length_singleton]
      omega
    · show { s with mapper := { s.mapper with queue := s.mapper.queue ++ [e] ++ es } } = _
      rw [List.append_assoc]
      rfl

/-! ## What frames handed on leave of the link (R174, R175) -/

theorem Link.mirror_phase (l : Link) (f : MasterFrame) : (l.mirror f).phase = l.phase := by
  unfold Link.mirror
  split
  · split <;> rfl
  · rfl

theorem Link.place_phase (l : Link) (f : MasterFrame) : (l.place f).1.phase = l.phase := by
  unfold Link.place
  split
  · rfl
  · split
    · rfl
    · split <;> rfl

theorem State.handFrames_line (s : State) (fs : List MasterFrame) :
    (s.handFrames fs).link.units = s.link.units ∧ (s.handFrames fs).link.phase = s.link.phase := by
  unfold State.handFrames
  induction fs generalizing s with
  | nil => exact ⟨rfl, rfl⟩
  | cons f fs ih =>
    obtain ⟨units, phase⟩ := ih (s.handFrame f)
    rw [List.foldl_cons, units, phase, (s.handFrame_rest f).1]
    exact ⟨(Link.place_units _ f).trans (Link.mirror_units _ f), (Link.place_phase _ f).trans (Link.mirror_phase _ f)⟩

theorem Link.mirrorFrames_length (l : Link) (unit : Nat) : (l.mirrorFrames unit).length ≤ 2 := by
  unfold Link.mirrorFrames
  rw [List.length_append]
  have one {k : FrameKind} (p : Option (List Nat)) :
      (p.elim [] fun p => [(⟨k, unit, 15, p⟩ : MasterFrame)]).length ≤ 1 := by cases p <;> simp
  exact Nat.add_le_add (one _) (one _)

/-- A notice still stands after a few frames that are handed on behind it. -/
theorem State.noticeStands_handFrames {s : State} (mem : s.memoryOk) (n : Notice) {fs : List MasterFrame}
    (few : fs.length ≤ 31) : noticeStands ((s.notify n).handFrames fs).ram s.report.noticeCount n := by
  refine noticeStands_congr (fun a low high => ?_) (State.notify_reads mem n)
  have bounds := noticeAddress_bounds s.report.noticeCount.toNat
  exact State.handFrames_outside ((s.notify_keeps n).memory mem) fs (k := 0) (by omega) (c := s.report.noticeCount)
    ⟨0, Nat.le_refl _, (BitVec.add_zero _).symm⟩ (by omega) (.inr (.inr ⟨low, high⟩))

/-! ## A good STATE (R168, R169) -/

section GoodState
variable (s : State) (e : Nat) (u : UnitEntry) (f : StateFrame)

/-- An entry that becomes PRESENT: its baseline, with its unit's notice. -/
def State.joined : State := State.notify
  { s with link := { s.link.afterReply with
      units := s.link.units.set e { u with state := .present, misses := 0, last := some (baseline f u) } } }
  (unitUpNotice e u f)

/-- An entry that is PRESENT: its last state as the comparison leaves it. -/
def State.compared (last : LastState) : State :=
  { s with link := { s.link.afterReply with
      units := s.link.units.set e { u with misses := 0, last := some (findEvents s.link u last f).1 } } }

theorem State.goodState_rest : (s.goodState e u f).pending = s.pending ∧ (s.goodState e u f).requests = s.requests ∧
    (s.goodState e u f).engine = s.engine := by
  refine ⟨(s.goodState_keeps e u f).pending, ?_⟩
  unfold State.goodState
  split
  · exact ⟨rfl, rfl⟩
  · obtain ⟨requests, engine, _⟩ := State.handEvents_rest _ _
    exact ⟨requests, engine⟩
  · obtain ⟨_, _, engine, _⟩ := State.handFrames_blocks _ _
    exact ⟨State.handFrames_requests _ _, engine⟩

variable {u}

theorem State.goodState_of_new (absent : u.state = .joining ∨ u.state = .lost) :
    s.goodState e u f = (s.joined e u f).handFrames (s.link.mirrorFrames u.number) := by
  unfold State.goodState
  split
  next unused => rw [unused] at absent; exact absurd absent (by decide)
  next present _ => rw [present] at absent; exact absurd absent (by decide)
  next => rfl

theorem State.goodState_of_present {last : LastState} (present : u.state = .present) (isLast : u.last = some last) :
    s.goodState e u f = (s.compared e u f last).handEvents (findEvents s.link u last f).2 := by
  unfold State.goodState State.compared
  rw [present, isLast]

end GoodState

end Sys2Proof.Machine
end

section
/-! SUPPORT. Good STATE frames as the host sees them (R161, R166 to R173). -/

namespace Sys2Proof.Proofs
open Sys2Proof.Machine

/-- Settles O48: a STATE received whole, one switch by its record, the baseline, and the events of a comparison. -/
theorem goodStateIsReceived : Obligations.GoodStateIsReceived := by
  refine ⟨fun s e u f ready window stands number switches pedals values => ?received, fun hold time r => ?switch,
    fun f u => ?baseline, fun l u last f => ?events⟩
  case received =>
    intro l bytes line
    have received := State.receive_state stands window number ⟨switches, pedals, values⟩
    have after : s.link.afterReply = line := s.link.afterReply_eq
    obtain ⟨pending, requests, engine⟩ := s.goodState_rest e u f
    refine ⟨s.goodState e u f, (exec_of_ready (exec_stateReceive bytes s) ready).trans (congrArg _ received), pending, requests,
      engine, fun absent => ?joins, fun last present isLast => ?compares⟩
    case joins =>
      rw [State.goodState_of_new s e f absent]
      obtain ⟨units, phase⟩ := (s.joined e u f).handFrames_line (s.link.mirrorFrames u.number)
      obtain ⟨_, _, _, _, _, _, mapper, _, _⟩ := (s.joined e u f).handFrames_blocks (s.link.mirrorFrames u.number)
      refine ⟨units, mapper, phase.trans (congrArg (·.phase) after), ?_, fun mem => ⟨?_, ?_⟩⟩
      · refine State.handFrames_link ?_ _
        rw [units, ← after]
        rfl
      · refine ((s.joined e u f).handFrames_signal _).2 ?_
        show (_ || _) = true
        simp [Signals.causeNotice]
      · have origin : (boolInt (u.state == .lost) : Int) = if u.state = .lost then 1 else 0 := by
          simp only [boolInt, beq_iff_eq]
        rw [← origin]
        exact State.noticeStands_handFrames (s := { s with link := { s.link.afterReply with units := _ } }) mem _
          (Nat.le_trans (s.link.mirrorFrames_length u.number) (by decide))
    case compares =>
      intro r
      have compared : s.compared e u f last =
          { s with link := { line with units := s.link.units.set e { u with misses := 0, last := some r.1 } } } := by
        rw [← after]
        rfl
      obtain ⟨_, _, link, mapper⟩ := (s.compared e u f last).handEvents_rest r.2
      rw [State.goodState_of_present s e f present isLast]
      refine ⟨link.trans (congrArg (·.link) compared), mapper, ?_, fun none => ?_, fun free room others => ?_⟩
      · rw [link]
        rfl
      · rw [show (findEvents s.link u last f).2 = [] from none]
        exact ⟨.refl _, rfl, rfl, rfl, rfl, rfl⟩
      · have fits : s.mapper.queue.length + r.2.length ≤ 16 := by rw [free, List.length_nil, Nat.zero_add]; exact room
        rw [State.handEvents_joins (s := s.compared e u f last) (es := r.2) fits others]
        refine ⟨⟨rfl, rfl, rfl, rfl, rfl, rfl, ?_, rfl, rfl⟩, rfl, rfl, rfl, rfl, rfl⟩
        show { s.mapper with queue := s.mapper.queue ++ r.2 } = { s.mapper with queue := r.2 }
        rw [free]
        rfl
  case switch =>
    refine ⟨fun up => ?up, fun down unclaimed => switchChange_of_unclaimed down unclaimed, fun down claimed => ?claimed⟩
    case up =>
      obtain ⟨pressed, still⟩ := switchChange_of_up (hold := hold) (time := time) up
      exact ⟨pressed, congrArg Prod.snd still, congrArg (·.1.down) still⟩
    case claimed =>
      rw [switchChange_of_kept down claimed, switchChange_of_released down claimed]
      refine ⟨fun fresh long => if_pos ⟨fresh, long⟩, fun other => if_neg ?_, fun fresh => ?_, fun held => ?_⟩
      · rintro ⟨fresh, long⟩
        obtain held | short := other
        · cases fresh.symm.trans held
        · omega
      · rw [fresh]
        rfl
      · rw [held]
        rfl
  case baseline =>
    intro b
    exact ⟨by simp [b, Machine.baseline], by simp [b, Machine.baseline], fun i inside => baseline_switch f u inside,
      fun i inside => baseline_pedal f u inside⟩
  case events =>
    intro r hold change moves
    have found : r = _ := findEvents_eq l u last f
    simp only [StateFrame.shows_eq] at found
    rw [found]
    refine ⟨rfl, List.length_mapIdx .., fun i was stands => ⟨fun v moved => ?_, fun still => ?_⟩, _, rfl, ?_, fun x => ?_⟩
    · rw [List.getElem?_mapIdx, stands, Option.map_some, pedalStep_of_moves moved]
    · rw [List.getElem?_mapIdx, stands, Option.map_some, pedalStep_of_still still]
    · refine pairwise_flatten_mapIdx (key := ControlEvent.control) _ (fun i was x event => ?_) fun i was => ?_
      · obtain ⟨v, _, rfl⟩ := mem_pedalEvents.1 event
        rfl
      · unfold pedalEvents
        split
        · exact List.pairwise_singleton ..
        · exact List.Pairwise.nil
    · rw [mem_flatten_mapIdx]
      refine exists_congr fun i => exists_congr fun was => ?_
      rw [mem_pedalEvents, exists_and_left]
      rfl

end Sys2Proof.Proofs
end

section
/-! SUPPORT. The close of a readout period: the page that is written, and what its notices leave alone (R58, R63, R74, R193,
R194). -/

namespace Sys2Proof.Machine

/-! ## What notices leave alone (R192) -/

/-- A byte that no notice writes. -/
def outsideNotices (a : Nat) : Prop := (a < 0x440 ∨ 0x640 ≤ a) ∧ (a < 0x08 ∨ 0x0C ≤ a)

theorem State.notifyAll_readByte {s : State} (mem : s.memoryOk) (ns : List Notice) {a : Nat} (outside : outsideNotices a) :
    readByte (s.notifyAll ns).ram a = readByte s.ram a := by
  induction ns generalizing s with
  | nil => rfl
  | cons n ns ih =>
    have bounds := noticeAddress_bounds s.report.noticeCount.toNat
    exact (ih ((s.notify_keeps n).memory mem)).trans (State.notify_outside mem n (by have := outside.1; omega) outside.2)

theorem State.notifyAll_readLE {s : State} (mem : s.memoryOk) (ns : List Notice) {a n : Nat}
    (outside : ∀ j, a ≤ j → j < a + n → outsideNotices j) : readLE (s.notifyAll ns).ram a n = readLE s.ram a n :=
  readLE_congr fun j low high => State.notifyAll_readByte mem ns (outside j low high)

theorem State.notifyAll_report (s : State) (ns : List Notice) :
    (s.notifyAll ns).report.pageSelect = s.report.pageSelect ∧ (s.notifyAll ns).report.serial = s.report.serial ∧
    (s.notifyAll ns).report.periodCount = s.report.periodCount ∧
    (s.port.signal.page = true → (s.notifyAll ns).port.signal.page = true) ∧ (s.notifyAll ns).input = s.input ∧
    (s.notifyAll ns).router = s.router ∧ (s.notifyAll ns).transition = s.transition := by
  induction ns generalizing s with
  | nil => exact ⟨rfl, rfl, rfl, id, rfl, rfl, rfl⟩
  | cons n ns ih =>
    obtain ⟨select, serial, count, page, rest⟩ := ih (s.notify n)
    refine ⟨select, serial, count, fun set => page ?_, rest⟩
    show (_ || _) = true
    rw [set]
    rfl

/-! ## The page (R193, R194) -/

theorem pageAddress_cases (select : Bool) : pageAddress select = 0x800 ∨ pageAddress select = 0xC00 := by
  cases select
  · exact .inl rfl
  · exact .inr rfl

/-- Each of these fields ends within a page. -/
def fieldsWithin (fs : List Field) : Bool := fs.all fun f => decide (f.offset + f.size ≤ 0x400)

theorem fieldsWithin_iff {fs : List Field} : fieldsWithin fs = true ↔ ∀ f ∈ fs, decide (f.offset + f.size ≤ 0x400) = true :=
  List.all_eq_true

/-- A page holds all its fields. -/
theorem pageFields_within {s : State} (serial : Word) (named : (s.store.profiles.getD s.input.active .reset).name.length = 8)
    (eight : s.link.units.length = 8) {f : Field} (inside : f ∈ s.pageFields serial) : f.offset + f.size ≤ 0x400 := by
  unfold State.pageFields State.periodFields State.engineFields State.otherFields at inside
  generalize (s.store.profiles.getD s.input.active .reset).name = name at named inside
  generalize s.link.units = units at eight inside
  rw [← List.append_assoc, ← List.cons_append, List.mem_append] at inside
  obtain low | filler := inside
  · refine of_decide_eq_true (fieldsWithin_iff.1 ?_ f low)
    match name, named, units, eight with
    | [_, _, _, _, _, _, _, _], _, [_, _, _, _, _, _, _, _], _ => rfl
  · obtain ⟨i, small, rfl⟩ := List.mem_map.1 filler
    rw [List.mem_range] at small
    dsimp only
    omega

/-- The page, and then its select and its serial in the header. -/
def State.pageWritten (s : State) : Ram :=
  writeFields s.ram (pageAddress (!s.report.pageSelect)) (s.pageFields (s.report.serial + 1))

theorem State.publishPage_ram (s : State) : s.publishPage.ram =
    writeLE (writeLE s.pageWritten 0x0C (boolInt (!s.report.pageSelect)) 2) 0x10 (s.report.serial + 1).toNat 4 := by
  unfold State.publishPage State.raise State.pageWritten
  dsimp only

theorem State.pageWritten_wf {s : State} (mem : s.memoryOk) : Memory.wf s.pageWritten = true := wf_writeFields mem _ _

section Publish
variable {s : State} (mem : s.memoryOk) (named : (s.store.profiles.getD s.input.active .reset).name.length = 8)
  (eight : s.link.units.length = 8)
include mem named eight

/-- Each field of the published page reads its figure. -/
theorem State.publishPage_field {f : Field} (inside : f ∈ s.pageFields (s.report.serial + 1)) :
    readLE s.publishPage.ram (pageAddress (!s.report.pageSelect) + f.offset) f.size = (f.value % 256 ^ f.size).toNat := by
  have within := pageFields_within _ named eight inside
  have address := pageAddress_cases (!s.report.pageSelect)
  have written := State.pageWritten_wf mem
  rw [State.publishPage_ram, readLE_writeLE_outside (wf_writeLE written _ _ _) (by omega),
    readLE_writeLE_outside written (by omega)]
  exact readLE_writeFields_mem mem (pageFields_apart _ named eight) inside (by omega)

/-- Beyond the header and the page no byte changes. -/
theorem State.publishPage_outside {a : Nat} (beyond : 0x14 ≤ a)
    (outside : a < pageAddress (!s.report.pageSelect) ∨ pageAddress (!s.report.pageSelect) + 0x400 ≤ a) :
    readByte s.publishPage.ram a = readByte s.ram a := by
  have written := State.pageWritten_wf mem
  rw [State.publishPage_ram, readByte_writeLE_outside (wf_writeLE written _ _ _) (by omega),
    readByte_writeLE_outside written (by omega)]
  refine readByte_writeFields_outside mem fun f inside => ?_
  have := pageFields_within _ named eight inside
  omega

end Publish

theorem word_field (w : Word) : ((w.toNat : Int) % 256 ^ 4).toNat = w.toNat := by
  have := w.isLt
  omega

/-- The header names the page and its serial. -/
theorem State.publishPage_header {s : State} (mem : s.memoryOk) :
    readLE s.publishPage.ram 0x0C 2 = (if (!s.report.pageSelect) = true then 1 else 0) ∧
    readLE s.publishPage.ram 0x10 4 = (s.report.serial + 1).toNat := by
  have written := State.pageWritten_wf mem
  rw [State.publishPage_ram]
  constructor
  · rw [readLE_writeLE_outside (wf_writeLE written _ _ _) (by decide), readLE_writeLE_same written _ (by decide)]
    cases s.report.pageSelect <;> decide
  · rw [readLE_writeLE_same (wf_writeLE written _ _ _) _ (by decide), word_field]

/-! ## The close of a period (R58, R63, R74) -/

/-- The notices of a period's close. -/
def State.periodNotices (s : State) : List Notice :=
  (s.input.inputA.closePeriod 0).2 ++ (s.input.inputB.closePeriod 1).2 ++ (s.router.main.closePeriod 0).2 ++
    (s.router.stage.closePeriod 1).2 ++ (s.router.phones.closePeriod 2).2

/-- The part with its counts and peaks at 0. -/
def State.periodClosed (s : State) : State :=
  { s with
    input := { s.input with inputA := (s.input.inputA.closePeriod 0).1, inputB := (s.input.inputB.closePeriod 1).1 }
    router := { s.router with
      main := (s.router.main.closePeriod 0).1, stage := (s.router.stage.closePeriod 1).1
      phones := (s.router.phones.closePeriod 2).1, chain := .zero } }

theorem State.periodClosed_memory {s : State} (mem : s.memoryOk) : s.periodClosed.memoryOk := mem

theorem State.periodClosed_readByte (s : State) (a : Nat) : readByte s.periodClosed.ram a = readByte s.ram a := rfl

theorem State.periodClosed_readLE (s : State) (a n : Nat) : readLE s.periodClosed.ram a n = readLE s.ram a n := rfl

theorem State.pageWork_of_due {s : State} (due : 16 ≤ s.report.periodCount) :
    s.pageWork = s.publishPage.periodClosed.notifyAll s.publishPage.periodNotices := if_pos (decide_eq_true due)

theorem holdoffStep_of_quiet (holdoff unreported : Nat) :
    holdoffStep false holdoff unreported = (holdoff - 1, unreported, false) := rfl

theorem holdoffStep_of_ended {holdoff : Nat} (ended : holdoff ≤ 1) (unreported : Nat) :
    holdoffStep true holdoff unreported = (94, 0, true) := by
  have isOver : holdoff - 1 = 0 := by omega
  exact if_pos isOver

theorem holdoffStep_of_held {holdoff : Nat} (held : 1 < holdoff) (unreported : Nat) :
    holdoffStep true holdoff unreported = (holdoff - 1, min 65535 (unreported + 1), false) := by
  have more : ¬ holdoff - 1 = 0 := by omega
  exact if_neg more

theorem holdoffStep_le (eventful : Bool) {holdoff unreported : Nat} (low : holdoff ≤ 94) (few : unreported ≤ 65535) :
    (holdoffStep eventful holdoff unreported).1 ≤ 94 ∧ (holdoffStep eventful holdoff unreported).2.1 ≤ 65535 := by
  cases eventful with
  | false => exact ⟨by rw [holdoffStep_of_quiet]; dsimp only; omega, few⟩
  | true =>
    rcases Nat.lt_or_ge 1 holdoff with held | ended
    · rw [holdoffStep_of_held held]
      exact ⟨by dsimp only; omega, Nat.min_le_left ..⟩
    · rw [holdoffStep_of_ended ended]
      decide

end Sys2Proof.Machine

namespace Sys2Proof.Proofs
open Sys2Proof.Machine

/-- Settles O51: the page is read field by field, below the notices of the period's close; the holdoff by its cases. -/
theorem periodClosePublishesPage : Obligations.PeriodClosePublishesPage := by
  refine ⟨fun s yet mem tables => ?closes, fun eventful holdoff unreported => ?holdoff⟩
  case holdoff =>
    refine ⟨fun quiet => ?_, fun event ended => ?_, fun event held => ?_, holdoffStep_le eventful⟩
    · rw [quiet]
      exact holdoffStep_of_quiet ..
    · rw [event]
      exact holdoffStep_of_ended ended unreported
    · rw [event]
      exact holdoffStep_of_held held unreported
  case closes =>
    have happens := exec_event_of_due (s := s) (exec_readoutPeriodClose s) yet
    have memB := State.before_memory mem .page
    have tablesB := (s.before_keeps .page).tables tables
    generalize s.before .page = b at *
    intro b' select page due
    obtain ⟨names, eight⟩ := tablesB
    have named : (b.store.profiles.getD b.input.active .reset).name.length = 8 := by
      rw [List.getD_eq_getElem?_getD]
      cases stands : b.store.profiles[b.input.active]? with
      | none => rfl
      | some p => exact names p (List.mem_of_getElem? stands)
    have memP : b.publishPage.periodClosed.memoryOk :=
      State.periodClosed_memory (b.publishPage_keeps.memory memB)
    have isPage : page = pageAddress (!b.report.pageSelect) := rfl
    have address := pageAddress_cases (!b.report.pageSelect)
    rw [← isPage] at address
    have run := State.pageWork_of_due (s := b) due
    have high {a n : Nat} (beyond : page ≤ a) (j : Nat) (low : a ≤ j) (_ : j < a + n) : outsideNotices j := by
      unfold outsideNotices
      omega
    have field (f : Field) (inside : f ∈ b.pageFields (b.report.serial + 1)) :
        readLE b.pageWork.ram (page + f.offset) f.size = (f.value % 256 ^ f.size).toNat := by
      rw [run, State.notifyAll_readLE memP _ (high (Nat.le_add_right ..)), State.periodClosed_readLE]
      exact State.publishPage_field memB named eight inside
    have holds : pageHolds b.pageWork.ram page b := pageHolds_of (serial := b.report.serial + 1) field
    have figures := holds.1
    have chain {m : Meter} (shown : (metersShown b)[2]? = some m) := figures 2 m shown
    obtain ⟨selectIs, serialIs, countIs, pageSet, input, router, transition⟩ :=
      b.publishPage.periodClosed.notifyAll_report b.publishPage.periodNotices
    obtain ⟨requests, engine, _, _⟩ := b.publishPage.periodClosed.notifyAll_rest b.publishPage.periodNotices
    obtain ⟨header, headerSerial⟩ := State.publishPage_header memB
    rw [← run] at selectIs serialIs countIs pageSet input router transition requests engine
    refine ⟨_, happens (decide_eq_true due), selectIs, serialIs, countIs, pageSet ?signal, ?serial, ?header, ?headerSerial,
      fun k _ m shown => ?meters, b.meters_eq, holds, fun stopped => ?stopped, fun running => ?running,
      fun a low inside outside => ?outside, congrArg (·.inputA.crackles) input, congrArg (·.inputB.crackles) input,
      congrArg (·.inputA.meter) input, congrArg (·.main.left) router, congrArg (·.chain) router, engine, transition, requests⟩
    case signal => exact Bool.or_true _
    case serial =>
      exact (field ⟨0x000, 4, (b.report.serial + 1).toNat⟩ (List.mem_cons_self ..)).trans (word_field _)
    case meters =>
      rw [Nat.add_assoc page 4, Nat.add_assoc page 0xE]
      exact figures k m shown
    case header =>
      show readLE b.pageWork.ram 0x0C 2 = _
      rw [run, State.notifyAll_readLE memP _ fun j low high => ⟨by omega, by omega⟩, State.periodClosed_readLE]
      exact header
    case headerSerial =>
      show readLE b.pageWork.ram 0x10 4 = _
      rw [run, State.notifyAll_readLE memP _ fun j low high => ⟨by omega, by omega⟩, State.periodClosed_readLE]
      exact headerSerial
    case stopped =>
      have silent : (metersShown b)[2]? = some .zero := congrArg some (if_neg (by rw [stopped]; nofun))
      obtain ⟨peak, clips⟩ := chain silent
      exact ⟨peak.trans (by decide), clips⟩
    case running =>
      exact chain (m := b.router.chain) (congrArg some (if_pos running))
    case outside =>
      show readByte b.pageWork.ram a = _
      rw [run, State.notifyAll_readByte memP _ ⟨by omega, by omega⟩, State.periodClosed_readByte]
      exact State.publishPage_outside memB named eight (by omega) outside

end Sys2Proof.Proofs
end

section
/-! SUPPORT. The block that a block start closes: the banks and the tails mixed, the channels of a sink, and the chain input
(R10, R59 to R66, R68, R72, R126, R131, R139). -/

namespace Sys2Proof.Machine

/-! ## The banks, the tails and the CHAIN samples (R11, R126, R131, R139) -/

theorem Transition.runs_iff (t : Transition) (prev new : Nat) :
    t.runs prev new = true ↔ t.state = .fading ∨ 0 < prev ∨ 0 < new := by
  simp [Transition.runs, or_assoc]

theorem runBank_eq (store : Store) (t : Transition) (prev new : Nat) (stages : List Stage) (xs : List Int) :
    runBank store (t.runs prev new) prev new stages xs =
      if t.state = .fading ∨ 0 < prev ∨ 0 < new then runStages store prev new stages xs
      else (stages, xs.map (fun _ => 0), []) := by
  simp only [runBank, t.runs_iff]

theorem runBank_length (store : Store) (runs : Bool) (prev new : Nat) (stages : List Stage) (xs : List Int) :
    (runBank store runs prev new stages xs).2.1.length = xs.length := by
  unfold runBank
  split
  · exact runStages_length ..
  · exact List.length_map ..

theorem runTails_cons_wet (store : Store) (n : Nat) (t : Tail) (rest : List Tail) (i : Nat) :
    (runTails store n (t :: rest)).2.getD i 0 =
      (t.stage.run store 0 0 (List.replicate n 0)).2.2.getD i 0 + (runTails store n rest).2.getD i 0 :=
  addRuns_getD _ _ i

theorem getElem?_of_lt_length {xs : List Int} {i : Nat} (inside : i < xs.length) : xs[i]? = some (xs.getD i 0) := by
  rw [List.getD_eq_getElem?_getD, List.getElem?_eq_getElem inside]
  rfl

section ChainBlock
variable (store : Store) (e : Engine) (t : Transition) (xs : List Int)

/-- The run of LIVE in a block, and that of the other bank. -/
def liveRun : List Stage × List Int × List Int :=
  runBank store (t.runs t.liveWeight t.liveNew) t.liveWeight t.liveNew e.live.stages xs

def otherRun : List Stage × List Int × List Int :=
  runBank store (t.runs t.nextWeight t.nextNew) t.nextWeight t.nextNew e.other.stages xs

/-- The wet parts beside the bank mix. -/
def wetRun : List Int :=
  addRuns (addRuns (liveRun store e t xs).2.2 (otherRun store e t xs).2.2) (runTails store xs.length e.tails).2

theorem chainBlock_eq : chainBlock store e t xs =
    let sums := (addRuns (bankMix t 0 (liveRun store e t xs).2.1 (otherRun store e t xs).2.1) (wetRun store e t xs)).take
      xs.length
    ⟨(liveRun store e t xs).1, (otherRun store e t xs).1, (runTails store xs.length e.tails).1, sums,
      mapBlock (chainOf t) 0 sums⟩ := rfl

theorem bankMix_runs_length :
    (bankMix t 0 (liveRun store e t xs).2.1 (otherRun store e t xs).2.1).length = xs.length := by
  rw [bankMix_length, liveRun, otherRun, runBank_length, runBank_length, Nat.min_self]

theorem chainBlock_lengths :
    (chainBlock store e t xs).sums.length = xs.length ∧ (chainBlock store e t xs).chain.length = xs.length := by
  have sums : (chainBlock store e t xs).sums.length = xs.length := by
    rw [chainBlock_eq]
    dsimp only
    rw [List.length_take, addRuns_length, bankMix_runs_length]
    omega
  refine ⟨sums, ?_⟩
  rw [chainBlock_eq] at sums ⊢
  exact (mapBlock_length ..).trans sums

/-- One sum before saturation. -/
theorem chainBlock_sum {i : Nat} (inside : i < xs.length) {l n : Int} (live : (liveRun store e t xs).2.1[i]? = some l)
    (other : (otherRun store e t xs).2.1[i]? = some n) : (chainBlock store e t xs).sums[i]? = some
      ((l * weightAt t.liveWeight t.liveNew i + n * weightAt t.nextWeight t.nextNew i + 4096) / 8192 +
        (liveRun store e t xs).2.2.getD i 0 + (otherRun store e t xs).2.2.getD i 0 +
        (runTails store xs.length e.tails).2.getD i 0) := by
  have mix := bankMix_get t 0 _ _ i l n live other
  rw [Nat.zero_add] at mix
  have long : i < (addRuns (bankMix t 0 (liveRun store e t xs).2.1 (otherRun store e t xs).2.1)
      (wetRun store e t xs)).length := by
    rw [addRuns_length, bankMix_runs_length]
    omega
  rw [chainBlock_eq]
  dsimp only
  rw [List.getElem?_take_of_lt inside, getElem?_of_lt_length long, addRuns_getD, List.getD_eq_getElem?_getD, mix, wetRun,
    addRuns_getD, addRuns_getD, Option.getD_some, ← Int.add_assoc, ← Int.add_assoc]

/-- One CHAIN sample. -/
theorem chainBlock_chain {i : Nat} {sum : Int} (sums : (chainBlock store e t xs).sums[i]? = some sum) :
    (chainBlock store e t xs).chain[i]? = some ((saturate sum * rampAt t.startGainPrev t.startGain i + 128) / 256) := by
  have sample := mapBlock_get (chainOf t) 0 _ i sum sums
  rwa [Nat.zero_add] at sample

end ChainBlock

/-! ## The channels of a sink (R65, R66, R68, R72) -/

/-- The part of an entry in one channel. -/
def Sources.part (x : Sources) (e : RouteEntry) (side : Int) : Int :=
  if e.source = .off then 0 else (scale (x.of e.source) (levelGain e.level) * side + 64) / 128

/-- The muted sum of a route, and its unmuted one. -/
def mutedSum (bypass : Bool) (x : Sources) (side : RouteEntry → Int) (r : List RouteEntry) : Int :=
  (r.map fun e => if bypass = true ∧ e.source = .tone then 0 else x.part e (side e)).sum

def toneSum (bypass : Bool) (x : Sources) (side : RouteEntry → Int) (r : List RouteEntry) : Int :=
  (r.map fun e => if bypass = true ∧ e.source = .tone then x.part e (side e) else 0).sum

/-- The share of an entry in the two channels. -/
def leftSide (e : RouteEntry) : Int := 64 - e.pan

def rightSide (e : RouteEntry) : Int := 64 + e.pan

/-- A sum crossed to the route that comes in. -/
def Sink.crossed (k : Sink) (i : Nat) (f : List RouteEntry → Int) : Int :=
  k.fade.elim (f k.route) fun g => crossSum ((g.samples : Int) + i + 1) (f k.route) (f g.incoming)

/-- A channel's value before saturation. -/
def Sink.value (k : Sink) (bypass : Bool) (was mute : Nat) (side : RouteEntry → Int) (i : Nat) (x : Sources) : Int :=
  channelValue (rampAt was mute i) (k.crossed i (mutedSum bypass x side)) (k.crossed i (toneSum bypass x side))

/-- All four sums of a route, from these on. -/
theorem foldl_sums (bypass : Bool) (x : Sources) (route : List RouteEntry) (sums : Sums) :
    (withGains route).foldl (fun s e => s.add bypass x e) sums =
      ⟨sums.left + mutedSum bypass x leftSide route, sums.right + mutedSum bypass x rightSide route,
        sums.leftTone + toneSum bypass x leftSide route, sums.rightTone + toneSum bypass x rightSide route⟩ := by
  induction route generalizing sums with
  | nil => simp [withGains, mutedSum, toneSum]
  | cons e route ih =>
    have step : sums.add bypass x (e, levelGain e.level) =
        ⟨sums.left + mutedSum bypass x leftSide [e], sums.right + mutedSum bypass x rightSide [e],
          sums.leftTone + toneSum bypass x leftSide [e], sums.rightTone + toneSum bypass x rightSide [e]⟩ := by
      by_cases off : e.source = .off
      · simp [Sums.add, mutedSum, toneSum, Sources.part, off]
      · by_cases tone : bypass = true ∧ e.source = .tone
        · simp [Sums.add, mutedSum, toneSum, Sources.part, tone, leftSide, rightSide]
        · have untuned : (bypass && e.source == .tone) = false := by
            rw [← Bool.not_eq_true, Bool.and_eq_true, beq_iff_eq]
            exact tone
          simp [Sums.add, mutedSum, toneSum, Sources.part, off, tone, untuned, leftSide, rightSide]
    have split (f : RouteEntry → Int) : ((e :: route).map f).sum = ([e].map f).sum + (route.map f).sum := by simp
    refine (ih (sums.add bypass x (e, levelGain e.level))).trans ?_
    rw [step]
    simp only [mutedSum, toneSum, split, Int.add_assoc]

theorem routeSums_eq (bypass : Bool) (x : Sources) (route : List RouteEntry) : routeSums bypass x (withGains route) =
    ⟨mutedSum bypass x leftSide route, mutedSum bypass x rightSide route, toneSum bypass x leftSide route,
      toneSum bypass x rightSide route⟩ := by
  refine (foldl_sums bypass x route .zero).trans ?_
  simp only [Sums.zero, Int.zero_add]

section Block
variable (k : Sink) (bypass : Bool) (was mute : Nat) (src : List Sources)

theorem Sink.values_eq : k.values bypass was mute src = src.mapIdx fun i x =>
    (k.value bypass was mute leftSide i x, k.value bypass was mute rightSide i x) := by
  unfold Sink.values Sink.value Sink.crossed
  cases k.fade with
  | none => simp only [Option.map_none, Option.elim_none, routeSums_eq]
  | some g => simp only [Option.map_some, Option.elim_some, routeSums_eq, crossSums]

/-- The channel values of one side over a block. -/
def Sink.channel (side : RouteEntry → Int) : List Int := src.mapIdx (k.value bypass was mute side)

theorem Sink.values_left : (k.values bypass was mute src).map (·.1) = k.channel bypass was mute src leftSide := by
  rw [k.values_eq, map_mapIdx]
  rfl

theorem Sink.values_right : (k.values bypass was mute src).map (·.2) = k.channel bypass was mute src rightSide := by
  rw [k.values_eq, map_mapIdx]
  rfl

/-- A sink after a block: both its channels metered, and both delivered. -/
theorem Sink.block_eq : k.block bypass was mute src =
    ({ k.afterBlock with
        left := k.left.addValues (k.channel bypass was mute src leftSide)
        right := k.right.addValues (k.channel bypass was mute src rightSide) },
      ⟨(k.channel bypass was mute src leftSide).map saturate, (k.channel bypass was mute src rightSide).map saturate⟩) := by
  rw [← k.values_left, ← k.values_right, List.map_map, List.map_map]
  rfl

theorem Sink.channel_get {side : RouteEntry → Int} {i : Nat} {x : Sources} (stands : src[i]? = some x) :
    ((k.channel bypass was mute src side).map saturate)[i]? = some (saturate (k.value bypass was mute side i x)) := by
  rw [Sink.channel, List.getElem?_map, List.getElem?_mapIdx, stands]
  rfl

end Block

/-! ## The chain input (R59, R60) -/

section ChainInput
variable (s : InputSection) (a b : List Int)

theorem InputSection.chainInput_length : (s.chainInput a b).length = (InputId.samples a b s.selected).length :=
  mapBlock_length ..

variable {k : Nat} {x : Int} (stands : (InputId.samples a b s.selected)[k]? = some x)
include stands

theorem InputSection.chainInput_get : (s.chainInput a b)[k]? = some
    (chainSample s.trimFactor (levelGain s.trimCurrent) k
      ((s.crossFrom.map (InputId.samples a b)).map fun l => l.getD k 0) x) := by
  have sample := mapBlock_get (fun i x => chainSample s.trimFactor (levelGain s.trimCurrent) i
    ((s.crossFrom.map (InputId.samples a b)).map fun l => l.getD i 0) x) 0 _ k x stands
  rwa [Nat.zero_add] at sample

theorem InputSection.chainInput_of_settled (settled : s.crossFrom = none) : (s.chainInput a b)[k]? =
    some (scale x (rampAt s.trimFactor (levelGain s.trimCurrent) k)) := by
  rw [s.chainInput_get a b stands, settled]
  rfl

theorem InputSection.chainInput_of_crossing {left : InputId} {o : Int} (crossing : s.crossFrom = some left)
    (old : (InputId.samples a b left)[k]? = some o) : (s.chainInput a b)[k]? =
      let f := rampAt s.trimFactor (levelGain s.trimCurrent) k
      some (saturate (scale o f + ((scale x f - scale o f) * ((k : Int) + 1) + 16) / 32)) := by
  rw [s.chainInput_get a b stands, crossing]
  have sample : (InputId.samples a b left).getD k 0 = o := by rw [List.getD_eq_getElem?_getD, old]; rfl
  simp only [Option.map_some, sample]
  rfl

end ChainInput

/-! ## What the close of a block leaves (R10, R11, R62, R63, R126) -/

/-- The banks and the tails after a block. -/
def Engine.afterChain (e : Engine) (c : ChainBlock) : Engine :=
  { Engine.setOther (e.setLive { e.live with stages := c.live }) { e.other with stages := c.next } with tails := c.tails }

theorem Engine.afterChain_stages (e : Engine) (c : ChainBlock) :
    (e.afterChain c).live.stages = c.live ∧ (e.afterChain c).other.stages = c.next ∧ (e.afterChain c).tails = c.tails := by
  obtain ⟨live, other⟩ := Engine.setBoth_banks (e := e) (live := { e.live with stages := c.live })
    (other := { e.other with stages := c.next }) rfl (.inl rfl)
  exact ⟨congrArg Bank.stages live, congrArg Bank.stages other, rfl⟩

theorem State.closeWork_of_opened {s : State} (opened : s.grid.opened = true) :
    let c := s.chainOfBlock (s.input.chainInput s.grid.samplesA s.grid.samplesB)
    let router := s.router.block c.chain s.grid.samplesA s.grid.samplesB
    s.closeWork.engine = { s.engine.afterChain c with runNext := s.port.run } ∧
    s.closeWork.transition =
      { if s.engine.running then s.transition.afterBlock else s.transition with acted := false } ∧
    s.closeWork.input = { s.input.afterBlock with trimGoal := s.input.trimTarget } ∧
    s.closeWork.router = { router with chain := meterChain s.router.chain c.chain c.sums } := by
  unfold State.closeWork
  rw [if_pos opened]
  exact ⟨rfl, rfl, rfl, rfl⟩

theorem State.chainOfBlock_of_running {s : State} (running : s.engine.running = true) (xs : List Int) :
    s.chainOfBlock xs = chainBlock s.store s.engine s.transition xs := if_pos running

theorem State.chainOfBlock_of_stopped {s : State} (stopped : s.engine.running = false) (xs : List Int) :
    s.chainOfBlock xs = ⟨s.engine.live.stages, s.engine.other.stages, s.engine.tails, xs.map (fun _ => 0),
      xs.map (fun _ => 0)⟩ := if_neg (by rw [stopped]; nofun)

theorem State.chainOfBlock_length (s : State) (xs : List Int) : (s.chainOfBlock xs).chain.length = xs.length := by
  cases running : s.engine.running with
  | true => rw [State.chainOfBlock_of_running running, (chainBlock_lengths ..).2]
  | false => rw [State.chainOfBlock_of_stopped running]; exact List.length_map ..

/-- Silence leaves a meter as it is. -/
theorem meterChain_silence (m : Meter) (nonneg : 0 ≤ m.peak) (xs : List Int) :
    meterChain m (xs.map fun _ => 0) (xs.map fun _ => 0) = m := by
  induction xs with
  | nil => rfl
  | cons x xs ih =>
    have still : m.add 0 (saturate 0 != 0) = m := by
      unfold Meter.add
      have peak : max m.peak ((0 : Int).natAbs : Int) = m.peak := Int.max_eq_left nonneg
      rw [peak]
      rfl
    rw [List.map_cons, meterChain, still]
    exact ih

end Sys2Proof.Machine
end

section
/-! SUPPORT. The reference tone: its increment, its ramp and phase at a block start, and its samples (R70, R71). -/

namespace Sys2Proof.Machine

/-! ## The increment of a note (R71) -/

/-- The test that the increment is the last to pass. -/
def toneTest (reference note g : Nat) : Bool :=
  decide (((2 * g - 1) * 480000) ^ 12 * 2 ^ (69 - note) ≤ (2 * reference * 2 ^ 32) ^ 12 * 2 ^ (note - 69))

section Increment
variable {reference note : Nat}

theorem toneTest_iff {g : Nat} : toneTest reference note g = true ↔
    ((2 * g - 1) * 480000) ^ 12 * 2 ^ (69 - note) ≤ (2 * reference * 2 ^ 32) ^ 12 * 2 ^ (note - 69) := decide_eq_true_iff

theorem toneTest_of_le (m n : Nat) (le : m ≤ n) (passes : toneTest reference note n = true) :
    toneTest reference note m = true := by
  rw [toneTest_iff] at passes ⊢
  have smaller : ((2 * m - 1) * 480000) ^ 12 ≤ ((2 * n - 1) * 480000) ^ 12 :=
    Nat.pow_le_pow_left (Nat.mul_le_mul_right _ (by omega)) 12
  exact Nat.le_trans (Nat.mul_le_mul_right _ smaller) passes

variable (low : 28 ≤ note) (high : note ≤ 96)

include high in
/-- No increment needs more than the 32 bits searched. -/
theorem toneTest_beyond (below : reference ≤ 4800) : toneTest reference note (2 ^ 32) = false := by
  rw [← Bool.not_eq_true, toneTest_iff, Nat.not_le]
  calc (2 * reference * 2 ^ 32) ^ 12 * 2 ^ (note - 69)
      ≤ (2 * 4800 * 2 ^ 32) ^ 12 * 2 ^ 27 :=
        Nat.mul_le_mul (Nat.pow_le_pow_left (Nat.mul_le_mul_right _ (by omega)) 12) (Nat.pow_le_pow_right (by decide) (by omega))
    _ < ((2 * 2 ^ 32 - 1) * 480000) ^ 12 := by decide
    _ ≤ ((2 * 2 ^ 32 - 1) * 480000) ^ 12 * 2 ^ (69 - note) := Nat.le_mul_of_pos_right _ (Nat.pow_pos (by decide))

include low in
theorem toneTest_one (above : 4000 ≤ reference) : toneTest reference note 1 = true := by
  rw [toneTest_iff]
  calc ((2 * 1 - 1) * 480000) ^ 12 * 2 ^ (69 - note)
      ≤ ((2 * 1 - 1) * 480000) ^ 12 * 2 ^ 41 := Nat.mul_le_mul_left _ (Nat.pow_le_pow_right (by decide) (by omega))
    _ ≤ (2 * 4000 * 2 ^ 32) ^ 12 := by decide
    _ ≤ (2 * reference * 2 ^ 32) ^ 12 := Nat.pow_le_pow_left (Nat.mul_le_mul_right _ (by omega)) 12
    _ ≤ (2 * reference * 2 ^ 32) ^ 12 * 2 ^ (note - 69) := Nat.le_mul_of_pos_right _ (Nat.pow_pos (by decide))

include low high

theorem le_toneIncrement_iff (above : 4000 ≤ reference) (below : reference ≤ 4800) (n : Nat) :
    n ≤ toneIncrement reference note ↔ toneTest reference note n = true :=
  le_greatest_iff toneTest_of_le 32 0 n (toneTest_of_le 0 1 (by decide) (toneTest_one low above))
    (by rw [Nat.zero_add]; exact toneTest_beyond high below)

/-- (2g − 1)/2 ≤ (reference / 10) × 2^((note − 69)/12) × 2^32 / 48000 < (2g + 1)/2, in 12th powers. -/
theorem toneIncrement_bounds (above : 4000 ≤ reference) (below : reference ≤ 4800) :
    let g := toneIncrement reference note
    1 ≤ g ∧ ((2 * g - 1) * 480000) ^ 12 * 2 ^ (69 - note) ≤ (2 * reference * 2 ^ 32) ^ 12 * 2 ^ (note - 69) ∧
    (2 * reference * 2 ^ 32) ^ 12 * 2 ^ (note - 69) < ((2 * g + 1) * 480000) ^ 12 * 2 ^ (69 - note) := by
  intro g
  have reaches := le_toneIncrement_iff low high above below
  have next_fails := mt (reaches (g + 1)).2 (Nat.not_succ_le_self g)
  rw [toneTest_iff] at next_fails
  exact ⟨(reaches 1).2 (toneTest_one low above), toneTest_iff.1 ((reaches g).1 (Nat.le_refl _)), Nat.lt_of_not_le next_fails⟩

end Increment

/-! ## The tone at a block start (R70) -/

theorem Tuner.toneOn_iff (t : Tuner) : t.toneOn = true ↔ t.state ≠ .off ∧ t.toneNote ≠ 0 := by
  rw [Tuner.toneOn, Bool.and_eq_true, Tuner.isEngaged_iff, bne_iff_ne]

section AtBlockStart
variable {tone : Tone} {t : Tuner}

theorem Tone.atBlockStart_ramp {r : RampState} {on : Bool} (ramp : tone.ramp = r) (asked : t.toneOn = on) :
    (tone.atBlockStart t).ramp = r.next on := by rw [← ramp, ← asked]; rfl

theorem Tone.atBlockStart_phase_of_running (running : tone.ramp ≠ .off) : (tone.atBlockStart t).phase = tone.phase :=
  if_neg fun off => running off.1

theorem Tone.atBlockStart_phase_of_start (off : tone.ramp = .off) (asked : t.toneOn = true) :
    (tone.atBlockStart t).phase = 0 := if_pos ⟨off, Tone.atBlockStart_ramp off asked⟩

end AtBlockStart

/-! ## The samples of the tone (R70, R71) -/

/-- A sample of the TONE source from one of the oscillator. -/
def RampState.toned (ramp : RampState) (i : Nat) (s : Int) : Int :=
  if ramp = .on then s else (s * ramp.weight i + 16) / 32

/-- The oscillator's run over n samples. -/
def toneRun (ramp : RampState) (increment : Nat) (g : Int) (phase i n : Nat) : Nat × List Int :=
  overBlock (fun p i _ => toneSample ramp increment g p i) phase i (List.replicate n 0)

theorem Tone.block_eq (tone : Tone) (n : Nat) : tone.block n =
    ({ tone with phase := (toneRun tone.ramp tone.increment 6554 tone.phase 0 n).1 },
      (toneRun tone.ramp tone.increment 6554 tone.phase 0 n).2) := by
  rw [← levelGain_reference.2.2.2.2]
  rfl

theorem toneRun_length (ramp : RampState) (increment : Nat) (g : Int) (phase i n : Nat) :
    (toneRun ramp increment g phase i n).2.length = n := by
  unfold toneRun
  rw [overBlock_length, List.length_replicate]

theorem toneRun_of_off (increment : Nat) (g : Int) (phase i n : Nat) :
    toneRun .off increment g phase i n = (phase, List.replicate n 0) := by
  induction n generalizing i with
  | zero => rfl
  | succ n ih =>
    show (((toneRun .off increment g phase (i + 1) n).1, 0 :: (toneRun .off increment g phase (i + 1) n).2) : Nat × List Int) = _
    rw [ih]
    rfl

section Running
variable {ramp : RampState} (running : ramp ≠ .off) (increment : Nat) (g : Int)
include running

theorem toneRun_succ (phase i n : Nat) : toneRun ramp increment g phase i (n + 1) =
    ((toneRun ramp increment g ((phase + increment) % 2 ^ 32) (i + 1) n).1,
      ramp.toned i (scale (sineAt phase) g) ::
        (toneRun ramp increment g ((phase + increment) % 2 ^ 32) (i + 1) n).2) := by
  have sample : toneSample ramp increment g phase i =
      ((phase + increment) % 2 ^ 32, ramp.toned i (scale (sineAt phase) g)) := if_neg running
  unfold toneRun
  rw [List.replicate_succ, overBlock, sample]

theorem toneRun_phase {phase : Nat} (small : phase < 2 ^ 32) (i n : Nat) :
    (toneRun ramp increment g phase i n).1 = (phase + n * increment) % 2 ^ 32 := by
  induction n generalizing phase i with
  | zero => rw [Nat.zero_mul, Nat.add_zero, Nat.mod_eq_of_lt small]; rfl
  | succ n ih =>
    rw [toneRun_succ running]
    dsimp only
    rw [ih (Nat.mod_lt _ (by decide)), Nat.mod_add_mod, Nat.add_assoc, Nat.succ_mul, Nat.add_comm increment]

theorem toneRun_get {phase : Nat} (small : phase < 2 ^ 32) (i : Nat) {n k : Nat} (inside : k < n) :
    (toneRun ramp increment g phase i n).2[k]? =
      some (ramp.toned (i + k) (scale (sineAt ((phase + k * increment) % 2 ^ 32)) g)) := by
  induction n generalizing phase i k with
  | zero => cases inside
  | succ n ih =>
    rw [toneRun_succ running]
    cases k with
    | zero =>
      rw [Nat.zero_mul, Nat.add_zero phase, Nat.mod_eq_of_lt small]
      rfl
    | succ k =>
      rw [List.getElem?_cons_succ, ih (Nat.mod_lt _ (by decide)) _ (by omega), Nat.mod_add_mod, Nat.add_assoc phase,
        Nat.succ_mul, Nat.add_comm increment, Nat.add_assoc i, Nat.add_comm 1]

end Running

/-! ## The sine table (R71) -/

theorem sineTable_corners : sineTable 0 = 0 ∧ sineTable 64 = 8388607 ∧ sineTable 128 = 0 ∧ sineTable 192 = -8388607 := by
  decide +kernel

theorem sineTable_halves : ∀ j, j ≤ 64 → sineTable (128 - j) = sineTable j ∧ sineTable (128 + j) = -sineTable j := by
  decide +kernel

theorem sineTable_quarters :
    ∀ j, j < 64 → 1 ≤ j → sineTable (256 - j) = -sineTable j ∧ sineTable (j - 1) < sineTable j := by decide +kernel

theorem toneIncrement_concert : toneIncrement 4400 69 = 39370534 := by decide +kernel

end Sys2Proof.Machine
end

section
/-! SUPPORT. A whole block start (R5, R9). -/

namespace Sys2Proof.Proofs
open Sys2Proof.Machine

/-- Settles O54: the works in their order, the block that the first one closes, the tails, the chain, the sinks, the Router,
the chain input, and the reference tone. -/
theorem blockStartRunsWorksInOrder : Obligations.BlockStartRunsWorksInOrder := by
  refine ⟨fun s ready => ?works, fun s opened => ?closes, fun store n t rest => ?tails, fun store e tr xs => ?chain,
    fun k bypass was mute src => ?sink, fun _ _ _ _ => ⟨rfl, rfl, rfl, rfl⟩, fun i a b => ?input, fun tone t => ?tone,
    fun tone n small => ?samples, fun _ _ => rfl, ?sine⟩
  case works =>
    have keeps := runWorks_keeps (works.drop s.grid.done) (s.mark 0)
    exact ⟨s.blockStart, exec_of_ready (exec_blockStart s) ready, rfl, keeps.pending, keeps.queue, keeps.run, keeps.enables,
      rfl⟩
  case closes =>
    intro t chain tr
    obtain ⟨engine, transition, input, router⟩ := State.closeWork_of_opened opened
    have length := s.chainOfBlock_length chain
    have isT : t = s.closeWork := rfl
    rw [isT, engine, transition, input, router]
    obtain ⟨live, other, tails⟩ := s.engine.afterChain_stages (s.chainOfBlock chain)
    refine ⟨rfl, ?_, fun running => ?_, fun stopped => ?_⟩
    · show (s.router.tone.block (s.chainOfBlock chain).chain.length).1 = _
      rw [length]
    · rw [State.chainOfBlock_of_running running] at live other tails ⊢
      rw [if_pos running]
      obtain ⟨sums, samples⟩ := chainBlock_lengths s.store s.engine tr chain
      obtain ⟨clips, peak⟩ := meterChain_eq s.router.chain _ _ (samples.trans sums.symm)
      exact ⟨live, other, tails, rfl, rfl, clips, peak, rfl, rfl, rfl⟩
    · rw [State.chainOfBlock_of_stopped stopped] at live other tails ⊢
      rw [if_neg (by rw [stopped]; nofun)]
      exact ⟨live, other, tails, rfl, rfl, fun nonneg => meterChain_silence _ nonneg _, rfl, rfl⟩
  case tails => exact ⟨rfl, rfl, runTails_cons_wet store n t rest⟩
  case chain =>
    intro c bankRun live next tails
    have liveIs : liveRun store e tr xs = live := runBank_eq ..
    have nextIs : otherRun store e tr xs = next := runBank_eq ..
    obtain ⟨sums, samples⟩ := chainBlock_lengths store e tr xs
    refine ⟨congrArg Prod.fst liveIs, congrArg Prod.fst nextIs, rfl, sums, samples, fun i inside => ?_⟩
    have liveLength : live.2.1.length = xs.length := by rw [← liveIs]; exact runBank_length ..
    have nextLength : next.2.1.length = xs.length := by rw [← nextIs]; exact runBank_length ..
    have l := List.getElem?_eq_getElem (l := live.2.1) (i := i) (by omega)
    have n := List.getElem?_eq_getElem (l := next.2.1) (i := i) (by omega)
    have sum := chainBlock_sum store e tr xs inside (by rw [liveIs]; exact l) (by rw [nextIs]; exact n)
    have chain := chainBlock_chain store e tr xs sum
    rw [liveIs, nextIs] at sum chain
    exact ⟨_, _, l, n, sum, chain⟩
  case sink =>
    intro part muted unmuted crossed gain value left right clips r
    have crossedIs : crossed = k.crossed := by
      funext i f
      unfold Sink.crossed
      cases fade : k.fade <;> simp only [crossed, fade] <;> rfl
    have valueIs : value = k.value bypass was mute := by
      funext side i x
      show (crossed i (muted x side) * gain i + 128) / 256 + crossed i (unmuted x side) = _
      rw [crossedIs]
      rfl
    have isR : r = _ := k.block_eq bypass was mute src
    obtain ⟨leftClips, leftPeak⟩ := addValues_eq k.left (k.channel bypass was mute src leftSide)
    obtain ⟨rightClips, rightPeak⟩ := addValues_eq k.right (k.channel bypass was mute src rightSide)
    rw [isR]
    refine ⟨?_, ?_, fun i x stands => ?_, rfl, ?_, ?_, leftPeak, rightPeak⟩
    · exact (List.length_map ..).trans (List.length_mapIdx ..)
    · exact (List.length_map ..).trans (List.length_mapIdx ..)
    · rw [valueIs]
      exact ⟨k.channel_get bypass was mute src stands, k.channel_get bypass was mute src stands⟩
    · show _ = k.left.clips + ((src.mapIdx (value left)).filter _).length
      rw [valueIs]
      exact leftClips
    · show _ = k.right.clips + ((src.mapIdx (value right)).filter _).length
      rw [valueIs]
      exact rightClips
  case input =>
    intro side
    have sideIs : side = InputId.samples a b := by funext id; cases id <;> rfl
    rw [sideIs]
    exact ⟨i.chainInput_length a b, fun k x stands => ⟨i.chainInput_of_settled a b stands,
      fun left o crossing old => i.chainInput_of_crossing a b stands crossing old⟩⟩
  case tone =>
    intro asked n tone' g
    have on (is : asked) : t.toneOn = true := t.toneOn_iff.2 is
    have quiet (is : ¬ asked) : t.toneOn = false := Bool.eq_false_iff.2 (mt t.toneOn_iff.1 is)
    have next {r : RampState} {b : Bool} (ramp : tone.ramp = r) (asks : t.toneOn = b) : tone'.ramp = r.next b :=
      Tone.atBlockStart_ramp ramp asks
    refine ⟨fun r => ⟨fun is => ⟨next r (on is), Tone.atBlockStart_phase_of_start r (on is)⟩, fun is => next r (quiet is)⟩,
      fun r => ⟨fun is => next r (on is), fun is => next r (quiet is)⟩,
      fun r => ⟨fun is => next r (on is), fun is => next r (quiet is)⟩,
      fun r => ⟨fun is => next r (on is), fun is => next r (quiet is)⟩, Tone.atBlockStart_phase_of_running,
      fun zero => if_pos zero, fun low high above below => ?_⟩
    have increment : g = toneIncrement t.reference n := if_neg (by omega)
    rw [increment]
    exact toneIncrement_bounds low high above below
  case samples =>
    intro r
    have isR : r = _ := tone.block_eq n
    rw [isR]
    refine ⟨toneRun_length .., rfl, rfl, fun off => ?_, fun running => ⟨toneRun_phase running _ _ small 0 n, fun k inside => ?_⟩⟩
    · rw [off, toneRun_of_off]
      exact ⟨rfl, fun k inside => List.getElem?_replicate_of_lt inside⟩
    · have sample := toneRun_get running tone.increment 6554 small 0 inside
      rw [Nat.zero_add] at sample
      refine ⟨fun ramp => ?_, fun ramp => ?_, fun ramp => ?_⟩
      all_goals
        rw [ramp] at sample ⊢
        exact sample
  case sine =>
    obtain ⟨zero, quarter, half, threeQuarters⟩ := sineTable_corners
    exact ⟨zero, quarter, half, threeQuarters, sineTable_halves, fun j low high => sineTable_quarters j high low,
      toneIncrement_concert⟩

end Sys2Proof.Proofs
end

section
/-! SUPPORT. The arithmetic of the stage kinds on one sample, and the built-in curves (R28 to R33, R39 to R42). -/

namespace Sys2Proof.Machine

/-! ## COMP, the filter section and the CAB filter (R28 to R30) -/

section Comp
variable {params : List Int} {c gr : Int}

/-- The gain reduction that a COMP moves to. -/
def compGoal (params : List Int) (c : Int) : Int :=
  max 0 (params.getD 0 0 - c) - (20 * max 0 (params.getD 0 0 - c) + params.getD 1 0) / (2 * params.getD 1 0)

theorem compStep_eq : compStep params c gr =
    if gr < compGoal params c then min (compGoal params c) (gr + params.getD 2 0)
    else max (compGoal params c) (gr - params.getD 3 0) := by
  have tens (o : Int) : 2 * (o * 10) = 20 * o := by omega
  rw [compStep, roundHalfUp, tens]
  rfl

end Comp

theorem firSum_eq (used : Nat) (taps history : List Int) :
    firSum used taps history = ((List.range used).map fun k => taps.getD k 0 * history.getD k 0).sum := by
  induction used generalizing taps history with
  | zero => cases taps <;> cases history <;> rfl
  | succ n ih =>
    rw [List.range_succ_eq_map, List.map_cons, List.map_map, List.sum_cons]
    cases taps with
    | nil => simp [firSum, Function.comp_def, List.map_const', List.sum_replicate_int]
    | cons h taps =>
      cases history with
      | nil => simp [firSum, Function.comp_def, List.map_const', List.sum_replicate_int]
      | cons x history =>
        rw [firSum, ih]
        rfl

/-! ## The mix (R32) -/

theorem mixed_eq (m x wet : Int) :
    mixed m x wet = max (-8388608) (min 8388607 (x - (x * m + 50) / 100 + (wet * m + 50) / 100)) := rfl

theorem mixed_dry {x : Int} (low : -8388608 ≤ x) (high : x ≤ 8388607) (wet : Int) : mixed 0 x wet = x := by
  rw [mixed_eq]
  omega

theorem mixed_wet {wet : Int} (low : -8388608 ≤ wet) (high : wet ≤ 8388607) (x : Int) : mixed 100 x wet = wet := by
  rw [mixed_eq]
  omega

/-! ## Lines (R18, R31, R33) -/

section Line
variable {line : List (Nat × Int)} (wf : sparseWfFrom (fun _ => 0) 0 line = true)
include wf

theorem lineRead_lineWrite_same (i : Nat) (v : Int) : lineRead (lineWrite line i v) i = v :=
  (sparseRead_write wf).trans (if_pos rfl)

theorem lineRead_lineWrite_other {i j : Nat} (other : j ≠ i) (v : Int) :
    lineRead (lineWrite line i v) j = lineRead line j := (sparseRead_write wf).trans (if_neg other)

end Line

/-- The place after one in a line. -/
theorem linePlace_next {length : Int} (positive : 0 < length) (position : Nat) :
    ((((position : Int) + 1) % length).toNat : Int) = ((position : Int) + 1) % length :=
  Int.toNat_of_nonneg (Int.emod_nonneg _ (by omega))

/-! ## The shaper (R39, R40) -/

/-- A value between two points lies between them. -/
theorem interpolated_between (p q : Int) {f : Int} (low : 0 ≤ f) (high : f < 65536) :
    min p q ≤ p + ((q - p) * f + 32768) / 65536 ∧ p + ((q - p) * f + 32768) / 65536 ≤ max p q := by
  rcases Int.le_total p q with rising | falling
  · have above : 0 ≤ (q - p) * f := Int.mul_nonneg (by omega) low
    have below : (q - p) * f ≤ (q - p) * 65535 := Int.mul_le_mul_of_nonneg_left (by omega) (by omega)
    omega
  · have above : 0 ≤ (p - q) * f := Int.mul_nonneg (by omega) low
    have below : (p - q) * f ≤ (p - q) * 65535 := Int.mul_le_mul_of_nonneg_left (by omega) (by omega)
    have turned : (q - p) * f = -((p - q) * f) := by rw [← Int.neg_mul, Int.neg_sub]
    omega

theorem shape_eq (point : Nat → Int) {y : Int} (low : -8388608 ≤ y) :
    let k := ((y + 8388608) / 65536).toNat
    shape point y = point k + ((point (k + 1) - point k) * ((y + 8388608) % 65536) + 32768) / 65536 := by
  have place : (y + 8388608).toNat / 65536 = ((y + 8388608) / 65536).toNat := by omega
  have fraction : (((y + 8388608).toNat % 65536 : Nat) : Int) = (y + 8388608) % 65536 := by omega
  unfold shape
  dsimp only
  rw [place, fraction]

/-! ## The built-in curves (R42) -/

theorem roundHalfUp_lt {a b c d : Int} (hb : 0 < b) (hd : 0 < d) (apart : (a + b) * d ≤ c * b) :
    roundHalfUp a b < roundHalfUp c d := by
  have low : (2 * a + b) / (2 * b) * (2 * b) ≤ 2 * a + b := Int.ediv_mul_le _ (by omega)
  have scaled := Int.mul_le_mul_of_nonneg_right low (Int.le_of_lt hd)
  show (2 * a + b) / (2 * b) < (2 * c + d) / (2 * d)
  refine (Int.le_ediv_iff_mul_le (by omega)).2 (Int.le_of_mul_le_mul_right ?_ hb)
  calc ((2 * a + b) / (2 * b) + 1) * (2 * d) * b
      = (2 * a + b) / (2 * b) * (2 * b) * d + 2 * (d * b) := by grind
    _ ≤ (2 * a + b) * d + 2 * (d * b) := Int.add_le_add_right scaled _
    _ = 2 * ((a + b) * d) + d * b := by grind
    _ ≤ 2 * (c * b) + d * b := by omega
    _ = (2 * c + d) * b := by grind

/-- The magnitude of a curve at a distance from its middle point. -/
def curveMagnitude (n d : Nat) : Int := roundHalfUp (8388607 * (shapeFraction n d).1) (shapeFraction n d).2

section Curve
variable {n : Nat}

theorem builtInPoint_above (d : Nat) : builtInPoint n (128 + d) = curveMagnitude n d := by
  have above : 128 ≤ 128 + d := Nat.le_add_right ..
  unfold builtInPoint curveMagnitude
  simp only [if_pos above, Nat.add_sub_cancel_left]

theorem curveMagnitude_zero : curveMagnitude n 0 = 0 := by
  have below : 16 * 0 ≤ 128 * (15 - n) := by omega
  rw [curveMagnitude, shapeFraction, if_pos below]
  rfl

theorem builtInPoint_below {d : Nat} (inside : d ≤ 128) : builtInPoint n (128 - d) = -curveMagnitude n d := by
  rcases Nat.eq_zero_or_pos d with rfl | positive
  · rw [Nat.sub_zero, curveMagnitude_zero]
    exact (builtInPoint_above 0).trans curveMagnitude_zero
  · have below : ¬ 128 ≤ 128 - d := by omega
    have distance : 128 - (128 - d) = d := by omega
    unfold builtInPoint curveMagnitude
    simp only [if_neg below, distance]

/-- The shape below the knee, and above it; at the knee both give the same. -/
theorem shapeFraction_below {d : Nat} (below : d ≤ 8 * (15 - n)) : shapeFraction n d = ((d : Int), 128) :=
  if_pos (by omega)

theorem shapeFraction_above {d : Nat} (above : 8 * (15 - n) < d) :
    shapeFraction n d = (1024 * ((n : Int) + 1) - (128 - d) * (128 - d), 1024 * ((n : Int) + 1)) := if_neg (by omega)

theorem curveMagnitude_lt (low : n ≤ 15) {d : Nat} (inside : d < 128) : curveMagnitude n d < curveMagnitude n (d + 1) := by
  unfold curveMagnitude
  have bound : 1024 * ((n : Int) + 1) ≤ 16384 := by omega
  rcases Nat.lt_or_ge (8 * (15 - n)) d with above | below
  · rw [shapeFraction_above above, shapeFraction_above (by omega)]
    refine roundHalfUp_lt (by omega) (by omega) (Int.mul_le_mul_of_nonneg_right ?_ (by omega))
    have step : ((128 : Int) - (d : Nat)) * (128 - (d : Nat)) - (128 - ((d + 1 : Nat) : Int)) * (128 - ((d + 1 : Nat) : Int)) =
        255 - 2 * d := by
      push_cast
      grind
    omega
  · rw [shapeFraction_below below]
    rcases Nat.lt_or_ge (8 * (15 - n)) (d + 1) with knee | more
    · have isKnee : (d : Int) = 8 * (15 - n) := by omega
      rw [shapeFraction_above knee]
      refine roundHalfUp_lt (by omega) (by omega) ?_
      push_cast
      rw [isKnee]
      grind
    · rw [shapeFraction_below more]
      exact roundHalfUp_lt (b := 128) (d := 128) (by decide) (by decide) (by push_cast; omega)

theorem curveMagnitude_end (low : n ≤ 15) : curveMagnitude n 128 = 8388607 := by
  rw [curveMagnitude, shapeFraction_above (by omega)]
  have positive : 0 < 2 * (1024 * ((n : Int) + 1)) := by omega
  show (2 * (8388607 * (1024 * ((n : Int) + 1) - (128 - (128 : Nat)) * (128 - (128 : Nat)))) + 1024 * ((n : Int) + 1)) /
    (2 * (1024 * ((n : Int) + 1))) = _
  rw [show 2 * (8388607 * (1024 * ((n : Int) + 1) - (128 - (128 : Nat)) * (128 - (128 : Nat)))) + 1024 * ((n : Int) + 1) =
    1024 * ((n : Int) + 1) + 8388607 * (2 * (1024 * ((n : Int) + 1))) by push_cast; grind,
    Int.add_mul_ediv_right _ _ (Int.ne_of_gt positive), Int.ediv_eq_zero_of_lt (by omega) (by omega), Int.zero_add]

/-- A curve is odd about its middle point, rises at every point, and ends at full scale. -/
theorem builtInPoint_spec (low : n ≤ 15) {k : Nat} (inside : k ≤ 256) :
    builtInPoint n (256 - k) = -builtInPoint n k ∧ (k < 256 → builtInPoint n k < builtInPoint n (k + 1)) ∧
    builtInPoint n 256 = 8388607 := by
  have last : builtInPoint n 256 = 8388607 := (builtInPoint_above 128).trans (curveMagnitude_end low)
  rcases Nat.lt_or_ge k 128 with below | above
  · obtain ⟨d, short, rfl⟩ : ∃ d, d < 128 ∧ k = 128 - (d + 1) := ⟨127 - k, by omega, by omega⟩
    refine ⟨?_, fun _ => ?_, last⟩
    · rw [show 256 - (128 - (d + 1)) = 128 + (d + 1) by omega, builtInPoint_above, builtInPoint_below short, Int.neg_neg]
    · rw [show 128 - (d + 1) + 1 = 128 - d by omega, builtInPoint_below short, builtInPoint_below (Nat.le_of_lt short)]
      exact Int.neg_lt_neg (curveMagnitude_lt low short)
  · obtain ⟨d, rfl⟩ : ∃ d, k = 128 + d := ⟨k - 128, by omega⟩
    refine ⟨?_, fun more => ?_, last⟩
    · rw [show 256 - (128 + d) = 128 - d by omega, builtInPoint_above, builtInPoint_below (by omega)]
    · rw [Nat.add_assoc, builtInPoint_above, builtInPoint_above]
      exact curveMagnitude_lt low (by omega)

end Curve

theorem builtInPoint_reference : builtInPoint 8 16 = -8155590 ∧ builtInPoint 8 184 = 3670016 ∧
    builtInPoint 8 219 = 7142513 ∧ builtInPoint 8 220 = 7208959 ∧ builtInPoint 8 255 = 8387697 := by decide +kernel

end Sys2Proof.Machine
end

section
/-! SUPPORT. One sample of a MOD, a position over a block, and each kind over a block (R11, R13, R16, R31, R130). -/

namespace Sys2Proof.Machine

/-! ## One sample of a MOD (R31) -/

section Mod
variable (params : List Int) (st : ModState) (x : Int)

/-- The triangle of a phase. -/
def triangleOf (phase : Int) : Int := if phase < 2147483648 then phase / 32768 else (4294967295 - phase) / 32768

theorem triangle_eq {phase : Nat} (small : phase < 2 ^ 32) : triangle phase = triangleOf phase := by
  unfold triangle triangleOf
  rcases Nat.lt_or_ge phase 2147483648 with rising | falling
  · rw [if_pos (by omega), if_pos (by omega)]
    omega
  · rw [if_neg (by omega), if_neg (by omega)]
    omega

theorem triangleOf_bounds {phase : Nat} (small : phase < 2 ^ 32) :
    0 ≤ triangleOf phase ∧ triangleOf phase ≤ 65535 := by
  unfold triangleOf
  split <;> omega

/-- The sample written j samples ago, by place in the line. -/
def ModState.ago (j : Int) : Int := lineRead st.line (((st.position : Int) - j) % 960).toNat

theorem ModState.back_eq (j : Nat) : st.back j = st.ago j := by
  unfold ModState.back ModState.ago
  congr 1
  omega

theorem modStep_phase (rate : 0 ≤ params.getD 1 0) : ((modStep params st x).1.phase : Int) =
    ((st.phase : Int) + (2 * (params.getD 1 0 * 4294967296) + 960000) / 1920000) % 4294967296 := by
  show (((st.phase + (roundHalfUp (params.getD 1 0 * 4294967296) 960000).toNat) % 2 ^ 32 : Nat) : Int) = _
  unfold roundHalfUp
  omega

/-- The read delay of a shape with this base and span, in 256ths of a sample. -/
def modDelay (base span : Int) : Int := 256 * base + params.getD 2 0 * span * triangleOf st.phase / 25600

/-- The sample read between two of the line. -/
def modRead (d : Int) : Int := st.ago (d / 256) + ((st.ago (d / 256 + 1) - st.ago (d / 256)) * (d % 256) + 128) / 256

variable {params st}

theorem modDelay_bounds (small : st.phase < 2 ^ 32) (low : 0 ≤ params.getD 2 0) (high : params.getD 2 0 ≤ 100)
    {base span : Int} (baseLow : 0 ≤ base) (spanLow : 0 < span) (reach : 256 * base + 256 * span ≤ 184320) :
    0 ≤ modDelay params st base span ∧ modDelay params st base span < 184320 := by
  obtain ⟨triLow, triHigh⟩ := triangleOf_bounds small
  have scaleLow : 0 ≤ params.getD 2 0 * span := Int.mul_nonneg low (Int.le_of_lt spanLow)
  have nonneg : 0 ≤ params.getD 2 0 * span * triangleOf st.phase := Int.mul_nonneg scaleLow triLow
  have depth : params.getD 2 0 * span ≤ 100 * span := Int.mul_le_mul_of_nonneg_right high (Int.le_of_lt spanLow)
  have bound : params.getD 2 0 * span * triangleOf st.phase ≤ 100 * span * 65535 :=
    Int.le_trans (Int.mul_le_mul_of_nonneg_left triHigh scaleLow) (Int.mul_le_mul_of_nonneg_right depth (by decide))
  unfold modDelay
  omega

variable {x}

/-- The line and the wet sample of a shape that reads the line. -/
theorem modStep_of_reading (small : st.phase < 2 ^ 32) (reads : params.getD 0 0 ≠ 3)
    (nonneg : 0 ≤ modDelay params st (modBase (params.getD 0 0)).1 (modBase (params.getD 0 0)).2) :
    let wet := modRead st (modDelay params st (modBase (params.getD 0 0)).1 (modBase (params.getD 0 0)).2)
    (modStep params st x).2 = mixed (params.getD 3 0) x wet ∧
    (modStep params st x).1.line = lineWrite st.line st.position
      (if params.getD 0 0 = 1 then saturate (x + scale wet (percentGain (params.getD 4 0))) else x) := by
  intro wet
  have read : modRead st (modDelay params st (modBase (params.getD 0 0)).1 (modBase (params.getD 0 0)).2) = wet := rfl
  unfold modDelay at nonneg read
  unfold modRead at read
  unfold modStep
  dsimp only
  rw [if_neg reads, if_neg reads, triangle_eq small, st.back_eq, st.back_eq]
  generalize 256 * (modBase (params.getD 0 0)).1 +
    params.getD 2 0 * (modBase (params.getD 0 0)).2 * triangleOf st.phase / 25600 = d at nonneg read ⊢
  have whole : ((d.toNat / 256 : Nat) : Int) = d / 256 := by omega
  have next : ((d.toNat / 256 + 1 : Nat) : Int) = d / 256 + 1 := by omega
  have fraction : ((d.toNat % 256 : Nat) : Int) = d % 256 := by omega
  rw [whole, next, fraction, read]
  refine ⟨rfl, ?_⟩
  split <;> rfl

/-- The fourth shape moves the level and leaves the line. -/
theorem modStep_of_tremolo (small : st.phase < 2 ^ 32) (tremolo : params.getD 0 0 = 3) :
    (modStep params st x).1.line = st.line ∧
    (modStep params st x).2 =
      mixed (params.getD 3 0) x (scale x (65536 - params.getD 2 0 * triangleOf st.phase / 100)) := by
  unfold modStep
  dsimp only
  rw [if_pos tremolo, if_pos tremolo, triangle_eq small]
  exact ⟨rfl, rfl⟩

end Mod

/-! ## A position over a block (R11, R13, R16) -/

section Run
variable {store : Store} {prev new : Nat} {st : Stage} {xs : List Int}

theorem Stage.processed_iff (st : Stage) : st.processed = true ↔
    st.placeholder = false ∧ st.kind ≠ .none ∧ (st.ramp ≠ .off ∨ st.tailMode = true) := by
  simp [Stage.processed, and_assoc]

theorem Stage.run_of_unprocessed (idle : ¬ st.processed = true) : st.run store prev new xs = (st, xs, []) := if_neg idle

theorem Stage.run_of_processed (processed : st.processed = true) : st.run store prev new xs =
    let p := kindBlock store st prev new xs
    ({ st with state := p.state, factors := factorsOf st.kind st.currents p.state },
      crossfadeBlock st.ramp 0 xs p.output, p.wet) := if_pos processed

theorem Stage.run_get (processed : st.processed = true) {i : Nat} {x y : Int} (input : xs[i]? = some x)
    (output : (kindBlock store st prev new xs).output[i]? = some y) :
    (st.run store prev new xs).2.1[i]? = some (crossfaded st.ramp i x y) := by
  rw [Stage.run_of_processed processed]
  have sample := crossfadeBlock_get st.ramp 0 xs _ i x y input output
  rwa [Nat.zero_add] at sample

end Run

/-! ## Each kind over a block (R16, R27 to R34, R36, R46, R130) -/

section Kinds
variable {store : Store} {prev new : Nat} {st : Stage} {xs : List Int}

/-- What a kind delivers whose samples are scaled by a ramped factor. -/
structure Scaled (st : Stage) (p : Processed) (xs : List Int) (j : Nat) (goal : Int) (ys : List Int) : Prop where
  wet : p.wet = []
  length : p.output.length = xs.length
  sample : ∀ (i : Nat) (y : Int), ys[i]? = some y →
    p.output[i]? = some (scale y (rampAt (st.factors.getD j 0) goal i))

theorem Scaled.of_rampScaled {state : KindState} {j : Nat} {goal : Int} {ys : List Int} (same : ys.length = xs.length) :
    Scaled st ⟨state, rampScaled (st.factors.getD j 0) goal ys, []⟩ xs j goal ys :=
  ⟨rfl, (mapBlock_length ..).trans same, fun i y stands => rampScaled_get _ _ ys i y stands⟩

theorem kindBlock_gate {g : GateState} {c h : Int} (kind : st.kind = .gate) (state : st.state = .gate g c h) :
    kindBlock store st prev new xs =
      let n := gateStep st.currents (peakCode (blockPeak xs)) g c h
      ⟨.gate n.1 n.2.1 n.2.2, rampScaled (st.factors.getD 0 0) (attenuation n.2.1) xs, []⟩ := by
  unfold kindBlock
  rw [kind, state]

theorem kindBlock_comp {gr : Int} (kind : st.kind = .comp) (state : st.state = .comp gr) :
    kindBlock store st prev new xs =
      let n := compStep st.currents (peakCode (blockPeak xs)) gr
      ⟨.comp n, rampScaled (st.factors.getD 0 0) (levelGain (st.current 4 - n)) xs, []⟩ := by
  unfold kindBlock
  rw [kind, state]

theorem kindBlock_amp {hs : List History} (kind : st.kind = .amp) (state : st.state = .sections hs) :
    kindBlock store st prev new xs =
      let n := overBlock (fun hs i x => ampStep store st (rampAt (st.factors.getD 0 0) (levelGain (st.current 0)) i) hs x)
        hs 0 xs
      ⟨.sections n.1, rampScaled (st.factors.getD 1 0) (attenuation (st.current 5)) n.2, []⟩ := by
  unfold kindBlock
  rw [kind, state]

theorem kindBlock_eq {hs : List History} (kind : st.kind = .eq) (state : st.state = .sections hs) :
    kindBlock store st prev new xs =
      let n := overBlock (fun hs _ x => runSections (sectionsUsed st) (filterInForce store (st.current 0)) hs x) hs 0 xs
      ⟨.sections n.1, rampScaled (st.factors.getD 0 0) (levelGain (st.current 2)) n.2, []⟩ := by
  unfold kindBlock
  rw [kind, state]

theorem kindBlock_cab {history : List Int} (kind : st.kind = .cab) (state : st.state = .cab history) :
    kindBlock store st prev new xs =
      let n := overBlock (fun h _ x => cabStep (tapsInForce store (st.current 0)) (st.current 1).toNat h x) history 0 xs
      ⟨.cab n.1, rampScaled (st.factors.getD 0 0) (levelGain (st.current 2)) n.2, []⟩ := by
  unfold kindBlock
  rw [kind, state]

theorem kindBlock_mod {line : List (Nat × Int)} {position phase : Nat} (kind : st.kind = .mod)
    (state : st.state = .mod line position phase) : kindBlock store st prev new xs =
      let n := overBlock (fun m _ x => modStep st.currents m x) ⟨line, position, phase⟩ 0 xs
      ⟨.mod n.1.line n.1.position n.1.phase, n.2, []⟩ := by
  unfold kindBlock
  rw [kind, state]

theorem kindBlock_delay {line : List (Nat × Int)} {position : Nat} (kind : st.kind = .delay)
    (state : st.state = .delay line position) :
    kindBlock store st prev new xs = delayBlock st prev new ⟨line, position⟩ xs := by
  unfold kindBlock
  rw [kind, state]

theorem kindBlock_vol (kind : st.kind = .vol) : kindBlock store st prev new xs =
    ⟨st.state, rampScaled (st.factors.getD 0 0) (attenuation (st.current 0)) xs, []⟩ := by
  unfold kindBlock
  rw [kind]

theorem sectionsUsed_amp (kind : st.kind = .amp) :
    sectionsUsed st = if st.current 3 = 255 then 0 else (st.current 4).toNat := by rw [sectionsUsed, kind]

theorem sectionsUsed_eq (kind : st.kind = .eq) : sectionsUsed st = (st.current 1).toNat := by rw [sectionsUsed, kind]

end Kinds

end Sys2Proof.Machine
end

section
/-! SUPPORT. The arithmetic of the stage kinds (R11, R13, R16, R27 to R34, R36 to R46, R130). -/

namespace Sys2Proof.Proofs
open Sys2Proof.Machine

/-- Settles O52: each step on one sample, a position over a block, and each kind over a block by its step. -/
theorem stageArithmeticFollowsItsRules : Obligations.StageArithmeticFollowsItsRules := by
  refine ⟨fun params c gr release => ?comp, fun _ _ _ => rfl, fun taps history used x => ?cab,
    fun m x wet xLow xHigh wetLow wetHigh => ⟨mixed_eq m x wet, mixed_dry xLow xHigh wet, mixed_wet wetLow wetHigh x⟩,
    fun params time st x wf lanes => ?delay, fun point y low high => ?shape, fun n k low inside => builtInPoint_spec low inside,
    builtInPoint_reference, fun params st x wf small rate depthLow depthHigh => ?mod, fun store prev new st xs => ?run,
    fun store prev new st xs => ?kinds, fun n c cs h hs x => ⟨?noSections, rfl⟩, fun _ _ _ _ _ => ⟨rfl, rfl⟩⟩
  case comp =>
    intro o r
    have steps : compStep params c gr = if gr < r then min r (gr + params.getD 2 0) else max r (gr - params.getD 3 0) :=
      compStep_eq
    refine ⟨fun below => steps.trans (if_pos below), fun above => steps.trans (if_neg (by omega)), fun same => ?_⟩
    rw [steps, if_neg (by omega)]
    omega
  case cab =>
    intro sum
    rw [cabStep, firSum_eq]
    rfl
  case delay =>
    intro length wet r
    have positive : 0 < length := by
      show 0 < 49152 * params.getD 3 0
      omega
    exact ⟨rfl, linePlace_next positive st.position, lineRead_lineWrite_same wf _ _,
      fun i other => lineRead_lineWrite_other wf other _⟩
  case shape =>
    intro k
    have steps : shape point y = _ := shape_eq point low
    rw [steps]
    obtain ⟨above, below⟩ := interpolated_between (point k) (point (k + 1))
      (Int.emod_nonneg (y + 8388608) (by decide : (65536 : Int) ≠ 0)) (Int.emod_lt_of_pos (y + 8388608) (by decide))
    refine ⟨rfl, above, below, fun onPoint => ?_⟩
    rw [onPoint, Int.mul_zero]
    exact Int.add_zero _
  case mod =>
    intro r depth phase tri s
    refine ⟨rfl, modStep_phase params st x rate, fun base span shaped => ?reads, fun tremolo => ?tremolo⟩
    case reads =>
      intro d wet
      simp only [List.mem_cons, Prod.mk.injEq, List.not_mem_nil, or_false] at shaped
      have table : params.getD 0 0 ≠ 3 ∧ modBase (params.getD 0 0) = (base, span) ∧ 0 ≤ base ∧ 0 < span ∧
          256 * base + 256 * span ≤ 184320 := by
        rcases shaped with ⟨code, rfl, rfl⟩ | ⟨code, rfl, rfl⟩ | ⟨code, rfl, rfl⟩ <;> (rw [code]; decide)
      obtain ⟨reads, shapeIs, baseLow, spanLow, reach⟩ := table
      obtain ⟨nonneg, bound⟩ := modDelay_bounds (params := params) (st := st) small depthLow depthHigh baseLow spanLow reach
      have steps := modStep_of_reading (x := x) small reads (by rw [shapeIs]; exact nonneg)
      rw [shapeIs] at steps
      obtain ⟨output, line⟩ := steps
      have isD : d = modDelay params st base span := rfl
      refine ⟨by omega, by omega, output, ?_, fun i other => ?_⟩
      · rw [line, lineRead_lineWrite_same wf]
        rfl
      · rw [line, lineRead_lineWrite_other wf other]
    case tremolo => exact modStep_of_tremolo small tremolo
  case run =>
    intro r p runs
    have runsIff := st.processed_iff
    refine ⟨fun idle => Stage.run_of_unprocessed (mt runsIff.1 idle), fun processed => ?_⟩
    have isRun := runsIff.2 processed
    have steps : r = _ := Stage.run_of_processed (store := store) (prev := prev) (new := new) (xs := xs) isRun
    refine ⟨congrArg Prod.fst steps, congrArg (·.2.2) steps, Stage.run_length .., kindBlock_length ..,
      fun i x y input output => ?_⟩
    intro crossed
    rw [show r.2.1[i]? = some (crossfaded st.ramp i x y) from Stage.run_get isRun input output]
    unfold crossfaded
    cases st.ramp <;> rfl
  case kinds =>
    intro p current code ramp scaled
    have delivers {q : Processed} {j : Nat} {goal : Int} {ys : List Int} (isQ : p = q) (is : Scaled st q xs j goal ys) :
        scaled j goal ys := by
      rw [← isQ] at is
      exact ⟨is.wet, is.length, is.sample⟩
    refine ⟨fun g c h kind state => ?gate, fun gr kind state => ?comp, fun hs kind state => ?amp,
      fun hs kind state => ?eq, fun history kind state => ?cab, fun _ _ _ kind state => kindBlock_mod kind state,
      fun line position kind state => ?delay, fun kind => ?vol⟩
    case gate =>
      intro n
      have isP : p = _ := kindBlock_gate kind state
      exact ⟨congrArg (·.state) isP, delivers isP (.of_rampScaled rfl)⟩
    case comp =>
      intro n
      have isP : p = _ := kindBlock_comp kind state
      exact ⟨congrArg (·.state) isP, delivers isP (.of_rampScaled rfl)⟩
    case amp =>
      intro used sample n
      have isP : p = _ := kindBlock_amp kind state
      have sampleIs : (fun hs i x => ampStep store st (rampAt (st.factors.getD 0 0) (levelGain (st.current 0)) i) hs x) =
          sample := by
        funext hs i x
        rw [ampStep, sectionsUsed_amp kind]
        rfl
      rw [sampleIs] at isP
      exact ⟨congrArg (·.state) isP, delivers isP (.of_rampScaled (overBlock_length ..))⟩
    case eq =>
      intro n
      have isP : p = _ := Machine.kindBlock_eq kind state
      rw [sectionsUsed_eq kind] at isP
      exact ⟨congrArg (·.state) isP, delivers isP (.of_rampScaled (overBlock_length ..))⟩
    case cab =>
      intro n
      have isP : p = _ := kindBlock_cab kind state
      exact ⟨congrArg (·.state) isP, delivers isP (.of_rampScaled (overBlock_length ..))⟩
    case delay =>
      intro step m
      have isP : p = _ := kindBlock_delay kind state
      refine ⟨fun untailed => isP.trans (if_neg (by rw [untailed]; nofun)), fun tailed => isP.trans (if_pos tailed)⟩
    case vol =>
      have isP : p = _ := kindBlock_vol kind
      exact ⟨congrArg (·.state) isP, delivers isP (.of_rampScaled rfl)⟩
  case noSections => cases cs <;> cases hs <;> rfl

end Sys2Proof.Proofs
end
